-- ==== Sys2Proof/Word.lean ====
section
/-! DEFINITION. Word.lean: the two fixed-width bit types of the part. Every other quantity is an integer in a fixed
unit (00_scope, "Units and number formats") and is a Nat or an Int here. -/

namespace Sys2Proof

/-- One character of the three serial lines (chapters 02, 08, 10). -/
abbrev Byte := BitVec 8

/-- A vehicle tag or a cabinet serial: 32-bit identities that are only compared (R13, R46). -/
abbrev Ident := BitVec 32

end Sys2Proof
end

