-- ==== Sys2Proof/Syntax.lean ====
section
/-! DEFINITION. Syntax.lean: the commands of spec/opcode_table.json, one constructor per row, with the fields of the frame
or event each row stands for. A field a rule judges as bytes (a body whose length may be refused) is a list of bytes. -/

namespace Sys2Proof

/-- The reply codes of R164 (the value 6 is not used). -/
inductive ReplyCode where
  | ok | clamped | badLength | badValue | unknownKind | wrongMode | busy | tableFull | notServing | superseded
  | noConfirm | notCommitted | callBusy | unknownCall | unavailable | downstreamFull | causePresent | badMap | clockUnset
  deriving DecidableEq, Repr

/-- The target of a service command: ALL (0xFE) or the byte's number. -/
inductive Target where
  | all
  | one (n : Nat)
  deriving DecidableEq, Repr

/-- Where a SERVICE entry stands in its frame (R165): the frame's tag, whether it is the first entry, and how many
entries follow it. -/
structure EntryPos where
  tag : Nat
  first : Bool
  remaining : Nat
  deriving DecidableEq, Repr

/-- A BERTH_MAP entry (R3, R166): cabinet 0 unmaps; the coupling is the code of R166; the partner is absent where the
entry gives none. -/
structure MapEntry where
  berth : Nat
  cabinet : Nat
  outlet : Nat
  group : Nat
  coupling : Nat
  partner : Option Nat
  deriving DecidableEq, Repr

/-- A GROUP entry (R23): the limit in signed steps as sent. -/
structure GroupEntry where
  group : Nat
  limit : Int
  deriving DecidableEq, Repr

/-- The one entry of a FLEET frame (R14), its fields as sent. -/
structure FleetEntry where
  bus : Nat
  tag : Ident
  capacity : Nat
  rate : Nat
  arrivalFloor : Nat
  maxCharge : Nat
  permitted : Nat
  dischargeMax : Nat
  deriving DecidableEq, Repr

/-- A PARAMS entry (R167). -/
structure ParamEntry where
  id : Nat
  value : Int
  deriving DecidableEq, Repr

/-- A RUN_PENDING entry (R105); bus 0 is none. -/
structure RunEntry where
  runId : Nat
  departure : Nat
  distance : Nat
  bus : Nat
  pinned : Bool
  swapAllowed : Bool
  precondition : Bool
  deriving DecidableEq, Repr

/-- A point of a cold table (R95): °C and per mille. -/
structure ColdPoint where
  temperature : Int
  factor : Nat
  deriving DecidableEq, Repr

/-- A DEMAND_PENDING entry (R117): minutes and steps as sent. -/
structure DemandEntry where
  start : Nat
  stop : Nat
  hold : Nat
  deriving DecidableEq, Repr

/-- A RESERVE_PENDING entry (R125): the frequency response byte as sent. -/
structure ReserveEntry where
  start : Nat
  stop : Nat
  reduction : Nat
  maxDuration : Nat
  frequency : Nat
  deriving DecidableEq, Repr

/-- The fields of a meter frame that checks and has its valid flag set (chapter 08). -/
structure MeterSample where
  sequence : Nat
  power : Int
  frequency : Nat
  ambient : Int
  deriving DecidableEq, Repr

/-- The commands the part takes: the rows of spec/opcode_table.json, in the table's order. -/
inductive Instr where
  /-- FULL_RESET (R177), with the strap levels it samples. -/
  | fullReset (limsel : Nat) (linkspd autorun : Bool)
  /-- LINK_FRAME_GAP_ABANDON (R163), with the bytes collected from the lead byte on. -/
  | linkFrameGapAbandon (bytes : List Byte)
  /-- LINK_FRAME_DROPPED (R163), with the bytes collected from the lead byte on. -/
  | linkFrameDropped (bytes : List Byte)
  /-- DEPOT_FRAME_REFUSED (R164): a checked frame that R164 or the frame check of R168 refuses. -/
  | depotFrameRefused (party kind : Byte) (tag : Nat) (body : List Byte)
  /-- SETPOINT_REQ (R49) for a berth, with the frame's tag and body. -/
  | setpointReq (berth tag : Nat) (body : List Byte)
  /-- PASS (R43): none is the broadcast party 0x5F. -/
  | pass (cabinet : Option Nat) (tag : Nat) (body : List Byte)
  /-- SERVICE_FRAME_REFUSED (R165). -/
  | serviceFrameRefused (tag : Nat) (body : List Byte)
  | serviceNoop (pos : EntryPos)
  | serviceUnknownCommand (pos : EntryPos) (command : Nat)
  | berthEnableSet (pos : EntryPos) (target : Target)
  | berthEnableClear (pos : EntryPos) (target : Target)
  | doneClear (pos : EntryPos) (target : Target)
  | noticeEnableSet (pos : EntryPos) (target : Target)
  | noticeEnableClear (pos : EntryPos) (target : Target)
  | classEnableSet (pos : EntryPos) (target : Target)
  | classEnableClear (pos : EntryPos) (target : Target)
  | alertRouteSet (pos : EntryPos) (target : Target)
  | alertRouteClear (pos : EntryPos) (target : Target)
  | faultClear (pos : EntryPos) (target : Target)
  | groupEnableSet (pos : EntryPos) (target : Target)
  | groupEnableClear (pos : EntryPos) (target : Target)
  /-- TIME_SET (R172) with its 24-bit second. -/
  | timeSet (pos : EntryPos) (second : Nat)
  | applyDay (pos : EntryPos)
  | pendingClear (pos : EntryPos)
  /-- RUN_ASSIGN (R103): bus 0 releases the run. -/
  | runAssign (pos : EntryPos) (runId bus : Nat) (pin : Bool)
  | runCancel (pos : EntryPos) (runId : Nat)
  | fleetDelete (pos : EntryPos) (target : Target)
  | enroll (pos : EntryPos)
  | startRun (pos : EntryPos)
  | enterCommission (pos : EntryPos)
  | safeHold (pos : EntryPos)
  | resume (pos : EntryPos)
  | restart (pos : EntryPos)
  /-- TABLE_FRAME_REFUSED (R166). -/
  | tableFrameRefused (tag : Nat) (body : List Byte)
  | berthMap (tag : Nat) (entries : List MapEntry)
  | group (tag : Nat) (entries : List GroupEntry)
  | fleet (tag : Nat) (entry : FleetEntry)
  | params (tag : Nat) (entries : List ParamEntry)
  | runPending (tag : Nat) (entries : List RunEntry)
  | coldPending (tag : Nat) (points : List ColdPoint)
  | demandPending (tag : Nat) (entries : List DemandEntry)
  | reservePending (tag : Nat) (entries : List ReserveEntry)
  | queryStatus (tag index : Nat)
  | queryBerth (tag index : Nat)
  | queryBus (tag index : Nat)
  | queryRun (tag index : Nat)
  | queryGroups (tag index : Nat)
  | queryCalls (tag index : Nat)
  | queryDemand (tag index : Nat)
  /-- RESERVE_CALL (R131): a RESERVE frame with code 1 and a body of 7 bytes. -/
  | reserveCall (tag callId reduction duration : Nat)
  /-- RESERVE_END (R136): a RESERVE frame with code 2 and a body of 3 bytes. -/
  | reserveEnd (tag callId : Nat)
  | upstreamTransmit
  | clockAdvance
  | oneSecondTick
  | requestLifetimeExpiry (berth : Nat)
  | callDurationExpiry
  | periodicRun
  | startSlotExpiry
  | surveyTimerExpiry
  | surveyStart
  | surveyOpenSent
  | slotTimerExpiry
  | closeSent
  /-- STATUS (R38): a STATUS frame that checks, with its cabinet field and body. -/
  | status (cabinet : Nat) (body : List Byte)
  /-- BERTH_BUS_FRAME_DISCARDED (R27), with the bytes received from the frame's lead byte on. -/
  | berthBusFrameDiscarded (bytes : List Byte)
  | setpointDequeue
  | setpointSent
  /-- ACK (R41): an ACK frame that checks, with its cabinet field and body. -/
  | ack (cabinet : Nat) (body : List Byte)
  | ackWindowExpiry
  | echoMismatch
  | passDequeue
  | passSent
  /-- PASS_ANSWER (R44): a PASS frame from a cabinet that checks, with its cabinet field and body. -/
  | passAnswer (cabinet : Nat) (body : List Byte)
  | passAckWindowExpiry
  | enrollLineTaken
  | enrollForgetSent
  | enrollAssignSent
  /-- ENROLL_REPORT (R46): an ENROLL frame from a cabinet that checks, with its cabinet field and body. -/
  | enrollReport (cabinet : Nat) (body : List Byte)
  | enrollReplyWindowExpiry
  | stopSent
  /-- METER_FRAME_GAP_ABANDON (R140), with the bytes collected from the lead byte on. -/
  | meterFrameGapAbandon (bytes : List Byte)
  /-- METER_FRAME_CRC_FAIL (R140), with the frame's ten bytes. -/
  | meterFrameCrcFail (bytes : List Byte)
  | meterSampleInvalidFlag
  | meterSampleDuplicate
  | meterSampleAccepted (sample : MeterSample)
  | sampleTimerExpiry
  | resetPinAsserted
  deriving DecidableEq, Repr

end Sys2Proof
end

