-- ==== Sys2Proof/Machine/Wire.lean ====
section
/-! DEFINITION. Machine/Wire.lean: what the three serial lines share: byte order, sign, the CRC of R28, the frame layouts,
the hunting of the receive framers (R27, R140, R163) and the whole-frame checks of R164, R165, R166 and R168. -/

namespace Sys2Proof.Machine

/-! ## Byte order and sign (most significant byte first; two's complement) -/

/-- The unsigned number of some bytes, most significant first. -/
def unsignedOf (bytes : List Byte) : Nat := bytes.foldl (fun n b => n * 256 + b.toNat) 0

/-- The two's complement reading of an `n`-bit number. -/
def signedOf (bits n : Nat) : Int := if n < 2 ^ (bits - 1) then (n : Int) else (n : Int) - 2 ^ bits

/-- A 16-bit field of signed steps (02, "Power values are signed 16-bit steps in two's complement"). -/
def steps16 (hi lo : Byte) : Int := signedOf 16 (unsignedOf [hi, lo])

/-- The low `k` bytes of a number, most significant first. -/
def bytesOf : Nat → Nat → List Byte
  | 0, _ => []
  | k + 1, n => bytesOf k (n / 256) ++ [BitVec.ofNat 8 n]

/-- Signed steps as two bytes. -/
def steps16Bytes (v : Int) : List Byte := bytesOf 2 (v % 65536).toNat

/-! ## CRC-16 (R28) -/

/-- One data bit through the register of x^16 + x^12 + x^5 + 1. -/
def crcShift (r : BitVec 16) : BitVec 16 :=
  if r.msb then (r <<< 1) ^^^ 0x1021#16 else r <<< 1

/-- One byte, most significant bit first. -/
def crcByte (r : BitVec 16) (b : Byte) : BitVec 16 :=
  let x := r ^^^ ((b.zeroExtend 16) <<< 8)
  crcShift (crcShift (crcShift (crcShift (crcShift (crcShift (crcShift (crcShift x)))))))

/-- The CRC-16 of R28: the register starts at all ones and the result is not inverted. -/
def crc16 (bytes : List Byte) : BitVec 16 := bytes.foldl crcByte 0xFFFF#16

/-- The two CRC bytes, high byte first. -/
def crcBytes (bytes : List Byte) : List Byte := bytesOf 2 (crc16 bytes).toNat

/-! ## Berth bus frames (chapter 02) -/

/-- A frame the part sends: lead, address (kind and cabinet field), length, body, CRC over all but the lead. -/
def busFrame (kind cabinet : Nat) (body : List Byte) : List Byte :=
  let covered := BitVec.ofNat 8 (kind * 32 + cabinet) :: BitVec.ofNat 8 body.length :: body
  (0xD2 : Byte) :: covered ++ crcBytes covered

/-- What R27 and R28 make of a received frame's bytes: kind, cabinet field and body, or none where the bytes alone
discard it (lead, length above 40, incomplete, CRC). -/
def busFrameFields (bytes : List Byte) : Option (Nat × Nat × List Byte) :=
  match bytes with
  | lead :: addr :: len :: rest =>
    if lead = 0xD2 ∧ len.toNat ≤ 40 ∧ rest.length = len.toNat + 2 ∧
        rest.drop len.toNat = crcBytes (addr :: len :: rest.take len.toNat) then
      some (addr.toNat / 32, addr.toNat % 32, rest.take len.toNat)
    else none
  | _ => none

/-- R27: the receiver's hunting. The frames complete in these bytes, with 5 + length bytes each from a lead byte on, and the
bytes of the frame still incomplete after them. The hunt goes on behind a complete frame, taken or discarded (DEDUCED, Log 46;
fuel: the number of bytes). -/
def busHunt : Nat → List Byte → List (List Byte) × List Byte
  | 0, bytes => ([], bytes)
  | n + 1, bytes =>
    match bytes.dropWhile (· ≠ 0xD2) with
    | lead :: addr :: len :: rest =>
      if rest.length < len.toNat + 2 then ([], lead :: addr :: len :: rest)
      else
        let out := busHunt n (rest.drop (len.toNat + 2))
        ((lead :: addr :: len :: rest.take (len.toNat + 2)) :: out.1, out.2)
    | short => ([], short)

/-- The frames complete in these bytes. -/
def busComplete (bytes : List Byte) : List (List Byte) := (busHunt bytes.length bytes).1

/-- The bytes of the frame still incomplete at their end. -/
def busIncomplete (bytes : List Byte) : List Byte := (busHunt bytes.length bytes).2

/-! ## Depot link frames (chapter 10) -/

/-- A whole depot link frame. -/
def linkFrame (party kind tag : Byte) (body : List Byte) : List Byte :=
  let covered := party :: kind :: tag :: BitVec.ofNat 8 body.length :: body
  (0xC9 : Byte) :: covered ++ crcBytes covered

/-- What the framer makes of the bytes after a lead byte (R163). -/
inductive LinkCandidate where
  | incomplete
  | bad
  | frame (party kind tag : Byte) (body rest : List Byte)
  deriving DecidableEq, Repr

/-- R163: party, kind, tag and length; a length above 60 is dropped once that byte has arrived; then body and CRC. -/
def linkCandidate (bytes : List Byte) : LinkCandidate :=
  match bytes with
  | party :: kind :: tag :: len :: rest =>
    if 60 < len.toNat then .bad
    else if rest.length < len.toNat + 2 then .incomplete
    else
      let body := rest.take len.toNat
      if (rest.drop len.toNat).take 2 = crcBytes (party :: kind :: tag :: len :: body) then
        .frame party kind tag body (rest.drop (len.toNat + 2))
      else .bad
  | _ => .incomplete

/-- The bytes from the next lead byte on (R163); a start that is still incomplete is passed over where a gap follows the last
byte, since the gap abandons it as well. -/
def linkHunt (gap : Bool) : List Byte → List Byte
  | [] => []
  | b :: rest =>
    if b = 0xC9 then
      match linkCandidate rest with
      | .incomplete => if gap then linkHunt gap rest else b :: rest
      | .bad => b :: rest
      | .frame _ _ _ _ _ => b :: rest
    else linkHunt gap rest

/-- The bytes the framer holds when a frame is dropped or abandoned: the frame's own, and those held behind them where the frame
was found inside another one that had been dropped. -/
def linkHeld (held bytes : List Byte) : List Byte := if bytes.isPrefixOf held then held else bytes

/-- R163: after a dropped or abandoned frame the port hunts again from the byte after that frame's lead byte. -/
def linkRehunt (gap : Bool) (held bytes : List Byte) : List Byte := linkHunt gap (linkHeld held bytes).tail

/-- R163: what the framer holds when a frame that checks has been taken: where that frame was found inside a dropped one, the
bytes behind it from the next lead byte on; nothing where its last byte is the last received. -/
def linkAfter : List Byte → List Byte
  | [] => []
  | b :: rest =>
    if b = 0xC9 then
      match linkCandidate rest with
      | .incomplete => []
      | .bad => linkAfter rest
      | .frame _ _ _ _ behind => linkHunt false behind
    else linkAfter rest

/-! ## Meter frames (chapter 08) -/

/-- The bytes from the next lead byte 0xB4 on that can still start a frame that checks (R140). -/
def meterHunt : List Byte → List Byte
  | [] => []
  | b :: rest =>
    if b = 0xB4 then
      if rest.length < 9 then b :: rest
      else if (rest.drop 7).take 2 = crcBytes (rest.take 7) then b :: rest
      else meterHunt rest
    else meterHunt rest

/-- R140: after a CRC failure the port hunts again from the byte after that frame's lead byte. -/
def meterRehunt (bytes : List Byte) : List Byte := meterHunt bytes.tail

/-! ## Whole-frame refusals -/

/-- The party byte of a berth, 0x01 to 0x24 for berths 0 to 35. -/
def berthParty (berth : Nat) : Nat := 1 + berth

/-- The party byte of a cabinet, 0x41 to 0x4C for cabinets 1 to 12, or 0x5F for all cabinets. -/
def cabinetParty : Option Nat → Nat
  | none => 0x5F
  | some c => 0x40 + c

/-- Whether a party byte is of the sort its kind asks for (R164). -/
def partyFits (party kind : Nat) : Bool :=
  match kind with
  | 1 => decide (1 ≤ party ∧ party ≤ 0x24)
  | 2 => decide ((0x41 ≤ party ∧ party ≤ 0x4C) ∨ party = 0x5F)
  | _ => decide (party = 0)

/-- The refusal of a RESERVE body by its code and length (R164). -/
def reserveRefusal (body : List Byte) : Option ReplyCode :=
  match body with
  | [] => some .badLength
  | code :: rest =>
    if code = 1 then (if rest.length = 6 then none else some .badLength)
    else if code = 2 then (if rest.length = 2 then none else some .badLength)
    else some .badValue

/-- The refusal of a QUERY body by its length and code (R168). -/
def queryRefusal (body : List Byte) : Option ReplyCode :=
  match body with
  | [code, _, _] => if 1 ≤ code.toNat ∧ code.toNat ≤ 7 then none else some .badValue
  | _ => some .badLength

/-- R164 in its order, with the frame checks of R168 for a QUERY (Log 4): the refusal of a checked frame, if any. -/
def depotRefusal (party kind : Nat) (body : List Byte) : Option ReplyCode :=
  if kind < 1 ∨ 6 < kind then some .unknownKind
  else if ¬ partyFits party kind then some .badValue
  else if kind = 6 then reserveRefusal body
  else if kind = 5 then queryRefusal body
  else none

/-- R165: the refusal of a SERVICE body. -/
def serviceRefusal (body : List Byte) : Option ReplyCode :=
  if body.length = 0 ∨ 16 < body.length ∨ body.length % 4 ≠ 0 then some .badLength else none

/-- R166's table: entry size, and the least and greatest number of entries (none where the count is judged by R105). -/
def tableShape : Nat → Option (Nat × Option (Nat × Nat))
  | 1 => some (6, some (1, 6))
  | 2 => some (3, some (1, 6))
  | 3 => some (18, some (1, 1))
  | 4 => some (5, some (1, 8))
  | 5 => some (8, some (1, 4))
  | 6 => some (3, none)
  | 7 => some (6, some (1, 8))
  | 8 => some (9, some (1, 6))
  | _ => none

/-- R166: the refusal of a TABLE body as a whole. -/
def tableRefusal (body : List Byte) : Option ReplyCode :=
  match body with
  | [] => some .badLength
  | number :: rest =>
    match tableShape number.toNat with
    | none => some .badValue
    | some (size, none) => if rest.length % size = 0 then none else some .badLength
    | some (size, some (least, most)) =>
      if rest.length % size = 0 ∧ least ≤ rest.length / size ∧ rest.length / size ≤ most then none
      else some .badLength

end Sys2Proof.Machine
end

