-- ==== Sys2Proof/Decode.lean ====
section
/-! DEFINITION. Decode.lean: how the bytes of the three lines become commands (R27, R140, R141, R163 to R168), and
`decodeTableWord`, which answers none because spec/opcode_table.json gives no row any bits. -/

namespace Sys2Proof

open Machine

/-- The command a word spells by the bits of spec/opcode_table.json: no row has bits, so no word spells one. -/
def decodeTableWord (_nbits _w : Nat) : Option Instr := none

/-! ## SERVICE entries (R165) -/

/-- A target byte. -/
def targetOf (b : Byte) : Target := if b = 0xFE then .all else .one b.toNat

/-- The command of one SERVICE entry of four bytes, numbered as the command list of chapter 10. -/
def serviceCommand (pos : EntryPos) (command target a1 a2 : Byte) : Instr :=
  let t := targetOf target
  let runId := unsignedOf [target, a1]
  match command.toNat with
  | 1 => .berthEnableSet pos t
  | 2 => .berthEnableClear pos t
  | 3 => .doneClear pos t
  | 4 => .noticeEnableSet pos t
  | 5 => .noticeEnableClear pos t
  | 6 => .classEnableSet pos t
  | 7 => .classEnableClear pos t
  | 8 => .alertRouteSet pos t
  | 9 => .alertRouteClear pos t
  | 10 => .faultClear pos t
  | 11 => .groupEnableSet pos t
  | 12 => .groupEnableClear pos t
  | 13 => .timeSet pos (unsignedOf [target, a1, a2])
  | 14 => .applyDay pos
  | 15 => .pendingClear pos
  | 16 => .runAssign pos runId (a2.toNat % 128) (decide (128 ≤ a2.toNat))
  | 17 => .runCancel pos runId
  | 18 => .fleetDelete pos t
  | 19 => .enroll pos
  | 20 => .startRun pos
  | 21 => .enterCommission pos
  | 22 => .safeHold pos
  | 23 => .resume pos
  | 24 => .restart pos
  | 255 => .serviceNoop pos
  | n => .serviceUnknownCommand pos n

/-- The entries of a SERVICE body, each a command that knows its place in the frame; the entries after RESTART are not
taken (R165). -/
def serviceCommands (tag : Nat) (first : Bool) : List Byte → List Instr
  | command :: target :: a1 :: a2 :: rest =>
    let i := serviceCommand ⟨tag, first, rest.length / 4⟩ command target a1 a2
    if command = 24 then [i] else i :: serviceCommands tag false rest
  | _ => []

/-! ## TABLE entries (R166) -/

/-- The entries of a table whose entries have `size` bytes, each read by `f` (fuel: the number of entries). -/
def tableEntries {α : Type} (size : Nat) (f : List Byte → α) : Nat → List Byte → List α
  | 0, _ => []
  | n + 1, bytes => f (bytes.take size) :: tableEntries size f n (bytes.drop size)

/-- The number in `width` bytes from `offset` on. -/
def fieldAt (bytes : List Byte) (offset width : Nat) : Nat := unsignedOf ((bytes.drop offset).take width)

/-- The signed number in `width` bytes from `offset` on. -/
def signedAt (bytes : List Byte) (offset width : Nat) : Int := signedOf (8 * width) (fieldAt bytes offset width)

/-- A BERTH_MAP entry; a partner byte above 35 names no berth and stands for a missing partner (DESIGN CHOICE, Log 8). -/
def mapEntryOf (b : List Byte) : MapEntry :=
  let p := fieldAt b 5 1
  ⟨fieldAt b 0 1, fieldAt b 1 1, fieldAt b 2 1, fieldAt b 3 1, fieldAt b 4 1, if p ≤ 35 then some p else none⟩

/-- A GROUP entry; the limit is read as signed steps (DEDUCED, Log 10). -/
def groupEntryOf (b : List Byte) : GroupEntry := ⟨fieldAt b 0 1, signedAt b 1 2⟩

def fleetEntryOf (b : List Byte) : FleetEntry :=
  ⟨fieldAt b 0 1, BitVec.ofNat 32 (fieldAt b 1 4), fieldAt b 5 4, fieldAt b 9 2, fieldAt b 11 2, fieldAt b 13 2,
    fieldAt b 15 1, fieldAt b 16 2⟩

def paramEntryOf (b : List Byte) : ParamEntry := ⟨fieldAt b 0 1, signedAt b 1 4⟩

/-- A RUN_PENDING entry; flag bits 7 to 3 are ignored (DESIGN CHOICE, Log 9). -/
def runEntryOf (b : List Byte) : RunEntry :=
  let flags := fieldAt b 7 1
  ⟨fieldAt b 0 2, fieldAt b 2 2, fieldAt b 4 2, fieldAt b 6 1, flags % 2 = 1, flags / 2 % 2 = 1, flags / 4 % 2 = 1⟩

def coldPointOf (b : List Byte) : ColdPoint := ⟨signedAt b 0 1, fieldAt b 1 2⟩

def demandEntryOf (b : List Byte) : DemandEntry := ⟨fieldAt b 0 2, fieldAt b 2 2, fieldAt b 4 2⟩

def reserveEntryOf (b : List Byte) : ReserveEntry :=
  ⟨fieldAt b 0 2, fieldAt b 2 2, fieldAt b 4 2, fieldAt b 6 2, fieldAt b 8 1⟩

/-- The command of a TABLE body (R166). -/
def tableCommand (tag : Nat) (body : List Byte) : Instr :=
  match tableRefusal body, body with
  | none, number :: rest =>
    match number.toNat with
    | 1 => .berthMap tag (tableEntries 6 mapEntryOf (rest.length / 6) rest)
    | 2 => .group tag (tableEntries 3 groupEntryOf (rest.length / 3) rest)
    | 3 => .fleet tag (fleetEntryOf rest)
    | 4 => .params tag (tableEntries 5 paramEntryOf (rest.length / 5) rest)
    | 5 => .runPending tag (tableEntries 8 runEntryOf (rest.length / 8) rest)
    | 6 => .coldPending tag (tableEntries 3 coldPointOf (rest.length / 3) rest)
    | 7 => .demandPending tag (tableEntries 6 demandEntryOf (rest.length / 6) rest)
    | _ => .reservePending tag (tableEntries 9 reserveEntryOf (rest.length / 9) rest)
  | _, _ => .tableFrameRefused tag body

/-- The command of a QUERY body that passes R168's frame checks. -/
def queryCommand (tag code index : Nat) : Instr :=
  match code with
  | 1 => .queryStatus tag index
  | 2 => .queryBerth tag index
  | 3 => .queryBus tag index
  | 4 => .queryRun tag index
  | 5 => .queryGroups tag index
  | 6 => .queryCalls tag index
  | _ => .queryDemand tag index

/-- R164: the commands of one checked depot link frame. -/
def linkCommands (party kind tag : Byte) (body : List Byte) : List Instr :=
  if (depotRefusal party.toNat kind.toNat body).isSome then [.depotFrameRefused party kind tag.toNat body]
  else
    match kind.toNat with
    | 1 => [.setpointReq (party.toNat - 1) tag.toNat body]
    | 2 => [.pass (if party = 0x5F then none else some (party.toNat - 0x40)) tag.toNat body]
    | 3 =>
      if (serviceRefusal body).isSome then [.serviceFrameRefused tag.toNat body]
      else serviceCommands tag.toNat true body
    | 4 => [tableCommand tag.toNat body]
    | 5 => [queryCommand tag.toNat (fieldAt body 0 1) (fieldAt body 1 2)]
    | _ =>
      if fieldAt body 0 1 = 1 then [.reserveCall tag.toNat (fieldAt body 1 2) (fieldAt body 3 2) (fieldAt body 5 2)]
      else [.reserveEnd tag.toNat (fieldAt body 1 2)]

/-- R163: the commands in a stream of bytes that arrives without a gap, and the bytes left in the framer
(fuel: the number of bytes). A dropped frame is a command too. -/
def linkStream : Nat → List Byte → List Instr × List Byte
  | 0, bytes => ([], bytes)
  | _ + 1, [] => ([], [])
  | n + 1, b :: rest =>
    if b = 0xC9 then
      match linkCandidate rest with
      | .incomplete => ([], b :: rest)
      | .bad =>
        let out := linkStream n rest
        (.linkFrameDropped (b :: rest.take (if 60 < fieldAt rest 3 1 then 4 else fieldAt rest 3 1 + 6)) :: out.1, out.2)
      | .frame party kind tag body after =>
        let out := linkStream n after
        (linkCommands party kind tag body ++ out.1, out.2)
    else linkStream n rest

/-- R27: the command of one frame received on the berth bus. Which window is open is judged by the command's meaning. -/
def busCommand (bytes : List Byte) : Instr :=
  match busFrameFields bytes with
  | none => .berthBusFrameDiscarded bytes
  | some (kind, cabinet, body) =>
    match kind with
    | 1 => .status cabinet body
    | 3 => .ack cabinet body
    | 5 => .enrollReport cabinet body
    | 6 => .passAnswer cabinet body
    | _ => .berthBusFrameDiscarded bytes

/-- R27: the commands in a stream of bytes received on the berth bus, and the bytes of the frame still incomplete. -/
def busStream (bytes : List Byte) : List Instr × List Byte := ((busComplete bytes).map busCommand, busIncomplete bytes)

/-- R140, R141: the command of one complete meter frame, given the last accepted sequence. -/
def meterCommand (lastSequence : Option Nat) (bytes : List Byte) : Instr :=
  if (bytes.drop 8).take 2 ≠ crcBytes ((bytes.drop 1).take 7) then .meterFrameCrcFail bytes
  else if fieldAt bytes 7 1 % 2 = 0 then .meterSampleInvalidFlag
  else if lastSequence = some (fieldAt bytes 1 1) then .meterSampleDuplicate
  else .meterSampleAccepted ⟨fieldAt bytes 1 1, signedAt bytes 2 2, fieldAt bytes 4 2, signedAt bytes 6 1⟩

end Sys2Proof
end

