-- ==== Sys2Proof/Config.lean ====
section
/-! DEFINITION. Config.lean: what is fixed for the part (sizes, the parameter table of R167, the LIMSEL table of R177)
and its two free values. -/

namespace Sys2Proof.Config

/-- Berth records (R1). -/
abbrev berths : Nat := 36
/-- Fleet slots (R13). -/
abbrev buses : Nat := 64
/-- Power groups (R23). -/
abbrev groups : Nat := 6
/-- Cabinets (R46), miss counts and telemetry slots (R170). -/
abbrev cabinets : Nat := 12
/-- Reply and notice FIFO (R169), and the notices it may hold (R160). -/
abbrev upstreamEntries : Nat := 32
abbrev upstreamNotices : Nat := 24
/-- Pass-through FIFO (R43). -/
abbrev passFrames : Nat := 16
/-- Runs of a table (R94). -/
abbrev runs : Nat := 48
/-- Demand windows of a table (R117) and reserve windows of a table (R124). -/
abbrev demandWindows : Nat := 8
abbrev reserveWindows : Nat := 12
/-- Call records (R139) and baseline samples (R130). -/
abbrev callRecords : Nat := 8
abbrev baselineSamples : Nat := 50
/-- Seconds of the service day (R171). -/
abbrev daySeconds : Nat := 86400
/-- Greatest group limit, and the limit after a full reset (R23). -/
abbrev groupLimitMax : Int := 30000

/-- A row of R167's parameter table. -/
structure ParamRow where
  low : Int
  high : Int
  default : Int
  deriving DecidableEq, Repr

/-- R167's table, ids 1 to 27 in order; the default of F (id 1) stands here for LIMSEL code 0 and is replaced by the
strap's value (R177). -/
def paramTable : List ParamRow := [
  ⟨500, 30000, 1500⟩, ⟨0, 1000, 150⟩, ⟨0, 5000, 0⟩, ⟨800, 1000, 920⟩, ⟨0, 3600, 600⟩, ⟨600, 14400, 5400⟩,
  ⟨1800, 43200, 14400⟩, ⟨600, 7200, 1800⟩, ⟨200, 900, 600⟩, ⟨100, 600, 300⟩, ⟨0, 1500, 200⟩, ⟨200, 1000, 900⟩,
  ⟨0, 1500, 500⟩, ⟨10, 600, 120⟩, ⟨1, 10, 3⟩, ⟨0, 100, 10⟩, ⟨0, 200, 75⟩, ⟨0, 60, 20⟩, ⟨-30, 15, 5⟩, ⟨0, 10000, 600⟩,
  ⟨0, 1000, 100⟩, ⟨50000, 60000, 50000⟩, ⟨50, 1000, 200⟩, ⟨10, 500, 50⟩, ⟨1, 50, 5⟩, ⟨5, 200, 20⟩, ⟨10, 5000, 250⟩]

/-- The id of the nominal frequency, which takes one of two values only (R167). -/
abbrev nominalFrequencyId : Nat := 22

/-- LIMSEL codes 0 to 7: the default of F in steps (R177). -/
def limselLimit : List Int := [1500, 2000, 2500, 3150, 4000, 5000, 6300, 8000]

/-- FREE VALUE (Log 12). The Rounding table replaces a value below a by a and one above b by b; with b < a a value strictly
between them is both, and the spec does not say which end replaces it. Whether the lower end a does. -/
opaque emptyClampTakesLower : (low high value : Int) → Bool

/-- FREE VALUE (Log 45). The two signed bytes of a SET_ACK for a pair whose accepted values add up to more than 16 signed bits
hold (R65, R169): the spec does not say what is sent there. -/
opaque ackBeyondRange : Int → BitVec 16

end Sys2Proof.Config
end

