-- ==== Sys2Proof/Machine/Arith.lean ====
section
/-! DEFINITION. Machine/Arith.lean: the roundings of 00_scope's Rounding table, and insertion by a key. Nat division
truncates; Int division by a positive number floors. -/

namespace Sys2Proof.Machine

/-- "rounded up, ceil" of a quotient of unsigned numbers. -/
def ceilDiv (n d : Nat) : Nat := (n + d - 1) / d

/-- "clamped to [low, high]": replaced by low when below low and by high when above high. A value that is both, which a range
with high below low has strictly between its ends, takes an end that the spec does not name: a free choice (Log 12). -/
def clampTo (low high v : Int) : Int :=
  if v < low ∧ high < v then (if Config.emptyClampTakesLower low high v then low else high)
  else if v < low then low else if high < v then high else v

/-- Half a value, rounded away from zero (R25). -/
def halfAway (g : Int) : Int := if 0 ≤ g then (g + 1) / 2 else -((1 - g) / 2)

/-- The magnitude of signed steps. -/
def mag (v : Int) : Nat := v.natAbs

/-- Two values are both non-zero and of opposite signs (R56, R62). -/
def oppositeSigns (a b : Int) : Bool := decide ((0 < a ∧ b < 0) ∨ (a < 0 ∧ 0 < b))

/-- Inserts an item before the first one it may stand before. -/
def insertBy {α : Type} (before : α → α → Bool) (a : α) : List α → List α
  | [] => [a]
  | b :: l => if before a b then a :: b :: l else b :: insertBy before a l

/-- Sorts by a strict order, equal items keeping their order. -/
def sortBy {α : Type} (before : α → α → Bool) (l : List α) : List α :=
  l.foldl (fun sorted a => insertBy before a sorted) []

/-- The sum of a quantity over a list. -/
def sumOf {α : Type} (f : α → Int) (l : List α) : Int := l.foldr (fun a n => f a + n) 0

end Sys2Proof.Machine
end

