-- ==== Sys2Proof/Machine/State.lean ====
section
/-! DEFINITION. Machine/State.lean: everything the spec gives the part, block by block as 00_scope's block table, with the
outcomes' reasons and the state after a full reset. Plain data throughout. -/

namespace Sys2Proof.Machine

/-! ## Modes and straps (chapter 11) -/

/-- The controller modes of R173. -/
inductive Mode where
  | commission | run | safeHold
  deriving DecidableEq, Repr

/-- The causes a MODE notice names (R173). -/
inductive ModeCause where
  | startRun | resume | safeHold | overrun | enterCommission | autorun
  deriving DecidableEq, Repr

/-- The strap inputs sampled at the end of a full reset (R177). -/
structure Straps where
  limsel : Nat
  linkspd : Bool
  autorun : Bool
  deriving DecidableEq, Repr

/-- Mode Control (R173, R177, R178) and the RESET pin (R161). -/
structure ModeControl where
  mode : Mode
  straps : Straps
  /-- The RESET pin is held active. -/
  resetHeld : Bool
  /-- The AUTORUN start-up of R178 is waiting for its enrollment to end. -/
  autorun : Bool
  deriving DecidableEq, Repr

/-! ## Berths and groups (chapter 01, 09) -/

inductive Coupling where
  | single | leader | follower
  deriving DecidableEq, Repr

/-- The session states (R1). -/
inductive Session where
  | unconfigured | disabled | empty | connected | serving | faulted | follower
  deriving DecidableEq, Repr

inductive Plug where
  | none | connected | ready | complete
  deriving DecidableEq, Repr

/-- The setpoint states (R53). -/
inductive SetpointState where
  | idle | startQueued | active
  deriving DecidableEq, Repr

/-- A supervisor's charge request (R49, R50): the ceiling, the arrival second, the seconds left of its lifetime. -/
structure Request where
  value : Int
  arrival : Nat
  left : Nat
  deriving DecidableEq, Repr

/-- The fault flags (R151). -/
inductive FaultFlag where
  | overcurrent | openPath | isolation | commMiss | noConfirm
  deriving DecidableEq, Repr

/-- A latched-or-clear setting of each fault flag. -/
structure FaultFlags where
  overcurrent : Bool
  openPath : Bool
  isolation : Bool
  commMiss : Bool
  noConfirm : Bool
  deriving DecidableEq, Repr

/-- The detection counters (R151). -/
structure FaultCounters where
  overcurrent : Nat
  openPath : Nat
  isolation : Nat
  commMiss : Nat
  noConfirm : Nat
  deriving DecidableEq, Repr

/-- A berth record (R1, R151). -/
structure Berth where
  configured : Bool
  cabinet : Option Nat
  outlet : Option Nat
  group : Option Nat
  coupling : Coupling
  partner : Option Nat
  enable : Bool
  session : Session
  hwCharge : Nat
  hwDischarge : Nat
  plug : Plug
  tag : Ident
  soc : Option Nat
  measured : Int
  acceptMax : Nat
  bus : Option Nat
  request : Option Request
  grant : Int
  commanded : Int
  confirmed : Int
  inFlight : Bool
  setpoint : SetpointState
  done : Bool
  doneByComplete : Bool
  flags : FaultFlags
  counters : FaultCounters
  confirmAge : Option Nat
  noticeEnable : Bool
  projectedShort : Bool
  deriving DecidableEq, Repr

/-- A power group table entry (R23). -/
structure Group where
  limit : Int
  enable : Bool
  deriving DecidableEq, Repr

/-! ## Fleet (chapters 01, 06) -/

/-- A bus slot (R13), with the Storage Unit's figures of its bus (R113, R114). -/
structure Bus where
  used : Bool
  tag : Ident
  capacity : Nat
  rate : Nat
  arrivalFloor : Nat
  maxCharge : Nat
  permitted : Bool
  dischargeMax : Nat
  berth : Option Nat
  stored : Option Nat
  stamp : Option Nat
  protectedEnergy : Option Nat
  availableEnergy : Option Nat
  deriving DecidableEq, Repr

/-! ## Runs (chapter 05) -/

/-- The run states (R93). -/
inductive RunState where
  | opened | waiting | assigned | charging | ready | short | departed | missed | cancelled
  deriving DecidableEq, Repr

inductive ShortReason where
  | time | capacity
  deriving DecidableEq, Repr

/-- The first seven fields of a run record, which a pending record holds (R93). -/
structure RunRecord where
  runId : Nat
  departure : Nat
  distance : Nat
  bus : Option Nat
  pinned : Bool
  swapAllowed : Bool
  precondition : Bool
  deriving DecidableEq, Repr

/-- A run of the active table (R93). -/
structure Run extends RunRecord where
  state : RunState
  reason : Option ShortReason
  deriving DecidableEq, Repr

/-- A demand window (R117). -/
structure DemandWindow where
  start : Nat
  stop : Nat
  hold : Int
  deriving DecidableEq, Repr

/-- A reserve window (R124). -/
structure ReserveWindow where
  start : Nat
  stop : Nat
  reduction : Int
  maxDuration : Nat
  frequency : Bool
  deriving DecidableEq, Repr

/-- The pending day set (R105). -/
structure PendingSet where
  runs : List RunRecord
  cold : List ColdPoint
  demand : List DemandWindow
  reserve : List ReserveWindow
  armed : Bool
  deriving DecidableEq, Repr

/-- The Run Table: the active table and cold table, and the pending day set. -/
structure RunTable where
  active : List Run
  cold : List ColdPoint
  pending : PendingSet
  deriving DecidableEq, Repr

/-! ## Allocator (chapter 04) -/

inductive RunKind where
  | none | periodic | immediate
  deriving DecidableEq, Repr

/-- The binding term of an allocation run (R82). -/
inductive BindingTerm where
  | feeder | demand | reserve
  deriving DecidableEq, Repr

/-- The last-run totals (R91). After a reset the kind is NONE and every other field 0, the binding term 0 being FEEDER. -/
structure Totals where
  kind : RunKind
  time : Nat
  hard : Int
  softLimit : Int
  soft : Int
  binding : BindingTerm
  siteLoad : Int
  squeeze : Int
  chargeSum : Int
  dischargeSum : Int
  served : Nat
  guarded : Nat
  short : Nat
  unallocated : Int
  demand : Int
  shortfall : Int
  count : Nat
  deriving DecidableEq, Repr

structure Allocator where
  totals : Totals
  /-- The allocation period timer runs (R69). -/
  periodRunning : Bool
  deriving DecidableEq, Repr

/-! ## Setpoint Path (chapter 03) -/

/-- Where a zero trim left by a map change is addressed (R3): the cabinet and the outlets the berth had before. -/
structure OldAddress where
  cabinet : Nat
  outlets : List Nat
  deriving DecidableEq, Repr

/-- A pending setpoint list entry (R54). -/
structure Entry where
  berth : Nat
  tag : Nat
  age : Nat
  old : Option OldAddress
  deriving DecidableEq, Repr

/-- A start queue entry (R57, R59). -/
structure Queued where
  berth : Nat
  tag : Nat
  deriving DecidableEq, Repr

structure SetpointPath where
  /-- The pending setpoint list, oldest first. -/
  list : List Entry
  /-- The work that has reached a berth while the trim of its map change stood on the list: it makes a new entry once that trim has been
  sent (R3). Its ages are those it came with and place it nowhere. -/
  waiting : List Entry
  /-- The start queue, head first. -/
  queue : List Queued
  /-- The age the next entry takes. -/
  nextAge : Nat
  /-- The start slot timer runs (R60). -/
  slotRunning : Bool
  /-- The start spacing the timer was last timed with (R60). -/
  slotSpacing : Int
  deriving DecidableEq, Repr

/-! ## Berth bus (chapter 02) -/

structure Outlet where
  charge : Nat
  discharge : Nat
  deriving DecidableEq, Repr

/-- An enrollment record; the cabinet's number is its position on the list, from 1 (R46). -/
structure Cabinet where
  serial : Ident
  outlets : List Outlet
  deriving DecidableEq, Repr

/-- A pass-through frame (R43): none is a broadcast. -/
structure PassFrame where
  cabinet : Option Nat
  tag : Nat
  body : List Byte
  deriving DecidableEq, Repr

inductive SurveyKind where
  | full | quiet
  deriving DecidableEq, Repr

/-- One outlet entry of a SETPOINT on the line: its outlet, its value, and the berth whose fields it writes (none for the
trim of a map change, and once the berth's map entry has changed, R3). -/
structure Share where
  outlet : Nat
  value : Int
  berth : Option Nat
  deriving DecidableEq, Repr

/-- A SETPOINT on the line (R40): the entry it came from, its value and address. -/
structure SetpointTx where
  berth : Nat
  tag : Nat
  age : Nat
  value : Int
  cabinet : Nat
  shares : List Share
  /-- The zero trim of a map change (R3). -/
  trim : Bool
  /-- The berth's map entry changed while this was on the line (R3), or it is such a trim. -/
  detached : Bool
  /-- The berth has left SERVING since the dequeue (R67). -/
  left : Bool
  deriving DecidableEq, Repr

/-- The holder of the berth bus and how far its work has come (R39). -/
inductive Line where
  | idle
  | stopSending
  /-- The start-up stop was abandoned and keeps the line until the next survey timer expiry (R48). -/
  | stopHeld
  | surveyOpen (kind : SurveyKind)
  | surveySlot (kind : SurveyKind) (cabinet : Nat) (corrupt : Bool)
  | surveyClose (next : SurveyKind)
  | setpointSending (tx : SetpointTx)
  | setpointAck (tx : SetpointTx)
  | passSending (frame : PassFrame)
  | passAck (frame : PassFrame)
  /-- ENROLL FORGET is being sent, abandoned so many times in a row (R30). -/
  | enrollForget (abandoned : Nat)
  /-- ENROLL ASSIGN k is being sent, abandoned so many times in a row. -/
  | enrollAssign (k abandoned : Nat)
  | enrollReply (k : Nat)
  deriving DecidableEq, Repr

structure BusMaster where
  line : Line
  /-- The receiver's bytes of a frame still incomplete, from its lead byte on (R27). -/
  rx : List Byte
  /-- The bytes of the frame last given to the transmitter. -/
  busTx : List Byte
  chainOut : Bool
  cabinets : List Cabinet
  missCounts : List Nat
  passFifo : List PassFrame
  surveyRunning : Bool
  surveyDue : Bool
  nextKind : SurveyKind
  quietCount : Nat
  recheck : Bool
  /-- An accepted enrollment has not yet taken the line (R45). -/
  enrollWaiting : Bool
  /-- The start-up stop has been sent whole (R48). -/
  stopWhole : Bool
  deriving DecidableEq, Repr

/-! ## Storage Unit (chapter 06) -/

/-- The demand interval accumulator (R119). -/
structure Interval where
  start : Nat
  sum : Int
  count : Nat
  incomplete : Bool
  shortfall : Bool
  deriving DecidableEq, Repr

/-- The last interval record (R121). -/
structure IntervalRecord where
  start : Nat
  average : Option Int
  complete : Bool
  shortfall : Bool
  deriving DecidableEq, Repr

/-- A day peak (R121). -/
structure Peak where
  average : Int
  start : Nat
  deriving DecidableEq, Repr

structure Storage where
  windows : List DemandWindow
  interval : Option Interval
  last : Option IntervalRecord
  dayPeak : Option Peak
  previousPeak : Option Peak
  deriving DecidableEq, Repr

/-! ## Reserve Unit (chapter 07) -/

/-- The reserve states (R126). -/
inductive ReserveState where
  | unavailable | idle | armed | undercovered | called | recovery
  deriving DecidableEq, Repr

inductive CallSource where
  | frame | frequency
  deriving DecidableEq, Repr

/-- The end causes of R136 and R137. -/
inductive CallCause where
  | duration | endFrame | frequency | windowEnd | meter | mode | restart
  deriving DecidableEq, Repr

/-- The stored coverage (R129). -/
structure Coverage where
  value : Int
  stamp : Nat
  committed : Int
  deriving DecidableEq, Repr

/-- The call in progress (R131, R139): `left` is its duration timer, `sum` and `count` its import account. -/
structure Call where
  callId : Nat
  source : CallSource
  reduction : Int
  baseline : Int
  left : Nat
  sum : Int
  count : Nat
  deriving DecidableEq, Repr

/-- A call record (R139). -/
structure CallRecord where
  callId : Nat
  source : CallSource
  start : Nat
  finish : Option Nat
  baseline : Int
  reduction : Int
  target : Int
  mean : Option Int
  shortfall : Bool
  frequencyDuring : Bool
  cause : Option CallCause
  deriving DecidableEq, Repr

structure Reserve where
  windows : List ReserveWindow
  /-- The window judged active (R126). -/
  judged : Option ReserveWindow
  state : ReserveState
  coverage : Option Coverage
  call : Option Call
  recoveryTarget : Option Int
  tripCount : Nat
  recoverCount : Nat
  /-- The call record ring, newest first. -/
  records : List CallRecord
  deriving DecidableEq, Repr

/-! ## Meter Port (chapter 08) -/

inductive MeterState where
  | noSignal | recovering | valid | holding | lost
  deriving DecidableEq, Repr

inductive OverrunState where
  | normal | overrun
  deriving DecidableEq, Repr

structure Meter where
  /-- The receive framer's bytes (R140). -/
  rx : List Byte
  /-- The latest accepted sample: sequence, import, frequency and ambient temperature (chapter 08). -/
  sequence : Option Nat
  power : Option Int
  frequency : Option Nat
  ambient : Option Int
  /-- The last accepted sequence, forgotten on entry into LOST (R141, R143). -/
  lastSequence : Option Nat
  /-- The depot clock second of the last accepted sample (R144). -/
  lastSecond : Option Nat
  state : MeterState
  missCount : Nat
  recoverCount : Nat
  timerRunning : Bool
  /-- The baseline ring, oldest first (R130). -/
  ring : List Int
  overrun : OverrunState
  squeeze : Int
  overCount : Nat
  /-- The largest excess kept with the over count (R148). -/
  overExcess : Int
  underCount : Nat
  escalation : Nat
  deriving DecidableEq, Repr

/-! ## Fault and Notice Unit (chapter 09) -/

structure FaultUnit where
  /-- BERTH, RUN, RESERVE, SITE, CONTROL (R159). -/
  classEnables : List Bool
  /-- FAULT, SAFE_HOLD, METER, OVERRUN, CALL_SHORTFALL, RUN_SHORT (R161). -/
  routing : List Bool
  noticeLost : Bool
  deriving DecidableEq, Repr

/-- The results of a setpoint at a cabinet (chapter 02, ACK). -/
inductive SetResult where
  | accepted | limited | refused
  deriving DecidableEq, Repr

/-- The notices of R158, with their subject and details. -/
inductive NoticeBody where
  | berthFault (berth : Nat) (flag : FaultFlag) (sessionBerth : Nat) (bus : Option Nat) (measured : Int)
  | berthDone (berth : Nat) (bus soc : Option Nat)
  | tagUnknown (berth : Nat) (tag : Ident)
  | tagConflict (berth bus loser : Nat) (tag : Ident)
  | runAssigned (runId bus : Nat) (surplus : Int)
  | runReassigned (runId oldBus newBus : Nat)
  | runShort (runId bus : Nat) (reason : ShortReason) (need : Nat)
  | runDeparted (runId bus second : Nat)
  | runMissed (runId : Nat) (bus : Option Nat)
  | dayApplied (runs coldPoints demandWindows reserveWindows : Nat)
  | dayEnd (missed : Nat) (applied : Bool)
  | callStart (callId : Nat) (reduction : Int) (duration : Nat) (baseline target : Int)
  | callEnd (callId : Nat) (cause : CallCause) (mean : Option Int)
  | reserveState (before after : ReserveState) (coverage : Option Int)
  | reserveShortfall (callId : Nat) (shortfall : Int)
  | meterState (state : MeterState) (lastSecond : Option Nat)
  | overrun (entered : Bool) (squeeze latest limit : Int)
  | peakShortfall (shortfall : Int) (start : Nat) (hold target : Int)
  | enrolled (cabinets : Nat)
  | mode (before after : Mode) (cause : ModeCause)
  deriving DecidableEq, Repr

/-- A notice as generated (R158): the clock second, 0 while unset, and whether the clock was set. -/
structure Notice where
  body : NoticeBody
  second : Nat
  clockSet : Bool
  deriving DecidableEq, Repr

/-! ## Depot Link Port (chapter 10) -/

/-- QUERY_STATUS part 0 (R168), without the latest sample's sequence (DEDUCED, Log 66). -/
structure StatusFields where
  mode : Mode
  second : Nat
  clockSet : Bool
  meterState : MeterState
  missCount : Nat
  recoverCount : Nat
  power : Option Int
  frequency : Option Nat
  ambient : Option Int
  overrun : OverrunState
  squeeze : Int
  reserve : ReserveState
  coverage : Option Coverage
  cabinets : Nat
  armed : Bool
  pendingRuns : Nat
  pendingCold : Nat
  pendingDemand : Nat
  pendingReserve : Nat
  noticeLost : Bool
  answerLost : Bool
  deriving DecidableEq, Repr

/-- QUERY_STATUS part 2 (R161, R168). -/
structure AlertFields where
  routing : List Bool
  conditions : List Bool
  low : Bool
  deriving DecidableEq, Repr

/-- QUERY_BUS (R168). -/
structure BusFields where
  bus : Bus
  currentRun : Option Nat
  fresh : Bool
  deriving DecidableEq, Repr

/-- One group of QUERY_GROUPS (R168). -/
structure GroupFields where
  limit : Int
  enable : Bool
  load : Int
  headroom : Int
  deriving DecidableEq, Repr

/-- QUERY_CALLS part 0 (R168). -/
structure CallsFields where
  state : ReserveState
  call : Option Call
  recoveryTarget : Option Int
  coverage : Option Coverage
  tripCount : Nat
  recoverCount : Nat
  ringCount : Nat
  ringMean : Option Int
  deriving DecidableEq, Repr

/-- QUERY_DEMAND part 0 (R168). -/
structure DemandFields where
  holdActive : Bool
  target : Option Int
  interval : Option Interval
  last : Option IntervalRecord
  dayPeak : Option Peak
  previousPeak : Option Peak
  deriving DecidableEq, Repr

/-- What follows the code of a REPLY (R164, R165, R44, R168). -/
inductive ReplyBody where
  | none
  | results (codes : List ReplyCode)
  | cabinet (body : List Byte)
  | status (fields : StatusFields)
  | totals (fields : Totals)
  | alert (fields : AlertFields)
  | berth (record : Berth)
  | bus (fields : BusFields)
  | activeRun (run : Run) (energyTarget chargingTarget : Option Nat)
  | pendingRun (record : RunRecord)
  | groups (fields : List GroupFields)
  | calls (fields : CallsFields)
  | callRecord (record : CallRecord)
  | demand (fields : DemandFields)
  | demandWindows (windows : List DemandWindow)
  deriving DecidableEq, Repr

/-- An entry of the reply and notice FIFO (R169), or a TELEMETRY frame as sent (R170). -/
inductive UpFrame where
  | reply (party tag : Nat) (code : ReplyCode) (body : ReplyBody)
  | setAck (party tag : Nat) (value : Int) (result : SetResult)
  | notice (n : Notice)
  | telemetry (cabinet : Nat) (status : List Byte)
  deriving DecidableEq, Repr

/-- A telemetry slot (R170). -/
structure Slot where
  status : List Byte
  filled : Bool
  deriving DecidableEq, Repr

structure LinkPort where
  /-- The receive framer's bytes (R163). -/
  rx : List Byte
  /-- The results of the SERVICE frame being taken (R165). -/
  results : List ReplyCode
  fifo : List UpFrame
  slots : List Slot
  lastSent : Nat
  /-- The upstream frame being sent, or last sent. -/
  tx : Option UpFrame
  answerLost : Bool
  second : Nat
  clockSet : Bool
  /-- The parameter table of R167, ids from 1. -/
  params : List Int
  deriving DecidableEq, Repr

/-! ## The whole part -/

/-- Everything the spec gives the part, and the commands waiting for it, oldest first. -/
structure State where
  pending : List Instr
  ctl : ModeControl
  link : LinkPort
  bus : BusMaster
  meter : Meter
  berths : List Berth
  groups : List Group
  fleet : List Bus
  runs : RunTable
  alloc : Allocator
  path : SetpointPath
  storage : Storage
  reserve : Reserve
  faults : FaultUnit
  deriving DecidableEq, Repr

/-- Why a command stops with a fault: never. The spec gives every command an effect and reports what goes wrong by reply
codes, notices, berth fault flags and the ALERT line, so there is no constructor (safe: nothing is cut off). -/
inductive Fault where
  deriving DecidableEq, Repr

/-- Why a command is refused by the model. -/
inductive Refusal where
  /-- Raised by `exec` alone, for a row of the table without a meaning yet; safe, because the run stops there. No arm
  raises it: every row has its meaning. -/
  | notModelled (mnemonic : String)
  deriving DecidableEq, Repr

/-! ## Reset values -/

def FaultFlags.clear : FaultFlags := ⟨false, false, false, false, false⟩

def FaultCounters.zero : FaultCounters := ⟨0, 0, 0, 0, 0⟩

/-- A berth record after a full reset (R2). -/
def Berth.blank : Berth :=
  { configured := false, cabinet := none, outlet := none, group := none, coupling := .single, partner := none,
    enable := false, session := .unconfigured, hwCharge := 0, hwDischarge := 0, plug := .none, tag := 0, soc := none,
    measured := 0, acceptMax := 0, bus := none, request := none, grant := 0, commanded := 0, confirmed := 0,
    inFlight := false, setpoint := .idle, done := false, doneByComplete := false, flags := .clear, counters := .zero,
    confirmAge := none, noticeEnable := true, projectedShort := false }

/-- An unused slot (R13). Its fields have no meaning; the zeros are a DESIGN CHOICE (Log 28). -/
def Bus.unused : Bus :=
  { used := false, tag := 0, capacity := 0, rate := 0, arrivalFloor := 0, maxCharge := 0, permitted := false,
    dischargeMax := 0, berth := none, stored := none, stamp := none, protectedEnergy := none, availableEnergy := none }

/-- The pending day set with nothing in it (R105, R111). -/
def PendingSet.empty : PendingSet := ⟨[], [], [], [], false⟩

/-- The last-run totals after a reset (R91); the binding term coded 0 is FEEDER (DEDUCED, Log 41). -/
def Totals.zero : Totals :=
  { kind := .none, time := 0, hard := 0, softLimit := 0, soft := 0, binding := .feeder, siteLoad := 0, squeeze := 0,
    chargeSum := 0, dischargeSum := 0, served := 0, guarded := 0, short := 0, unallocated := 0, demand := 0,
    shortfall := 0, count := 0 }

/-- An empty telemetry slot (R170). -/
def Slot.clear : Slot := ⟨[], false⟩

/-- The parameter table after a full reset: the defaults of R167, F by the LIMSEL strap (R177). -/
def defaultParams (limsel : Nat) : List Int :=
  (Config.paramTable.map (·.default)).set 0 (Config.limselLimit.getD limsel 1500)

/-- The start-up stop: a SETPOINT frame to address 31 with no body (R48). -/
def stopFrame : List Byte := busFrame 2 31 []

/-- The part at the end of a full reset with these straps (R177): every block at its full-reset values, the start-up stop
on the line and, with AUTORUN high, the start-up of R178 begun. R150's table leaves out the meter's latest sequence and the
second of its last accepted sample: both are absent (DEDUCED, Log 47). -/
def State.afterFullReset (straps : Straps) : State :=
  { pending := []
    ctl := { mode := .commission, straps := straps, resetHeld := false, autorun := straps.autorun }
    link := { rx := [], results := [], fifo := [], slots := List.replicate Config.cabinets Slot.clear, lastSent := 12, tx := none,
              answerLost := false, second := 0, clockSet := false, params := defaultParams straps.limsel }
    bus := { line := .stopSending, rx := [], busTx := stopFrame, chainOut := false, cabinets := [],
             missCounts := List.replicate Config.cabinets 0, passFifo := [], surveyRunning := false, surveyDue := false,
             nextKind := .full, quietCount := 0, recheck := false, enrollWaiting := straps.autorun, stopWhole := false }
    meter := { rx := [], sequence := none, power := none, frequency := none, ambient := none, lastSequence := none, lastSecond := none,
               state := .noSignal, missCount := 0, recoverCount := 0, timerRunning := false, ring := [], overrun := .normal,
               squeeze := 0, overCount := 0, overExcess := 0, underCount := 0, escalation := 0 }
    berths := List.replicate Config.berths Berth.blank
    groups := List.replicate Config.groups ⟨Config.groupLimitMax, true⟩
    fleet := List.replicate Config.buses Bus.unused
    runs := { active := [], cold := [], pending := PendingSet.empty }
    alloc := { totals := Totals.zero, periodRunning := false }
    path := { list := [], waiting := [], queue := [], nextAge := 0, slotRunning := false, slotSpacing := 0 }
    storage := { windows := [], interval := none, last := none, dayPeak := none, previousPeak := none }
    reserve := { windows := [], judged := none, state := .unavailable, coverage := none, call := none,
                 recoveryTarget := none, tripCount := 0, recoverCount := 0, records := [] }
    faults := { classEnables := List.replicate 5 true, routing := [true, true, true, true, false, false],
                noticeLost := false } }

/-- The part right after reset. The spec gives no strap levels: all low here (DESIGN CHOICE, Log 6). -/
def State.reset : State := State.afterFullReset ⟨0, false, false⟩

end Sys2Proof.Machine
end

