-- ==== Sys2Proof/Machine/Ops.lean ====
section
/-! DEFINITION. Machine/Ops.lean: the named operations every block shares: reading and writing the records, the parameter
table, the clock, pairs of berths, the association of R19, and the upstream queue of R160 and R169. -/

namespace Sys2Proof.Machine

/-! ## Records -/

/-- The record of berth `x` (R1). -/
def State.berth (s : State) (x : Nat) : Berth := s.berths.getD x Berth.blank

/-- Writes the record of berth `x`. -/
def State.setBerth (s : State) (x : Nat) (b : Berth) : State := { s with berths := s.berths.set x b }

/-- Changes the record of berth `x`. -/
def State.editBerth (s : State) (x : Nat) (f : Berth → Berth) : State := s.setBerth x (f (s.berth x))

/-- The record of bus `b`, numbered from 1 (R13). -/
def State.fleetBus (s : State) (b : Nat) : Bus := (Bus.unused :: s.fleet).getD b Bus.unused

/-- Changes the record of bus `b`. -/
def State.editBus (s : State) (b : Nat) (f : Bus → Bus) : State :=
  if b = 0 then s else { s with fleet := s.fleet.set (b - 1) (f (s.fleetBus b)) }

/-- The entry of power group `g` (R23). -/
def State.groupEntry (s : State) (g : Nat) : Group := s.groups.getD g ⟨0, false⟩

/-- Cabinet `c` of the enrollment list, numbered from 1 (R46). -/
def State.cabinet? (s : State) (c : Nat) : Option Cabinet := if c = 0 then none else s.bus.cabinets[c - 1]?

/-- The berth numbers, ascending. -/
def berthNumbers : List Nat := List.range Config.berths

/-- The bus numbers, ascending. -/
def busNumbers : List Nat := (List.range Config.buses).map (· + 1)

/-! ## Parameters (R167) -/

/-- The parameter with this id. -/
def State.param (s : State) (id : Nat) : Int := s.link.params.getD (id - 1) 0

def State.feederLimit (s : State) : Int := s.param 1
def State.margin (s : State) : Int := s.param 2
def State.exportLimit (s : State) : Int := s.param 3
def State.efficiency (s : State) : Nat := (s.param 4).toNat
def State.readyLead (s : State) : Int := s.param 5
def State.guardHorizon (s : State) : Int := s.param 6
def State.assignmentHorizon (s : State) : Int := s.param 7
def State.swapCutoff (s : State) : Int := s.param 8
def State.storageTarget (s : State) : Nat := (s.param 9).toNat
def State.storageFloor (s : State) : Nat := (s.param 10).toNat
def State.rechargePower (s : State) : Nat := (s.param 11).toNat
def State.guestTarget (s : State) : Nat := (s.param 12).toNat
def State.guestCap (s : State) : Nat := (s.param 13).toNat
def State.requestLifetime (s : State) : Nat := (s.param 14).toNat
def State.startSpacing (s : State) : Int := s.param 15
def State.raiseDeadband (s : State) : Int := s.param 16
def State.preconditionPower (s : State) : Nat := (s.param 17).toNat
def State.preconditionWindow (s : State) : Int := s.param 18
def State.preconditionThreshold (s : State) : Int := s.param 19
def State.fallbackLoad (s : State) : Int := s.param 20
def State.overrunMargin (s : State) : Int := s.param 21
def State.nominalFrequency (s : State) : Int := s.param 22
def State.tripOffset (s : State) : Int := s.param 23
def State.hysteresis (s : State) : Int := s.param 24
def State.tripCount (s : State) : Nat := (s.param 25).toNat
def State.recoveryCount (s : State) : Nat := (s.param 26).toNat
def State.reboundStep (s : State) : Int := s.param 27

/-- F − M, the upper end of the import targets (R122, R133, R147). -/
def State.importCeiling (s : State) : Int := s.feederLimit - s.margin

/-! ## Clock, meter and line, as other blocks read them -/

/-- The depot clock second (R171). -/
def State.now (s : State) : Nat := s.link.second

/-- The clock second, or 0 while the clock is unset, as R49, R91 and R158 record it. -/
def State.stampedSecond (s : State) : Nat := if s.link.clockSet then s.link.second else 0

/-- The meter is valid (chapter 08, "The meter state"). -/
def State.meterValid (s : State) : Bool := decide (s.meter.state = .valid ∨ s.meter.state = .holding)

/-- The controller is in RUN. -/
def State.inRun (s : State) : Bool := decide (s.ctl.mode = .run)

/-- Enrollment holds the line (R39). -/
def Line.enrolling : Line → Bool
  | .enrollForget _ => true
  | .enrollAssign _ _ => true
  | .enrollReply _ => true
  | _ => false

/-- Enrollment is in progress, from its acceptance until it ends (R45). -/
def State.enrollInProgress (s : State) : Bool := s.bus.enrollWaiting || s.bus.line.enrolling

/-- A berth with room for a session: SINGLE or LEADER. -/
def Berth.carriesSession (b : Berth) : Bool := decide (b.coupling ≠ .follower)

/-- Every configured berth that is not a FOLLOWER (R5, R6). A command with target ALL takes them in ascending number, for which the
spec gives no order (DESIGN CHOICE, Log 56). -/
def State.sessionBerths (s : State) : List Nat :=
  berthNumbers.filter fun x => (s.berth x).configured && (s.berth x).carriesSession

/-! ## Coupled pairs (R11, R25, R52) -/

/-- The leader of a FOLLOWER: its partner, when that is a configured LEADER whose partner is the FOLLOWER (R11). -/
def State.leaderOf (s : State) (x : Nat) : Option Nat :=
  match (s.berth x).partner with
  | none => none
  | some l =>
    if (s.berth x).coupling = .follower ∧ (s.berth l).configured ∧ (s.berth l).coupling = .leader ∧
        (s.berth l).partner = some x then some l
    else none

/-- The follower of a LEADER: its partner, when that is a configured FOLLOWER whose partner is the LEADER. While a map is
being loaded a LEADER may have none and then stands alone (DESIGN CHOICE, Log 13). -/
def State.followerOf (s : State) (x : Nat) : Option Nat :=
  match (s.berth x).partner with
  | none => none
  | some p =>
    if (s.berth x).coupling = .leader ∧ (s.berth p).configured ∧ (s.berth p).coupling = .follower ∧
        (s.berth p).partner = some x then some p
    else none

/-- A quantity of a berth with that of its follower, where it has one. -/
def State.pairSum (s : State) (f : Berth → Int) (x : Nat) : Int :=
  f (s.berth x) + match s.followerOf x with
    | none => 0
    | some p => f (s.berth p)

/-- The commanded value the Setpoint Path compares with: the pair sum of a pair (R52). -/
def State.pairCommanded (s : State) (x : Nat) : Int := s.pairSum (·.commanded) x

/-- The confirmed value, the pair sum of a pair (R52). -/
def State.pairConfirmed (s : State) (x : Nat) : Int := s.pairSum (·.confirmed) x

/-- The berth's commanded value is not 0; for a pair, either outlet's is not 0 (R64). -/
def State.commandedNonzero (s : State) (x : Nat) : Bool :=
  decide ((s.berth x).commanded ≠ 0) ||
    match s.followerOf x with
    | none => false
    | some p => decide ((s.berth p).commanded ≠ 0)

/-! ## The upstream queue (R160, R169) -/

def UpFrame.isNotice : UpFrame → Bool
  | .notice _ => true
  | _ => false

/-- The notices in the FIFO. -/
def State.noticeCount (s : State) : Nat := (s.link.fifo.filter (·.isNotice)).length

/-- An answer arrives at the FIFO: placed at its tail, or discarded with ANSWER_LOST set when 32 entries stand there (R169). -/
def answer (f : UpFrame) (s : State) : State :=
  if s.link.fifo.length < Config.upstreamEntries then { s with link := { s.link with fifo := s.link.fifo ++ [f] } }
  else { s with link := { s.link with answerLost := true } }

/-- A REPLY. -/
def reply (party tag : Nat) (code : ReplyCode) (body : ReplyBody) (s : State) : State := answer (.reply party tag code body) s

/-- The class of a notice (R158): BERTH 0, RUN 1, RESERVE 2, SITE 3, CONTROL 4. -/
def NoticeBody.noticeClass : NoticeBody → Nat
  | .berthFault _ _ _ _ _ => 0
  | .berthDone _ _ _ => 0
  | .tagUnknown _ _ => 0
  | .tagConflict _ _ _ _ => 0
  | .runAssigned _ _ _ => 1
  | .runReassigned _ _ _ => 1
  | .runShort _ _ _ _ => 1
  | .runDeparted _ _ _ => 1
  | .runMissed _ _ => 1
  | .dayApplied _ _ _ _ => 1
  | .dayEnd _ _ => 1
  | .callStart _ _ _ _ _ => 2
  | .callEnd _ _ _ => 2
  | .reserveState _ _ _ => 2
  | .reserveShortfall _ _ => 2
  | .meterState _ _ => 3
  | .overrun _ _ _ _ => 3
  | .peakShortfall _ _ _ _ => 3
  | .enrolled _ => 4
  | .mode _ _ _ => 4

/-- The berth a notice has as its subject, if any (R158). -/
def NoticeBody.subjectBerth : NoticeBody → Option Nat
  | .berthFault x _ _ _ _ => some x
  | .berthDone x _ _ => some x
  | .tagUnknown x _ => some x
  | .tagConflict x _ _ _ => some x
  | _ => none

/-- R159: the notice's class is enabled and, for a berth subject, that berth's notice enable is set. -/
def State.noticeEnabled (s : State) (body : NoticeBody) : Bool :=
  s.faults.classEnables.getD body.noticeClass false &&
    match body.subjectBerth with
    | none => true
    | some x => (s.berth x).noticeEnable

/-- A notice is generated (R158, R159) and placed, or discarded with NOTICE_LOST set when 24 notices or 32 entries already
stand in the FIFO (R160). -/
def notify (body : NoticeBody) (s : State) : State :=
  if s.noticeEnabled body then
    if s.noticeCount < Config.upstreamNotices ∧ s.link.fifo.length < Config.upstreamEntries then
      { s with link := { s.link with fifo := s.link.fifo ++ [.notice ⟨body, s.stampedSecond, s.link.clockSet⟩] } }
    else { s with faults := { s.faults with noticeLost := true } }
  else s

/-! ## Service entries (R165) and other link frames -/

/-- A complete frame is taken; the receive framer keeps what stands behind it (R163, Log 5). -/
def linkTaken (s : State) : State := { s with link := { s.link with rx := linkAfter s.link.rx } }

/-- A SERVICE frame is taken with its first entry (R165, Log 3). -/
def entryTaken (pos : EntryPos) (s : State) : State := if pos.first then linkTaken s else s

/-- The result of a SERVICE entry joins those before it; after the last entry the one REPLY of the frame is placed. -/
def serviceResult (pos : EntryPos) (code : ReplyCode) (s : State) : State :=
  let results := (if pos.first then [] else s.link.results) ++ [code]
  if pos.remaining = 0 then
    reply 0 pos.tag .ok (.results results) { s with link := { s.link with results := [] } }
  else { s with link := { s.link with results := results } }

/-- A SERVICE entry is taken: its effect, then its result. -/
def serviceEntry (pos : EntryPos) (effect : State → State × ReplyCode) (s : State) : State :=
  let out := effect (entryTaken pos s)
  serviceResult pos out.2 out.1

/-- While the RESET pin is held the part takes nothing (R161, R177; Log 7). -/
def whileRunning (effect : State → State) (s : State) : Host.Outcome State Fault Refusal :=
  .next (if s.ctl.resetHeld then s else effect s)

/-! ## Associations (R19) -/

/-- Bus `b` and berth `x` are associated: both sides are written in one event. -/
def associate (b x : Nat) (s : State) : State :=
  (s.editBerth x fun r => { r with bus := some b }).editBus b fun r => { r with berth := some x }

/-- The association of berth `x`, if any, is dropped: both sides become absent in one event. -/
def dissociate (x : Nat) (s : State) : State :=
  match (s.berth x).bus with
  | none => s
  | some b => (s.editBerth x fun r => { r with bus := none }).editBus b fun r => { r with berth := none }

/-- The used bus with this tag (R17); tag 0 matches none. -/
def State.busWithTag (s : State) (tag : Ident) : Option Nat :=
  if tag = 0 then none else busNumbers.find? fun b => (s.fleetBus b).used && decide ((s.fleetBus b).tag = tag)

/-- A bus's ceiling energy (R13). -/
def Bus.ceiling (b : Bus) : Nat := b.capacity * b.maxCharge / 1000

end Sys2Proof.Machine
end

