-- ==== Sys2Proof/Machine/Flags.lean ====
section
/-! DEFINITION. Machine/Flags.lean: the part's status flags: the fault flags of a berth (R151), DONE (R21, R22), and the
conditions and level of the ALERT line (R161). -/

namespace Sys2Proof.Machine

/-! ## Fault flags (R151) -/

/-- A flag is latched. -/
def FaultFlags.has (f : FaultFlags) : FaultFlag → Bool
  | .overcurrent => f.overcurrent
  | .openPath => f.openPath
  | .isolation => f.isolation
  | .commMiss => f.commMiss
  | .noConfirm => f.noConfirm

/-- A flag latches. -/
def FaultFlags.latch (f : FaultFlags) : FaultFlag → FaultFlags
  | .overcurrent => { f with overcurrent := true }
  | .openPath => { f with openPath := true }
  | .isolation => { f with isolation := true }
  | .commMiss => { f with commMiss := true }
  | .noConfirm => { f with noConfirm := true }

/-- Any flag is latched. -/
def FaultFlags.any (f : FaultFlags) : Bool := f.overcurrent || f.openPath || f.isolation || f.commMiss || f.noConfirm

/-! ## DONE (R21, R22) -/

/-- DONE is set on berth `x`, with one BERTH_DONE notice where it was clear (R21). -/
def setDone (x : Nat) (s : State) : State :=
  if (s.berth x).done then s
  else notify (.berthDone x (s.berth x).bus (s.berth x).soc) (s.editBerth x fun b => { b with done := true })

/-- DONE is cleared on berth `x`, and DONE by COMPLETE with it (R22). -/
def clearDone (x : Nat) (s : State) : State := s.editBerth x fun b => { b with done := false, doneByComplete := false }

/-- What a report's plug state does to DONE at a berth in SERVING: COMPLETE sets it (R21), another clears a DONE held by
COMPLETE (R22). -/
def reportDone (x : Nat) (s : State) : State :=
  if (s.berth x).session ≠ .serving then s
  else if (s.berth x).plug = .complete then setDone x (s.editBerth x fun b => { b with doneByComplete := true })
  else if (s.berth x).doneByComplete then clearDone x s
  else s

/-! ## The ALERT line (R161) -/

/-- A configured berth has a latched fault flag. -/
def State.anyFault (s : State) : Bool := berthNumbers.any fun x => (s.berth x).configured && (s.berth x).flags.any

/-- The call in progress has its shortfall flag set. -/
def State.callShort (s : State) : Bool :=
  decide (s.reserve.state = .called) &&
    match s.reserve.records with
    | [] => false
    | r :: _ => r.shortfall

/-- The six conditions of R161 in their order. -/
def State.alertConditions (s : State) : List Bool :=
  [s.anyFault, decide (s.ctl.mode = .safeHold), !s.meterValid, decide (s.meter.overrun = .overrun), s.callShort,
    s.runs.active.any fun r => decide (r.state = .short)]

/-- ALERT is driven low: a routed condition holds, and the RESET pin is not held (R161). -/
def State.alertLow (s : State) : Bool :=
  !s.ctl.resetHeld && (s.faults.routing.zip s.alertConditions).any fun p => p.1 && p.2

end Sys2Proof.Machine
end

