-- ==== Sys2Proof/Machine/Energy.lean ====
section
/-! DEFINITION. Machine/Energy.lean: the energy and power figures several blocks read: the cold factor and energy targets
(R95, R96), the caps of R25 and R74, freshness (R16), and protected energy (R113). -/

namespace Sys2Proof.Machine

/-! ## Classes of run state (chapter 05) -/

def RunState.live : RunState → Bool
  | .assigned | .charging | .ready | .short => true
  | _ => false

def RunState.unfinished : RunState → Bool
  | .opened | .waiting => true
  | st => st.live

/-- The unfinished run of bus `b`. -/
def Run.unfinishedOf (b : Nat) (r : Run) : Bool := decide (r.bus = some b) && r.state.unfinished

/-- R97: a bus's current run, the first of its unfinished runs in table order. -/
def State.currentRun (s : State) (b : Nat) : Option Run := s.runs.active.find? (·.unfinishedOf b)

/-- The bus's current run, where it is in a live state. -/
def State.liveRun (s : State) (b : Nat) : Option Run := (s.currentRun b).filter (·.state.live)

/-! ## Cold factor (R95) -/

/-- Between two points: rounded up when inexact. -/
def interpolate (p q : ColdPoint) (a : Int) : Nat :=
  ((p.factor : Int) - (-(((q.factor : Int) - p.factor) * (a - p.temperature))) / (q.temperature - p.temperature)).toNat

/-- The factor at a temperature not below that of the point `p`, the points after it being `rest`. -/
def coldFrom (a : Int) (p : ColdPoint) : List ColdPoint → Nat
  | [] => p.factor
  | q :: rest => if a < q.temperature then interpolate p q a else coldFrom a q rest

/-- R95: the cold factor of a table at an ambient temperature, none being unknown. -/
def coldFactor (table : List ColdPoint) (ambient : Option Int) : Nat :=
  match table, ambient with
  | [], _ => 1000
  | p :: rest, none => (p :: rest).foldl (fun m q => max m q.factor) 0
  | p :: rest, some a => if a ≤ p.temperature then p.factor else coldFrom a p rest

/-! ## Energy targets (R96) -/

/-- E_run + E_floor for a route of this distance on a bus, at a cold factor. -/
def energyFor (distance : Nat) (b : Bus) (factor : Nat) : Nat :=
  ceilDiv (distance * b.rate * factor) 10000 + ceilDiv (b.capacity * b.arrivalFloor) 1000

/-- R96: the energy target of a run record on bus `b`, at the cold factor of the moment. -/
def State.energyTarget (s : State) (r : RunRecord) (b : Nat) : Nat :=
  energyFor r.distance (s.fleetBus b) (coldFactor s.runs.cold s.meter.ambient)

/-- R96: the charging target of a run record on bus `b`. -/
def State.chargingTarget (s : State) (r : RunRecord) (b : Nat) : Nat :=
  min (s.energyTarget r b) (s.fleetBus b).ceiling

/-- R75, R112: the storage target energy of bus `b`. -/
def State.storageTargetEnergy (s : State) (b : Nat) : Nat :=
  min (s.storageTarget * (s.fleetBus b).capacity / 1000) (s.fleetBus b).ceiling

/-- A run's deadline less the current second (R76): signed, not reduced modulo the day. -/
def State.timeToDeadline (s : State) (r : RunRecord) : Int := (r.departure : Int) * 60 - s.readyLead - s.now

/-! ## Caps (R25, R74) -/

/-- A sum of unsigned fields over a berth and its follower. -/
def State.pairNat (s : State) (f : Berth → Nat) (x : Nat) : Nat :=
  f (s.berth x) + match s.followerOf x with
    | none => 0
    | some p => f (s.berth p)

/-- R74: the cap of berth `x`. -/
def State.chargeCap (s : State) (x : Nat) : Nat :=
  let cap := min (s.pairNat (·.hwCharge) x) (s.pairNat (·.acceptMax) x)
  match (s.berth x).bus with
  | none => min cap s.guestCap
  | some _ => cap

/-- R74: the dcap of berth `x`. -/
def State.dischargeCap (s : State) (x : Nat) : Nat :=
  match (s.berth x).bus with
  | none => 0
  | some b => min (s.pairNat (·.hwDischarge) x) (s.fleetBus b).dischargeMax

/-! ## Stored energy (R16) -/

/-- R16: a bus's estimate is fresh. -/
def State.fresh (s : State) (b : Nat) : Bool :=
  match (s.fleetBus b).stamp with
  | none => false
  | some t => decide ((s.now + Config.daySeconds - t) % Config.daySeconds ≤ 60)

/-- Stored energy, an absent estimate counting as 0 (R75, R101). -/
def State.storedOrZero (s : State) (b : Nat) : Nat := (s.fleetBus b).stored.getD 0

/-! ## Protected and available energy (R113, R114) -/

/-- R113: the recharge credit with `t` seconds to the deadline. -/
def State.credit (s : State) (t : Int) : Nat :=
  if s.guardHorizon < t then (t - s.guardHorizon).toNat * s.rechargePower * s.efficiency / 36000 else 0

/-- R113: the storage floor energy of bus `b`. -/
def State.storageFloorEnergy (s : State) (b : Nat) : Nat := ceilDiv ((s.fleetBus b).capacity * s.storageFloor) 1000

/-- R113: the protected energy of bus `b`. -/
def State.protectedOf (s : State) (b : Nat) : Nat :=
  match s.liveRun b with
  | none => s.storageFloorEnergy b
  | some r =>
    let t := s.energyTarget r.toRunRecord b
    max (s.storageFloorEnergy b)
      (if s.link.clockSet then t - s.credit (s.timeToDeadline r.toRunRecord) else t)

/-- R114: the available energy of bus `b` against its protected energy; 0 while the estimate is absent. -/
def State.availableOf (s : State) (b : Nat) : Nat :=
  match (s.fleetBus b).stored with
  | none => 0
  | some e => e - s.protectedOf b

/-- R114: the Storage Unit writes every used bus's two figures at an allocation run. -/
def writeEnergies (s : State) : State :=
  busNumbers.foldl (fun t b =>
    if (s.fleetBus b).used then
      t.editBus b fun r => { r with protectedEnergy := some (s.protectedOf b), availableEnergy := some (s.availableOf b) }
    else t) s

end Sys2Proof.Machine
end

