-- ==== Sys2Proof/Machine/RunTable.lean ====
section
/-! DEFINITION. Machine/RunTable.lean: the Run Table's shared operations (chapter 05): rederiving, unplugs, resolution,
assignment and swap, the hand-over, the merge of the pending day set and the day's renewal. -/

namespace Sys2Proof.Machine

/-! ## Order and rederiving (R94, R97) -/

/-- Table order (R94). -/
def RunRecord.before (a b : RunRecord) : Bool :=
  decide (a.departure < b.departure ∨ (a.departure = b.departure ∧ a.runId < b.runId))

/-- R97 down the table, for bus `b`: `seen` once its current run has been passed. -/
def rederiveFrom (b : Nat) : Bool → List Run → List Run
  | _, [] => []
  | seen, r :: rest =>
    if r.unfinishedOf b then
      (if seen then (if r.state.live then { r with state := .waiting, reason := none } else r)
       else if r.state = .waiting then { r with state := .assigned } else r) :: rederiveFrom b true rest
    else r :: rederiveFrom b seen rest

/-- The active table is changed. -/
def editActive (f : List Run → List Run) (s : State) : State := { s with runs := { s.runs with active := f s.runs.active } }

/-- R97: bus `b` is rederived. -/
def rederive (b : Nat) (s : State) : State := editActive (rederiveFrom b false) s

/-- The bus a run held, if any, is rederived. -/
def rederiveOpt (b : Option Nat) (s : State) : State :=
  match b with
  | none => s
  | some b => rederive b s

/-- Every bus is rederived (R107 step 4, R109). -/
def rederiveAll (s : State) : State := busNumbers.foldl (fun s b => rederive b s) s

/-- The run with this id in the active table. -/
def State.run? (s : State) (runId : Nat) : Option Run := s.runs.active.find? fun r => decide (r.runId = runId)

/-- The run with this id is changed. -/
def editRun (runId : Nat) (f : Run → Run) (s : State) : State :=
  editActive (fun l => l.map fun r => if r.runId = runId then f r else r) s

/-- A run takes a bus: it waits until its bus is rederived (R97). -/
def giveBus (runId b : Nat) (pin : Bool) (s : State) : State :=
  rederive b (editRun runId (fun r => { r with bus := some b, pinned := pin, reason := none, state := .waiting }) s)

/-- A run finishes with its bus kept, and the bus is rederived (R97). -/
def finishRun (r : Run) (state : RunState) (s : State) : State :=
  rederiveOpt r.bus (editRun r.runId (fun r => { r with state := state, reason := none }) s)

/-! ## Unplugs and resolution (R99, R100) -/

/-- R99: the current second lies in a run's departure window. -/
def State.inDepartureWindow (s : State) (r : RunRecord) : Bool :=
  s.link.clockSet && decide ((r.departure : Int) * 60 - 2700 ≤ s.now ∧ s.now < r.departure * 60 + 900)

/-- R99: bus `b` has unplugged. -/
def runUnplug (b : Nat) (s : State) : State :=
  match s.liveRun b with
  | none => s
  | some r =>
    if s.inDepartureWindow r.toRunRecord then
      finishRun r .departed (notify (.runDeparted r.runId b s.now) s)
    else if r.state = .assigned then s
    else editRun r.runId (fun r => { r with state := .assigned, reason := none }) s

/-- R100: one run reaches its resolution second. -/
def resolveRun (s : State) (r : Run) : State :=
  match r.bus with
  | none => finishRun r .missed (notify (.runMissed r.runId none) s)
  | some b =>
    if (s.fleetBus b).berth.isSome then finishRun r .missed (notify (.runMissed r.runId (some b)) s)
    else finishRun r .departed (notify (.runDeparted r.runId b s.now) s)

/-- R100: every unfinished run whose resolution second has been reached, in table order, each judged as the ones before it
have left it. -/
def resolveRuns (s : State) : State :=
  (s.runs.active.map (·.runId)).foldl (fun s runId =>
    match s.run? runId with
    | none => s
    | some r => if r.state.unfinished ∧ r.departure * 60 + 900 ≤ s.now then resolveRun s r else s) s

/-! ## Assignment and swap (R101, R102) -/

/-- R101: the surplus of bus `b` for a run. -/
def State.surplus (s : State) (r : RunRecord) (b : Nat) : Int := (s.storedOrZero b : Int) - s.energyTarget r b

/-- The served berth of a bus: the berth in SERVING it is associated with. -/
def State.servingBerth (s : State) (b : Nat) : Option Nat :=
  (s.fleetBus b).berth.filter fun x => decide ((s.berth x).session = .serving)

/-- R101: bus `b` is a candidate for a run. -/
def State.candidate (s : State) (r : RunRecord) (b : Nat) : Bool :=
  (s.fleetBus b).used && (s.servingBerth b).isSome && (s.currentRun b).isNone &&
    decide (s.energyTarget r b ≤ (s.fleetBus b).ceiling)

/-- R102: candidate `b` is feasible for a run. -/
def State.feasible (s : State) (r : RunRecord) (b : Nat) : Bool :=
  let need := s.energyTarget r b - s.storedOrZero b
  let cap := match s.servingBerth b with
    | none => 0
    | some x => s.chargeCap x
  decide (0 ≤ s.surplus r b) ||
    (decide (0 < cap) &&
      decide (0 ≤ s.timeToDeadline r - (ceilDiv (need * 36000) (cap * s.efficiency) : Nat)))

/-- The bus of greatest surplus among those that pass a test, the lower number winning a tie. -/
def State.bestBus (s : State) (r : RunRecord) (test : Nat → Bool) : Option Nat :=
  (busNumbers.filter test).foldl (fun best b =>
    match best with
    | none => some b
    | some c => if s.surplus r c < s.surplus r b then some b else some c) none

/-- R101: an OPEN run whose departure is near enough is given a bus. -/
def assignRun (s : State) (runId : Nat) : State :=
  match s.run? runId with
  | none => s
  | some r =>
    if r.state = .opened ∧ s.link.clockSet ∧ (r.departure : Int) * 60 - s.now ≤ s.assignmentHorizon ∧
        s.now < r.departure * 60 + 900 then
      match s.bestBus r.toRunRecord (s.candidate r.toRunRecord) with
      | none => s
      | some b => giveBus runId b false (notify (.runAssigned runId b (s.surplus r.toRunRecord b)) s)
    else s

/-- R101: stage 0 step 2. -/
def assignRuns (s : State) : State := (s.runs.active.map (·.runId)).foldl assignRun s

/-- R102: a SHORT run is moved to a feasible candidate, if there is one. `freed` lists the buses swaps of this stage have
freed, which are no candidates. -/
def swapRun (acc : State × List Nat) (runId : Nat) : State × List Nat :=
  let s := acc.1
  match s.run? runId with
  | none => acc
  | some r =>
    if r.state = .short ∧ ¬ r.pinned ∧ r.swapAllowed ∧ s.link.clockSet ∧
        s.swapCutoff ≤ (r.departure : Int) * 60 - s.now then
      match s.bestBus r.toRunRecord
          (fun b => s.candidate r.toRunRecord b && s.feasible r.toRunRecord b && !acc.2.contains b) with
      | none => acc
      | some b =>
        let old := r.bus.getD 0
        (rederiveOpt r.bus (giveBus runId b r.pinned (notify (.runReassigned runId old b) s)), old :: acc.2)
    else acc

/-- R102: stage 0 step 3. -/
def swapRuns (s : State) : State := ((s.runs.active.map (·.runId)).foldl swapRun (s, [])).1

/-! ## The hand-over (R98) -/

/-- R98: the state and short reason a live run takes. -/
def handedState (projection : Option ShortReason) (need : Nat) : RunState × Option ShortReason :=
  if projection = some .capacity then (.short, some .capacity)
  else if need = 0 then (.ready, none)
  else if projection = some .time then (.short, some .time)
  else (.charging, none)

/-- R98: one live run is handed over with its bus's need and projection. -/
def handOver (r : Run) (b need : Nat) (projection : Option ShortReason) (s : State) : State :=
  let out := handedState projection need
  let s := match out.2 with
    | none => s
    | some reason => if r.state = .short then s else notify (.runShort r.runId b reason need) s
  editRun r.runId (fun r => { r with state := out.1, reason := out.2 }) s

/-! ## The supervisor's own changes (R103, R104) -/

/-- A run becomes OPEN: bus absent, pin cleared, short reason absent. -/
def openRun (r : Run) : Run := { r with bus := none, pinned := false, reason := none, state := .opened }

/-- R103: RUN_ASSIGN. -/
def assignCommand (runId bus : Nat) (pin : Bool) (s : State) : State × ReplyCode :=
  match s.run? runId with
  | none => (s, .badValue)
  | some r =>
    if ¬ r.state.unfinished ∨ Config.buses < bus ∨ (bus ≠ 0 ∧ ¬ (s.fleetBus bus).used) then (s, .badValue)
    else if bus = 0 then (rederiveOpt r.bus (editRun runId openRun s), .ok)
    else if r.bus = some bus then (editRun runId (fun r => { r with pinned := pin }) s, .ok)
    else
      let s' := rederiveOpt r.bus (editRun runId openRun s)
      (giveBus runId bus pin s', .ok)

/-- R104: RUN_CANCEL. -/
def cancelCommand (runId : Nat) (s : State) : State × ReplyCode :=
  match s.run? runId with
  | none => (s, .badValue)
  | some r =>
    if ¬ r.state.unfinished then (s, .badValue)
    else (rederiveOpt r.bus (editRun runId (fun r => { openRun r with state := .cancelled }) s), .ok)

/-- R104: FLEET_DELETE of bus `b` in the active table. -/
def runsLoseBus (b : Nat) (s : State) : State :=
  editActive (fun l => l.map fun r =>
    if r.bus = some b then (if r.state.unfinished then openRun r else { r with bus := none, pinned := false }) else r) s

/-! ## The pending day set (R105 to R108) -/

/-- A pending record joins its table at its place in table order (R94). -/
def joinRecord (r : RunRecord) (l : List RunRecord) : List RunRecord := insertBy (·.before ·) r l

/-- R107 step 2: a record naming a bus whose slot is unused is taken as naming none. -/
def State.recordBus (s : State) (r : RunRecord) : Option Nat := r.bus.filter fun b => (s.fleetBus b).used

/-- R107 step 2: the active run a pending record gives, matched with the run of the same id where there is one. -/
def mergedRun (bus : Option Nat) (rec : RunRecord) (old : Option Run) : Run :=
  match old, bus with
  | none, none => { rec with bus := none, state := .opened, reason := none }
  | none, some b => { rec with bus := some b, state := .waiting, reason := none }
  | some r, none => { rec with bus := r.bus, state := r.state, reason := r.reason }
  | some r, some b =>
    if r.bus = some b then { rec with bus := r.bus, state := r.state, reason := r.reason }
    else { rec with bus := some b, state := .waiting, reason := none }

/-- R107 step 3: a run with no bus has its pin cleared. -/
def clearPin (r : Run) : Run := if r.bus.isNone then { r with pinned := false } else r

/-- R107: the merge. The pending table is in table order, so the merged one is; every bus is rederived. -/
def mergeRuns (s : State) : State :=
  rederiveAll (editActive (fun _ =>
    s.runs.pending.runs.map fun rec => clearPin (mergedRun (s.recordBus rec) rec (s.run? rec.runId))) s)

/-- R107, R108: the pending day set is applied. What the Reserve Unit makes of its new windows is in ReserveOps.lean: its notices stand
behind DAY_APPLIED (DEDUCED, Log 23). -/
def applyTables (s : State) : State :=
  let s := mergeRuns s
  let p := s.runs.pending
  let s := { s with
    runs := { s.runs with cold := p.cold, pending := PendingSet.empty }
    storage := { s.storage with windows := p.demand }
    reserve := { s.reserve with windows := p.reserve } }
  notify (.dayApplied s.runs.active.length p.cold.length p.demand.length p.reserve.length) s

/-- R109 step 1: every unfinished run becomes MISSED. -/
def closeDay (s : State) : State :=
  editActive (fun l => l.map fun r => if r.state.unfinished then { r with state := .missed, reason := none } else r) s

/-- R109 step 3: every run is renewed. -/
def renewRuns (s : State) : State :=
  rederiveAll (editActive (fun l => l.map fun r =>
    { r with state := if r.bus.isSome then .waiting else .opened, reason := none }) s)

/-- R111: the run states after RESTART. -/
def restartRuns (s : State) : State :=
  editActive (fun l => l.map fun r =>
    match r.state with
    | .charging | .ready | .short => { r with state := .assigned, reason := none }
    | _ => r) s

end Sys2Proof.Machine
end

