-- ==== Sys2Proof/Machine/Storage.lean ====
section
/-! DEFINITION. Machine/Storage.lean: the Storage Unit's demand account and hold target (chapter 06, R117 to R123). -/

namespace Sys2Proof.Machine

/-! ## Windows (R117, R118) -/

/-- A window from a start minute to an exclusive end minute contains a second of the day. -/
def inMinutes (start stop second : Nat) : Bool := decide (start * 60 ≤ second ∧ second < stop * 60)

/-- Two windows of minutes overlap (R117, R124). -/
def windowsOverlap (s1 e1 s2 e2 : Nat) : Bool := decide (s1 < e2 ∧ s2 < e1)

/-- R118: the active demand window. -/
def State.demandWindow (s : State) : Option DemandWindow :=
  if s.link.clockSet then s.storage.windows.find? fun w => inMinutes w.start w.stop s.now else none

/-- R118: the window peak hold is active under, none while it is inactive. -/
def State.holdWindow (s : State) : Option DemandWindow :=
  if s.meterValid ∧ ¬ s.importCeiling < -s.exportLimit then s.demandWindow else none

/-! ## The hold target (R122) -/

/-- R122: H_inst for a hold, from the accumulator's Q and n. -/
def holdTargetOf (hold sum : Int) (count : Nat) (low high : Int) : Int :=
  if count < 9000 then clampTo low high ((hold * 9000 - sum) / (9000 - (count : Int)))
  else clampTo low high (if 0 ≤ hold * 9000 - sum then high else low)

/-- R122: the value of H_inst as it is read now; absent while peak hold is inactive. -/
def State.holdTarget (s : State) : Option Int :=
  match s.holdWindow, s.storage.interval with
  | some w, some i => some (holdTargetOf w.hold i.sum i.count (-s.exportLimit) s.importCeiling)
  | some w, none => some (holdTargetOf w.hold 0 0 (-s.exportLimit) s.importCeiling)
  | none, _ => none

/-! ## The demand interval (R119 to R121) -/

/-- R119: an accounted sample. -/
def accountDemand (power : Int) (s : State) : State :=
  match s.storage.interval with
  | none => s
  | some i => { s with storage := { s.storage with interval := some { i with sum := i.sum + power, count := i.count + 1 } } }

/-- R120: a new interval at the multiple of 900 at or below the clock second. -/
def newInterval (incomplete : Bool) (s : State) : State :=
  { s with storage := { s.storage with interval := some ⟨s.now / 900 * 900, 0, 0, incomplete, false⟩ } }

/-- R121: the record of a closing interval. -/
def closedRecord (i : Interval) : IntervalRecord :=
  { start := i.start, average := if i.count = 0 then none else some (i.sum / (i.count : Int)),
    complete := decide (9000 ≤ i.count) && !i.incomplete, shortfall := i.shortfall }

/-- R121: the day peak after a closed interval. -/
def peakAfter (r : IntervalRecord) (peak : Option Peak) : Option Peak :=
  match r.complete, r.average, peak with
  | true, some a, none => some ⟨a, r.start⟩
  | true, some a, some p => if p.average < a then some ⟨a, r.start⟩ else some p
  | _, _, p => p

/-- R121: the interval in progress, if any, is closed. -/
def closeInterval (s : State) : State :=
  match s.storage.interval with
  | none => s
  | some i =>
    { s with storage := { s.storage with last := some (closedRecord i),
                                         dayPeak := peakAfter (closedRecord i) s.storage.dayPeak } }

/-- R121: at the wrap the day peak becomes the previous day's. -/
def wrapPeak (s : State) : State :=
  { s with storage := { s.storage with previousPeak := s.storage.dayPeak, dayPeak := none } }

/-- R120, R121: the Storage Unit's work at an advance of the set clock. -/
def advanceInterval (s : State) : State :=
  if s.now % 900 = 0 then
    let s := closeInterval s
    newInterval false (if s.now = 0 then wrapPeak s else s)
  else s

/-! ## Shortfalls (R123) -/

/-- R123: a peak shortfall is handed over, with the run's H_inst. -/
def peakShortfall (amount target : Int) (s : State) : State :=
  match s.storage.interval, s.holdWindow with
  | some i, some w =>
    if i.shortfall then s
    else notify (.peakShortfall amount i.start w.hold target)
      { s with storage := { s.storage with interval := some { i with shortfall := true } } }
  | _, _ => s

end Sys2Proof.Machine
end

