-- ==== Sys2Proof/Machine/ReserveOps.lean ====
section
/-! DEFINITION. Machine/ReserveOps.lean: the Reserve Unit's shared operations (chapter 07). An operation that may end or
begin a call also answers whether it asks for the immediate allocation run of R70. -/

namespace Sys2Proof.Machine

/-! ## The reserve term (R130, R133) -/

/-- R130: the baseline, the floor of the mean of the ring. -/
def baselineOf (ring : List Int) : Int := sumOf id ring / (ring.length : Int)

/-- R133: an import target clamped to [−E_x, F − M]. -/
def State.clampTarget (s : State) (v : Int) : Int := clampTo (-s.exportLimit) s.importCeiling v

/-- R133: T_ctrl of a call. -/
def State.callTarget (s : State) (c : Call) : Int := s.clampTarget (c.baseline - c.reduction)

/-- R133: the reserve term of the budget, absent outside CALLED and RECOVERY. -/
def State.reserveTerm (s : State) : Option Int :=
  match s.reserve.state with
  | .called => s.reserve.call.map s.callTarget
  | .recovery => s.reserve.recoveryTarget.map s.clampTarget
  | _ => none

/-! ## State changes and windows (R126 to R128) -/

/-- R128: the reserve state changes, with one RESERVE_STATE notice where it really changes. -/
def changeReserve (st : ReserveState) (s : State) : State :=
  if s.reserve.state = st then s
  else notify (.reserveState s.reserve.state st (s.reserve.coverage.map (·.value)))
    { s with reserve := { s.reserve with state := st } }

/-- R126: the reserve window that contains the current second, none while the clock is unset. -/
def State.windowNow (s : State) : Option ReserveWindow :=
  if s.link.clockSet then s.reserve.windows.find? fun w => inMinutes w.start w.stop s.now else none

/-- The newest call record is changed: while a call is in progress it is that call's (R139). -/
def editRecord (f : CallRecord → CallRecord) (s : State) : State :=
  match s.reserve.records with
  | [] => s
  | r :: rest => { s with reserve := { s.reserve with records := f r :: rest } }

/-- R139: the mean import of a call's account. -/
def callMean (c : Call) : Option Int := if c.count = 0 then none else some (c.sum / (c.count : Int))

/-- R136, R137, R139: the call `c` in progress is closed with its cause, leaving a recovery target or none. The trip counter returns to 0,
so that an autonomous call in RECOVERY takes a further trip count of low samples (R134; DEDUCED, Log 52). -/
def closeCall (c : Call) (cause : CallCause) (target : Option Int) (s : State) : State :=
  let s := editRecord (fun r => { r with finish := some s.now, mean := callMean c, cause := some cause }) s
  { s with reserve := { s.reserve with call := none, recoveryTarget := target, tripCount := 0, recoverCount := 0 } }

/-- R136: an ordinary end of the call in progress; `answered` places the REPLY of an END request. -/
def endCall (cause : CallCause) (answered : State → State) (s : State) : State :=
  match s.reserve.call with
  | none => s
  | some c =>
    changeReserve .recovery (notify (.callEnd c.callId cause (callMean c))
      (answered (closeCall c cause (some (s.callTarget c)) s)))

/-- R137: a call or a recovery in progress ends without a ramp and the reserve becomes UNAVAILABLE. -/
def reserveUnavailable (cause : CallCause) (s : State) : State :=
  let s := match s.reserve.call with
    | none => { s with reserve := { s.reserve with recoveryTarget := none } }
    | some c => notify (.callEnd c.callId cause (callMean c)) (closeCall c cause none s)
  changeReserve .unavailable { s with reserve := { s.reserve with tripCount := 0, recoverCount := 0 } }

/-- R127: the meter is valid and the controller in RUN: the reserve leaves UNAVAILABLE. -/
def reserveAvailable (s : State) : State :=
  if s.reserve.state = .unavailable ∧ s.meterValid ∧ s.inRun then
    changeReserve (if s.reserve.judged.isSome then .undercovered else .idle) s
  else s

/-- R128: the window judged active closes. Answers whether a call ended with it. -/
def closeWindow (s : State) : State × Bool :=
  let s := { s with reserve := { s.reserve with judged := none } }
  match s.reserve.state with
  | .armed => (changeReserve .idle s, false)
  | .undercovered => (changeReserve .idle s, false)
  | .called => (endCall .windowEnd id s, true)
  | _ => (s, false)

/-- R128, R129: a window opens; the coverage is absent until its first computation. -/
def openWindow (w : ReserveWindow) (s : State) : State :=
  let s := { s with reserve := { s.reserve with judged := some w, coverage := none } }
  if s.reserve.state = .idle then changeReserve .undercovered s else s

/-- The call in progress was begun by the frequency trigger. -/
def State.autonomous (s : State) : Bool :=
  match s.reserve.call with
  | none => false
  | some c => decide (c.source = .frequency)

/-- R134: the frequency trip counter counts. -/
def State.tripCounts (s : State) : Bool :=
  s.meterValid &&
    (match s.reserve.judged with
      | none => false
      | some w => w.frequency) &&
    match s.reserve.state with
    | .armed | .undercovered | .recovery => true
    | .called => !s.autonomous
    | _ => false

/-- R134: where the frequency trip counter does not count it is held at 0. -/
def settleTrip (s : State) : State :=
  if s.tripCounts then s else { s with reserve := { s.reserve with tripCount := 0 } }

/-- A closing of the window judged active, if any, then an opening of the one that contains the current second, if any, each with its own
RESERVE_STATE notice where it changes the state (DEDUCED, Log 20). Between the two
no window is active, and the trip counter is held at 0 there also where both come in one event (DEDUCED, Log 58). -/
def replaceWindow (s : State) : State × Bool :=
  let closed := closeWindow s
  let out := if s.reserve.judged.isSome then (settleTrip closed.1, closed.2) else (s, false)
  match out.1.windowNow with
  | none => (settleTrip out.1, out.2)
  | some w => (settleTrip (openWindow w out.1), out.2)

/-- R126: the judgement at an advance of the clock and at a TIME_SET. -/
def judgeWindows (s : State) : State × Bool :=
  if s.windowNow = s.reserve.judged then (s, false) else replaceWindow s

/-- R126: a call in progress continues under the window of an applied table. -/
def rebindCall (c : Call) (w : ReserveWindow) (s : State) : State :=
  let c := { c with reduction := min c.reduction w.reduction, left := min c.left w.maxDuration }
  editRecord (fun r => { r with reduction := c.reduction, target := s.callTarget c })
    { s with reserve := { s.reserve with judged := some w, call := some c } }

/-- R126: the judgement at an application of the day set. At the midnight wrap it is made before the clock's closings, so a call whose
window ended at minute 1440 goes on under a window of the new table from minute 0 (DEDUCED, Log 53). -/
def judgeApplication (s : State) : State × Bool :=
  match s.reserve.call, s.windowNow with
  | some c, some w => (settleTrip (rebindCall c w s), false)
  | _, _ => replaceWindow s

/-- R107, R108, R126: the pending day set is applied. -/
def applyDaySet (s : State) : State × Bool := judgeApplication (applyTables s)

/-- R109: the day end. -/
def endDay (s : State) : State × Bool :=
  let missed := (s.runs.active.filter (·.state.unfinished)).length
  let armed := s.runs.pending.armed
  let s := closeDay s
  let out := if armed then applyDaySet s else (s, false)
  (notify (.dayEnd missed armed) (renewRuns out.1), out.2)

/-! ## Calls (R131, R132, R134) -/

/-- R131 steps 2 to 6: a new call begins; `answered` places the REPLY of a CALL request. -/
def startCall (callId : Nat) (source : CallSource) (reduction : Int) (duration : Nat) (answered : State → State)
    (s : State) : State :=
  let c : Call := ⟨callId, source, reduction, baselineOf s.meter.ring, duration, 0, 0⟩
  let target := s.callTarget c
  let rec' : CallRecord :=
    { callId := callId, source := source, start := s.now, finish := none, baseline := c.baseline, reduction := reduction,
      target := target, mean := none, shortfall := false, frequencyDuring := decide (source = .frequency), cause := none }
  let s := { s with reserve := { s.reserve with
    call := some c, recoveryTarget := none, tripCount := 0, recoverCount := 0,
    records := (rec' :: s.reserve.records).take Config.callRecords } }
  changeReserve .called (notify (.callStart callId reduction duration c.baseline target) (answered s))

/-- R132: a CALL request updates the frame call `c` in progress. -/
def updateCall (c : Call) (reduction : Int) (duration : Nat) (s : State) : State :=
  let c := { c with reduction := reduction, left := duration }
  editRecord (fun r => { r with reduction := reduction, target := s.callTarget c })
    { s with reserve := { s.reserve with call := some c } }

/-- A CALL request's reduction and duration bounded by the active window (R131, R132), and its reply. -/
def boundedCall (w : ReserveWindow) (reduction duration : Nat) : Int × Nat × ReplyCode :=
  let r := min (reduction : Int) w.reduction
  let d := min duration w.maxDuration
  (r, d, if r = reduction ∧ d = duration then .ok else .clamped)

/-- R131 and R132 in their order. Answers whether an immediate run follows. -/
def callRequest (tag callId reduction duration : Nat) (s : State) : State × Bool :=
  let refuse (code : ReplyCode) : State × Bool := (reply 0 tag code .none s, false)
  if callId = 0 ∨ reduction = 0 ∨ 32767 < reduction ∨ duration = 0 then refuse .badValue
  else match s.reserve.state, s.reserve.judged with
    | .unavailable, _ => refuse .unavailable
    | .idle, _ => refuse .notCommitted
    | .recovery, none => refuse .notCommitted
    | .called, some w =>
      match s.reserve.call with
      | none => refuse .callBusy
      | some c =>
        if c.callId ≠ callId then refuse .callBusy
        else
          let b := boundedCall w reduction duration
          (reply 0 tag b.2.2 .none (updateCall c b.1 b.2.1 s), true)
    | .called, none => refuse .callBusy
    | _, some w =>
      let b := boundedCall w reduction duration
      (startCall callId .frame b.1 b.2.1 (reply 0 tag b.2.2 .none) s, true)
    | _, none => refuse .notCommitted

/-- R136: an END request. Answers whether an immediate run follows. -/
def endRequest (tag callId : Nat) (s : State) : State × Bool :=
  match s.reserve.call with
  | none => (reply 0 tag .unknownCall .none s, false)
  | some c =>
    if c.callId ≠ callId then (reply 0 tag .unknownCall .none s, false)
    else (endCall .endFrame (reply 0 tag .ok .none) s, true)

/-! ## Frequency (R134, R135) -/

/-- R134: the trip counter reaches the trip count. -/
def frequencyTrip (s : State) : State × Bool :=
  match s.reserve.state, s.reserve.judged with
  | .called, _ =>
    (editRecord (fun r => { r with frequencyDuring := true }) { s with reserve := { s.reserve with tripCount := 0 } }, false)
  | _, some w => (startCall 0 .frequency w.reduction w.maxDuration id s, true)
  | _, none => (s, false)

/-- R134, R135: the frequency of an accepted sample. Answers whether an immediate run is asked for. -/
def frequencySample (frequency : Nat) (s : State) : State × Bool :=
  let threshold := s.nominalFrequency - s.tripOffset
  if s.reserve.state = .called ∧ s.autonomous then
    let n := if threshold + s.hysteresis ≤ frequency then s.reserve.recoverCount + 1 else 0
    let s := { s with reserve := { s.reserve with tripCount := 0, recoverCount := n } }
    if s.recoveryCount ≤ n then (endCall .frequency id s, true) else (s, false)
  else if s.tripCounts then
    let n := if (frequency : Int) ≤ threshold then s.reserve.tripCount + 1 else 0
    let s := { s with reserve := { s.reserve with tripCount := n, recoverCount := 0 } }
    if s.tripCount ≤ n ∧ 0 < n then frequencyTrip s else (s, false)
  else ({ s with reserve := { s.reserve with tripCount := 0, recoverCount := 0 } }, false)

/-! ## Accounts, shortfalls, recovery, coverage -/

/-- R139: an accounted sample of the call in progress. -/
def accountCall (power : Int) (s : State) : State :=
  match s.reserve.call with
  | none => s
  | some c => { s with reserve := { s.reserve with call := some { c with sum := c.sum + power, count := c.count + 1 } } }

/-- R139: a reserve shortfall handed over; in RECOVERY it sets nothing here. -/
def reserveShortfall (amount : Int) (s : State) : State :=
  match s.reserve.state, s.reserve.call, s.reserve.records with
  | .called, some c, r :: _ =>
    if r.shortfall then s
    else notify (.reserveShortfall c.callId amount) (editRecord (fun r => { r with shortfall := true }) s)
  | _, _, _ => s

/-- R138: the rebound step of a periodic run. Where RECOVERY ends with a window active its target is dropped here and the
state is set by the coverage of the same run. -/
def reboundStep (s : State) : State :=
  match s.reserve.state, s.reserve.recoveryTarget with
  | .recovery, some t =>
    let t := t + s.reboundStep
    if t < s.importCeiling then { s with reserve := { s.reserve with recoveryTarget := some t } }
    else
      let s := { s with reserve := { s.reserve with recoveryTarget := none } }
      if s.reserve.judged.isNone then changeReserve .idle s else s
  | _, _ => s

/-- R129: a discharge-eligible berth's part of the coverage. -/
def dischargePart (maxDuration : Nat) (dcap available : Nat) (grant : Int) : Int :=
  let most : Int := min dcap (available * 36 / maxDuration)
  max 0 (most - (if grant < 0 then (mag grant : Int) else 0))

/-- R129: the coverage of a periodic run is stored, and moves the state where the rule says. -/
def storeCoverage (value : Int) (w : ReserveWindow) (s : State) : State :=
  let s := { s with reserve := { s.reserve with coverage := some ⟨value, s.stampedSecond, w.reduction⟩ } }
  let st : ReserveState := if w.reduction ≤ value then .armed else .undercovered
  match s.reserve.state with
  | .armed => changeReserve st s
  | .undercovered => changeReserve st s
  | .recovery => if s.reserve.recoveryTarget.isNone then changeReserve st s else s
  | _ => s

/-- R130: an accepted sample feeds the baseline ring, unless a call or a recovery freezes it. -/
def feedRing (power : Int) (s : State) : State :=
  if s.reserve.state = .called ∨ s.reserve.state = .recovery then s
  else
    let ring := s.meter.ring ++ [power]
    { s with meter := { s.meter with ring := ring.drop (ring.length - Config.baselineSamples) } }

end Sys2Proof.Machine
end

