-- ==== Sys2Proof/Machine/SetpointPath.lean ====
section
/-! DEFINITION. Machine/SetpointPath.lean: the Setpoint Path's shared operations (chapter 03): targets, the pending setpoint
list, the start queue, supersession, and what it does when a berth leaves SERVING or its grant falls to 0. -/

namespace Sys2Proof.Machine

/-- R51: the target of berth `x`. -/
def State.target (s : State) (x : Nat) : Int :=
  let b := s.berth x
  if b.session ≠ .serving ∨ b.coupling = .follower then 0
  else if b.grant < 0 then b.grant
  else match b.request with
    | none => b.grant
    | some r => min r.value b.grant

/-! ## The list and the queue (R54, R59) -/

/-- The entry is berth `x`'s own, not the trim a map change left at its old address (R3). -/
def Entry.ownOf (x : Nat) (e : Entry) : Bool := decide (e.berth = x ∧ e.old = none)

/-- Berth `x`'s own work for the line: its entry on the pending setpoint list, or what waits for the trim of its map change (R3). -/
def State.entryOf (s : State) (x : Nat) : Option Entry := (s.path.list ++ s.path.waiting).find? (·.ownOf x)

/-- A trim that a change of berth `x`'s map entry has left stands on the list (R3). -/
def State.trimWaits (s : State) (x : Nat) : Bool := s.path.list.any fun e => decide (e.berth = x) && e.old.isSome

/-- Berth `x` has an entry on the list, or work that will make one. -/
def State.hasEntry (s : State) (x : Nat) : Bool := s.trimWaits x || (s.entryOf x).isSome

/-- Berth `x`'s entry in the start queue. -/
def State.queuedOf (s : State) (x : Nat) : Option Queued := s.path.queue.find? fun q => decide (q.berth = x)

/-- A tag of berth `x` is answered SUPERSEDED (R57); tag 0 is no tag. -/
def supersede (x tag : Nat) (s : State) : State :=
  if tag = 0 then s else reply (berthParty x) tag .superseded .none s

/-- An entry of berth `x`'s own is created with the newest age (R54). While the trim of its map change stands on the list, which
holds one entry of each berth, it waits (R3). -/
def addEntry (x tag : Nat) (s : State) : State :=
  let e : Entry := ⟨x, tag, s.path.nextAge, none⟩
  { s with path := { s.path with
      list := if s.trimWaits x then s.path.list else s.path.list ++ [e]
      waiting := if s.trimWaits x then s.path.waiting ++ [e] else s.path.waiting
      nextAge := s.path.nextAge + 1 } }

/-- The trim of a map change of berth `x` is created with the newest age (R3). -/
def addTrim (x : Nat) (a : OldAddress) (s : State) : State :=
  { s with path := { s.path with list := s.path.list ++ [⟨x, 0, s.path.nextAge, some a⟩], nextAge := s.path.nextAge + 1 } }

/-- Berth `x`'s own work takes a tag; its age is kept (R54). -/
def tagEntry (x tag : Nat) (s : State) : State :=
  let tagged (e : Entry) : Entry := if e.ownOf x then { e with tag := tag } else e
  { s with path := { s.path with list := s.path.list.map tagged, waiting := s.path.waiting.map tagged } }

/-- Berth `x`'s own work leaves the list, or no longer waits. -/
def removeEntry (x : Nat) (s : State) : State :=
  { s with path := { s.path with
      list := s.path.list.filter fun e => !e.ownOf x
      waiting := s.path.waiting.filter fun e => !e.ownOf x } }

/-- Berth `x` leaves the start queue; those behind move up (R61). -/
def removeQueued (x : Nat) (s : State) : State :=
  { s with path := { s.path with queue := s.path.queue.filter fun q => decide (q.berth ≠ x) } }

/-- The setpoint state of berth `x` (R53). -/
def setSetpointState (x : Nat) (p : SetpointState) (s : State) : State := s.editBerth x fun b => { b with setpoint := p }

/-- Work the part originates (R57, second row): an entry is created untagged, or the one there stands. -/
def originateEntry (x : Nat) (s : State) : State :=
  match s.entryOf x with
  | none => addEntry x 0 s
  | some _ => s

/-- Work with a supervisor's tag (R57, first row): an entry is created with it, or takes it, an older tag being SUPERSEDED. -/
def requestEntry (x tag : Nat) (s : State) : State :=
  match s.entryOf x with
  | none => addEntry x tag s
  | some e => tagEntry x tag (supersede x e.tag s)

/-- The tag of an optional entry, 0 where there is none. -/
def entryTag : Option Entry → Nat
  | none => 0
  | some e => e.tag

def queuedTag : Option Queued → Nat
  | none => 0
  | some q => q.tag

/-- The tag berth `x`'s work carries: that of its queue entry, or else of its list entry (R54: never both). -/
def heldTag (x : Nat) (s : State) : Nat :=
  match s.queuedOf x with
  | some q => q.tag
  | none => entryTag (s.entryOf x)

/-- R59: berth `x` joins the start queue with this tag. Its pending entry is removed first and that entry's tag passes to
the queue entry (R57), superseded where the cause brings a tag of its own. A berth already queued is updated in place.
While the trim of the berth's map change stands on the list the work waits for it instead: R54 keeps a berth on the list out of the
queue, and R3 makes of the work an entry once the trim has been sent (DEDUCED, Log 15). -/
def joinQueue (x tag : Nat) (s : State) : State :=
  if s.trimWaits x = true ∧ s.queuedOf x = none then (if tag = 0 then originateEntry x s else requestEntry x tag s) else
  let held := heldTag x s
  let s := if tag = 0 then s else supersede x held s
  let s := setSetpointState x .startQueued (removeEntry x s)
  let q : Queued := ⟨x, if tag = 0 then held else tag⟩
  match s.queuedOf x with
  | none => { s with path := { s.path with queue := s.path.queue ++ [q] } }
  | some _ => { s with path := { s.path with queue := s.path.queue.map fun r => if r.berth = x then q else r } }

/-- R61, first case: a queued berth whose target is 0 while it is still in SERVING becomes IDLE; a tagged queue entry
becomes a list entry with that tag. -/
def leaveQueue (x : Nat) (s : State) : State :=
  let tag := queuedTag (s.queuedOf x)
  let s := setSetpointState x .idle (removeQueued x s)
  if tag = 0 then s else requestEntry x tag s

/-! ## The ages of one event's entries (R54) -/

/-- These entries with the ages from `first` on, in their order. -/
def agedFrom (first : Nat) : List Entry → List Entry
  | [] => []
  | e :: l => { e with age := first } :: agedFrom (first + 1) l

/-- R54: the entries that one event has created, those aged `first` or newer, take their ages in ascending berth number; `first` is the
next age as the event found it. (Which entries are of one event: DEDUCED, Log 60.) -/
def ageByBerth (first : Nat) (s : State) : State :=
  let created := sortBy (fun a b => decide (a.berth < b.berth)) (s.path.list.filter fun e => decide (first ≤ e.age))
  { s with path := { s.path with list := (s.path.list.filter fun e => decide (e.age < first)) ++ agedFrom first created } }

/-! ## Leaving SERVING and grants set to 0 (R64) -/

/-- A SETPOINT of berth `x` on the line is marked: the berth has left SERVING since its dequeue (R67). -/
def markLeft (x : Nat) (l : Line) : Line :=
  match l with
  | .setpointSending tx => if tx.berth = x then .setpointSending { tx with left := true } else l
  | .setpointAck tx => if tx.berth = x then .setpointAck { tx with left := true } else l
  | l => l

/-- What a change of berth `x`'s map entry makes of a SETPOINT on the line (R3): it stays addressed where it was sent, and
nothing of it is written to `x`, or, where it is `x`'s own, to any berth. That a SETPOINT still being sent at the change writes no
commanded field when it has gone whole is the model's: R3 says so of the trim alone (DEDUCED, Log 15). Where `x` is the FOLLOWER of
its berth only `x`'s share is let go: no trim at the follower's old outlet comes of that SETPOINT (DESIGN CHOICE, Log 64). -/
def SetpointTx.detachFrom (x : Nat) (tx : SetpointTx) : SetpointTx :=
  if tx.berth = x then
    { tx with detached := true, left := true, shares := tx.shares.map fun h => { h with berth := none } }
  else { tx with shares := tx.shares.map fun h => if h.berth = some x then { h with berth := none } else h }

/-- R3 for the line. -/
def markDetached (x : Nat) (l : Line) : Line :=
  match l with
  | .setpointSending tx => .setpointSending (tx.detachFrom x)
  | .setpointAck tx => .setpointAck (tx.detachFrom x)
  | l => l

/-- R64 steps 1 to 3: the setpoint state becomes IDLE, and queue and list entries go, their tags answered SUPERSEDED. -/
def withdrawWork (x : Nat) (s : State) : State :=
  let s := setSetpointState x .idle s
  let s := removeQueued x (supersede x (queuedTag (s.queuedOf x)) s)
  removeEntry x (supersede x (entryTag (s.entryOf x)) s)

/-- The zero trim (R64 step 4): an untagged entry when the berth's commanded value is not 0. -/
def zeroTrim (x : Nat) (s : State) : State := if s.commandedNonzero x then originateEntry x s else s

/-- R64: what the Setpoint Path does when berth `x` leaves SERVING. -/
def pathLeaveServing (x : Nat) (s : State) : State :=
  zeroTrim x (withdrawWork x { s with bus := { s.bus with line := markLeft x s.bus.line } })

/-- R64: what the Setpoint Path does when the grant of berth `x` has been set to 0 outside an allocation run and the berth
stays in SERVING. -/
def pathGrantZeroed (x : Nat) (s : State) : State :=
  let b := s.berth x
  if b.session ≠ .serving ∨ b.coupling = .follower then s
  else match b.setpoint with
    | .startQueued => leaveQueue x s
    | .active => if s.pairCommanded x ≠ 0 then originateEntry x s else s
    | .idle => s

/-- R9: berth `x` leaves SERVING for the session state `dest`. -/
def leaveServing (x : Nat) (dest : Session) (s : State) : State :=
  pathLeaveServing x (s.editBerth x fun b =>
    { b with session := dest, grant := 0, request := none, done := false, doneByComplete := false, projectedShort := false })

/-! ## Requests (R58) -/

/-- R58: an accepted SETPOINT_REQ is carried toward the line, the request being stored already. -/
def carryRequest (x tag : Nat) (s : State) : State :=
  match (s.berth x).setpoint with
  | .active => requestEntry x tag s
  | .startQueued => if s.target x ≠ 0 then joinQueue x tag s else requestEntry x tag (leaveQueue x s)
  | .idle => if s.target x ≠ 0 ∧ s.pairCommanded x = 0 then joinQueue x tag s else requestEntry x tag s

/-! ## Following the grants (R62, R63) -/

/-- R62: whether an ACTIVE berth with target `g` and commanded value `c` has a trim or a raise made. -/
def wantsEntry (g c deadband : Int) : Bool :=
  if g = c then false
  else if g = 0 then true
  else if oppositeSigns c g then true
  else if mag g < mag c then true
  else decide (deadband ≤ (mag g : Int) - (mag c : Int))

/-- R62, R63: the recompute of berth `x` after an allocation run. -/
def recompute (x : Nat) (s : State) : State :=
  let b := s.berth x
  if b.session ≠ .serving ∨ b.coupling = .follower then s
  else
    let g := s.target x
    let c := s.pairCommanded x
    match b.setpoint with
    | .active => if wantsEntry g c s.raiseDeadband then originateEntry x s else s
    | .startQueued => if g = 0 then leaveQueue x s else s
    | .idle =>
      if c = 0 then (if g ≠ 0 then joinQueue x 0 s else s)
      else if s.hasEntry x = false ∧ ¬ b.inFlight then addEntry x 0 s
      else s

/-- The recompute of every berth, ascending (R62). -/
def recomputeAll (s : State) : State := berthNumbers.foldl (fun s x => recompute x s) s

/-! ## Handing over an entry (R55, R56) -/

/-- R56: the value an entry carries if it is sent now. The trim of a map change carries 0. -/
def State.entryValue (s : State) (e : Entry) : Int :=
  let b := s.berth e.berth
  if e.old.isNone ∧ b.session = .serving ∧ b.setpoint = .active then
    let g := s.target e.berth
    if oppositeSigns g (s.pairCommanded e.berth) then 0 else g
  else 0

/-- R55: an entry is a reduction. The trim of a map change always is, for its outlet stood at power (DEDUCED, Log 15). -/
def State.isReduction (s : State) (e : Entry) : Bool :=
  e.old.isSome || decide (mag (s.entryValue e) < mag (s.pairCommanded e.berth)) ||
    decide (mag (s.entryValue e) < mag (s.pairConfirmed e.berth))

/-- R55: the entry handed over: the oldest reduction, or else the oldest entry. -/
def State.nextEntry (s : State) : Option Entry :=
  match s.path.list.find? s.isReduction with
  | some e => some e
  | none => s.path.list.head?

/-- R25, R40: the outlet entries of a SETPOINT of this value. -/
def State.shares (s : State) (x : Nat) (v : Int) : List Share :=
  match s.followerOf x with
  | none => [⟨(s.berth x).outlet.getD 0, v, some x⟩]
  | some p => [⟨(s.berth x).outlet.getD 0, halfAway v, some x⟩, ⟨(s.berth p).outlet.getD 0, v - halfAway v, some p⟩]

/-- The SETPOINT made from an entry (R40, R56; R3 for the trim of a map change). -/
def State.setpointOf (s : State) (e : Entry) : SetpointTx :=
  match e.old with
  | none =>
    let v := s.entryValue e
    ⟨e.berth, e.tag, e.age, v, (s.berth e.berth).cabinet.getD 0, s.shares e.berth v, false, false, false⟩
  | some a => ⟨e.berth, e.tag, e.age, 0, a.cabinet, a.outlets.map (⟨·, 0, none⟩), true, true, false⟩

/-- The body of a SETPOINT frame: outlet number and signed steps for each outlet (chapter 02). -/
def setpointBody (shares : List Share) : List Byte :=
  shares.flatMap fun h => BitVec.ofNat 8 h.outlet :: steps16Bytes h.value

/-- One entry leaves the list. -/
def dropEntry (e : Entry) (s : State) : State :=
  { s with path := { s.path with list := s.path.list.filter fun f => decide (f ≠ e) } }

/-- R56: a setpoint of 0 has been sent whole for berth `x`. It becomes IDLE, and joins the start queue untagged where it is
in SERVING with a target other than 0; else a berth that is in the queue leaves it by R61. -/
def zeroSent (x : Nat) (s : State) : State :=
  if (s.berth x).session = .serving ∧ s.target x ≠ 0 ∧ s.pairCommanded x = 0 then joinQueue x 0 (setSetpointState x .idle s)
  else leaveQueue x s

/-- The trim of a map change has been sent: the berth's waiting work makes its entry now (R3). -/
def releaseWork (x : Nat) (s : State) : State :=
  match s.path.waiting.find? (·.ownOf x) with
  | none => s
  | some e => addEntry x e.tag { s with path := { s.path with waiting := s.path.waiting.filter fun e => !e.ownOf x } }

/-- Berth `x`'s own work, on the list or in the queue, waits for a trim of a map change that is put on the list (R3, R54); out of the
queue the berth becomes IDLE, as in R61 (DEDUCED, Log 15). -/
def holdWork (x : Nat) (s : State) : State :=
  let own := s.path.list.filter (·.ownOf x)
  let queued := (s.queuedOf x).toList.map fun q => (⟨x, q.tag, s.path.nextAge, none⟩ : Entry)
  let s := if queued = [] then s else setSetpointState x .idle (removeQueued x s)
  { s with path := { s.path with
      list := s.path.list.filter fun e => !e.ownOf x
      waiting := s.path.waiting ++ own ++ queued } }

/-- R67: a returned entry goes back at its original age; one of a berth whose trim stands there waits (R3). -/
def returnEntry (e : Entry) (s : State) : State :=
  let waits := e.old.isNone && s.trimWaits e.berth
  { s with path := { s.path with
      list := if waits then s.path.list else insertBy (fun a b => decide (a.age < b.age)) e s.path.list
      waiting := if waits then s.path.waiting ++ [e] else s.path.waiting } }

/-- R67: where an abandoned SETPOINT's entry is placed. The trim of a map change returns to the list unless a later one of the
berth stands there (Log 15). -/
def placeReturned (tx : SetpointTx) (s : State) : State :=
  let x := tx.berth
  if tx.trim then
    (if s.trimWaits x then s else returnEntry ⟨x, tx.tag, tx.age, some ⟨tx.cabinet, tx.shares.map (·.outlet)⟩⟩ (holdWork x s))
  else if tx.left then supersede x tx.tag s
  else match s.queuedOf x, s.entryOf x with
    | some q, _ =>
      if q.tag = 0 then
        { s with path := { s.path with queue := s.path.queue.map fun r => if r.berth = x then ⟨x, tx.tag⟩ else r } }
      else supersede x tx.tag s
    | none, some e =>
      let s := if e.tag = 0 then s else supersede x tx.tag s
      returnEntry ⟨x, if e.tag = 0 then tx.tag else e.tag, min e.age tx.age, none⟩ (removeEntry x s)
    | none, none => returnEntry ⟨x, tx.tag, tx.age, none⟩ s

/-! ## The start gate (R60) -/

/-- R60: the head of the start queue, if any, is released. -/
def releaseStart (s : State) : State :=
  match s.path.queue with
  | [] => s
  | q :: rest =>
    let s := { s with path := { s.path with queue := rest } }
    if s.target q.berth ≠ 0 then addEntry q.berth q.tag (setSetpointState q.berth .active s)
    else
      let s := setSetpointState q.berth .idle s
      if q.tag = 0 then s else addEntry q.berth q.tag s

end Sys2Proof.Machine
end

