-- ==== Sys2Proof/Machine/Allocator.lean ====
section
/-! DEFINITION. Machine/Allocator.lean: the allocation run (chapter 04): inputs, budgets, the four passes and the write-out,
with the discharge eligibility of R115 and the site load of R146. -/

namespace Sys2Proof.Machine

/-! ## Stage 1: per-berth inputs (R73 to R80) -/

/-- R79: the slack of a served berth; `noCap` is counted below every other. -/
inductive Slack where
  | absent
  | noCap
  | time (seconds : Int)
  deriving DecidableEq, Repr

/-- What stage 1 works out for a served berth. -/
structure Served where
  berth : Nat
  group : Nat
  cap : Nat
  dcap : Nat
  /-- The need of a known bus, 0 for a guest. -/
  need : Nat
  /-- The need is above 0, or a guest is below target. -/
  wants : Bool
  /-- The bus, with its live run, if any. -/
  bus : Option Nat
  run : Option Run
  /-- T, where there is a deadline. -/
  time : Option Int
  precondition : Bool
  guarded : Bool
  /-- The energy floor, 0 where it is not defined. -/
  energyFloor : Nat
  floor : Nat
  slack : Slack
  capacityLimited : Bool
  eligible : Bool
  available : Nat
  deriving DecidableEq, Repr

/-- R73: the served berths, ascending. -/
def State.servedBerths (s : State) : List Nat :=
  berthNumbers.filter fun x => decide ((s.berth x).session = .serving) && (s.berth x).carriesSession

/-- R20: the guest at berth `x` is below target. -/
def State.guestBelow (s : State) (x : Nat) : Bool :=
  match (s.berth x).soc with
  | some v => decide (v < s.guestTarget)
  | none => decide ((s.berth x).plug = .ready)

/-- R75: the target energy of bus `b` with this live run, if any. -/
def State.targetEnergy (s : State) (b : Nat) (run : Option Run) : Nat :=
  match run with
  | some r => s.chargingTarget r.toRunRecord b
  | none => s.storageTargetEnergy b

/-- R77: the precondition add applies for a live run. -/
def State.preconditions (s : State) (r : RunRecord) : Bool :=
  r.precondition && s.link.clockSet &&
    decide ((r.departure : Int) * 60 - s.preconditionWindow * 60 ≤ s.now ∧ s.now < r.departure * 60) &&
    match s.meter.ambient with
    | none => true
    | some a => decide (a ≤ s.preconditionThreshold)

/-- R78, R79: energy over a time or a power: ceil(need × 36,000 / (v × η)). -/
def State.needOver (s : State) (need v : Nat) : Nat := ceilDiv (need * 36000) (v * s.efficiency)

/-- R78: the floor before it is bounded by cap. -/
def floorOf (time : Option Int) (need cap energyFloor add : Nat) : Nat :=
  match time with
  | none => 0
  | some t => if 0 < t then energyFloor + add else if 0 < need then cap else add

/-- R79: the slack. -/
def State.slackOf (s : State) (time : Option Int) (need cap : Nat) : Slack :=
  match time with
  | none => .absent
  | some t =>
    if need = 0 then .time t
    else if cap = 0 then .noCap
    else .time (t - s.needOver need cap)

/-- R115: berth `x` with these figures is discharge-eligible. -/
def State.dischargeEligible (s : State) (x dcap : Nat) (guarded : Bool) : Bool :=
  s.inRun && s.meterValid && decide (0 < dcap) && !guarded &&
    match (s.berth x).bus with
    | none => false
    | some b => (s.fleetBus b).permitted && s.fresh b && decide (0 < s.availableOf b)

/-- Stage 1 for berth `x`. -/
def State.inputs (s : State) (x : Nat) : Served :=
  let bus := (s.berth x).bus
  let run := bus.bind s.liveRun
  let cap := s.chargeCap x
  let dcap := s.dischargeCap x
  let need := match bus with
    | none => 0
    | some b => s.targetEnergy b run - s.storedOrZero b
  let time := if s.link.clockSet then run.map (fun r => s.timeToDeadline r.toRunRecord) else none
  let pre := match run with
    | none => false
    | some r => s.preconditions r.toRunRecord
  let guarded := match time with
    | none => false
    | some t => decide (t ≤ s.guardHorizon) && (decide (0 < need) || pre)
  let energyFloor := match time with
    | none => 0
    | some t => if 0 < t then s.needOver need t.toNat else 0
  { berth := x, group := (s.berth x).group.getD 0, cap := cap, dcap := dcap, need := need,
    wants := if bus.isSome then decide (0 < need) else s.guestBelow x,
    bus := bus, run := run, time := time, precondition := pre, guarded := guarded, energyFloor := energyFloor,
    floor := min cap (floorOf time need cap energyFloor (if pre then s.preconditionPower else 0)),
    slack := s.slackOf time need cap,
    capacityLimited := match bus, run with
      | some b, some r => decide ((s.fleetBus b).ceiling < s.energyTarget r.toRunRecord b)
      | _, _ => false
    eligible := s.dischargeEligible x dcap guarded,
    available := match bus with
      | none => 0
      | some b => s.availableOf b }

/-- R21, R22, R75: stage 1 brings DONE into line with the need. -/
def alignDone (v : Served) (s : State) : State :=
  let b := s.berth v.berth
  let atTarget := if v.bus.isSome then decide (v.need = 0) else
    match b.soc with
    | none => false
    | some n => decide (s.guestTarget ≤ n)
  if atTarget then setDone v.berth (s.editBerth v.berth fun r => { r with doneByComplete := false })
  else if v.wants ∧ b.plug ≠ .complete then clearDone v.berth s
  else s

/-- R79: `a` stands before `b` in the pass order; equal slacks keep ascending berth number. -/
def Slack.before : Slack → Slack → Bool
  | .noCap, .noCap => false
  | .noCap, _ => true
  | .time _, .absent => true
  | .time a, .time b => decide (a < b)
  | _, _ => false

/-- R79: the pass order of the served berths. -/
def passOrder (l : List Served) : List Served := sortBy (fun a b => a.slack.before b.slack) l

/-! ## Stage 2: budgets (R81, R82, R146) -/

/-- R146: the site non-berth load. -/
def State.siteLoad (s : State) : Int :=
  if s.meterValid then
    max 0 (s.meter.power.getD 0 - sumOf (fun x => (s.berth x).measured)
      (berthNumbers.filter fun x => decide ((s.berth x).session = .serving ∨ (s.berth x).session = .follower)))
  else s.fallbackLoad

/-- The budgets of a run (R81, R82). -/
structure Budgets where
  hard : Int
  softLimit : Int
  soft : Int
  binding : BindingTerm
  deriving DecidableEq, Repr

/-- The smallest of the terms present, and the binding term, the reserve term winning a tie over the demand term and the
demand term over the feeder term (R82). -/
def leastTerm (feeder : Int) (demand reserve : Option Int) : Int × BindingTerm :=
  let withDemand : Int × BindingTerm :=
    match demand with
    | none => (feeder, .feeder)
    | some d => if d ≤ feeder then (d, .demand) else (feeder, .feeder)
  match reserve with
  | none => withDemand
  | some r => if r ≤ withDemand.1 then (r, .reserve) else withDemand

/-- R81, R82, R147. With the meter invalid the soft limit is the feeder term alone, and no bound by −E_x lifts it (DEDUCED, Log 50). -/
def State.budgets (s : State) : Budgets :=
  let feeder := s.importCeiling - s.meter.squeeze
  let least := leastTerm feeder s.holdTarget s.reserveTerm
  let limit : Int × BindingTerm := if s.meterValid then (max (-s.exportLimit) least.1, least.2) else (feeder, .feeder)
  { hard := feeder - s.siteLoad, softLimit := limit.1, soft := limit.1 - s.siteLoad, binding := limit.2 }

/-! ## The passes (R83 to R87) -/

/-- The working grants, one for each berth, with what the pass still has to give. -/
structure Passing where
  grants : List Int
  rest : Int
  deriving DecidableEq, Repr

/-- The working grant of berth `x`. -/
def grantOf (grants : List Int) (x : Nat) : Int := grants.getD x 0

/-- R83: the granted sum. -/
def grantedSum (grants : List Int) : Int := sumOf (fun g => max 0 g) grants

/-- R83: the headroom of group `g`, its members being berths of the run. -/
def State.groupRoom (s : State) (served : List Served) (grants : List Int) (g : Nat) : Int :=
  if (s.groupEntry g).enable then
    max 0 ((s.groupEntry g).limit -
      sumOf (fun v => max 0 (grantOf grants v.berth)) (served.filter fun v => decide (v.group = g)))
  else 0

/-- R84: one guarded berth of pass 1; `rest` is the remaining hard budget. -/
def guardStep (s : State) (served : List Served) (p : Passing) (v : Served) : Passing :=
  if v.guarded then
    let g := min (min (v.floor : Int) (s.groupRoom served p.grants v.group)) p.rest
    ⟨p.grants.set v.berth g, p.rest - g⟩
  else p

/-- R85: one unguarded berth of pass 2. -/
def floorStep (s : State) (served : List Served) (soft : Int) (p : Passing) (v : Served) : Passing :=
  if v.guarded then p
  else
    let g := min (min (min (v.floor : Int) (s.groupRoom served p.grants v.group)) p.rest) (max 0 (soft - grantedSum p.grants))
    ⟨p.grants.set v.berth g, p.rest - g⟩

/-- R86: what berth `v` can still take of the fill at this moment. -/
def State.fillRoom (s : State) (served : List Served) (grants : List Int) (v : Served) : Int :=
  min ((v.cap : Int) - grantOf grants v.berth) (s.groupRoom served grants v.group)

/-- R86: berth `v` is fill-eligible. -/
def State.fillEligible (s : State) (served : List Served) (grants : List Int) (v : Served) : Bool :=
  !(s.berth v.berth).done && v.wants && decide (0 < s.fillRoom served grants v)

/-- R86: one berth of a round gains at most `most`; `rest` is R. -/
def fillStep (s : State) (served : List Served) (most : Int) (p : Passing) (v : Served) : Passing :=
  let gain := max 0 (min (min most p.rest) (s.fillRoom served p.grants v))
  ⟨p.grants.set v.berth (grantOf p.grants v.berth + gain), p.rest - gain⟩

/-- R86: the rounds of pass 3, at most `n` of them: a round that empties no R takes a berth out of the fill, or leaves R
below the count, so twice the berths are enough. -/
def fillRounds (s : State) (served : List Served) : Nat → Passing → Passing
  | 0, p => p
  | n + 1, p =>
    let eligible := served.filter (s.fillEligible served p.grants)
    if p.rest ≤ 0 ∨ eligible = [] then p
    else
      let share := p.rest / (eligible.length : Int)
      fillRounds s served n (eligible.foldl (fillStep s served (if 0 < share then share else 1)) p)

/-- R87: the horizon. -/
def State.horizon (s : State) : Nat :=
  match s.reserve.state, s.reserve.call with
  | .called, some c => max 60 c.left
  | _, _ => 900

/-- R116: p_avail. -/
def State.powerAvailable (s : State) (v : Served) : Nat := v.available * 36 / s.horizon

/-- R87: one berth of pass 4; `rest` is D remaining. -/
def dischargeStep (s : State) (p : Passing) (v : Served) : Passing :=
  if grantOf p.grants v.berth = 0 ∧ (s.groupEntry v.group).enable then
    let g := min (min (v.dcap : Int) (s.powerAvailable v)) p.rest
    ⟨p.grants.set v.berth (-g), p.rest - g⟩
  else p

/-- R87: the discharge-eligible berths in the order of pass 4. -/
def dischargeOrder (served : List Served) : List Served :=
  sortBy (fun a b => decide (b.available < a.available)) (served.filter (·.eligible))

/-- What the four passes leave. -/
structure Outcomes where
  /-- The working grants after pass 3. -/
  filled : List Int
  grants : List Int
  unallocated : Int
  demand : Int
  shortfall : Int
  deriving DecidableEq, Repr

/-- R84 to R87: the four passes over the served berths, given in ascending berth number. -/
def State.passes (s : State) (b : Budgets) (served : List Served) : Outcomes :=
  let order := passOrder served
  let p1 := order.foldl (guardStep s served) ⟨List.replicate Config.berths 0, max 0 b.hard⟩
  let p2 := order.foldl (floorStep s served b.soft) p1
  let p3 := fillRounds s order (2 * order.length + 2) ⟨p2.grants, max 0 (min b.soft b.hard - grantedSum p2.grants)⟩
  let d := max 0 (grantedSum p3.grants - b.soft)
  let p4 := if 0 < d then (dischargeOrder served).foldl (dischargeStep s) ⟨p3.grants, d⟩ else ⟨p3.grants, 0⟩
  { filled := p3.grants, grants := p4.grants, unallocated := p3.rest, demand := d, shortfall := p4.rest }

/-! ## Projections (R80) -/

/-- R80: a slack below 0. -/
def Slack.late : Slack → Bool
  | .time n => decide (n < 0)
  | _ => false

/-- R80: a served berth's projection, with its grant after pass 3. The cap of 0 tells only for a berth with a deadline
(R110; DEDUCED, Log 19). -/
def Served.projection (v : Served) (filled : Int) : Option ShortReason :=
  match v.run with
  | none => none
  | some _ =>
    if v.capacityLimited then some .capacity
    else match v.time with
      | none => none
      | some t =>
        if 0 < v.need ∧ (v.slack.late = true ∨ t ≤ 0 ∨ v.cap = 0 ∨
            (v.guarded = true ∧ 0 < t ∧ filled < (v.energyFloor : Int))) then some .time
        else none

/-! ## Write-out (R88 to R92) -/

/-- R88: a discharge shortfall above 0 is handed on by the binding term. -/
def handShortfall (amount : Int) (b : Budgets) (s : State) : State :=
  if amount ≤ 0 then s
  else match b.binding with
    | .reserve => reserveShortfall amount s
    | .demand => peakShortfall amount (s.holdTarget.getD 0) s
    | .feeder => s

/-- R89: every berth takes its working grant, 0 for one that is not served. -/
def writeGrants (grants : List Int) (s : State) : State :=
  { s with berths := s.berths.mapIdx fun x b => { b with grant := grantOf grants x } }

/-- R90: every berth's projected-short flag. -/
def writeProjections (short : List Nat) (s : State) : State :=
  { s with berths := s.berths.mapIdx fun x b => { b with projectedShort := short.contains x } }

/-- R90, R98: the live runs of served berths are handed over, in table order. -/
def handRuns (served : List Served) (filled : List Int) (s : State) : State :=
  s.runs.active.foldl (fun s r =>
    match served.find? (fun v => decide ((v.run.map (·.runId)) = some r.runId)) with
    | none => s
    | some v => handOver r (v.bus.getD 0) v.need (v.projection (grantOf filled v.berth)) s) s

/-- R91: the totals of a run made over state `s`. -/
def State.totalsOf (s : State) (kind : RunKind) (b : Budgets) (served : List Served) (o : Outcomes) (short : Nat) : Totals :=
  { kind := kind, time := s.stampedSecond, hard := b.hard, softLimit := b.softLimit, soft := b.soft, binding := b.binding,
    siteLoad := s.siteLoad, squeeze := s.meter.squeeze, chargeSum := grantedSum o.grants,
    dischargeSum := sumOf (fun g => max 0 (-g)) o.grants, served := served.length,
    guarded := (served.filter (·.guarded)).length, short := short, unallocated := o.unallocated, demand := o.demand,
    shortfall := o.shortfall, count := (s.alloc.totals.count + 1) % 65536 }

/-- R92, R129: the coverage of a periodic run. -/
def coverageOf (w : ReserveWindow) (served : List Served) (grants : List Int) : Int :=
  sumOf (fun v => max 0 (grantOf grants v.berth)) (served.filter fun v => !v.guarded) +
    sumOf (fun v => dischargePart w.maxDuration v.dcap v.available (grantOf grants v.berth)) (served.filter (·.eligible))

/-- R92, R129: coverage is computed in a periodic run while a window is active and the reserve is not UNAVAILABLE. -/
def handCoverage (kind : RunKind) (served : List Served) (grants : List Int) (s : State) : State :=
  match kind, s.reserve.judged with
  | .periodic, some w =>
    if s.reserve.state = .unavailable then s else storeCoverage (coverageOf w served grants) w s
  | _, _ => s

/-- R71: an allocation run from stage 1 on. The notices of one run stand in the order of the stages (Log 23). -/
def allocationRun (kind : RunKind) (s : State) : State :=
  let s := writeEnergies s
  let served := s.servedBerths.map s.inputs
  let s := served.foldl (fun s v => alignDone v s) s
  let b := s.budgets
  let o := s.passes b served
  let short := (served.filter fun v => (v.projection (grantOf o.filled v.berth)).isSome).map (·.berth)
  let totals := s.totalsOf kind b served o short.length
  let s := recomputeAll (writeGrants o.grants (handShortfall o.shortfall b s))
  let s := handRuns served o.filled (writeProjections short s)
  handCoverage kind served o.grants { s with alloc := { s.alloc with totals := totals } }

/-- R70: an immediate run, in RUN only. -/
def immediateRun (s : State) : State := if s.inRun then allocationRun .immediate s else s

/-- R70: an immediate run where an event asks for one. -/
def immediateIf (asked : Bool) (s : State) : State := if asked then immediateRun s else s

/-- R72: stage 0 of a periodic run. A call ended here is followed by no second run (R136). -/
def stageZero (s : State) : State :=
  let s := if s.runs.pending.armed then (applyDaySet s).1 else s
  swapRuns (assignRuns s)

/-- R69, R72: a periodic run. -/
def periodicAllocation (s : State) : State := allocationRun .periodic (reboundStep (stageZero s))

end Sys2Proof.Machine
end

