-- ==== Sys2Proof/Machine/Sessions.lean ====
section
/-! DEFINITION. Machine/Sessions.lean: the Berth Table's session machine (R5 to R11), tag resolution (R17 to R19), and the
latching, detecting and clearing of faults (R151 to R157). -/

namespace Sys2Proof.Machine

/-! ## Tag resolution (R17 to R19) -/

/-- R19: the association of berth `x`, if any, is dropped as an unplug. -/
def unplug (x : Nat) (s : State) : State :=
  match (s.berth x).bus with
  | none => s
  | some b => runUnplug b (dissociate x s)

/-- R17: the tag of berth `x` is resolved. -/
def resolveTag (x : Nat) (s : State) : State :=
  let tag := (s.berth x).tag
  match s.busWithTag tag with
  | none => notify (.tagUnknown x tag) (dissociate x s)
  | some b =>
    match (s.fleetBus b).berth with
    | none => associate b x (dissociate x s)
    | some y =>
      if y = x then s else notify (.tagConflict x b y tag) (associate b x (dissociate y (dissociate x s)))

/-- R18: a berth left without a bus takes a free one whose tag it reports. -/
def reassociate (x : Nat) (s : State) : State :=
  match (s.berth x).bus, s.busWithTag (s.berth x).tag with
  | none, some b => if (s.fleetBus b).berth.isNone then associate b x s else s
  | _, _ => s

/-- A berth with a vehicle in session: CONNECTED or SERVING. -/
def Session.plugged : Session → Bool
  | .connected | .serving => true
  | _ => false

/-! ## Reports and the session (R7, R8, R10) -/

/-- R7: berth `x` enters SERVING; the Setpoint Path takes it up IDLE. -/
def enterServing (x : Nat) (s : State) : State := s.editBerth x fun b => { b with session := .serving, setpoint := .idle }

/-- R7, R17: berth `x` enters CONNECTED and its tag is resolved. -/
def enterConnected (x : Nat) (s : State) : State := resolveTag x (s.editBerth x fun b => { b with session := .connected })

/-- The plug rule of R7, R8 and R10 for a berth that carries a session. A berth that enters CONNECTED, from SERVING as well,
has its tag resolved (R17; DEDUCED, Log 38). -/
def plugRule (x : Nat) (s : State) : State :=
  match (s.berth x).session, (s.berth x).plug with
  | .empty, .none => unplug x s
  | .empty, .ready => enterServing x (enterConnected x s)
  | .empty, _ => enterConnected x s
  | .connected, .none =>
    unplug x (s.editBerth x fun b => { b with session := .empty, request := none, done := false, doneByComplete := false })
  | .connected, .ready => enterServing x s
  | .serving, .none => unplug x (leaveServing x .empty s)
  | .serving, .connected => resolveTag x (leaveServing x .connected s)
  | .faulted, .none => unplug x s
  | _, _ => s

/-- R7, R17, R18 after the plug rule: in CONNECTED or SERVING a tag that differs from the one held before the report is resolved
again, on a report that has entered CONNECTED as on any other (Log 37). -/
def tagRules (x : Nat) (oldTag : Ident) (s : State) : State :=
  if (s.berth x).session.plugged then reassociate x (if (s.berth x).tag ≠ oldTag then resolveTag x s else s) else s

/-- R7, R8, R10, R17, R18, R21, R22: step 2 of R38, the report's fields being written already. -/
def sessionRules (x : Nat) (oldTag : Ident) (s : State) : State := reportDone x (tagRules x oldTag (plugRule x s))

/-! ## Enables (R5, R6) -/

/-- A fault flag is latched on berth `x` or on its follower. -/
def State.pairFaulted (s : State) (x : Nat) : Bool :=
  (s.berth x).flags.any ||
    match s.followerOf x with
    | none => false
    | some p => (s.berth p).flags.any

/-- R5: BERTH_ENABLE_SET on one berth. -/
def enableBerth (x : Nat) (s : State) : State :=
  if (s.berth x).session = .disabled then
    s.editBerth x fun b => { b with enable := true, session := if s.pairFaulted x then .faulted else .empty }
  else s

/-- R6: BERTH_ENABLE_CLEAR on one berth. Outside SERVING a waiting entry stands in for the zero trim (DEDUCED, Log 30). -/
def disableBerth (x : Nat) (s : State) : State :=
  if (s.berth x).session = .disabled then s
  else
    let s := if (s.berth x).session = .serving then leaveServing x .disabled s else zeroTrim x (removeQueued x s)
    dissociate x (s.editBerth x fun b => { b with enable := false, session := .disabled, grant := 0 })

/-! ## Latching (R10, R155) -/

/-- R10, R155 steps 2 and 3: the session of berth `x` under a latch. -/
def faultSession (x : Nat) (s : State) : State :=
  match (s.berth x).session with
  | .serving => leaveServing x .faulted s
  | .empty | .connected => zeroTrim x (withdrawWork x (s.editBerth x fun b => { b with session := .faulted }))
  | _ => s

/-- The berth that carries the session of berth `x`: its leader for a FOLLOWER (none where it has none, R11). -/
def State.carrierOf (s : State) (x : Nat) : Option Nat :=
  if (s.berth x).coupling = .follower then s.leaderOf x else some x

/-- R155: a flag latches on berth `x`. The notice names the berth carrying the session, which for a FOLLOWER without a LEADER is the
FOLLOWER itself (DESIGN CHOICE, Log 13). -/
def latchFault (x : Nat) (flag : FaultFlag) (s : State) : State :=
  let carrier := s.carrierOf x
  let s := s.editBerth x fun b => { b with flags := b.flags.latch flag }
  let s := match carrier with
    | none => s
    | some l => faultSession l s
  let y := carrier.getD x
  notify (.berthFault x flag y (s.berth y).bus (s.berth x).measured) s

/-- The session states that let a detection latch (R154): EMPTY, CONNECTED and SERVING, and FOLLOWER for a detector that
watches outlets. -/
def Session.watched : Session → Bool
  | .empty | .connected | .serving | .follower => true
  | _ => false

/-! ## Detectors (R151 to R154) -/

/-- A detection counter of berth `x` is set. -/
def editCounters (x : Nat) (f : FaultCounters → FaultCounters) (s : State) : State :=
  s.editBerth x fun b => { b with counters := f b.counters }

/-- R152: the excess condition. -/
def Berth.excess (b : Berth) : Bool := decide (mag b.commanded + max 20 (mag b.commanded / 10) < mag b.measured)

/-- R152. A trip latches whatever the counter, and leaves the counter as it was, also where the excess condition holds: the rule does
not say whether its cases exclude each other (DESIGN CHOICE, Log 59). -/
def detectOvercurrent (x : Nat) (trip : Bool) (s : State) : State :=
  let b := s.berth x
  if b.flags.overcurrent then s
  else if trip then latchFault x .overcurrent s
  else if b.excess then
    let n := min 2 (b.counters.overcurrent + 1)
    let s := editCounters x (fun c => { c with overcurrent := n }) s
    if n = 2 then latchFault x .overcurrent s else s
  else editCounters x (fun c => { c with overcurrent := 0 }) s

/-- A setpoint is in flight for berth `x`: for a FOLLOWER, for its leader (R153). -/
def State.inFlightFor (s : State) (x : Nat) : Bool :=
  match s.carrierOf x with
  | none => false
  | some l => (s.berth l).inFlight

/-- R153: the open path condition. -/
def State.openPathCondition (s : State) (x : Nat) (contactor : Bool) : Bool :=
  let b := s.berth x
  decide (50 ≤ mag b.commanded) && decide (50 ≤ mag b.confirmed) && contactor && !s.inFlightFor x &&
    (match b.confirmAge with
      | none => false
      | some n => decide (10 ≤ n)) && decide (mag b.measured < 5)

/-- R153. -/
def detectOpenPath (x : Nat) (contactor : Bool) (s : State) : State :=
  let b := s.berth x
  if b.flags.openPath then s
  else if s.openPathCondition x contactor then
    let n := min 5 (b.counters.openPath + 1)
    let s := editCounters x (fun c => { c with openPath := n }) s
    if n = 5 then latchFault x .openPath s else s
  else editCounters x (fun c => { c with openPath := 0 }) s

/-- R154. -/
def detectIsolation (x : Nat) (fault : Bool) (s : State) : State :=
  if (s.berth x).flags.isolation then s
  else if fault then latchFault x .isolation (editCounters x (fun c => { c with isolation := 1 }) s)
  else editCounters x (fun c => { c with isolation := 0 }) s

/-- R151: an unwatched report breaks the runs of reports; the counter of a latched flag keeps its value (Log 16). -/
def breakCounters (x : Nat) (s : State) : State :=
  let f := (s.berth x).flags
  editCounters x (fun c => { c with
    overcurrent := if f.overcurrent then c.overcurrent else 0
    openPath := if f.openPath then c.openPath else 0
    isolation := if f.isolation then c.isolation else 0 }) s

/-- Step 4 of R38: the detectors of berth `x` for an entry with these outlet flags. All of them run where the session
state lets any run, even after one has latched; they run, and their BERTH_FAULT notices stand, in the order OVERCURRENT, OPEN_PATH,
ISOLATION, for which the spec gives none (DEDUCED, Log 17). -/
def detectFaults (x : Nat) (trip isolation contactor : Bool) (s : State) : State :=
  if (s.berth x).session.watched then detectIsolation x isolation (detectOpenPath x contactor (detectOvercurrent x trip s))
  else breakCounters x s

/-- The configured berths that name cabinet `c`, ascending. -/
def State.cabinetBerths (s : State) (c : Nat) : List Nat :=
  berthNumbers.filter fun x => (s.berth x).configured && decide ((s.berth x).cabinet = some c)

/-- A COMM_MISS or NO_CONFIRM detection for berth `x` (R154): no effect outside the watched states or on a latched flag. -/
def detection (x : Nat) (flag : FaultFlag) (s : State) : State :=
  if (s.berth x).session.watched ∧ (s.berth x).flags.has flag = false then latchFault x flag s else s

/-- R154: a slot outcome of cabinet `c` with this miss count, reported as a detection or not; one berth after another, in
ascending order (Log 18). The trims of all of them are aged by berth (R54), for a FOLLOWER's latch makes its leader's. -/
def commMissOutcome (c misses : Nat) (detected : Bool) (s : State) : State :=
  let s := (s.cabinetBerths c).foldl (fun s x => editCounters x (fun k => { k with commMiss := misses }) s) s
  if detected then ageByBerth s.path.nextAge ((s.cabinetBerths c).foldl (fun s x => detection x .commMiss s) s) else s

/-- R66 step 2: one more missing acknowledgement of berth `x`'s setpoints; at 3 it is reported (R154). The counter is that of the berth
the SETPOINT was made for, also where a map change has made it a FOLLOWER while its SETPOINT or the trim at its old address was under way:
R66 counts there, and by R52 a FOLLOWER holds no such counter. No detection is made from it, for the FOLLOWER or for its leader
(DESIGN CHOICE, Log 65). -/
def countNoConfirm (x : Nat) (s : State) : State :=
  let n := min 3 ((s.berth x).counters.noConfirm + 1)
  let s := editCounters x (fun c => { c with noConfirm := n }) s
  if n = 3 ∧ (s.berth x).session ≠ .follower then detection x .noConfirm s else s

/-! ## Clearing (R157) -/

/-- R157 for one berth. -/
def clearFaults (x : Nat) (s : State) : State :=
  s.editBerth x fun b =>
    { b with flags := .clear, counters := .zero, session := if b.session = .faulted then .empty else b.session }

/-- R157: FAULT_CLEAR on a berth and on its partner. -/
def clearPairFaults (x : Nat) (s : State) : State :=
  match s.followerOf x with
  | none => clearFaults x s
  | some p => clearFaults p (clearFaults x s)

end Sys2Proof.Machine
end

