-- ==== Sys2Proof/Machine/Modes.lean ====
section
/-! DEFINITION. Machine/Modes.lean: Mode Control (chapter 11): entering and leaving RUN, and what RESTART and a full reset
leave. -/

namespace Sys2Proof.Machine

/-- The mode changes, with its MODE notice (R173). -/
def changeMode (mode : Mode) (cause : ModeCause) (s : State) : State :=
  notify (.mode s.ctl.mode mode cause) { s with ctl := { s.ctl with mode := mode } }

/-- R174 steps 1 to 4: the controller enters RUN. The period timer waits for the start-up stop (R48; Log 33). -/
def enterRun (cause : ModeCause) (s : State) : State :=
  let s := changeMode .run cause s
  immediateRun (reserveAvailable { s with alloc := { s.alloc with periodRunning := s.bus.stopWhole } })

/-- Grants set to 0 outside an allocation run (R64): every berth of a list, then the Setpoint Path for each in order. -/
def zeroGrants (xs : List Nat) (s : State) : State :=
  let s := xs.foldl (fun s x => s.editBerth x fun b => { b with grant := 0 }) s
  xs.foldl (fun s x => pathGrantZeroed x s) s

/-- R175: the controller leaves RUN for this mode. -/
def leaveRun (mode : Mode) (cause : ModeCause) (s : State) : State :=
  let s := changeMode mode cause s
  let s := zeroGrants berthNumbers { s with alloc := { s.alloc with periodRunning := false } }
  reserveUnavailable .mode { s with berths := s.berths.map fun b => { b with request := none } }

/-! ## RESTART (R179) -/

/-- R2: a berth record after RESTART. -/
def Berth.restarted (b : Berth) : Berth :=
  { Berth.blank with
    configured := b.configured, cabinet := b.cabinet, outlet := b.outlet, group := b.group, coupling := b.coupling,
    partner := b.partner, enable := b.enable, hwCharge := b.hwCharge, hwDischarge := b.hwDischarge,
    noticeEnable := b.noticeEnable,
    session := if b.configured = false then .unconfigured else if b.coupling = .follower then .follower
      else if b.enable then .empty else .disabled }

/-- R13, R114: a bus record after RESTART. -/
def Bus.restarted (b : Bus) : Bus := { b with berth := none, protectedEnergy := none, availableEnergy := none }

/-- R48, R47: the Berth Bus Master after RESTART: the line's work has ended and the stop is on it. The receiver's bytes go with the
slot or window that ends (DESIGN CHOICE, Log 63). -/
def BusMaster.restarted (b : BusMaster) : BusMaster :=
  { b with line := .stopSending, rx := [], busTx := stopFrame, chainOut := false, missCounts := List.replicate Config.cabinets 0,
           passFifo := [], surveyRunning := false, surveyDue := false, nextKind := .full, quietCount := 0, recheck := false,
           enrollWaiting := false, stopWhole := false }

/-- R150: the Meter Port after RESTART. The ambient temperature is kept, and so are the bytes of a frame the receive framer has begun
(DESIGN CHOICE, Log 63); the latest sequence and the second of the last accepted sample, which the table leaves out, go with the
sample (DEDUCED, Log 47). -/
def Meter.restarted (m : Meter) : Meter :=
  { m with sequence := none, power := none, frequency := none, lastSequence := none, lastSecond := none, state := .noSignal, missCount := 0,
           recoverCount := 0, timerRunning := false, ring := [], overrun := .normal, squeeze := 0, overCount := 0,
           overExcess := 0, underCount := 0, escalation := 0 }

/-- R137: the Reserve Unit after RESTART: a call is closed with cause RESTART, without a notice. -/
def restartReserve (s : State) : State :=
  let s := match s.reserve.call with
    | none => s
    | some c => closeCall c .restart none s
  { s with reserve := { s.reserve with
      state := .unavailable, coverage := none, recoveryTarget := none, tripCount := 0, recoverCount := 0 } }

/-- R120: the demand interval after RESTART or a TIME_SET. -/
def restartInterval (s : State) : State :=
  if s.link.clockSet then newInterval true s else { s with storage := { s.storage with interval := none } }

/-- R179 steps 1 to 3 and 5, and the emptying of step 4. The Depot Link Port's framer keeps the bytes behind the SERVICE frame it has
given up (DESIGN CHOICE, Log 63). -/
def restartState (s : State) : State :=
  let s := restartInterval (restartRuns (restartReserve s))
  { s with
    ctl := { s.ctl with autorun := false }
    bus := s.bus.restarted
    meter := s.meter.restarted
    berths := s.berths.map Berth.restarted
    fleet := s.fleet.map Bus.restarted
    alloc := { totals := Totals.zero, periodRunning := false }
    path := { s.path with list := [], waiting := [], queue := [], nextAge := 0, slotRunning := false }
    link := { s.link with fifo := [], slots := List.replicate Config.cabinets Slot.clear, lastSent := 12 } }

end Sys2Proof.Machine
end

