-- ==== Sys2Proof/Machine/Operands.lean ====
section
/-! DEFINITION. Machine/Operands.lean: the operand forms of the commands: the targets of SERVICE entries, and the entries
of a TABLE frame taken one by one with a result each. -/

namespace Sys2Proof.Machine

/-! ## Targets -/

/-- The berth a session command acts on (R5, R11): the target itself, or the leader of a FOLLOWER; none for an
UNCONFIGURED berth, a number above 35, or a FOLLOWER whose partner is not its LEADER. -/
def State.sessionTarget (s : State) (n : Nat) : Option Nat :=
  if Config.berths ≤ n ∨ (s.berth n).configured = false then none
  else if (s.berth n).coupling = .follower then s.leaderOf n
  else some n

/-- A session command on its target (R5, R6, R22): every configured berth that is not a FOLLOWER for ALL. -/
def onSessionTarget (target : Target) (effect : Nat → State → State) (s : State) : State × ReplyCode :=
  match target with
  | .all => (s.sessionBerths.foldl (fun s x => effect x s) s, .ok)
  | .one n =>
    match s.sessionTarget n with
    | none => (s, .badValue)
    | some x => (effect x s, .ok)

/-- A command on one berth record as it is named, or on all 36 records (R12). -/
def onEachRecord (target : Target) (effect : Nat → State → State) (s : State) : State × ReplyCode :=
  match target with
  | .all => (berthNumbers.foldl (fun s x => effect x s) s, .ok)
  | .one n => if Config.berths ≤ n then (s, .badValue) else (effect n s, .ok)

/-- A setting of one of `size` numbered flags, or of all of them (R159, R162); none for a number out of range. -/
def setFlags (size : Nat) (target : Target) (value : Bool) (flags : List Bool) : Option (List Bool) :=
  match target with
  | .all => some (flags.map fun _ => value)
  | .one n => if n < size then some (flags.set n value) else none

/-! ## Entries -/

/-- The entries of a frame taken in order, each with its own result (R105, R117, R125, R166, R167, R3, R23). -/
def takeEntries {α : Type} (take : α → State → State × ReplyCode) : List α → State → State × List ReplyCode
  | [], s => (s, [])
  | e :: rest, s =>
    let first := take e s
    let others := takeEntries take rest first.1
    (others.1, first.2 :: others.2)

/-- A TABLE frame taken entry by entry is answered OK with one result for each entry (R164, R166). -/
def answerEntries (tag : Nat) (out : State × List ReplyCode) : State := reply 0 tag .ok (.results out.2) out.1

end Sys2Proof.Machine
end

