-- ==== Sys2Proof/Machine/MapOps.lean ====
section
/-! DEFINITION. Machine/MapOps.lean: the berth map (R3, R4): its entries, its consistency, and the default map of R178. -/

namespace Sys2Proof.Machine

/-! ## Losing the old entry (R3) -/

/-- R3: where the zero trim of berth `x` is addressed when its map entry changes: its cabinet, and those of its outlets
(for a LEADER its own and its follower's, R52) that the cabinet still has; none where none is left (Log 15). -/
def State.oldAddress (s : State) (x : Nat) : Option OldAddress :=
  match (s.berth x).cabinet with
  | none => none
  | some c =>
    match s.cabinet? c with
    | none => none
    | some record =>
      let follower := match s.followerOf x with
        | none => []
        | some p => (s.berth p).outlet.toList
      match ((s.berth x).outlet.toList ++ follower).filter (fun o => decide (o < record.outlets.length)) with
      | [] => none
      | outlets => some ⟨c, outlets⟩

/-- R3: the zero trim a map change leaves at the old address; one that stands already does for it, for the list holds one entry
of each berth (R54; DEDUCED, Log 15). -/
def detachedTrim (x : Nat) (s : State) : State :=
  if s.commandedNonzero x ∧ s.trimWaits x = false then
    match s.oldAddress x with
    | none => s
    | some a => addTrim x a s
  else s

/-- R3: a configured berth loses its session, and what was on the line for it stays where it was sent. The telemetry
fields and the confirm age are kept (Log 35). -/
def loseSession (x : Nat) (s : State) : State :=
  let s := detachedTrim x (withdrawWork x { s with bus := { s.bus with line := markDetached x s.bus.line } })
  dissociate x (s.editBerth x fun b =>
    { b with grant := 0, commanded := 0, confirmed := 0, request := none, done := false, doneByComplete := false,
             projectedShort := false, flags := .clear, counters := .zero, enable := false })

/-- R3: an unmapping entry for berth `x`. -/
def unmapBerth (x : Nat) (s : State) : State :=
  if (s.berth x).configured then
    (loseSession x s).editBerth x fun b =>
      { b with configured := false, cabinet := none, outlet := none, group := none, partner := none, coupling := .single,
               hwCharge := 0, hwDischarge := 0, session := .unconfigured }
  else s

/-- The outlet record of a cabinet on the enrollment list. -/
def State.outletRecord (s : State) (c outlet : Nat) : Option Outlet := (s.cabinet? c).bind fun r => r.outlets[outlet]?

/-- R3: a mapping entry for berth `x`, accepted. -/
def mapBerth (x c outlet group : Nat) (coupling : Coupling) (partner : Option Nat) (figures : Outlet) (s : State) : State :=
  let s := if (s.berth x).configured then loseSession x s else s
  s.editBerth x fun b =>
    { b with configured := true, cabinet := some c, outlet := some outlet, group := some group, coupling := coupling,
             partner := partner, hwCharge := figures.charge, hwDischarge := figures.discharge, enable := false,
             session := if coupling = .follower then .follower else .disabled }

/-- The coupling code of R166; a code above 2 is out of range (DESIGN CHOICE, Log 8). -/
def couplingOf : Nat → Option Coupling
  | 0 => some .single
  | 1 => some .leader
  | 2 => some .follower
  | _ => none

/-- R3: the partner an entry gives fits its coupling. -/
def partnerFits (x : Nat) (coupling : Coupling) (partner : Option Nat) : Bool :=
  match coupling, partner with
  | .single, p => p.isNone
  | _, none => false
  | _, some p => decide (p ≠ x)

/-- R3: one BERTH_MAP entry. -/
def takeMapEntry (e : MapEntry) (s : State) : State × ReplyCode :=
  if Config.berths ≤ e.berth then (s, .badValue)
  else if e.cabinet = 0 then (unmapBerth e.berth s, .ok)
  else match s.outletRecord e.cabinet e.outlet, couplingOf e.coupling with
    | some figures, some coupling =>
      if Config.groups ≤ e.group ∨ partnerFits e.berth coupling e.partner = false then (s, .badValue)
      else (mapBerth e.berth e.cabinet e.outlet e.group coupling e.partner figures s, .ok)
    | _, _ => (s, .badValue)

/-! ## Consistency (R4) -/

/-- R4 conditions 2 to 4 for berth `x`. -/
def State.pairConsistent (s : State) (x : Nat) : Bool :=
  let b := s.berth x
  match b.coupling, b.partner with
  | .single, _ => true
  | _, none => false
  | role, some p =>
    let q := s.berth p
    q.configured && decide (q.partner = some x) &&
      decide (q.coupling = if role = .leader then Coupling.follower else Coupling.leader) &&
      decide (q.cabinet = b.cabinet ∧ q.group = b.group ∧ q.outlet ≠ b.outlet)

/-- The configured berths, ascending. -/
def State.configuredBerths (s : State) : List Nat := berthNumbers.filter fun x => (s.berth x).configured

/-- R4: the map is consistent. -/
def State.mapConsistent (s : State) : Bool :=
  decide (s.configuredBerths.map fun x => ((s.berth x).cabinet, (s.berth x).outlet)).Nodup &&
    s.configuredBerths.all s.pairConsistent

/-! ## The map after an enrollment (R47, R178) -/

/-- R47: one configured berth is brought into line with the new list. A stored vehicle acceptance max above the new hardware charge
max stays as it was until the next report bounds it (DESIGN CHOICE, Log 62). -/
def alignBerth (x : Nat) (s : State) : State :=
  match (s.berth x).cabinet, (s.berth x).outlet with
  | some c, some o =>
    match s.outletRecord c o with
    | none => unmapBerth x s
    | some figures => s.editBerth x fun b => { b with hwCharge := figures.charge, hwDischarge := figures.discharge }
  | _, _ => s

/-- R178 step 1: the outlets in enrollment order, as cabinet, outlet and figures. -/
def State.outletOrder (s : State) : List (Nat × Nat × Outlet) :=
  (s.bus.cabinets.zipIdx 1).flatMap fun c => c.1.outlets.zipIdx.map fun o => (c.2, o.2, o.1)

/-- R178 steps 1 and 2 for one berth: its default entry, and its enable. -/
def autoMap (s : State) (slot : (Nat × Nat × Outlet) × Nat) : State :=
  let x := slot.2
  let c := slot.1.1
  (mapBerth x c slot.1.2.1 ((c - 1) % 6) .single none slot.1.2.2 s).editBerth x fun b =>
    { b with enable := true, session := .empty }

/-- R178: what follows the end of an enrollment begun by the AUTORUN start-up. -/
def autorunEnd (s : State) : State :=
  if s.ctl.autorun then
    let s := { s with ctl := { s.ctl with autorun := false } }
    if s.bus.cabinets = [] then s
    else
      let s := ((s.outletOrder.take Config.berths).zipIdx).foldl autoMap s
      enterRun .autorun { s with groups := s.groups.map fun _ => ⟨Config.groupLimitMax, true⟩ }
  else s

end Sys2Proof.Machine
end

