-- ==== Sys2Proof/Machine/Reports.lean ====
section
/-! DEFINITION. Machine/Reports.lean: cabinet reports (R36 to R38): the validity of a STATUS, what each entry writes, and the
order in which an entry is handed on. -/

namespace Sys2Proof.Machine

/-- One 12-byte STATUS entry (chapter 02). -/
structure StatusEntry where
  outlet : Nat
  plug : Nat
  trip : Bool
  isolation : Bool
  contactor : Bool
  tag : Ident
  soc : Nat
  measured : Int
  acceptMax : Nat
  deriving DecidableEq, Repr

/-- The number in `width` bytes from `offset` on. -/
def bytesAt (bytes : List Byte) (offset width : Nat) : Nat := unsignedOf ((bytes.drop offset).take width)

/-- The entry in 12 bytes. -/
def statusEntryOf (b : List Byte) : StatusEntry :=
  let flags := bytesAt b 1 1
  { outlet := bytesAt b 0 1 / 16, plug := bytesAt b 0 1 % 16, trip := decide (flags % 2 = 1),
    isolation := decide (flags / 2 % 2 = 1), contactor := decide (flags / 4 % 2 = 1),
    tag := BitVec.ofNat 32 (bytesAt b 2 4), soc := bytesAt b 6 2, measured := signedOf 16 (bytesAt b 8 2),
    acceptMax := bytesAt b 10 2 }

/-- The entries of a body of `n` of them. -/
def statusEntriesOf : Nat → List Byte → List StatusEntry
  | 0, _ => []
  | n + 1, bytes => statusEntryOf (bytes.take 12) :: statusEntriesOf n (bytes.drop 12)

/-- The entries of a STATUS body. -/
def statusEntries (body : List Byte) : List StatusEntry := statusEntriesOf (body.length / 12) body

/-- The plug state of an entry. -/
def plugOf : Nat → Plug
  | 0 => .none
  | 1 => .connected
  | 2 => .ready
  | _ => .complete

/-- R36: a STATUS body from a cabinet of this many outlets is valid. -/
def statusValid (outlets : Nat) (body : List Byte) : Bool :=
  decide (body.length % 12 = 0) && decide (body.length / 12 = outlets) &&
    (statusEntries body).all (fun e => decide (e.outlet < outlets) && decide (e.plug ≤ 3)) &&
    decide ((statusEntries body).map (·.outlet)).Nodup

/-- R37: the SoC field: absent, as sent, or 1000. -/
def socOf (v : Nat) : Option Nat := if v = 65535 then none else some (min v 1000)

/-- R37: the fields an entry writes in a berth. -/
def Berth.report (e : StatusEntry) (b : Berth) : Berth :=
  { b with plug := plugOf e.plug, tag := e.tag, soc := socOf e.soc, measured := e.measured,
           acceptMax := min e.acceptMax b.hwCharge }

/-- R16: the stored energy of berth `x`'s bus at a report, the session state before the report's rules being `before`. Its stamp is the
second the clock holds, also while the clock is unset (DEDUCED, Log 42). -/
def storeEnergy (x : Nat) (before : Session) (s : State) : State :=
  let b := s.berth x
  if (before.plugged ∨ b.session.plugged) ∧ b.coupling ≠ .follower then
    match b.bus, b.soc with
    | some n, some soc => s.editBus n fun r => { r with stored := some (r.capacity * soc / 1000), stamp := some s.now }
    | _, _ => s
  else s

/-- R37, R38: one entry reaches berth `x`. -/
def reportBerth (x : Nat) (e : StatusEntry) (s : State) : State :=
  let before := s.berth x
  let s := s.editBerth x (·.report e)
  detectFaults x e.trip e.isolation e.contactor (storeEnergy x before.session (sessionRules x before.tag s))

/-- The configured berths that name this cabinet and outlet: one, or more where the map names an outlet twice (Log 14). -/
def State.outletBerths (s : State) (c outlet : Nat) : List Nat :=
  (s.cabinetBerths c).filter fun x => decide ((s.berth x).outlet = some outlet)

/-- R37: one entry of a STATUS from cabinet `c`. -/
def reportEntry (c : Nat) (e : StatusEntry) (s : State) : State :=
  (s.outletBerths c e.outlet).foldl (fun s x => reportBerth x e s) s

/-- R38: the whole STATUS: its entries in order, the setpoint work of all of them aged by berth (R54), then the telemetry slot of
cabinet `c` (R170). -/
def reportStatus (c : Nat) (body : List Byte) (s : State) : State :=
  let s := ageByBerth s.path.nextAge ((statusEntries body).foldl (fun s e => reportEntry c e s) s)
  { s with link := { s.link with slots := s.link.slots.set (c - 1) ⟨body, true⟩ } }

end Sys2Proof.Machine
end

