-- ==== Sys2Proof/Machine/BerthLine.lean ====
section
/-! DEFINITION. Machine/BerthLine.lean: the Berth Bus Master's shared operations (chapter 02): the frames it sends, surveys,
acknowledgements, enrollment, and which received frames an open slot or window takes (R27). -/

namespace Sys2Proof.Machine

/-! ## The line -/

/-- The line passes to a holder, or becomes free. -/
def setLine (l : Line) (s : State) : State := { s with bus := { s.bus with line := l } }

/-- A frame is given to the transmitter for a holder (R28). -/
def sendFrame (l : Line) (frame : List Byte) (s : State) : State := { s with bus := { s.bus with line := l, busTx := frame } }

/-- The line is free and no enrollment waits for it (R39). -/
def State.lineOpen (s : State) : Bool := decide (s.bus.line = .idle) && !s.bus.enrollWaiting

/-- A slot or window closes: a frame still incomplete is discarded (R27). One opens: what stands of a frame begun before is no
part of it, of which the rule says nothing (DESIGN CHOICE, Log 57). -/
def closeReceiver (s : State) : State := { s with bus := { s.bus with rx := [] } }

/-- A survey holds the line. -/
def Line.surveying : Line → Bool
  | .surveyOpen _ | .surveySlot _ _ _ | .surveyClose _ => true
  | _ => false

/-! ## Surveys (R31 to R35) -/

/-- The code of a survey kind (chapter 02). -/
def SurveyKind.code : SurveyKind → Nat
  | .full => 0
  | .quiet => 1

/-- R32: the SURVEY_OPEN frame. -/
def State.surveyOpenFrame (s : State) (k : SurveyKind) : List Byte :=
  busFrame 0 31 (BitVec.ofNat 8 k.code :: (if s.link.clockSet then 1 else 0) :: bytesOf 3 s.stampedSecond)

/-- R35: the quiet count when a CLOSE is built. -/
def quietAfter (k : SurveyKind) (n : Nat) : Nat :=
  match k with
  | .full => 0
  | .quiet => n + 1

/-- R35: the CLOSE is built and begins to be sent. -/
def beginClose (k : SurveyKind) (s : State) : State :=
  let quiet := quietAfter k s.bus.quietCount
  let next : SurveyKind := if 4 ≤ quiet ∨ s.bus.recheck then .full else .quiet
  sendFrame (.surveyClose next) (busFrame 4 31 [BitVec.ofNat 8 next.code])
    { s with bus := { s.bus with quietCount := quiet } }

/-- R33: the slot of cabinet `c` has ended: the next one opens, or the CLOSE follows the last. -/
def nextSlot (k : SurveyKind) (c : Nat) (s : State) : State :=
  let s := closeReceiver s
  if c < s.bus.cabinets.length then setLine (.surveySlot k (c + 1) false) s else beginClose k s

/-- R34: the miss count of cabinet `c`. -/
def State.missCount (s : State) (c : Nat) : Nat := s.bus.missCounts.getD (c - 1) 0

/-- R34, R154: the outcome of cabinet `c`'s slot leaves this miss count, a detection where a miss leaves it at 3. -/
def slotOutcome (c misses : Nat) (missed : Bool) (s : State) : State :=
  commMissOutcome c misses (missed && decide (misses = 3))
    { s with bus := { s.bus with missCounts := s.bus.missCounts.set (c - 1) misses } }

/-- R34: a slot that ended at its timer. -/
def expireSlot (k : SurveyKind) (c : Nat) (corrupt : Bool) (s : State) : State :=
  match k with
  | .full => slotOutcome c (min 3 (s.missCount c + 1)) true { s with bus := { s.bus with recheck := true } }
  | .quiet =>
    slotOutcome c (s.missCount c) false (if corrupt then { s with bus := { s.bus with recheck := true } } else s)

/-! ## Frames an open slot or window takes (R27) -/

/-- R33, R36: a STATUS answers the open slot. -/
def State.statusTaken (s : State) (cabinet : Nat) (body : List Byte) : Bool :=
  match s.bus.line with
  | .surveySlot _ c _ =>
    decide (cabinet = c) &&
      match s.cabinet? c with
      | none => false
      | some r => statusValid r.outlets.length body
  | _ => false

/-- An ACK entry (chapter 02): outlet, result code, accepted value. -/
structure AckEntry where
  outlet : Nat
  result : Nat
  value : Int
  deriving DecidableEq, Repr

/-- The entries of an ACK body, each of four bytes. -/
def ackEntries : List Byte → List AckEntry
  | o :: r :: hi :: lo :: rest => ⟨o.toNat, r.toNat, steps16 hi lo⟩ :: ackEntries rest
  | _ => []

/-- R41: an ACK body fits a SETPOINT's shares: it names exactly their outlets, in any order, with results 0 to 2. -/
def ackFits (shares : List Share) (body : List Byte) : Bool :=
  let entries := ackEntries body
  decide (body.length = 4 * shares.length) &&
    entries.all (fun e => decide (e.result ≤ 2) && shares.any fun h => decide (h.outlet = e.outlet)) &&
    shares.all fun h => entries.any fun e => decide (e.outlet = h.outlet)

/-- R41: an ACK is accepted in the open ack window. -/
def State.ackTaken (s : State) (cabinet : Nat) (body : List Byte) : Bool :=
  match s.bus.line with
  | .setpointAck tx => decide (cabinet = tx.cabinet) && ackFits tx.shares body
  | _ => false

/-- R44: a PASS frame is the answer the window waits for. -/
def State.passTaken (s : State) (cabinet : Nat) : Bool :=
  match s.bus.line with
  | .passAck f => decide (f.cabinet = some cabinet)
  | _ => false

/-- R46: an ENROLL REPORT body: code 3, a serial, and the outlet figures. A figure above the 32,767 steps of R1's fields is taken as
it is reported: no rule refuses or bounds it (DESIGN CHOICE, Log 55). -/
def reportRecord (body : List Byte) : Option Cabinet :=
  let n := bytesAt body 5 1
  if bytesAt body 0 1 = 3 ∧ 1 ≤ n ∧ n ≤ 3 ∧ body.length = 6 + 4 * n then
    some ⟨BitVec.ofNat 32 (bytesAt body 1 4),
      (List.range n).map fun i => ⟨bytesAt body (6 + 4 * i) 2, bytesAt body (8 + 4 * i) 2⟩⟩
  else none

/-- R46: a REPORT is the reply the window waits for. -/
def State.reportTaken (s : State) (cabinet : Nat) (body : List Byte) : Bool :=
  match s.bus.line with
  | .enrollReply k => decide (cabinet = k) && (reportRecord body).isSome
  | _ => false

/-- R27: a received frame is taken by the slot or window that is open. -/
def State.frameTaken (s : State) (bytes : List Byte) : Bool :=
  match busFrameFields bytes with
  | none => false
  | some (kind, cabinet, body) =>
    match kind with
    | 1 => s.statusTaken cabinet body
    | 3 => s.ackTaken cabinet body
    | 5 => s.reportTaken cabinet body
    | 6 => s.passTaken cabinet
    | _ => false

/-- R27, R33: a discarded frame ends nothing; in a survey slot it makes the outcome corrupt (Log 39). -/
def discardFrame (s : State) : State :=
  let s := closeReceiver s
  match s.bus.line with
  | .surveySlot k c _ => setLine (.surveySlot k c true) s
  | _ => s

/-- R27: bytes that make no frame for an open slot or window: the frames complete in them are discarded, and a frame still
incomplete at their end stays with the receiver. -/
def receiveBytes (bytes : List Byte) (s : State) : State :=
  let s := if busComplete bytes = [] then s else discardFrame s
  { s with bus := { s.bus with rx := busIncomplete bytes } }

/-! ## Setpoints on the line (R40 to R42) -/

/-- R40: one share is written to the commanded field of its berth. -/
def writeCommanded (s : State) (h : Share) : State :=
  match h.berth with
  | none => s
  | some x => s.editBerth x fun b => { b with commanded := h.value }

/-- R41, R151: the accepted value of one share is written to the confirmed field of its berth. -/
def writeConfirmed (entries : List AckEntry) (s : State) (h : Share) : State :=
  match h.berth, entries.find? (fun e => decide (e.outlet = h.outlet)) with
  | some x, some e => s.editBerth x fun b => { b with confirmed := e.value, confirmAge := some 0 }
  | _, _ => s

/-- The in-flight field of berth `x`, the one a SETPOINT was made for: set and cleared (R40 to R42) also where a map change has made the
berth a FOLLOWER, which by R52 holds none (DESIGN CHOICE, Log 65). -/
def setInFlight (x : Nat) (v : Bool) (s : State) : State := s.editBerth x fun b => { b with inFlight := v }

/-- R41: the result handed on: REFUSED if any entry is, else LIMITED if any is, else ACCEPTED. -/
def combinedResult (entries : List AckEntry) : SetResult :=
  if entries.any fun e => decide (e.result = 2) then .refused
  else if entries.any fun e => decide (e.result = 1) then .limited
  else .accepted

/-- R65, R169: the value a SET_ACK carries in its two signed bytes. A sum they cannot hold, which only a pair can give, is left
open by the spec: a free value (Log 45). -/
def ackValue (sum : Int) : Int :=
  if -32768 ≤ sum ∧ sum ≤ 32767 then sum else (Config.ackBeyondRange sum).toInt

/-- R65 step 2: a tagged setpoint's acknowledgement goes upstream. -/
def forwardAck (tx : SetpointTx) (entries : List AckEntry) (s : State) : State :=
  if tx.tag = 0 then s
  else answer (.setAck (berthParty tx.berth) tx.tag (ackValue (sumOf (·.value) entries)) (combinedResult entries)) s

/-- R66 step 3: the fresh untagged entry, where the berth has none on the list, the trim of a map change being one, and is not queued.
It is not made for a berth that is unconfigured or a FOLLOWER. It is the berth's own
also after the trim of a map change, which is thus not repeated at the old address: it goes to the berth's new outlet
(DEDUCED, Log 31). -/
def freshEntry (x : Nat) (s : State) : State :=
  if (s.berth x).counters.noConfirm < 3 ∧ s.hasEntry x = false ∧ (s.queuedOf x).isNone ∧ (s.berth x).configured = true ∧
      (s.berth x).coupling ≠ .follower then
    addEntry x 0 s
  else s

/-! ## Pass-through (R43, R44) -/

/-- R43: the request expects an answer. -/
def PassFrame.expectsAnswer (f : PassFrame) : Bool := f.cabinet.isSome && decide (f.tag ≠ 0)

/-- The REPLY to a pass-through request. R44 names the cabinet as its source party where the answer is forwarded; every other such REPLY
has the party of the request too, the cabinet's or that of a broadcast (DEDUCED, Log 61). -/
def passReply (f : PassFrame) (code : ReplyCode) (body : ReplyBody) (s : State) : State :=
  reply (cabinetParty f.cabinet) f.tag code body s

/-! ## Enrollment (R45 to R47) -/

/-- R45: ENROLL FORGET begins to be sent. -/
def sendForget (abandoned : Nat) (s : State) : State := sendFrame (.enrollForget abandoned) (busFrame 5 31 [1]) s

/-- R46: ENROLL ASSIGN k begins to be sent. -/
def sendAssign (k abandoned : Nat) (s : State) : State :=
  sendFrame (.enrollAssign k abandoned) (busFrame 5 0 [2, BitVec.ofNat 8 k]) s

/-- R47: the frames of cabinets no longer on the list leave the FIFO, each answered BAD_VALUE. -/
def dropStrayPasses (s : State) : State :=
  let stray := fun (f : PassFrame) => match f.cabinet with
    | none => false
    | some c => (s.cabinet? c).isNone
  (s.bus.passFifo.filter stray).foldl (fun s f => passReply f .badValue .none s)
    { s with bus := { s.bus with passFifo := s.bus.passFifo.filter fun f => !stray f } }

/-- The outlets of an old address that the enrollment list still has. -/
def State.listedOutlets (s : State) (a : OldAddress) : List Nat :=
  a.outlets.filter fun o => (s.outletRecord a.cabinet o).isSome

/-- An entry with the outlets of its old address that the list still has. -/
def State.relisted (s : State) (e : Entry) : Entry :=
  { e with old := e.old.map fun a => { a with outlets := s.listedOutlets a } }

/-- The trim of a map change whose cabinet, or whose every outlet, is no longer on the list. -/
def State.strayTrim (s : State) (e : Entry) : Bool :=
  match e.old with
  | none => false
  | some a => (s.listedOutlets a).isEmpty

/-- R29, R3: a SETPOINT goes to a cabinet on the list, so the new list takes such trims away (DEDUCED, Log 49); what waited behind
one makes its entry as when the trim has been sent. -/
def dropStrayTrims (s : State) : State :=
  let stray := s.path.list.filter s.strayTrim
  let kept := (s.path.list.filter fun e => !s.strayTrim e).map s.relisted
  stray.foldl (fun s e => releaseWork e.berth s) { s with path := { s.path with list := kept } }

/-- R47, R35: enrollment ends, at any end but RESTART; an AUTORUN start-up goes on (R178). The configured berths are brought in line,
and the tags of their work answered, in ascending number, for which the spec gives no order (DESIGN CHOICE, Log 56); the setpoint work
made in the whole event, a start-up's run included (R70), is aged by berth (R54). -/
def endEnrollment (s : State) : State :=
  let first := s.path.nextAge
  let s := closeReceiver { s with bus := { s.bus with chainOut := false } }
  let aligned := s.configuredBerths.foldl (fun s x => alignBerth x s) s
  let s := dropStrayPasses (dropStrayTrims aligned)
  let s := { s with bus := { s.bus with nextKind := .full, quietCount := 0, recheck := true, line := .idle } }
  ageByBerth first (autorunEnd (notify (.enrolled s.bus.cabinets.length) s))

/-- R30: an enrollment frame abandoned for the n-th time in a row is sent again, or ends enrollment at the third. -/
def retryEnroll (n : Nat) (again : Nat → State → State) (s : State) : State :=
  if 3 ≤ n then endEnrollment s else again n s

end Sys2Proof.Machine
end

