-- ==== Sys2Proof/Machine/BusEvents.lean ====
section
/-! DEFINITION. Machine/BusEvents.lean: the meanings of the berth bus events (R27 to R48). An event the line's holder cannot
bring has no effect (Log 2); a frame no slot or window takes is discarded by R27. -/

namespace Sys2Proof.Machine

/-! ## Surveys (R31 to R35) -/

/-- R31, R48: an expiry of the survey timer. -/
def expireSurveyTimer (s : State) : State :=
  if s.bus.surveyRunning = false then s
  else if s.bus.line = .stopHeld then sendFrame .stopSending stopFrame s
  else if s.bus.stopWhole = true ∧ s.enrollInProgress = false ∧ s.bus.cabinets ≠ [] ∧ s.bus.line.surveying = false then
    { s with bus := { s.bus with surveyDue := true } }
  else s

/-- SURVEY_TIMER_EXPIRY (R31). -/
def execSurveyTimerExpiry (s : State) : Host.Outcome State Fault Refusal := whileRunning expireSurveyTimer s

/-- R32: a due survey takes the free line. -/
def beginSurvey (s : State) : State :=
  if s.lineOpen = true ∧ s.bus.surveyDue = true then
    sendFrame (.surveyOpen s.bus.nextKind) (s.surveyOpenFrame s.bus.nextKind)
      { s with bus := { s.bus with surveyDue := false } }
  else s

/-- SURVEY_START (R32). -/
def execSurveyStart (s : State) : Host.Outcome State Fault Refusal := whileRunning beginSurvey s

/-- R33, R35: the first slot opens; the opening of a FULL survey clears the recheck flag (Log 34). -/
def openSurvey (s : State) : State :=
  match s.bus.line with
  | .surveyOpen k =>
    nextSlot k 0 (if k = .full then { s with bus := { s.bus with recheck := false } } else s)
  | _ => s

/-- SURVEY_OPEN_SENT (R33). -/
def execSurveyOpenSent (s : State) : Host.Outcome State Fault Refusal := whileRunning openSurvey s

/-- R34: the slot timer expires. A frame still incomplete is discarded with it and makes the outcome corrupt (R27; Log 39). -/
def expireSlotTimer (s : State) : State :=
  match s.bus.line with
  | .surveySlot k c corrupt => nextSlot k c (expireSlot k c (corrupt || !s.bus.rx.isEmpty) s)
  | _ => s

/-- SLOT_TIMER_EXPIRY (R34). -/
def execSlotTimerExpiry (s : State) : Host.Outcome State Fault Refusal := whileRunning expireSlotTimer s

/-- R35: the CLOSE has been sent; the survey ends with the kind it named. -/
def closeSurvey (s : State) : State :=
  match s.bus.line with
  | .surveyClose next => { s with bus := { s.bus with line := .idle, nextKind := next } }
  | _ => s

/-- CLOSE_SENT (R35). -/
def execCloseSent (s : State) : Host.Outcome State Fault Refusal := whileRunning closeSurvey s

/-- R33, R34, R38: a STATUS answers the open slot. -/
def answerSlot (body : List Byte) (s : State) : State :=
  match s.bus.line with
  | .surveySlot k c _ => nextSlot k c (reportStatus c body (slotOutcome c 0 false s))
  | _ => s

/-- STATUS (R38). -/
def execStatus (cabinet : Nat) (body : List Byte) (s : State) : Host.Outcome State Fault Refusal :=
  whileRunning (fun s => if s.statusTaken cabinet body then answerSlot body s else discardFrame s) s

/-- BERTH_BUS_FRAME_DISCARDED (R27). -/
def execBerthBusFrameDiscarded (bytes : List Byte) (s : State) : Host.Outcome State Fault Refusal :=
  whileRunning (fun s => if s.frameTaken bytes then s else receiveBytes bytes s) s

/-! ## Setpoints (R39 to R42) -/

/-- R39, R40, R55, R56: the line is given to the pending setpoint list. -/
def dequeueSetpoint (s : State) : State :=
  if s.lineOpen = true ∧ s.bus.surveyDue = false then
    match s.nextEntry with
    | none => s
    | some e =>
      let tx := s.setpointOf e
      sendFrame (.setpointSending tx) (busFrame 2 tx.cabinet (setpointBody tx.shares)) (dropEntry e s)
  else s

/-- SETPOINT_DEQUEUE (R56). -/
def execSetpointDequeue (s : State) : Host.Outcome State Fault Refusal := whileRunning dequeueSetpoint s

/-- R64, R3: a value other than 0 has gone whole to an outlet that its berth has lost by a map change: a zero trim follows it there,
unless one stands on the list already. -/
def followDetached (tx : SetpointTx) (s : State) : State :=
  if s.trimWaits tx.berth then s else addTrim tx.berth ⟨tx.cabinet, tx.shares.map (·.outlet)⟩ (holdWork tx.berth s)

/-- R40, R56, R64, R3: what the end of a SETPOINT's transmission does to its berth's work. Behind a value other than 0 of a berth
that has left SERVING meanwhile the zero trim follows. -/
def afterSent (tx : SetpointTx) (s : State) : State :=
  if tx.trim then releaseWork tx.berth s
  else if tx.detached then (if tx.value = 0 then s else followDetached tx s)
  else if tx.value = 0 then zeroSent tx.berth s
  else if tx.left ∧ (s.berth tx.berth).session ≠ .serving then zeroTrim tx.berth s
  else s

/-- R40: a SETPOINT has been sent whole and its ack window opens. -/
def finishSetpoint (s : State) : State :=
  match s.bus.line with
  | .setpointSending tx =>
    afterSent tx (setInFlight tx.berth true (setLine (.setpointAck tx) (closeReceiver (tx.shares.foldl writeCommanded s))))
  | _ => s

/-- SETPOINT_SENT (R40). -/
def execSetpointSent (s : State) : Host.Outcome State Fault Refusal := whileRunning finishSetpoint s

/-- R41, R65: an ACK is accepted. It clears the fields of the berth the SETPOINT was made for, one that a map change has made a FOLLOWER
too (DESIGN CHOICE, Log 65). -/
def acceptAck (body : List Byte) (s : State) : State :=
  match s.bus.line with
  | .setpointAck tx =>
    let entries := ackEntries body
    let s := tx.shares.foldl (writeConfirmed entries) (setLine .idle (closeReceiver s))
    forwardAck tx entries (editCounters tx.berth (fun c => { c with noConfirm := 0 }) (setInFlight tx.berth false s))
  | _ => s

/-- ACK (R41). -/
def execAck (cabinet : Nat) (body : List Byte) (s : State) : Host.Outcome State Fault Refusal :=
  whileRunning (fun s => if s.ackTaken cabinet body then acceptAck body s else discardFrame s) s

/-- R42, R66: the ack window expires. It is counted for the berth the SETPOINT was made for, one that a map change has made a FOLLOWER
too (DESIGN CHOICE, Log 65). -/
def expireAck (s : State) : State :=
  match s.bus.line with
  | .setpointAck tx =>
    let s := setInFlight tx.berth false (setLine .idle (closeReceiver s))
    let s := if tx.tag = 0 then s else reply (berthParty tx.berth) tx.tag .noConfirm .none s
    freshEntry tx.berth (countNoConfirm tx.berth s)
  | _ => s

/-- ACK_WINDOW_EXPIRY (R42). -/
def execAckWindowExpiry (s : State) : Host.Outcome State Fault Refusal := whileRunning expireAck s

/-! ## The echo check (R30) -/

/-- R67: an abandoned SETPOINT is counted, for a berth that a map change has made a FOLLOWER too (DESIGN CHOICE, Log 65), and its entry
is placed as its berth then stands (Log 29). -/
def abandonSetpoint (x : Nat) (s : State) : State :=
  let s := countNoConfirm x s
  match s.bus.line with
  | .setpointSending tx => placeReturned tx (setLine .idle s)
  | _ => s

/-- R30: the frame being sent is abandoned. -/
def abandonFrame (s : State) : State :=
  match s.bus.line with
  | .setpointSending tx => abandonSetpoint tx.berth s
  | .passSending f => passReply f .noConfirm .none (setLine .idle s)
  | .surveyOpen _ => { s with bus := { s.bus with line := .idle, nextKind := .full } }
  | .surveyClose _ => { s with bus := { s.bus with line := .idle, nextKind := .full } }
  | .enrollForget n => retryEnroll (n + 1) sendForget s
  | .enrollAssign k n => retryEnroll (n + 1) (sendAssign k) s
  | .stopSending => { s with bus := { s.bus with line := .stopHeld, surveyRunning := true } }
  | _ => s

/-- ECHO_MISMATCH (R30). -/
def execEchoMismatch (s : State) : Host.Outcome State Fault Refusal := whileRunning abandonFrame s

/-! ## Pass-through (R44) -/

/-- R39, R44: the line is given to the pass-through FIFO. -/
def dequeuePass (s : State) : State :=
  match s.bus.passFifo with
  | [] => s
  | f :: rest =>
    if s.lineOpen = true ∧ s.bus.surveyDue = false ∧ s.nextEntry = none then
      sendFrame (.passSending f) (busFrame 6 (f.cabinet.getD 31) f.body) { s with bus := { s.bus with passFifo := rest } }
    else s

/-- PASS_DEQUEUE (R44). -/
def execPassDequeue (s : State) : Host.Outcome State Fault Refusal := whileRunning dequeuePass s

/-- R44: a PASS frame has been sent whole; where an answer is expected its window opens. -/
def finishPass (s : State) : State :=
  match s.bus.line with
  | .passSending f =>
    if f.expectsAnswer then setLine (.passAck f) (closeReceiver s) else passReply f .ok .none (setLine .idle s)
  | _ => s

/-- PASS_SENT (R44). -/
def execPassSent (s : State) : Host.Outcome State Fault Refusal := whileRunning finishPass s

/-- R44: the cabinet's answer goes upstream. -/
def answerPass (body : List Byte) (s : State) : State :=
  match s.bus.line with
  | .passAck f => passReply f .ok (.cabinet body) (setLine .idle (closeReceiver s))
  | _ => s

/-- PASS_ANSWER (R44). -/
def execPassAnswer (cabinet : Nat) (body : List Byte) (s : State) : Host.Outcome State Fault Refusal :=
  whileRunning (fun s => if s.passTaken cabinet then answerPass body s else discardFrame s) s

/-- R44: the window expires without an answer. -/
def expirePass (s : State) : State :=
  match s.bus.line with
  | .passAck f => passReply f .noConfirm .none (setLine .idle (closeReceiver s))
  | _ => s

/-- PASS_ACK_WINDOW_EXPIRY (R44). -/
def execPassAckWindowExpiry (s : State) : Host.Outcome State Fault Refusal := whileRunning expirePass s

/-! ## Enrollment (R45 to R47) -/

/-- R45, R31: enrollment takes the free line; a survey that was due stops being due. CHAIN_OUT rises as it takes the line, while
FORGET is still being sent: the rule does not say at which end of FORGET (DESIGN CHOICE, Log 48). -/
def beginEnrollment (s : State) : State :=
  if s.bus.line = .idle ∧ s.bus.enrollWaiting = true then
    sendForget 0 { s with bus := { s.bus with
      enrollWaiting := false, surveyDue := false, cabinets := [], missCounts := List.replicate Config.cabinets 0,
      chainOut := true } }
  else s

/-- ENROLL_LINE_TAKEN (R45). -/
def execEnrollLineTaken (s : State) : Host.Outcome State Fault Refusal := whileRunning beginEnrollment s

/-- R45, R46: FORGET has gone; the first ASSIGN follows. -/
def finishForget (s : State) : State :=
  match s.bus.line with
  | .enrollForget _ => sendAssign 1 0 s
  | _ => s

/-- ENROLL_FORGET_SENT (R45). -/
def execEnrollForgetSent (s : State) : Host.Outcome State Fault Refusal := whileRunning finishForget s

/-- R46: ASSIGN k has gone; its reply window opens. -/
def finishAssign (s : State) : State :=
  match s.bus.line with
  | .enrollAssign k _ => setLine (.enrollReply k) (closeReceiver s)
  | _ => s

/-- ENROLL_ASSIGN_SENT (R46). -/
def execEnrollAssignSent (s : State) : Host.Outcome State Fault Refusal := whileRunning finishAssign s

/-- R46: a reply to ASSIGN k. -/
def takeReport (k : Nat) (record : Cabinet) (s : State) : State :=
  if s.bus.cabinets.any fun r => decide (r.serial = record.serial) then endEnrollment s
  else
    let s := closeReceiver { s with bus := { s.bus with cabinets := s.bus.cabinets ++ [record] } }
    if Config.cabinets ≤ k then endEnrollment s else sendAssign (k + 1) 0 s

/-- R46: a REPORT arrives. -/
def acceptReport (cabinet : Nat) (body : List Byte) (s : State) : State :=
  if s.reportTaken cabinet body then
    match reportRecord body with
    | none => s
    | some record => takeReport cabinet record s
  else discardFrame s

/-- ENROLL_REPORT (R46). -/
def execEnrollReport (cabinet : Nat) (body : List Byte) (s : State) : Host.Outcome State Fault Refusal :=
  whileRunning (acceptReport cabinet body) s

/-- R46: the reply window expires and enrollment ends. -/
def expireReply (s : State) : State :=
  match s.bus.line with
  | .enrollReply _ => endEnrollment s
  | _ => s

/-- ENROLL_REPLY_WINDOW_EXPIRY (R46). -/
def execEnrollReplyWindowExpiry (s : State) : Host.Outcome State Fault Refusal := whileRunning expireReply s

/-! ## The start-up stop (R48, R60, R69) -/

/-- R48: the stop has been sent whole. -/
def finishStop (s : State) : State :=
  match s.bus.line with
  | .stopSending =>
    { s with
      bus := { s.bus with line := .idle, stopWhole := true, surveyRunning := true }
      path := { s.path with slotRunning := true, slotSpacing := s.startSpacing }
      alloc := { s.alloc with periodRunning := s.inRun }
      berths := s.berths.map fun b => { b with commanded := 0, confirmed := 0 } }
  | _ => s

/-- STOP_SENT (R48). -/
def execStopSent (s : State) : Host.Outcome State Fault Refusal := whileRunning finishStop s

end Sys2Proof.Machine
end

