-- ==== Sys2Proof/Machine/LinkCommands.lean ====
section
/-! DEFINITION. Machine/LinkCommands.lean: the meanings of the reset rows, the link framing and refusal rows, and the
supervisor's requests that are no SERVICE, TABLE or QUERY (R49, R43, R131, R136, R163 to R166, R177). -/

namespace Sys2Proof.Machine

/-! ## Reset -/

/-- FULL_RESET (R177): the part starts with the straps it samples. The command stream is the environment's and goes on. -/
def execFullReset (limsel : Nat) (linkspd autorun : Bool) (s : State) : Host.Outcome State Fault Refusal :=
  .next { State.afterFullReset ⟨limsel, linkspd, autorun⟩ with pending := s.pending }

/-- RESET_PIN_ASSERTED (R161): the pin is held; ALERT is released and the part takes nothing until the full reset (Log 7). -/
def execResetPinAsserted (s : State) : Host.Outcome State Fault Refusal :=
  .next { s with ctl := { s.ctl with resetHeld := true } }

/-! ## Framing (R163) -/

/-- LINK_FRAME_GAP_ABANDON: the port hunts again from the byte after the lead byte. -/
def execLinkFrameGapAbandon (bytes : List Byte) (s : State) : Host.Outcome State Fault Refusal :=
  whileRunning (fun s => { s with link := { s.link with rx := linkRehunt true s.link.rx bytes } }) s

/-- LINK_FRAME_DROPPED: the port hunts again from the byte after the lead byte. -/
def execLinkFrameDropped (bytes : List Byte) (s : State) : Host.Outcome State Fault Refusal :=
  whileRunning (fun s => { s with link := { s.link with rx := linkRehunt false s.link.rx bytes } }) s

/-! ## Refusals of a whole frame (R164 to R166, R168) -/

/-- A frame refused as a whole is answered with the code; a frame that is not refused is no such event (Log 2). -/
def refuseFrame (party tag : Nat) (refusal : Option ReplyCode) (s : State) : State :=
  match refusal with
  | none => s
  | some code => reply party tag code .none (linkTaken s)

/-- DEPOT_FRAME_REFUSED (R164; R168 for a QUERY's length and code). -/
def execDepotFrameRefused (party kind : Byte) (tag : Nat) (body : List Byte) (s : State) : Host.Outcome State Fault Refusal :=
  whileRunning (refuseFrame party.toNat tag (depotRefusal party.toNat kind.toNat body)) s

/-- SERVICE_FRAME_REFUSED (R165). -/
def execServiceFrameRefused (tag : Nat) (body : List Byte) (s : State) : Host.Outcome State Fault Refusal :=
  whileRunning (refuseFrame 0 tag (serviceRefusal body)) s

/-- TABLE_FRAME_REFUSED (R166). -/
def execTableFrameRefused (tag : Nat) (body : List Byte) (s : State) : Host.Outcome State Fault Refusal :=
  whileRunning (refuseFrame 0 tag (tableRefusal body)) s

/-! ## Charge requests (R49) -/

/-- R49's checks in their order. -/
def State.setpointRefusal (s : State) (x tag : Nat) (body : List Byte) : Option ReplyCode :=
  if body.length ≠ 2 then some .badLength
  else if tag = 0 then some .badValue
  else if s.ctl.mode ≠ .run then some .wrongMode
  else if (s.berth x).coupling = .follower ∨ (s.berth x).session ≠ .serving then some .notServing
  else none

/-- R49: the request that an accepted body makes. -/
def State.requestOf (s : State) (body : List Byte) : Request :=
  ⟨max 0 (signedOf 16 (unsignedOf body)), s.stampedSecond, s.requestLifetime⟩

/-- R49, R58: an accepted request is stored and carried toward the line. -/
def acceptRequest (x tag : Nat) (body : List Byte) (s : State) : State :=
  carryRequest x tag (s.editBerth x fun b => { b with request := some (s.requestOf body) })

/-- R49. -/
def takeSetpointReq (x tag : Nat) (body : List Byte) (s : State) : State :=
  match s.setpointRefusal x tag body with
  | some code => reply (berthParty x) tag code .none s
  | none => acceptRequest x tag body s

/-- SETPOINT_REQ (R49). -/
def execSetpointReq (berth tag : Nat) (body : List Byte) (s : State) : Host.Outcome State Fault Refusal :=
  whileRunning (fun s => takeSetpointReq berth tag body (linkTaken s)) s

/-! ## Pass-through (R43) -/

/-- R43's checks in their order. -/
def State.passRefusal (s : State) (f : PassFrame) : Option ReplyCode :=
  if 40 < f.body.length then some .badLength
  else if (match f.cabinet with
    | none => false
    | some c => (s.cabinet? c).isNone) then some .badValue
  else if Config.passFrames ≤ s.bus.passFifo.length then some .downstreamFull
  else none

/-- R43. A refusal has the request's own party as source, as in R164's table (DEDUCED, Log 61). -/
def takePass (f : PassFrame) (s : State) : State :=
  match s.passRefusal f with
  | some code => reply (cabinetParty f.cabinet) f.tag code .none s
  | none => { s with bus := { s.bus with passFifo := s.bus.passFifo ++ [f] } }

/-- PASS (R43). -/
def execPass (cabinet : Option Nat) (tag : Nat) (body : List Byte) (s : State) : Host.Outcome State Fault Refusal :=
  whileRunning (fun s => takePass ⟨cabinet, tag, body⟩ (linkTaken s)) s

/-! ## Reserve calls (R131, R132, R136) -/

/-- RESERVE_CALL (R131, R132), with the immediate run of R70. -/
def execReserveCall (tag callId reduction duration : Nat) (s : State) : Host.Outcome State Fault Refusal :=
  whileRunning (fun s =>
    let out := callRequest tag callId reduction duration (linkTaken s)
    immediateIf out.2 out.1) s

/-- RESERVE_END (R136), with the immediate run of R70. -/
def execReserveEnd (tag callId : Nat) (s : State) : Host.Outcome State Fault Refusal :=
  whileRunning (fun s =>
    let out := endRequest tag callId (linkTaken s)
    immediateIf out.2 out.1) s

end Sys2Proof.Machine
end

