-- ==== Sys2Proof/Machine/MeterOps.lean ====
section
/-! DEFINITION. Machine/MeterOps.lean: the Meter Port's shared operations (chapter 08): the meter state machine, what a meter
event hands on, and overrun. -/

namespace Sys2Proof.Machine

/-! ## The meter state (R143, R144) -/

/-- R143: the meter state after an accepted sample, with its two counts. -/
def acceptMove (m : Meter) : Meter :=
  match m.state with
  | .noSignal => { m with state := .recovering, recoverCount := 1 }
  | .lost => { m with state := .recovering, recoverCount := 1 }
  | .recovering =>
    if 20 ≤ m.recoverCount + 1 then { m with state := .valid, recoverCount := 0 }
    else { m with recoverCount := m.recoverCount + 1 }
  | .valid => m
  | .holding => { m with state := .valid, missCount := 0 }

/-- R142, R143: entry into LOST. -/
def Meter.lose (m : Meter) : Meter :=
  { m with state := .lost, missCount := 0, recoverCount := 0, ring := [], lastSequence := none, timerRunning := false }

/-- R143: the meter state after a missing sample. -/
def missMove (m : Meter) : Meter :=
  match m.state with
  | .recovering => m.lose
  | .valid => { m with state := .holding, missCount := 1 }
  | .holding => if 10 ≤ m.missCount + 1 then m.lose else { m with missCount := m.missCount + 1 }
  | _ => m

/-- "clamped to [−60, +60] °C as it is written" (R141). -/
def clampAmbient (a : Int) : Int := if a < -60 then -60 else if 60 < a then 60 else a

/-- R141: the fields an accepted sample writes. -/
def Meter.accept (m : Meter) (sample : MeterSample) (second : Nat) : Meter :=
  { m with rx := [], sequence := some sample.sequence, power := some sample.power, frequency := some sample.frequency,
           ambient := some (clampAmbient sample.ambient), lastSequence := some sample.sequence, lastSecond := some second,
           timerRunning := true }

/-- R144: a change of the meter between valid and invalid is reported. Answers whether there was one. -/
def reportMeter (before : Bool) (s : State) : State × Bool :=
  if s.meterValid = before then (s, false)
  else if s.meterValid then (reserveAvailable (notify (.meterState s.meter.state none) s), true)
  else (reserveUnavailable .meter (notify (.meterState s.meter.state s.meter.lastSecond) s), true)

/-! ## Hand-overs (R145) -/

/-- R119, R139, R145: the accounted import, while the meter is valid. -/
def accountSample (power : Int) (s : State) : State := if s.meterValid then accountCall power (accountDemand power s) else s

/-! ## Overrun (R148, R149) -/

/-- R148: a sample in NORMAL. Answers whether OVERRUN has been entered. -/
def normalSample (power : Int) (s : State) : State × Bool :=
  let m := s.meter
  if s.feederLimit + s.overrunMargin < power then
    let excess := if m.overCount = 0 then power - s.feederLimit else max m.overExcess (power - s.feederLimit)
    if 30 ≤ m.overCount + 1 then
      let s := { s with meter := { m with
        overrun := .overrun, squeeze := excess, overCount := 0, overExcess := 0, underCount := 0, escalation := 0 } }
      (notify (.overrun true excess power s.feederLimit) s, true)
    else ({ s with meter := { m with overCount := m.overCount + 1, overExcess := excess } }, false)
  else ({ s with meter := { m with overCount := 0, overExcess := 0 } }, false)

/-- R149: escalation of an overrun that has not ended on this sample. -/
def escalate (s : State) : State :=
  if s.inRun then
    if 100 ≤ s.meter.escalation + 1 then
      leaveRun .safeHold .overrun { s with meter := { s.meter with escalation := 0 } }
    else { s with meter := { s.meter with escalation := s.meter.escalation + 1 } }
  else s

/-- R149: a sample in OVERRUN. The END notice carries Z as it then stands, 0 (DEDUCED, Log 25). -/
def overrunSample (power : Int) (s : State) : State :=
  let m := s.meter
  let excess := power - s.feederLimit
  let m := { m with squeeze := max m.squeeze excess }
  if 0 < excess then escalate { s with meter := { m with underCount := 0 } }
  else if 20 ≤ m.underCount + 1 then
    let s := { s with meter := { m with overrun := .normal, squeeze := 0, underCount := 0, escalation := 0 } }
    notify (.overrun false 0 power s.feederLimit) s
  else escalate { s with meter := { m with underCount := m.underCount + 1 } }

/-- R148, R149: the import of an accepted sample, while the meter is valid. Answers whether OVERRUN has been entered. -/
def overrunImport (power : Int) (s : State) : State × Bool :=
  if s.meterValid then
    match s.meter.overrun with
    | .normal => normalSample power s
    | .overrun => (overrunSample power s, false)
  else (s, false)

end Sys2Proof.Machine
end

