-- ==== Sys2Proof/Machine/MeterEvents.lean ====
section
/-! DEFINITION. Machine/MeterEvents.lean: the meanings of the meter rows (R140 to R149). -/

namespace Sys2Proof.Machine

/-- The meter port's framer is left with these bytes (R140). -/
def meterLeft (bytes : List Byte) (s : State) : State := { s with meter := { s.meter with rx := bytes } }

/-- METER_FRAME_GAP_ABANDON (R140): the frame is abandoned; the hunt goes on from the next byte received. -/
def execMeterFrameGapAbandon (_bytes : List Byte) (s : State) : Host.Outcome State Fault Refusal :=
  whileRunning (meterLeft []) s

/-- METER_FRAME_CRC_FAIL (R140): the hunt goes on from the byte after the lead byte. -/
def execMeterFrameCrcFail (bytes : List Byte) (s : State) : Host.Outcome State Fault Refusal :=
  whileRunning (meterLeft (meterRehunt bytes)) s

/-- METER_SAMPLE_INVALID_FLAG (R141): no effect beyond the frame's bytes being taken. -/
def execMeterSampleInvalidFlag (s : State) : Host.Outcome State Fault Refusal := whileRunning (meterLeft []) s

/-- METER_SAMPLE_DUPLICATE (R141): no effect beyond the frame's bytes being taken. -/
def execMeterSampleDuplicate (s : State) : Host.Outcome State Fault Refusal := whileRunning (meterLeft []) s

/-- R141, R143 to R145, R148, R149: an accepted sample; the hand-overs in the order of Log 22, overrun and its escalation before
the notices of the Reserve Unit (R173), then the one immediate run of R70 where any of them asks for it. -/
def acceptSample (sample : MeterSample) (s : State) : State :=
  let before := s.meterValid
  let moved : State := { s with meter := acceptMove (s.meter.accept sample s.now) }
  let overrun := overrunImport sample.power (feedRing sample.power (accountSample sample.power moved))
  let report := reportMeter before overrun.1
  let frequency := frequencySample sample.frequency report.1
  immediateIf (overrun.2 || report.2 || frequency.2) frequency.1

/-- METER_SAMPLE_ACCEPTED (R143). A sample with the last accepted sequence is no such event (R141, Log 2). -/
def execMeterSampleAccepted (sample : MeterSample) (s : State) : Host.Outcome State Fault Refusal :=
  whileRunning (fun s => if s.meter.lastSequence = some sample.sequence then s else acceptSample sample s) s

/-- R142 to R145: one sample is missing. -/
def missSample (s : State) : State :=
  if s.meter.timerRunning then
    let report := reportMeter s.meterValid { s with meter := missMove s.meter }
    immediateIf report.2 (accountSample (report.1.meter.power.getD 0) report.1)
  else s

/-- SAMPLE_TIMER_EXPIRY (R142). -/
def execSampleTimerExpiry (s : State) : Host.Outcome State Fault Refusal := whileRunning missSample s

end Sys2Proof.Machine
end

