-- ==== Sys2Proof/Machine/Queries.lean ====
section
/-! DEFINITION. Machine/Queries.lean: the meanings of the queries (R168): the fields of each answer, as they stand. -/

namespace Sys2Proof.Machine

/-- An answer's code and body. -/
abbrev Answer := ReplyCode × ReplyBody

/-- A query without effect is answered (R168). -/
def answerQuery (tag : Nat) (look : State → Answer) (s : State) : State :=
  let s := linkTaken s
  reply 0 tag (look s).1 (look s).2 s

/-! ## QUERY_STATUS -/

/-- Part 0: the fields of R168's table. That the latest sample's sequence is not one of them is the model's: chapter 08 says that the
latest-sample fields, which it lists with the sequence, are read with QUERY_STATUS (DEDUCED, Log 66). -/
def State.statusFields (s : State) : StatusFields :=
  { mode := s.ctl.mode, second := s.link.second, clockSet := s.link.clockSet, meterState := s.meter.state,
    missCount := s.meter.missCount, recoverCount := s.meter.recoverCount, power := s.meter.power,
    frequency := s.meter.frequency, ambient := s.meter.ambient, overrun := s.meter.overrun, squeeze := s.meter.squeeze,
    reserve := s.reserve.state, coverage := s.reserve.coverage, cabinets := s.bus.cabinets.length,
    armed := s.runs.pending.armed, pendingRuns := s.runs.pending.runs.length, pendingCold := s.runs.pending.cold.length,
    pendingDemand := s.runs.pending.demand.length, pendingReserve := s.runs.pending.reserve.length,
    noticeLost := s.faults.noticeLost, answerLost := s.link.answerLost }

/-- Part 2. -/
def State.alertFields (s : State) : AlertFields := ⟨s.faults.routing, s.alertConditions, s.alertLow⟩

/-- R160, R169: both lost flags are cleared as they are reported, before the answer is placed. -/
def clearLost (s : State) : State :=
  { s with link := { s.link with answerLost := false }, faults := { s.faults with noticeLost := false } }

/-- QUERY_STATUS. -/
def queryStatusAnswer (tag index : Nat) (s : State) : State :=
  match index with
  | 0 => reply 0 tag .ok (.status s.statusFields) (clearLost s)
  | 1 => reply 0 tag .ok (.totals s.alloc.totals) s
  | 2 => reply 0 tag .ok (.alert s.alertFields) s
  | _ => reply 0 tag .badValue .none s

/-- QUERY_STATUS (R168). -/
def execQueryStatus (tag index : Nat) (s : State) : Host.Outcome State Fault Refusal :=
  whileRunning (fun s => queryStatusAnswer tag index (linkTaken s)) s

/-! ## Berths, buses and runs -/

/-- QUERY_BERTH: the whole record. -/
def State.lookBerth (index : Nat) (s : State) : Answer :=
  if Config.berths ≤ index then (.badValue, .none) else (.ok, .berth (s.berth index))

/-- QUERY_BERTH (R168). -/
def execQueryBerth (tag index : Nat) (s : State) : Host.Outcome State Fault Refusal :=
  whileRunning (answerQuery tag (State.lookBerth index)) s

/-- QUERY_BUS: the record, the derived current run, and the freshness of the estimate. -/
def State.lookBus (index : Nat) (s : State) : Answer :=
  if index = 0 ∨ Config.buses < index then (.badValue, .none)
  else (.ok, .bus ⟨s.fleetBus index, (s.currentRun index).map (·.runId), s.fresh index⟩)

/-- QUERY_BUS (R168). -/
def execQueryBus (tag index : Nat) (s : State) : Host.Outcome State Fault Refusal :=
  whileRunning (answerQuery tag (State.lookBus index)) s

/-- QUERY_RUN: bit 15 chooses the table; an id with bit 14 set is in neither (Log 11). -/
def State.lookRun (index : Nat) (s : State) : Answer :=
  if index < 32768 then
    match s.run? index with
    | none => (.badValue, .none)
    | some r => (.ok, .activeRun r (r.bus.map (s.energyTarget r.toRunRecord)) (r.bus.map (s.chargingTarget r.toRunRecord)))
  else
    match s.runs.pending.runs.find? fun r => decide (r.runId = index - 32768) with
    | none => (.badValue, .none)
    | some r => (.ok, .pendingRun r)

/-- QUERY_RUN (R168). -/
def execQueryRun (tag index : Nat) (s : State) : Host.Outcome State Fault Refusal :=
  whileRunning (answerQuery tag (State.lookRun index)) s

/-! ## Groups -/

/-- R23: the group load, the sum of the positive grants of its members. -/
def State.groupLoad (s : State) (g : Nat) : Int :=
  sumOf (fun x => max 0 (s.berth x).grant)
    (berthNumbers.filter fun x => (s.berth x).configured && decide ((s.berth x).group = some g))

/-- R23: the group headroom, 0 for a disabled group. -/
def State.groupHeadroom (s : State) (g : Nat) : Int :=
  if (s.groupEntry g).enable then max 0 ((s.groupEntry g).limit - s.groupLoad g) else 0

/-- One group of QUERY_GROUPS. -/
def State.groupFields (s : State) (g : Nat) : GroupFields :=
  ⟨(s.groupEntry g).limit, (s.groupEntry g).enable, s.groupLoad g, s.groupHeadroom g⟩

/-- QUERY_GROUPS. -/
def State.lookGroups (index : Nat) (s : State) : Answer :=
  if index = 0 then (.ok, .groups ((List.range Config.groups).map s.groupFields)) else (.badValue, .none)

/-- QUERY_GROUPS (R168). -/
def execQueryGroups (tag index : Nat) (s : State) : Host.Outcome State Fault Refusal :=
  whileRunning (answerQuery tag (State.lookGroups index)) s

/-! ## Calls and demand -/

/-- QUERY_CALLS part 0. The recovery target is the one in force, clamped as R133 offers it only when it is read there. The mean of an
empty ring, which R168 leaves open, is absent (DESIGN CHOICE, Log 51). -/
def State.callsFields (s : State) : CallsFields :=
  { state := s.reserve.state, call := s.reserve.call, recoveryTarget := s.reserve.recoveryTarget,
    coverage := s.reserve.coverage, tripCount := s.reserve.tripCount, recoverCount := s.reserve.recoverCount,
    ringCount := s.meter.ring.length, ringMean := if s.meter.ring = [] then none else some (baselineOf s.meter.ring) }

/-- QUERY_CALLS: part 0, or the record that many places from the newest, which is place 1. -/
def State.lookCalls (index : Nat) (s : State) : Answer :=
  if index = 0 then (.ok, .calls s.callsFields)
  else match s.reserve.records[index - 1]? with
    | none => (.badValue, .none)
    | some r => (.ok, .callRecord r)

/-- QUERY_CALLS (R168). -/
def execQueryCalls (tag index : Nat) (s : State) : Host.Outcome State Fault Refusal :=
  whileRunning (answerQuery tag (State.lookCalls index)) s

/-- QUERY_DEMAND part 0. -/
def State.demandFields (s : State) : DemandFields :=
  { holdActive := s.holdWindow.isSome, target := s.holdTarget, interval := s.storage.interval, last := s.storage.last,
    dayPeak := s.storage.dayPeak, previousPeak := s.storage.previousPeak }

/-- QUERY_DEMAND: part 0 opens with CLOCK_UNSET while the clock is unset. -/
def State.lookDemand (index : Nat) (s : State) : Answer :=
  match index with
  | 0 => (if s.link.clockSet then .ok else .clockUnset, .demand s.demandFields)
  | 1 => (.ok, .demandWindows s.storage.windows)
  | 2 => (.ok, .demandWindows s.runs.pending.demand)
  | _ => (.badValue, .none)

/-- QUERY_DEMAND (R168). -/
def execQueryDemand (tag index : Nat) (s : State) : Host.Outcome State Fault Refusal :=
  whileRunning (answerQuery tag (State.lookDemand index)) s

end Sys2Proof.Machine
end

