-- ==== Sys2Proof/Machine/ServiceCommands.lean ====
section
/-! DEFINITION. Machine/ServiceCommands.lean: the meanings of the SERVICE entries (chapter 10, commands 1 to 24 and the two
forms that command nothing). -/

namespace Sys2Proof.Machine

/-! ## Entries that command nothing (R165) -/

/-- SERVICE_NOOP. -/
def execServiceNoop (pos : EntryPos) (s : State) : Host.Outcome State Fault Refusal :=
  whileRunning (serviceEntry pos fun s => (s, .ok)) s

/-- SERVICE_UNKNOWN_COMMAND. -/
def execServiceUnknownCommand (pos : EntryPos) (_command : Nat) (s : State) : Host.Outcome State Fault Refusal :=
  whileRunning (serviceEntry pos fun s => (s, .unknownKind)) s

/-! ## Berths (R5, R6, R22, R12, R157) -/

/-- BERTH_ENABLE_SET (R5). -/
def execBerthEnableSet (pos : EntryPos) (target : Target) (s : State) : Host.Outcome State Fault Refusal :=
  whileRunning (serviceEntry pos (onSessionTarget target enableBerth)) s

/-- BERTH_ENABLE_CLEAR (R6). -/
def execBerthEnableClear (pos : EntryPos) (target : Target) (s : State) : Host.Outcome State Fault Refusal :=
  whileRunning (serviceEntry pos (onSessionTarget target disableBerth)) s

/-- DONE_CLEAR (R22). -/
def execDoneClear (pos : EntryPos) (target : Target) (s : State) : Host.Outcome State Fault Refusal :=
  whileRunning (serviceEntry pos (onSessionTarget target clearDone)) s

/-- A berth's notice enable (R12). -/
def setNoticeEnable (v : Bool) (x : Nat) (s : State) : State := s.editBerth x fun b => { b with noticeEnable := v }

/-- NOTICE_ENABLE_SET (R12). -/
def execNoticeEnableSet (pos : EntryPos) (target : Target) (s : State) : Host.Outcome State Fault Refusal :=
  whileRunning (serviceEntry pos (onEachRecord target (setNoticeEnable true))) s

/-- NOTICE_ENABLE_CLEAR (R12). -/
def execNoticeEnableClear (pos : EntryPos) (target : Target) (s : State) : Host.Outcome State Fault Refusal :=
  whileRunning (serviceEntry pos (onEachRecord target (setNoticeEnable false))) s

/-- R157: FAULT_CLEAR on its target. -/
def clearFaultTarget (target : Target) (s : State) : State × ReplyCode :=
  match target with
  | .all => (s.configuredBerths.foldl (fun s x => clearFaults x s) s, .ok)
  | .one _ => onSessionTarget target clearPairFaults s

/-- FAULT_CLEAR (R157). -/
def execFaultClear (pos : EntryPos) (target : Target) (s : State) : Host.Outcome State Fault Refusal :=
  whileRunning (serviceEntry pos (clearFaultTarget target)) s

/-! ## Notice classes and alert routing (R159, R162) -/

/-- R159: a change of the class enables. -/
def setClassEnables (target : Target) (v : Bool) (s : State) : State × ReplyCode :=
  match setFlags 5 target v s.faults.classEnables with
  | none => (s, .badValue)
  | some flags => ({ s with faults := { s.faults with classEnables := flags } }, .ok)

/-- CLASS_ENABLE_SET (R159). -/
def execClassEnableSet (pos : EntryPos) (target : Target) (s : State) : Host.Outcome State Fault Refusal :=
  whileRunning (serviceEntry pos (setClassEnables target true)) s

/-- CLASS_ENABLE_CLEAR (R159). -/
def execClassEnableClear (pos : EntryPos) (target : Target) (s : State) : Host.Outcome State Fault Refusal :=
  whileRunning (serviceEntry pos (setClassEnables target false)) s

/-- R162: a change of the routing; the line, being derived, follows at once. -/
def setRouting (target : Target) (v : Bool) (s : State) : State × ReplyCode :=
  match setFlags 6 target v s.faults.routing with
  | none => (s, .badValue)
  | some flags => ({ s with faults := { s.faults with routing := flags } }, .ok)

/-- ALERT_ROUTE_SET (R162). -/
def execAlertRouteSet (pos : EntryPos) (target : Target) (s : State) : Host.Outcome State Fault Refusal :=
  whileRunning (serviceEntry pos (setRouting target true)) s

/-- ALERT_ROUTE_CLEAR (R162). -/
def execAlertRouteClear (pos : EntryPos) (target : Target) (s : State) : Host.Outcome State Fault Refusal :=
  whileRunning (serviceEntry pos (setRouting target false)) s

/-! ## Groups (R24) -/

/-- R24: the groups a command names, none where its number is out of range. -/
def groupTargets : Target → Option (List Nat)
  | .all => some (List.range Config.groups)
  | .one n => if n < Config.groups then some [n] else none

/-- R23: the members of one of these groups, ascending. -/
def State.members (s : State) (gs : List Nat) : List Nat :=
  berthNumbers.filter fun x => (s.berth x).configured &&
    match (s.berth x).group with
    | none => false
    | some g => gs.contains g

/-- The enables of some groups are set to a value. -/
def writeGroupEnables (gs : List Nat) (v : Bool) (s : State) : State :=
  { s with groups := s.groups.mapIdx fun g e => if gs.contains g then { e with enable := v } else e }

/-- R24: a change of group enables, with one immediate run where any changed. The run is part of the same event (R70), so the trims of
both are aged together by berth (R54). -/
def setGroupEnables (target : Target) (v : Bool) (s : State) : State × ReplyCode :=
  match groupTargets target with
  | none => (s, .badValue)
  | some gs =>
    let changed := gs.filter fun g => decide ((s.groupEntry g).enable ≠ v)
    if changed = [] then (s, .ok)
    else
      let s := writeGroupEnables changed v s
      let out := immediateRun (if v then s else zeroGrants (s.members changed) s)
      (ageByBerth s.path.nextAge out, .ok)

/-- GROUP_ENABLE_SET (R24). -/
def execGroupEnableSet (pos : EntryPos) (target : Target) (s : State) : Host.Outcome State Fault Refusal :=
  whileRunning (serviceEntry pos (setGroupEnables target true)) s

/-- GROUP_ENABLE_CLEAR (R24). -/
def execGroupEnableClear (pos : EntryPos) (target : Target) (s : State) : Host.Outcome State Fault Refusal :=
  whileRunning (serviceEntry pos (setGroupEnables target false)) s

/-! ## The clock and the day set (R172, R105, R106) -/

/-- R16: every stored energy stamp becomes absent. -/
def dropStamps (s : State) : State := { s with fleet := s.fleet.map fun b => { b with stamp := none } }

/-- R172. -/
def setTime (second : Nat) (s : State) : State × ReplyCode :=
  if Config.daySeconds ≤ second then (s, .badValue)
  else
    let s := dropStamps { s with link := { s.link with second := second, clockSet := true } }
    let out := judgeWindows (newInterval true s)
    (immediateIf out.2 out.1, .ok)

/-- TIME_SET (R172). -/
def execTimeSet (pos : EntryPos) (second : Nat) (s : State) : Host.Outcome State Fault Refusal :=
  whileRunning (serviceEntry pos (setTime second)) s

/-- R106. -/
def applyDayCommand (s : State) : State × ReplyCode :=
  if s.ctl.mode = .run then
    ({ s with runs := { s.runs with pending := { s.runs.pending with armed := true } } }, .ok)
  else ((applyDaySet s).1, .ok)

/-- APPLY_DAY (R106). -/
def execApplyDay (pos : EntryPos) (s : State) : Host.Outcome State Fault Refusal :=
  whileRunning (serviceEntry pos applyDayCommand) s

/-- PENDING_CLEAR (R105). -/
def execPendingClear (pos : EntryPos) (s : State) : Host.Outcome State Fault Refusal :=
  whileRunning (serviceEntry pos fun s => ({ s with runs := { s.runs with pending := PendingSet.empty } }, .ok)) s

/-! ## Runs and buses (R103, R104, R15) -/

/-- RUN_ASSIGN (R103). -/
def execRunAssign (pos : EntryPos) (runId bus : Nat) (pin : Bool) (s : State) : Host.Outcome State Fault Refusal :=
  whileRunning (serviceEntry pos (assignCommand runId bus pin)) s

/-- RUN_CANCEL (R104). -/
def execRunCancel (pos : EntryPos) (runId : Nat) (s : State) : Host.Outcome State Fault Refusal :=
  whileRunning (serviceEntry pos (cancelCommand runId)) s

/-- R19: the association of bus `b`, if any, is dropped. -/
def dissociateBus (b : Nat) (s : State) : State :=
  match (s.fleetBus b).berth with
  | none => s
  | some x => dissociate x s

/-- R15, R104. -/
def deleteBus (target : Target) (s : State) : State × ReplyCode :=
  match target with
  | .all => (s, .badValue)
  | .one b =>
    if b = 0 ∨ Config.buses < b ∨ (s.fleetBus b).used = false then (s, .badValue)
    else ((runsLoseBus b (dissociateBus b s)).editBus b fun _ => Bus.unused, .ok)

/-- FLEET_DELETE (R15). -/
def execFleetDelete (pos : EntryPos) (target : Target) (s : State) : Host.Outcome State Fault Refusal :=
  whileRunning (serviceEntry pos (deleteBus target)) s

/-! ## Enrollment and modes (R45, R173 to R176, R179) -/

/-- R45. -/
def enrollCommand (s : State) : State × ReplyCode :=
  if s.ctl.mode ≠ .commission then (s, .wrongMode)
  else if s.enrollInProgress then (s, .busy)
  else ({ s with bus := { s.bus with enrollWaiting := true } }, .ok)

/-- ENROLL (R45). -/
def execEnroll (pos : EntryPos) (s : State) : Host.Outcome State Fault Refusal :=
  whileRunning (serviceEntry pos enrollCommand) s

/-- R174. -/
def startRunCommand (s : State) : State × ReplyCode :=
  if s.ctl.mode ≠ .commission then (s, .wrongMode)
  else if s.enrollInProgress then (s, .busy)
  else if s.bus.cabinets = [] ∨ s.configuredBerths = [] ∨ s.mapConsistent = false then (s, .badMap)
  else (enterRun .startRun s, .ok)

/-- START_RUN (R174). -/
def execStartRun (pos : EntryPos) (s : State) : Host.Outcome State Fault Refusal :=
  whileRunning (serviceEntry pos startRunCommand) s

/-- R173, R175: from SAFE_HOLD the forcing of COMMISSION stands already, and only the mode moves. -/
def commissionCommand (s : State) : State × ReplyCode :=
  match s.ctl.mode with
  | .commission => (s, .ok)
  | .run => (leaveRun .commission .enterCommission s, .ok)
  | .safeHold => (changeMode .commission .enterCommission s, .ok)

/-- ENTER_COMMISSION (R173, R175). -/
def execEnterCommission (pos : EntryPos) (s : State) : Host.Outcome State Fault Refusal :=
  whileRunning (serviceEntry pos commissionCommand) s

/-- R173, R175. -/
def safeHoldCommand (s : State) : State × ReplyCode :=
  match s.ctl.mode with
  | .commission => (s, .wrongMode)
  | .run => (leaveRun .safeHold .safeHold s, .ok)
  | .safeHold => (s, .ok)

/-- SAFE_HOLD (R173, R175). -/
def execSafeHold (pos : EntryPos) (s : State) : Host.Outcome State Fault Refusal :=
  whileRunning (serviceEntry pos safeHoldCommand) s

/-- R176: the meter is valid and the latest import is above F. -/
def State.causePresent (s : State) : Bool :=
  s.meterValid &&
    match s.meter.power with
    | none => false
    | some p => decide (s.feederLimit < p)

/-- R173, R176. -/
def resumeCommand (s : State) : State × ReplyCode :=
  if s.ctl.mode ≠ .safeHold then (s, .wrongMode)
  else if s.causePresent then (s, .causePresent)
  else (enterRun .resume { s with meter := { s.meter with escalation := 0 } }, .ok)

/-- RESUME (R176). -/
def execResume (pos : EntryPos) (s : State) : Host.Outcome State Fault Refusal :=
  whileRunning (serviceEntry pos resumeCommand) s

/-- R165, R179: RESTART ends its frame; the entries after it are answered BUSY, and the REPLY is the first entry of the
emptied FIFO. -/
def restartCommand (pos : EntryPos) (s : State) : State :=
  let results := (if pos.first then [] else s.link.results) ++ .ok :: List.replicate pos.remaining .busy
  let s := restartState s
  reply 0 pos.tag .ok (.results results) { s with link := { s.link with results := [] } }

/-- RESTART (R179). -/
def execRestart (pos : EntryPos) (s : State) : Host.Outcome State Fault Refusal :=
  whileRunning (fun s => restartCommand pos (entryTaken pos s)) s

end Sys2Proof.Machine
end

