-- ==== Sys2Proof/Machine/TableLoads.lean ====
section
/-! DEFINITION. Machine/TableLoads.lean: the meanings of the TABLE loads (R166): berth map, groups, fleet, parameters and
the four pending tables. -/

namespace Sys2Proof.Machine

/-! ## Berth map and groups (R3, R23) -/

/-- R166, R3: the refusal of a BERTH_MAP frame as a whole. -/
def State.mapFrameRefusal (s : State) : Option ReplyCode :=
  if s.ctl.mode ≠ .commission then some .wrongMode
  else if s.enrollInProgress then some .busy
  else none

/-- R3. The trims of all the frame's entries are aged by berth (R54). -/
def loadMap (tag : Nat) (entries : List MapEntry) (s : State) : State :=
  match s.mapFrameRefusal with
  | some code => reply 0 tag code .none s
  | none =>
    let out := takeEntries takeMapEntry entries s
    answerEntries tag (ageByBerth s.path.nextAge out.1, out.2)

/-- BERTH_MAP (R3). -/
def execBerthMap (tag : Nat) (entries : List MapEntry) (s : State) : Host.Outcome State Fault Refusal :=
  whileRunning (fun s => loadMap tag entries (linkTaken s)) s

/-- R23: one GROUP entry. -/
def takeGroupEntry (e : GroupEntry) (s : State) : State × ReplyCode :=
  if Config.groups ≤ e.group then (s, .badValue)
  else
    let limit := max 0 (min e.limit Config.groupLimitMax)
    ({ s with groups := s.groups.set e.group { s.groupEntry e.group with limit := limit } },
      if limit = e.limit then .ok else .clamped)

/-- R23: an entry of the frame changes a group's limit. -/
def limitChanges : List GroupEntry → State → Bool
  | [], _ => false
  | e :: rest, s =>
    let t := (takeGroupEntry e s).1
    decide (t.groups ≠ s.groups) || limitChanges rest t

/-- R23: the frame, its REPLY, and the immediate run where a limit has changed (Log 23). -/
def loadGroups (tag : Nat) (entries : List GroupEntry) (s : State) : State :=
  immediateIf (limitChanges entries s) (answerEntries tag (takeEntries takeGroupEntry entries s))

/-- GROUP (R23). -/
def execGroup (tag : Nat) (entries : List GroupEntry) (s : State) : Host.Outcome State Fault Refusal :=
  whileRunning (fun s => loadGroups tag entries (linkTaken s)) s

/-! ## Fleet (R14) -/

/-- R13, R14: every field of a FLEET entry is in its range. A permitted byte above 1 is out of range (Log 9). -/
def fleetInRange (e : FleetEntry) : Bool :=
  decide (1 ≤ e.bus ∧ e.bus ≤ Config.buses) && decide (e.tag ≠ 0) && decide (50000 ≤ e.capacity ∧ e.capacity ≤ 1000000) &&
    decide (300 ≤ e.rate ∧ e.rate ≤ 3000) && decide (e.arrivalFloor ≤ 500) &&
    decide (500 ≤ e.maxCharge ∧ e.maxCharge ≤ 1000) && decide (e.permitted ≤ 1) && decide (e.dischargeMax ≤ 3000)

/-- R14: the tag of an entry is that of another used slot. -/
def State.tagElsewhere (s : State) (e : FleetEntry) : Bool :=
  busNumbers.any fun b => decide (b ≠ e.bus) && (s.fleetBus b).used && decide ((s.fleetBus b).tag = e.tag)

/-- R14: the given fields replace the old ones. -/
def Bus.rewrite (e : FleetEntry) (b : Bus) : Bus :=
  { b with used := true, tag := e.tag, capacity := e.capacity, rate := e.rate, arrivalFloor := e.arrivalFloor,
           maxCharge := e.maxCharge, permitted := decide (e.permitted = 1), dischargeMax := e.dischargeMax }

/-- R14: an accepted entry. A slot that was unused has absent fields already. -/
def writeBus (e : FleetEntry) (s : State) : State :=
  let old := s.fleetBus e.bus
  if old.used = false then s.editBus e.bus fun _ => Bus.unused.rewrite e
  else if old.tag = e.tag then s.editBus e.bus (·.rewrite e)
  else
    let s := match old.berth with
      | none => s
      | some x => dissociate x s
    s.editBus e.bus fun b => { b.rewrite e with stored := none, stamp := none }

/-- R14. -/
def loadFleet (tag : Nat) (e : FleetEntry) (s : State) : State :=
  if fleetInRange e = false ∨ s.tagElsewhere e = true then reply 0 tag .badValue .none s
  else reply 0 tag .ok .none (writeBus e s)

/-- FLEET (R14). -/
def execFleet (tag : Nat) (entry : FleetEntry) (s : State) : Host.Outcome State Fault Refusal :=
  whileRunning (fun s => loadFleet tag entry (linkTaken s)) s

/-! ## Parameters (R167) -/

/-- R167: the value a parameter takes, `none` for an unknown id. -/
def paramValue (id : Nat) (v : Int) : Option Int :=
  if id = Config.nominalFrequencyId then some (if v ≤ 55000 then 50000 else 60000)
  else if id = 0 then none
  else (Config.paramTable[id - 1]?).map fun row => max row.low (min v row.high)

/-- R167: one PARAMS entry. -/
def takeParam (e : ParamEntry) (s : State) : State × ReplyCode :=
  match paramValue e.id e.value with
  | none => (s, .badValue)
  | some v =>
    ({ s with link := { s.link with params := s.link.params.set (e.id - 1) v } }, if v = e.value then .ok else .clamped)

/-- PARAMS (R167). -/
def execParams (tag : Nat) (entries : List ParamEntry) (s : State) : Host.Outcome State Fault Refusal :=
  whileRunning (fun s => answerEntries tag (takeEntries takeParam entries (linkTaken s))) s

/-! ## The pending day set (R105, R117, R125) -/

/-- The pending day set is changed. -/
def editPending (f : PendingSet → PendingSet) (s : State) : State :=
  { s with runs := { s.runs with pending := f s.runs.pending } }

/-- R93, R105: the fields of a run entry are in their ranges. -/
def runInRange (e : RunEntry) : Bool :=
  decide (1 ≤ e.runId ∧ e.runId ≤ 9999) && decide (e.departure ≤ 1439) && decide (1 ≤ e.distance ∧ e.distance ≤ 3000) &&
    decide (e.bus ≤ Config.buses)

/-- The record of a run entry; bus 0 is none. -/
def recordOf (e : RunEntry) : RunRecord :=
  ⟨e.runId, e.departure, e.distance, if e.bus = 0 then none else some e.bus, e.pinned, e.swapAllowed, e.precondition⟩

/-- R105: one RUN_PENDING entry. -/
def takeRunEntry (e : RunEntry) (s : State) : State × ReplyCode :=
  let p := s.runs.pending
  if p.armed then (s, .busy)
  else if runInRange e = false ∨ p.runs.any (fun r => decide (r.runId = e.runId)) = true then (s, .badValue)
  else if Config.runs ≤ p.runs.length then (s, .tableFull)
  else (editPending (fun q => { q with runs := joinRecord (recordOf e) q.runs }) s, .ok)

/-- RUN_PENDING (R105). -/
def execRunPending (tag : Nat) (entries : List RunEntry) (s : State) : Host.Outcome State Fault Refusal :=
  whileRunning (fun s => answerEntries tag (takeEntries takeRunEntry entries (linkTaken s))) s

/-- R95, R105: a cold table that may be loaded. -/
def coldTableValid (points : List ColdPoint) : Bool :=
  decide (2 ≤ points.length ∧ points.length ≤ 8) &&
    points.all (fun p => decide (-40 ≤ p.temperature ∧ p.temperature ≤ 50 ∧ 800 ≤ p.factor ∧ p.factor ≤ 2000)) &&
    decide ((points.map (·.temperature)).Pairwise (· < ·))

/-- R105: a COLD_PENDING frame. -/
def loadCold (tag : Nat) (points : List ColdPoint) (s : State) : State :=
  if s.runs.pending.armed then reply 0 tag .busy .none s
  else if coldTableValid points = false then reply 0 tag .badValue .none s
  else reply 0 tag .ok .none (editPending (fun q => { q with cold := points }) s)

/-- COLD_PENDING (R105). -/
def execColdPending (tag : Nat) (points : List ColdPoint) (s : State) : Host.Outcome State Fault Refusal :=
  whileRunning (fun s => loadCold tag points (linkTaken s)) s

/-- R117, R124: start and end minutes of a window. -/
def windowMinutes (start stop : Nat) : Bool := decide (start ≤ 1439 ∧ start + 1 ≤ stop ∧ stop ≤ 1440)

/-- R117: one DEMAND_PENDING entry. -/
def takeDemandEntry (e : DemandEntry) (s : State) : State × ReplyCode :=
  let p := s.runs.pending
  if p.armed then (s, .busy)
  else if windowMinutes e.start e.stop = false ∨ 30000 < e.hold then (s, .badValue)
  else if p.demand.any (fun w => windowsOverlap e.start e.stop w.start w.stop) = true then (s, .badValue)
  else if Config.demandWindows ≤ p.demand.length then (s, .tableFull)
  else (editPending (fun q => { q with
    demand := insertBy (fun a b => decide (a.start < b.start)) ⟨e.start, e.stop, e.hold⟩ q.demand }) s, .ok)

/-- DEMAND_PENDING (R117). -/
def execDemandPending (tag : Nat) (entries : List DemandEntry) (s : State) : Host.Outcome State Fault Refusal :=
  whileRunning (fun s => answerEntries tag (takeEntries takeDemandEntry entries (linkTaken s))) s

/-- R124, R125: the fields of a reserve window are in their ranges. A frequency byte above 1 is out of range (Log 9). -/
def reserveInRange (e : ReserveEntry) : Bool :=
  windowMinutes e.start e.stop && decide (1 ≤ e.reduction ∧ e.reduction ≤ 30000) &&
    decide (60 ≤ e.maxDuration ∧ e.maxDuration ≤ 14400) && decide (e.frequency ≤ 1)

/-- R125: one RESERVE_PENDING entry. -/
def takeReserveEntry (e : ReserveEntry) (s : State) : State × ReplyCode :=
  let p := s.runs.pending
  if p.armed then (s, .busy)
  else if reserveInRange e = false then (s, .badValue)
  else if p.reserve.any (fun w => windowsOverlap e.start e.stop w.start w.stop) = true then (s, .badValue)
  else if Config.reserveWindows ≤ p.reserve.length then (s, .tableFull)
  else (editPending (fun q => { q with
    reserve := insertBy (fun a b => decide (a.start < b.start))
      ⟨e.start, e.stop, e.reduction, e.maxDuration, decide (e.frequency = 1)⟩ q.reserve }) s, .ok)

/-- RESERVE_PENDING (R125). -/
def execReservePending (tag : Nat) (entries : List ReserveEntry) (s : State) : Host.Outcome State Fault Refusal :=
  whileRunning (fun s => answerEntries tag (takeEntries takeReserveEntry entries (linkTaken s))) s

end Sys2Proof.Machine
end

