-- ==== Sys2Proof/Machine/Timers.lean ====
section
/-! DEFINITION. Machine/Timers.lean: the meanings of the upstream transmitter and of the timers that are not the berth bus's
or the meter's (R170, R171, R50, R136, R69, R60). An expiry of a timer that does not run has no effect (Log 2). -/

namespace Sys2Proof.Machine

/-! ## The transmitter (R170) -/

/-- R170: the cabinets in the order their slots are looked at. -/
def slotOrder (lastSent : Nat) : List Nat := (List.range Config.cabinets).map fun i => (lastSent + i) % 12 + 1

/-- R170: the telemetry slot of cabinet `c`. -/
def State.slot (s : State) (c : Nat) : Slot := s.link.slots.getD (c - 1) Slot.clear

/-- R169, R170: the transmitter takes the next upstream frame. -/
def transmit (s : State) : State :=
  match s.link.fifo with
  | f :: rest => { s with link := { s.link with fifo := rest, tx := some f } }
  | [] =>
    match (slotOrder s.link.lastSent).find? fun c => (s.slot c).filled with
    | none => s
    | some c => { s with link := { s.link with
        slots := s.link.slots.set (c - 1) { s.slot c with filled := false }
        lastSent := c
        tx := some (.telemetry c (s.slot c).status) } }

/-- UPSTREAM_TRANSMIT (R170). -/
def execUpstreamTransmit (s : State) : Host.Outcome State Fault Refusal := whileRunning transmit s

/-! ## The clock and the tick (R171) -/

/-- R171: the second after this one. -/
def nextSecond (second : Nat) : Nat := if second + 1 = Config.daySeconds then 0 else second + 1

/-- R100, R109: the Run Table's work at an advance. Answers whether a call ended with it. -/
def runAdvance (s : State) : State × Bool :=
  let s := resolveRuns s
  if s.now = 0 then endDay s else (s, false)

/-- R171: the hand-overs of an advance of the set clock: Run Table, Storage Unit, Reserve Unit (Log 21). A day set armed at the wrap is
thus applied before the windows are judged by the clock (Log 53). -/
def advanceClock (s : State) : State :=
  let s := { s with link := { s.link with second := nextSecond s.link.second } }
  if s.link.clockSet then
    let day := runAdvance s
    let reserve := judgeWindows (advanceInterval day.1)
    immediateIf (day.2 || reserve.2) reserve.1
  else s

/-- CLOCK_ADVANCE (R171). -/
def execClockAdvance (s : State) : Host.Outcome State Fault Refusal := whileRunning advanceClock s

/-- R151, R50: one second of a berth's own counts. -/
def Berth.tick (b : Berth) : Berth :=
  { b with confirmAge := b.confirmAge.map (· + 1), request := b.request.map fun r => { r with left := r.left - 1 } }

/-- R171: the tick advances every count of a duration. -/
def tickAll (s : State) : State :=
  let s := { s with berths := s.berths.map Berth.tick }
  match s.reserve.call with
  | none => s
  | some c => { s with reserve := { s.reserve with call := some { c with left := c.left - 1 } } }

/-- ONE_SECOND_TICK (R171). -/
def execOneSecondTick (s : State) : Host.Outcome State Fault Refusal := whileRunning tickAll s

/-! ## Durations (R50, R136) -/

/-- R50: the lifetime of berth `x`'s request has run out. -/
def State.lifetimeOver (s : State) (x : Nat) : Bool :=
  match (s.berth x).request with
  | none => false
  | some r => decide (r.left = 0)

/-- R50: the request becomes NONE; no entry is made. -/
def expireRequest (x : Nat) (s : State) : State :=
  if s.lifetimeOver x then s.editBerth x fun b => { b with request := none } else s

/-- REQUEST_LIFETIME_EXPIRY (R50). -/
def execRequestLifetimeExpiry (berth : Nat) (s : State) : Host.Outcome State Fault Refusal :=
  whileRunning (expireRequest berth) s

/-- R131: the duration of the call in progress has run out. -/
def State.callOver (s : State) : Bool :=
  match s.reserve.call with
  | none => false
  | some c => decide (c.left = 0)

/-- R136: the call ends with cause DURATION, and an immediate run follows. -/
def expireCall (s : State) : State := if s.callOver then immediateRun (endCall .duration id s) else s

/-- CALL_DURATION_EXPIRY (R136). -/
def execCallDurationExpiry (s : State) : Host.Outcome State Fault Refusal := whileRunning expireCall s

/-! ## Allocation period and start slot (R69, R60) -/

/-- PERIODIC_RUN (R69). -/
def execPeriodicRun (s : State) : Host.Outcome State Fault Refusal :=
  whileRunning (fun s => if s.alloc.periodRunning ∧ s.ctl.mode = .run then periodicAllocation s else s) s

/-- R60: an expiry of the start slot timer; it reads the start spacing for the next. -/
def expireStartSlot (s : State) : State :=
  if s.path.slotRunning then
    let s := releaseStart s
    { s with path := { s.path with slotSpacing := s.startSpacing } }
  else s

/-- START_SLOT_EXPIRY (R60). -/
def execStartSlotExpiry (s : State) : Host.Outcome State Fault Refusal := whileRunning expireStartSlot s

end Sys2Proof.Machine
end

