-- ==== Sys2Proof/Machine/Dispatch.lean ====
section
/-! DEFINITION. Machine/Dispatch.lean: one arm per command, each one call of its meaning. -/

namespace Sys2Proof.Machine

def exec (i : Instr) (s : State) : Host.Outcome State Fault Refusal :=
  match i with
  | .fullReset limsel linkspd autorun => Sys2Proof.Machine.execFullReset limsel linkspd autorun s
  | .linkFrameGapAbandon bytes => Sys2Proof.Machine.execLinkFrameGapAbandon bytes s
  | .linkFrameDropped bytes => Sys2Proof.Machine.execLinkFrameDropped bytes s
  | .depotFrameRefused party kind tag body => Sys2Proof.Machine.execDepotFrameRefused party kind tag body s
  | .setpointReq berth tag body => Sys2Proof.Machine.execSetpointReq berth tag body s
  | .pass cabinet tag body => Sys2Proof.Machine.execPass cabinet tag body s
  | .serviceFrameRefused tag body => Sys2Proof.Machine.execServiceFrameRefused tag body s
  | .serviceNoop pos => Sys2Proof.Machine.execServiceNoop pos s
  | .serviceUnknownCommand pos command => Sys2Proof.Machine.execServiceUnknownCommand pos command s
  | .berthEnableSet pos target => Sys2Proof.Machine.execBerthEnableSet pos target s
  | .berthEnableClear pos target => Sys2Proof.Machine.execBerthEnableClear pos target s
  | .doneClear pos target => Sys2Proof.Machine.execDoneClear pos target s
  | .noticeEnableSet pos target => Sys2Proof.Machine.execNoticeEnableSet pos target s
  | .noticeEnableClear pos target => Sys2Proof.Machine.execNoticeEnableClear pos target s
  | .classEnableSet pos target => Sys2Proof.Machine.execClassEnableSet pos target s
  | .classEnableClear pos target => Sys2Proof.Machine.execClassEnableClear pos target s
  | .alertRouteSet pos target => Sys2Proof.Machine.execAlertRouteSet pos target s
  | .alertRouteClear pos target => Sys2Proof.Machine.execAlertRouteClear pos target s
  | .faultClear pos target => Sys2Proof.Machine.execFaultClear pos target s
  | .groupEnableSet pos target => Sys2Proof.Machine.execGroupEnableSet pos target s
  | .groupEnableClear pos target => Sys2Proof.Machine.execGroupEnableClear pos target s
  | .timeSet pos second => Sys2Proof.Machine.execTimeSet pos second s
  | .applyDay pos => Sys2Proof.Machine.execApplyDay pos s
  | .pendingClear pos => Sys2Proof.Machine.execPendingClear pos s
  | .runAssign pos runId bus pin => Sys2Proof.Machine.execRunAssign pos runId bus pin s
  | .runCancel pos runId => Sys2Proof.Machine.execRunCancel pos runId s
  | .fleetDelete pos target => Sys2Proof.Machine.execFleetDelete pos target s
  | .enroll pos => Sys2Proof.Machine.execEnroll pos s
  | .startRun pos => Sys2Proof.Machine.execStartRun pos s
  | .enterCommission pos => Sys2Proof.Machine.execEnterCommission pos s
  | .safeHold pos => Sys2Proof.Machine.execSafeHold pos s
  | .resume pos => Sys2Proof.Machine.execResume pos s
  | .restart pos => Sys2Proof.Machine.execRestart pos s
  | .tableFrameRefused tag body => Sys2Proof.Machine.execTableFrameRefused tag body s
  | .berthMap tag entries => Sys2Proof.Machine.execBerthMap tag entries s
  | .group tag entries => Sys2Proof.Machine.execGroup tag entries s
  | .fleet tag entry => Sys2Proof.Machine.execFleet tag entry s
  | .params tag entries => Sys2Proof.Machine.execParams tag entries s
  | .runPending tag entries => Sys2Proof.Machine.execRunPending tag entries s
  | .coldPending tag points => Sys2Proof.Machine.execColdPending tag points s
  | .demandPending tag entries => Sys2Proof.Machine.execDemandPending tag entries s
  | .reservePending tag entries => Sys2Proof.Machine.execReservePending tag entries s
  | .queryStatus tag index => Sys2Proof.Machine.execQueryStatus tag index s
  | .queryBerth tag index => Sys2Proof.Machine.execQueryBerth tag index s
  | .queryBus tag index => Sys2Proof.Machine.execQueryBus tag index s
  | .queryRun tag index => Sys2Proof.Machine.execQueryRun tag index s
  | .queryGroups tag index => Sys2Proof.Machine.execQueryGroups tag index s
  | .queryCalls tag index => Sys2Proof.Machine.execQueryCalls tag index s
  | .queryDemand tag index => Sys2Proof.Machine.execQueryDemand tag index s
  | .reserveCall tag callId reduction duration => Sys2Proof.Machine.execReserveCall tag callId reduction duration s
  | .reserveEnd tag callId => Sys2Proof.Machine.execReserveEnd tag callId s
  | .upstreamTransmit => Sys2Proof.Machine.execUpstreamTransmit s
  | .clockAdvance => Sys2Proof.Machine.execClockAdvance s
  | .oneSecondTick => Sys2Proof.Machine.execOneSecondTick s
  | .requestLifetimeExpiry berth => Sys2Proof.Machine.execRequestLifetimeExpiry berth s
  | .callDurationExpiry => Sys2Proof.Machine.execCallDurationExpiry s
  | .periodicRun => Sys2Proof.Machine.execPeriodicRun s
  | .startSlotExpiry => Sys2Proof.Machine.execStartSlotExpiry s
  | .surveyTimerExpiry => Sys2Proof.Machine.execSurveyTimerExpiry s
  | .surveyStart => Sys2Proof.Machine.execSurveyStart s
  | .surveyOpenSent => Sys2Proof.Machine.execSurveyOpenSent s
  | .slotTimerExpiry => Sys2Proof.Machine.execSlotTimerExpiry s
  | .closeSent => Sys2Proof.Machine.execCloseSent s
  | .status cabinet body => Sys2Proof.Machine.execStatus cabinet body s
  | .berthBusFrameDiscarded bytes => Sys2Proof.Machine.execBerthBusFrameDiscarded bytes s
  | .setpointDequeue => Sys2Proof.Machine.execSetpointDequeue s
  | .setpointSent => Sys2Proof.Machine.execSetpointSent s
  | .ack cabinet body => Sys2Proof.Machine.execAck cabinet body s
  | .ackWindowExpiry => Sys2Proof.Machine.execAckWindowExpiry s
  | .echoMismatch => Sys2Proof.Machine.execEchoMismatch s
  | .passDequeue => Sys2Proof.Machine.execPassDequeue s
  | .passSent => Sys2Proof.Machine.execPassSent s
  | .passAnswer cabinet body => Sys2Proof.Machine.execPassAnswer cabinet body s
  | .passAckWindowExpiry => Sys2Proof.Machine.execPassAckWindowExpiry s
  | .enrollLineTaken => Sys2Proof.Machine.execEnrollLineTaken s
  | .enrollForgetSent => Sys2Proof.Machine.execEnrollForgetSent s
  | .enrollAssignSent => Sys2Proof.Machine.execEnrollAssignSent s
  | .enrollReport cabinet body => Sys2Proof.Machine.execEnrollReport cabinet body s
  | .enrollReplyWindowExpiry => Sys2Proof.Machine.execEnrollReplyWindowExpiry s
  | .stopSent => Sys2Proof.Machine.execStopSent s
  | .meterFrameGapAbandon bytes => Sys2Proof.Machine.execMeterFrameGapAbandon bytes s
  | .meterFrameCrcFail bytes => Sys2Proof.Machine.execMeterFrameCrcFail bytes s
  | .meterSampleInvalidFlag => Sys2Proof.Machine.execMeterSampleInvalidFlag s
  | .meterSampleDuplicate => Sys2Proof.Machine.execMeterSampleDuplicate s
  | .meterSampleAccepted sample => Sys2Proof.Machine.execMeterSampleAccepted sample s
  | .sampleTimerExpiry => Sys2Proof.Machine.execSampleTimerExpiry s
  | .resetPinAsserted => Sys2Proof.Machine.execResetPinAsserted s

end Sys2Proof.Machine
end

