-- ==== Sys2Proof/Machine/Upstream.lean ====
section
/-! DEFINITION. Machine/Upstream.lean: the upstream frames as the depot link carries them (chapter 10, R164, R169, R170): the
reply code values, and the party, kind, tag and body of each frame. Bodies that the spec gives by their fields alone have no bytes
here (Log 32). -/

namespace Sys2Proof.Machine

/-- R164's table of reply code values; 6 is not used. -/
def replyCodeValue : ReplyCode → Nat
  | .ok => 0
  | .clamped => 1
  | .badLength => 2
  | .badValue => 3
  | .unknownKind => 4
  | .wrongMode => 5
  | .busy => 7
  | .tableFull => 8
  | .notServing => 9
  | .superseded => 10
  | .noConfirm => 11
  | .notCommitted => 12
  | .callBusy => 13
  | .unknownCall => 14
  | .unavailable => 15
  | .downstreamFull => 16
  | .causePresent => 17
  | .badMap => 18
  | .clockUnset => 19

/-- The byte of a reply code. -/
def replyCodeByte (c : ReplyCode) : Byte := BitVec.ofNat 8 (replyCodeValue c)

/-- The result byte of a SET_ACK (R169). -/
def setResultValue : SetResult → Nat
  | .accepted => 0
  | .limited => 1
  | .refused => 2

/-- What follows the code byte of a REPLY, where the spec lays it out: nothing, a result code for each entry (R164), or the
cabinet's body (R44). -/
def ReplyBody.bytes : ReplyBody → Option (List Byte)
  | .none => some []
  | .results codes => some (codes.map replyCodeByte)
  | .cabinet body => some body
  | .status _ | .totals _ | .alert _ | .berth _ | .bus _ | .activeRun _ _ _ | .pendingRun _ | .groups _ | .calls _
  | .callRecord _ | .demand _ | .demandWindows _ => Option.none

/-- The party byte: the source of the frame. That of a NOTICE is 0x00, that of a TELEMETRY its cabinet (R169, R170). -/
def UpFrame.party : UpFrame → Nat
  | .reply party _ _ _ => party
  | .setAck party _ _ _ => party
  | .notice _ => 0
  | .telemetry cabinet _ => cabinetParty (some cabinet)

/-- The kind byte. -/
def UpFrame.kind : UpFrame → Byte
  | .reply _ _ _ _ => 0x81
  | .notice _ => 0x82
  | .telemetry _ _ => 0x83
  | .setAck _ _ _ _ => 0x84

/-- The tag byte: an answer returns its frame's tag; a NOTICE answers none and has 0 (DEDUCED, Log 54), a TELEMETRY has 0
(R170). -/
def UpFrame.tag : UpFrame → Nat
  | .reply _ tag _ _ => tag
  | .setAck _ tag _ _ => tag
  | .notice _ => 0
  | .telemetry _ _ => 0

/-- The body, where the spec lays it out. -/
def UpFrame.body : UpFrame → Option (List Byte)
  | .reply _ _ code body => body.bytes.map (replyCodeByte code :: ·)
  | .setAck _ _ value result => some (steps16Bytes value ++ [BitVec.ofNat 8 (setResultValue result)])
  | .notice _ => none
  | .telemetry _ status => some status

/-- The whole frame on the line, where the spec lays its body out. -/
def UpFrame.bytes (f : UpFrame) : Option (List Byte) :=
  f.body.map (linkFrame (BitVec.ofNat 8 f.party) f.kind (BitVec.ofNat 8 f.tag))

/-- The bytes of the upstream frame being sent, or last sent (R170). -/
def State.upstreamBytes (s : State) : Option (List Byte) := s.link.tx.bind UpFrame.bytes

end Sys2Proof.Machine
end

