-- ==== Sys2Proof/Safety.lean ====
section
/-! DEFINITION. Safety.lean: the terms in which the claims about the part are made: when it takes commands, what an event
may leave unchanged, and the relations that hold at every moment. -/

namespace Sys2Proof.Machine

/-- The part takes commands: the RESET pin is not held (R161, R177; Log 7). -/
def State.Live (s : State) : Prop := s.ctl.resetHeld = false

/-! ## What an event leaves unchanged -/

/-- Only the upstream FIFO and the two lost flags may differ (R160, R169). -/
def State.OnlyQueue (s t : State) : Prop :=
  t = { s with
    link := { s.link with fifo := t.link.fifo, answerLost := t.link.answerLost }
    faults := { s.faults with noticeLost := t.faults.noticeLost } }

/-- Only the berth records, the pending setpoint list, the start queue and the upstream FIFO with its answer flag may differ. -/
def State.OnlyPath (s t : State) : Prop :=
  t = { s with
    link := { s.link with fifo := t.link.fifo, answerLost := t.link.answerLost }
    berths := t.berths
    path := { s.path with list := t.path.list, waiting := t.path.waiting, queue := t.path.queue, nextAge := t.path.nextAge } }

/-- Only what a berth's session touches may differ: the berth records, the associations and estimates of the fleet register,
the run states, the setpoint path's list and queue, the marks of a setpoint on the line, and the upstream FIFO. -/
def State.OnlySessions (s t : State) : Prop :=
  t = { s with
    link := { s.link with fifo := t.link.fifo, answerLost := t.link.answerLost }
    bus := { s.bus with line := t.bus.line }
    berths := t.berths
    fleet := t.fleet
    runs := { s.runs with active := t.runs.active }
    path := { s.path with list := t.path.list, waiting := t.path.waiting, queue := t.path.queue, nextAge := t.path.nextAge }
    faults := { s.faults with noticeLost := t.faults.noticeLost } }

/-- Only what an allocation run writes may differ (R71 to R92): the berth records, the two energies of the fleet, the run
states, the setpoint path's list and queue, the totals, the shortfall flags and the coverage with the reserve state. -/
def State.OnlyRun (s t : State) : Prop :=
  t = { s with
    link := { s.link with fifo := t.link.fifo, answerLost := t.link.answerLost }
    berths := t.berths
    fleet := t.fleet
    runs := { s.runs with active := t.runs.active }
    alloc := { s.alloc with totals := t.alloc.totals }
    path := { s.path with list := t.path.list, waiting := t.path.waiting, queue := t.path.queue, nextAge := t.path.nextAge }
    storage := { s.storage with interval := t.storage.interval }
    reserve := { s.reserve with state := t.reserve.state, coverage := t.reserve.coverage, records := t.reserve.records }
    faults := { s.faults with noticeLost := t.faults.noticeLost } }

/-- Every berth record but that of `x` is as it was. -/
def State.OthersKept (x : Nat) (s t : State) : Prop := ∀ y, y ≠ x → t.berth y = s.berth y

/-- The waiting setpoint work of every berth but `x`, and every trim at an old address, is as it was (R54, R59). -/
def State.OtherWorkKept (x : Nat) (s t : State) : Prop :=
  (∀ y, y ≠ x → t.entryOf y = s.entryOf y ∧ t.queuedOf y = s.queuedOf y) ∧
    t.path.list.filter (·.old.isSome) = s.path.list.filter (·.old.isSome)

/-- R11: a command addressed to berth `n` acts on berth `x`: `n` itself, or the leader of a FOLLOWER, its partner where that
is configured as a LEADER whose partner is the FOLLOWER. -/
def State.ActsOn (s : State) (n x : Nat) : Prop :=
  n < 36 ∧ (s.berth n).configured = true ∧
    (((s.berth n).coupling ≠ .follower ∧ x = n) ∨
      ((s.berth n).coupling = .follower ∧ (s.berth n).partner = some x ∧ (s.berth x).configured = true ∧
        (s.berth x).coupling = .leader ∧ (s.berth x).partner = some n))

/-- The follower of a LEADER: its partner, where the two name each other as LEADER and FOLLOWER (R11, R157). -/
def State.PairedWith (s : State) (x p : Nat) : Prop :=
  (s.berth x).coupling = .leader ∧ (s.berth x).partner = some p ∧ (s.berth p).configured = true ∧
    (s.berth p).coupling = .follower ∧ (s.berth p).partner = some x

/-- A fault flag is latched on berth `x` or on its follower (R5). -/
def State.FaultOn (s : State) (x : Nat) : Prop :=
  (s.berth x).flags ≠ FaultFlags.clear ∨ ∃ p, s.PairedWith x p ∧ (s.berth p).flags ≠ FaultFlags.clear

/-- An enrollment has been accepted and has not ended (R45). -/
def State.Enrolling (s : State) : Prop :=
  s.bus.enrollWaiting = true ∨ ∃ k n, s.bus.line = .enrollForget n ∨ s.bus.line = .enrollAssign k n ∨ s.bus.line = .enrollReply k

/-- The meter is valid (chapter 08). -/
def State.MeterValid (s : State) : Prop := s.meter.state = .valid ∨ s.meter.state = .holding

/-! ## Allocation runs (chapter 04) -/

/-- R73: the served berths with their inputs of stage 1, in ascending number. -/
def State.servedInputs (s : State) : List Served :=
  ((List.range 36).filter fun x => decide ((s.berth x).session = .serving ∧ (s.berth x).coupling ≠ .follower)).map s.inputs

/-- R70, R72: an allocation run of this kind leaves `t`. It finds `u`: in a periodic run, what stage 0 and the rebound step have left. -/
def RunLeaves (kind : RunKind) (u t : State) : Prop :=
  (kind = .immediate ∧ u.ctl.mode = .run ∧ t = immediateRun u) ∨
  (kind = .periodic ∧ ∃ s : State, s.Live ∧ s.alloc.periodRunning = true ∧ s.ctl.mode = .run ∧
    u = reboundStep (stageZero s) ∧ exec .periodicRun s = .next t)

/-! ## Relations that hold at every moment -/

/-- The tables of fixed size have their size, and no upstream or pass-through FIFO, enrollment list, run, cold, demand, reserve or
call table or baseline ring is over its bound. (The pending setpoint list and the start queue: `State.PathOrdered`.) -/
structure State.Bounds (s : State) : Prop where
  /-- R169: at most 32 entries in the upstream FIFO. -/
  fifo : s.link.fifo.length ≤ 32
  /-- R160: at most 24 of them are notices. -/
  notices : s.noticeCount ≤ 24
  /-- R170, R167. -/
  slots : s.link.slots.length = 12
  params : s.link.params.length = 27
  /-- R1, R13, R23. -/
  berths : s.berths.length = 36
  fleet : s.fleet.length = 64
  groups : s.groups.length = 6
  /-- R43: at most 16 frames in the pass-through FIFO. -/
  pass : s.bus.passFifo.length ≤ 16
  /-- R46: at most 12 cabinets, and a miss count for each number (R34). -/
  cabinets : s.bus.cabinets.length ≤ 12
  misses : s.bus.missCounts.length = 12
  /-- R46: an ASSIGN or a reply window is for the cabinet after those on the list, at most cabinet 12. -/
  assign : ∀ k n, s.bus.line = .enrollAssign k n → s.bus.cabinets.length < k ∧ k ≤ 12
  window : ∀ k, s.bus.line = .enrollReply k → s.bus.cabinets.length < k ∧ k ≤ 12
  forget : ∀ n, s.bus.line = .enrollForget n → s.bus.cabinets = []
  /-- R94: at most 48 runs in each run table. -/
  active : s.runs.active.length ≤ 48
  pendingRuns : s.runs.pending.runs.length ≤ 48
  /-- R95: at most 8 points in each cold table. -/
  cold : s.runs.cold.length ≤ 8
  pendingCold : s.runs.pending.cold.length ≤ 8
  /-- R117: at most 8 demand windows in each table. -/
  demand : s.storage.windows.length ≤ 8
  pendingDemand : s.runs.pending.demand.length ≤ 8
  /-- R124: at most 12 reserve windows in each table. -/
  reserve : s.reserve.windows.length ≤ 12
  pendingReserve : s.runs.pending.reserve.length ≤ 12
  /-- R139: at most 8 call records. -/
  records : s.reserve.records.length ≤ 8
  /-- R130: at most 50 values in the baseline ring. -/
  ring : s.meter.ring.length ≤ 50
  /-- R159, R161. -/
  classes : s.faults.classEnables.length = 5
  routing : s.faults.routing.length = 6

/-- R94, R95, R117, R124: the order in which the tables are kept. -/
structure State.TablesInOrder (s : State) : Prop where
  /-- R94: table order, and each run id at most once in a table (R105). -/
  active : s.runs.active.Pairwise fun a b => a.departure < b.departure ∨ (a.departure = b.departure ∧ a.runId < b.runId)
  activeIds : (s.runs.active.map (·.runId)).Nodup
  pending : s.runs.pending.runs.Pairwise fun a b => a.departure < b.departure ∨ (a.departure = b.departure ∧ a.runId < b.runId)
  pendingIds : (s.runs.pending.runs.map (·.runId)).Nodup
  /-- R95: strictly ascending temperatures. -/
  cold : s.runs.cold.Pairwise fun a b => a.temperature < b.temperature
  pendingCold : s.runs.pending.cold.Pairwise fun a b => a.temperature < b.temperature
  /-- R117: each window ends after its start, and none begins before the one ahead of it ends. -/
  demand : (∀ w ∈ s.storage.windows, w.start < w.stop) ∧ s.storage.windows.Pairwise fun a b => a.stop ≤ b.start
  pendingDemand : (∀ w ∈ s.runs.pending.demand, w.start < w.stop) ∧ s.runs.pending.demand.Pairwise fun a b => a.stop ≤ b.start
  /-- R124. -/
  reserve : (∀ w ∈ s.reserve.windows, w.start < w.stop) ∧ s.reserve.windows.Pairwise fun a b => a.stop ≤ b.start
  pendingReserve : (∀ w ∈ s.runs.pending.reserve, w.start < w.stop) ∧ s.runs.pending.reserve.Pairwise fun a b => a.stop ≤ b.start

/-- R19: the association is one-to-one and recorded on both sides, between berths 0 to 35 and used slots 1 to 64. -/
structure State.Associated (s : State) : Prop where
  berths : s.berths.length = 36
  fleet : s.fleet.length = 64
  /-- Bus `b` records berth `x` exactly when berth `x` records bus `b`. -/
  both : ∀ b x, (s.fleetBus b).berth = some x ↔ (s.berth x).bus = some b
  /-- A slot that holds no bus is at no berth. -/
  unused : ∀ b, (s.fleetBus b).used = false → (s.fleetBus b).berth = none

/-- R89 Law 2, R173: which berths may hold a grant, with what R3 and R11 say of the session states. -/
structure State.Granted (s : State) : Prop where
  berths : s.berths.length = 36
  /-- A grant other than 0: in RUN, in SERVING, not as a FOLLOWER, and in an enabled group. -/
  grant : ∀ x, (s.berth x).grant ≠ 0 → s.ctl.mode = .run ∧ (s.berth x).session = .serving ∧
    (s.berth x).coupling ≠ .follower ∧ ∃ g, (s.berth x).group = some g ∧ (s.groupEntry g).enable = true
  /-- A configured berth, and no other, has a group and a state other than UNCONFIGURED. -/
  group : ∀ x, (s.berth x).group.isSome = (s.berth x).configured
  session : ∀ x, (s.berth x).session = .unconfigured ↔ (s.berth x).configured = false
  /-- A berth is in FOLLOWER exactly when it is configured as one. -/
  follower : ∀ x, (s.berth x).session = .follower ↔ (s.berth x).configured = true ∧ (s.berth x).coupling = .follower

/-- What the Setpoint Path's list, its queue, the work that waits for a trim and the SETPOINT being sent always are (R3, R54, R59). -/
structure State.PathOrdered (s : State) : Prop where
  /-- The list is in order of age, and the next age is above all. -/
  rising : s.path.list.Pairwise fun a b => a.age < b.age
  newest : ∀ e ∈ s.path.list, e.age < s.path.nextAge
  /-- R54: at most one entry of a berth, the trim of a map change being one. -/
  once : (s.path.list.map (·.berth)).Nodup
  berth : ∀ e ∈ s.path.list, e.berth < 36
  /-- R3: what waits is one piece of work of a berth's own, while a trim of its map change stands on the list or is being sent. -/
  waitingOnce : (s.path.waiting.map (·.berth)).Nodup
  waits : ∀ e ∈ s.path.waiting, e.old = none ∧ e.berth < 36 ∧ (s.trimWaits e.berth = true ∨
    ∃ tx, s.bus.line = .setpointSending tx ∧ tx.trim = true ∧ tx.berth = e.berth ∧ ∀ f ∈ s.path.list, f.berth ≠ e.berth)
  /-- Work of its own is that of a configured berth that is not a FOLLOWER. -/
  own : ∀ e ∈ s.path.list ++ s.path.waiting, e.old = none → (s.berth e.berth).configured = true ∧ (s.berth e.berth).coupling ≠ .follower
  /-- R59: a berth stands in the queue at most once, and exactly while it is START_QUEUED. -/
  queuedOnce : (s.path.queue.map (·.berth)).Nodup
  queued : ∀ x, (s.berth x).setpoint = .startQueued ↔ ∃ q ∈ s.path.queue, q.berth = x
  /-- R59: a queued berth is in SERVING; one without a partner is commanded 0. -/
  serving : ∀ q ∈ s.path.queue, (s.berth q.berth).session = .serving
  commanded : ∀ q ∈ s.path.queue, (s.berth q.berth).coupling = .single → (s.berth q.berth).commanded = 0
  /-- R54: no berth is in the queue and on the list, nor in the queue with work that waits. -/
  apart : ∀ q ∈ s.path.queue, ∀ e ∈ s.path.list ++ s.path.waiting, e.berth ≠ q.berth
  /-- The entry of the SETPOINT being sent has left the list: its age is its own. -/
  age : ∀ tx, s.bus.line = .setpointSending tx → tx.age < s.path.nextAge ∧ ∀ e ∈ s.path.list, e.age ≠ tx.age
  sender : ∀ tx, s.bus.line = .setpointSending tx ∨ s.bus.line = .setpointAck tx → tx.berth < 36 ∧
    (tx.trim = true → tx.detached = true) ∧ (tx.trim = false → tx.detached = true → tx.left = true) ∧
    (tx.detached = false → (s.berth tx.berth).configured = true ∧ (s.berth tx.berth).coupling ≠ .follower ∧
      s.trimWaits tx.berth = false)
  /-- What it will command: its own berth's outlet and its follower's, a value other than 0 only while its berth is ACTIVE or has
  left SERVING. -/
  share : ∀ tx, s.bus.line = .setpointSending tx → (tx.value = 0 → ∀ h ∈ tx.shares, h.value = 0) ∧
    (tx.detached = true → ∀ h ∈ tx.shares, h.berth = none) ∧
    (∀ h ∈ tx.shares, ∀ x, h.berth = some x → x = tx.berth ∨
      ((s.berth x).configured = true ∧ (s.berth x).coupling = .follower)) ∧
    (tx.value ≠ 0 → tx.detached = true ∨ (s.berth tx.berth).session ≠ .serving ∨ (s.berth tx.berth).setpoint = .active)

end Sys2Proof.Machine
end

