-- ==== Sys2Proof/Certificates/Slice0/Obligations.lean ====
section
/-! DEFINITION. Certificates/Slice0/Obligations.lean: the statements about the part, each with the rules it formalises. Where
a statement holds of a state with the RESET pin released it asks `State.Live` (Log 7). Where a docstring names a log entry, the
clause named is the model's choice and not a sentence of the spec. A command that a frame of the depot link spells takes that frame
from the framer, by `linkTaken s`, or `entryTaken pos s` for the entries of a SERVICE frame, which takes it at its first entry: what
then stands there is what stood behind the frame, nothing where its last byte is the last received (R163, Log 5), and nothing but
the framer changes by it. -/

open Sys2Proof Sys2Proof.Machine

/-! ## The stream and the two resets -/

/-- The oldest waiting command is taken and carried out; with none waiting nothing happens (Log 1). -/
def Obligations.StepTakesTheOldestCommand : Prop :=
  (∀ (s : State) c rest, s.pending = c :: rest → step s = exec c { s with pending := rest }) ∧
  (∀ (s : State), s.pending = [] → step s = .next s)

/-- Every command completes in every state, and none touches the commands that wait behind it (Log 1). -/
def Obligations.CommandsKeepTheStream : Prop :=
  ∀ c s, ∃ t, exec c s = .next t ∧ t.pending = s.pending

/-- R161: while the RESET pin is held the ALERT line is released; every command but a full reset and the pin's own then has no effect
(Log 7), and the pin changes nothing else. -/
def Obligations.HeldResetTakesNothing : Prop :=
  (∀ c s, s.ctl.resetHeld = true → c ≠ .resetPinAsserted → (∀ l k a, c ≠ .fullReset l k a) → exec c s = .next s) ∧
  (∀ s, ∃ t, exec .resetPinAsserted s = .next t ∧ t = { s with ctl := { s.ctl with resetHeld := true } } ∧
      t.alertLow = false)

/-- R177 with the reset columns of R2, R13, R23, R48, R91, R111, R114, R150, R159, R162, R167, R169 to R171: what a full reset leaves, for
every LIMSEL code; of the last-run totals the kind is NONE and every other field 0. (The meter's latest sequence and the second of its
last sample: Log 47; the totals' binding term FEEDER, the one coded 0: Log 41.) -/
def Obligations.FullResetValues : Prop :=
  ∀ limsel linkspd autorun s, limsel < 8 →
    ∃ t, exec (.fullReset limsel linkspd autorun) s = .next t ∧ t.Live ∧
      t.ctl.mode = .commission ∧ t.ctl.straps = ⟨limsel, linkspd, autorun⟩ ∧ t.bus.enrollWaiting = autorun ∧
      [1500, 2000, 2500, 3150, 4000, 5000, 6300, 8000][limsel]? = some t.feederLimit ∧
      [t.margin, t.exportLimit, t.efficiency, t.readyLead, t.guardHorizon, t.assignmentHorizon, t.swapCutoff,
        t.storageTarget, t.storageFloor, t.rechargePower, t.guestTarget, t.guestCap, t.requestLifetime, t.startSpacing,
        t.raiseDeadband, t.preconditionPower, t.preconditionWindow, t.preconditionThreshold, t.fallbackLoad,
        t.overrunMargin, t.nominalFrequency, t.tripOffset, t.hysteresis, t.tripCount, t.recoveryCount, t.reboundStep] =
        ([150, 0, 920, 600, 5400, 14400, 1800, 600, 300, 200, 900, 500, 120, 3, 10, 75, 20, 5, 600, 100, 50000, 200, 50,
          5, 20, 250] : List Int) ∧
      (∀ x, (t.berth x).configured = false ∧ (t.berth x).cabinet = none ∧ (t.berth x).outlet = none ∧
        (t.berth x).group = none ∧ (t.berth x).coupling = .single ∧ (t.berth x).partner = none ∧
        (t.berth x).enable = false ∧ (t.berth x).session = .unconfigured ∧ (t.berth x).hwCharge = 0 ∧
        (t.berth x).hwDischarge = 0 ∧ (t.berth x).plug = .none ∧ (t.berth x).tag = 0 ∧ (t.berth x).soc = none ∧
        (t.berth x).measured = 0 ∧ (t.berth x).acceptMax = 0 ∧ (t.berth x).bus = none ∧ (t.berth x).request = none ∧
        (t.berth x).grant = 0 ∧ (t.berth x).commanded = 0 ∧ (t.berth x).confirmed = 0 ∧ (t.berth x).inFlight = false ∧
        (t.berth x).setpoint = .idle ∧ (t.berth x).done = false ∧ (t.berth x).doneByComplete = false ∧
        (t.berth x).projectedShort = false ∧ (t.berth x).flags = ⟨false, false, false, false, false⟩ ∧
        (t.berth x).counters = ⟨0, 0, 0, 0, 0⟩ ∧ (t.berth x).confirmAge = none ∧ (t.berth x).noticeEnable = true) ∧
      (∀ b, (t.fleetBus b).used = false ∧ (t.fleetBus b).protectedEnergy = none ∧ (t.fleetBus b).availableEnergy = none) ∧
      (∀ g, g < 6 → t.groupEntry g = ⟨30000, true⟩) ∧
      t.bus.line = .stopSending ∧ t.bus.rx = [] ∧ t.bus.busTx = [0xD2, 0x5F, 0x00, 0x03, 0x8E] ∧ t.bus.cabinets = [] ∧
      t.bus.passFifo = [] ∧ t.bus.chainOut = false ∧ t.bus.nextKind = .full ∧ t.bus.quietCount = 0 ∧
      t.bus.recheck = false ∧ (∀ c, t.missCount c = 0) ∧
      t.path.list = [] ∧ t.path.queue = [] ∧ t.path.slotRunning = false ∧ t.alloc.periodRunning = false ∧
      t.alloc.totals = {
        kind := .none, time := 0, hard := 0, softLimit := 0, soft := 0, binding := .feeder, siteLoad := 0, squeeze := 0
        chargeSum := 0, dischargeSum := 0, served := 0, guarded := 0, short := 0, unallocated := 0, demand := 0, shortfall := 0
        count := 0 } ∧
      t.runs.active = [] ∧ t.runs.cold = [] ∧ t.runs.pending = ⟨[], [], [], [], false⟩ ∧
      t.storage.windows = [] ∧ t.storage.interval = none ∧ t.storage.last = none ∧ t.storage.dayPeak = none ∧
      t.storage.previousPeak = none ∧
      t.reserve.windows = [] ∧ t.reserve.state = .unavailable ∧ t.reserve.call = none ∧ t.reserve.coverage = none ∧
      t.reserve.recoveryTarget = none ∧ t.reserve.records = [] ∧
      t.meter.state = .noSignal ∧ t.meter.power = none ∧ t.meter.frequency = none ∧ t.meter.ambient = none ∧
      t.meter.lastSequence = none ∧ t.meter.sequence = none ∧ t.meter.lastSecond = none ∧ t.meter.timerRunning = false ∧
      t.meter.missCount = 0 ∧ t.meter.recoverCount = 0 ∧ t.meter.ring = [] ∧ t.meter.overrun = .normal ∧
      t.meter.squeeze = 0 ∧ t.meter.overCount = 0 ∧ t.meter.underCount = 0 ∧ t.meter.escalation = 0 ∧
      t.faults.classEnables = [true, true, true, true, true] ∧
      t.faults.routing = [true, true, true, true, false, false] ∧ t.alertLow = true ∧
      t.link.fifo = [] ∧ t.link.answerLost = false ∧ t.faults.noticeLost = false ∧ t.link.second = 0 ∧
      t.link.clockSet = false ∧ t.link.lastSent = 12 ∧ (∀ c, t.slot c = ⟨[], false⟩)

/-! ## Relations every step keeps -/

/-- R160, R169, R43, R46, R94, R95, R117, R124, R130, R139: the fixed tables keep their sizes, and no upstream or pass-through FIFO,
enrollment list, run, cold, demand, reserve or call table or baseline ring passes its bound, from any state in which that holds. In
both run tables the runs stay in table order, each run id once; in both cold tables the points, and in the window tables the windows,
stay in strictly ascending order, the windows without overlap. (The pending setpoint list and the start queue:
SetpointPathStaysOrdered.) -/
def Obligations.BoundsAndOrderAreKept : Prop :=
  (∀ (s t : State), s.Bounds → step s = .next t → t.Bounds) ∧
  (∀ (s t : State), s.TablesInOrder → step s = .next t → t.TablesInOrder)

/-- R19: from any state in which the association of buses and berths is one-to-one and recorded on both sides, it stays so. R89 Law 2:
only a berth in SERVING, SINGLE or LEADER, in an enabled group and with the controller in RUN holds a grant other than 0, after every
step from a state in which that holds. -/
def Obligations.AssociationAndGrantsAreKept : Prop :=
  (∀ (s t : State), s.Associated → step s = .next t → t.Associated) ∧
  (∀ (s t : State), s.Granted → step s = .next t → t.Granted)

/-- R54, R59: the pending setpoint list stays in order of age, with at most one entry of each berth, and so at most 36; each berth
stands in the start queue at most once, exactly while it is START_QUEUED, in SERVING, without an entry on the list and, where it has
no partner, commanded 0. A berth that joins the queue is in SERVING with a commanded value, the pair sum for a pair, of 0 and a target
other than 0. R3: work that has reached a berth while the trim of its map change stood on the list waits beside the list, one piece
for a berth. (What waits and for how long: Log 15.) -/
def Obligations.SetpointPathStaysOrdered : Prop :=
  (∀ (s t : State), s.Granted → s.PathOrdered → step s = .next t → t.PathOrdered ∧
    ∀ x, s.queuedOf x = none → (t.queuedOf x).isSome = true →
      (t.berth x).session = .serving ∧ t.pairCommanded x = 0 ∧ t.target x ≠ 0) ∧
  (∀ (s : State), s.Granted → s.PathOrdered → s.path.queue.length ≤ 36 ∧
    s.path.list.length ≤ 36 ∧ s.path.waiting.length ≤ 36)

/-- The five relations hold after a full reset, whatever the straps (R177; `State.reset` is the one with all straps low, Log 6). -/
def Obligations.RelationsHoldAtReset : Prop :=
  State.reset = State.afterFullReset ⟨0, false, false⟩ ∧
  ∀ straps, (State.afterFullReset straps).Bounds ∧ (State.afterFullReset straps).TablesInOrder ∧
    (State.afterFullReset straps).Associated ∧
    (State.afterFullReset straps).Granted ∧ (State.afterFullReset straps).PathOrdered

/-! ## The depot link's framing and refusals -/

/-- R163: an abandoned or dropped frame has no effect but on the framer, which hunts again from the byte after that frame's lead byte
through the bytes it holds, those behind the frame among them where it was found inside another. It is left with nothing where there
is no other lead byte; with the bytes from the next lead byte on otherwise, though after a gap only where they are no incomplete
frame. A frame that is taken leaves the bytes behind it, from the next lead byte on. (What the framer holds: Log 5.) R164, R165, R166,
R168: which frames are refused as a whole, with which code, in the order of the rules; a refusal is answered with the frame's own
party and tag and changes no other state. (A QUERY refused as a whole stands with the other frames: Log 4.) -/
def Obligations.LinkFramesAreHuntedAndRefused : Prop :=
  ((∀ (s : State) bytes behind, s.Live → s.link.rx = bytes ++ behind ∨ (behind = [] ∧ ¬ bytes <+: s.link.rx) →
    let held := bytes ++ behind
    let left (rx : List Byte) : Host.Outcome State Fault Refusal := .next { s with link := { s.link with rx := rx } }
    ((∀ b ∈ held.tail, b ≠ 0xC9) →
      exec (.linkFrameGapAbandon bytes) s = left [] ∧ exec (.linkFrameDropped bytes) s = left []) ∧
    (∀ lead before after, held = lead :: (before ++ 0xC9 :: after) → (∀ b ∈ before, b ≠ 0xC9) →
      exec (.linkFrameDropped bytes) s = left (0xC9 :: after) ∧
      (after.length < 4 → (∀ b ∈ after, b ≠ 0xC9) → exec (.linkFrameGapAbandon bytes) s = left []) ∧
      (∀ party kind tag (len : Byte) rest, after = party :: kind :: tag :: len :: rest →
        60 < len.toNat ∨ len.toNat + 2 ≤ rest.length → exec (.linkFrameGapAbandon bytes) s = left (0xC9 :: after)))) ∧
  (∀ (s : State) before party kind tag body behind, body.length ≤ 60 → (∀ b ∈ before, b ≠ 0xC9) →
    s.link.rx = before ++ linkFrame party kind tag body ++ behind →
    ((∀ b ∈ behind, b ≠ 0xC9) → linkTaken s = { s with link := { s.link with rx := [] } }) ∧
    (∀ noise after, behind = noise ++ 0xC9 :: after → (∀ b ∈ noise, b ≠ 0xC9) →
      linkTaken s = { s with link := { s.link with rx := 0xC9 :: after } })) ∧
  (∀ (s : State), s.link.rx = [] → linkTaken s = s)) ∧
  ((∀ (s : State) tag (party kind : Byte) body, s.Live →
    let refused (code : ReplyCode) : Prop :=
      exec (.depotFrameRefused party kind tag body) s = .next (reply party.toNat tag code .none (linkTaken s))
    let p := party.toNat
    let k := kind.toNat
    (k = 0 ∨ 6 < k → refused .unknownKind) ∧
    (k = 1 → p = 0 ∨ 36 < p → refused .badValue) ∧
    (k = 2 → p ≠ 0x5F → p < 0x41 ∨ 0x4C < p → refused .badValue) ∧
    (3 ≤ k → k ≤ 6 → p ≠ 0 → refused .badValue) ∧
    (k = 6 → p = 0 → body = [] → refused .badLength) ∧
    (∀ code rest, k = 6 → p = 0 → body = code :: rest →
      (code = 1 → rest.length ≠ 6 → refused .badLength) ∧
      (code = 2 → rest.length ≠ 2 → refused .badLength) ∧
      (code ≠ 1 → code ≠ 2 → refused .badValue)) ∧
    (k = 5 → p = 0 → body.length ≠ 3 → refused .badLength) ∧
    (∀ code hi lo, k = 5 → p = 0 → body = [code, hi, lo] → code.toNat = 0 ∨ 7 < code.toNat → refused .badValue)) ∧
  (∀ (s : State) tag body, s.Live → body.length = 0 ∨ 16 < body.length ∨ body.length % 4 ≠ 0 →
    exec (.serviceFrameRefused tag body) s = .next (reply 0 tag .badLength .none (linkTaken s))) ∧
  (∀ (s : State) tag body, s.Live →
    let refused (code : ReplyCode) : Prop :=
      exec (.tableFrameRefused tag body) s = .next (reply 0 tag code .none (linkTaken s))
    (body = [] → refused .badLength) ∧
    (∀ (number : Byte) rest, body = number :: rest →
      (number.toNat = 0 ∨ 8 < number.toNat → refused .badValue) ∧
      (number.toNat = 6 → rest.length % 3 ≠ 0 → refused .badLength) ∧
      (∀ n size least most, (n, size, least, most) ∈
          [(1, 6, 1, 6), (2, 3, 1, 6), (3, 18, 1, 1), (4, 5, 1, 8), (5, 8, 1, 4), (7, 6, 1, 8), (8, 9, 1, 6)] →
        number.toNat = n → rest.length % size ≠ 0 ∨ rest.length / size < least ∨ most < rest.length / size →
        refused .badLength))))

/-- R159, R160, R169: an answer is placed at the tail of the FIFO, or lost with ANSWER_LOST set when 32 entries stand there; a notice
is generated only while its class and its berth's notice enable allow it, and then placed with the clock's second, or lost with
NOTICE_LOST set when 24 notices or 32 entries stand there. R170: the free transmitter takes the head of the FIFO; with the FIFO empty,
the first filled telemetry slot after the cabinet sent last, from 12 on to 1; else the line stays idle. R164: a REPLY opens with its
code's value; R169: a SET_ACK carries the value in two signed bytes and its result; a NOTICE has party 0x00; R170: a TELEMETRY has
party 0x40 + cabinet and tag 0. (The bodies that have bytes: Log 32.) -/
def Obligations.UpstreamFramesArePlacedAndSent : Prop :=
  ((∀ f (s : State), s.link.fifo.length < 32 → answer f s = { s with link := { s.link with fifo := s.link.fifo ++ [f] } }) ∧
    (∀ f (s : State), 32 ≤ s.link.fifo.length → answer f s = { s with link := { s.link with answerLost := true } }) ∧
    (∀ body (s : State), s.faults.classEnables[body.noticeClass]? ≠ some true ∨
        (∃ x, body.subjectBerth = some x ∧ (s.berth x).noticeEnable = false) → notify body s = s) ∧
    (∀ body (s : State), s.faults.classEnables[body.noticeClass]? = some true →
        (∀ x, body.subjectBerth = some x → (s.berth x).noticeEnable = true) →
        (s.noticeCount < 24 → s.link.fifo.length < 32 → notify body s = { s with link := { s.link with
          fifo := s.link.fifo ++ [.notice ⟨body, if s.link.clockSet then s.link.second else 0, s.link.clockSet⟩] } }) ∧
        (24 ≤ s.noticeCount ∨ 32 ≤ s.link.fifo.length →
          notify body s = { s with faults := { s.faults with noticeLost := true } }))) ∧
  ((∀ (s : State) f rest, s.Live → s.link.fifo = f :: rest →
      exec .upstreamTransmit s = .next { s with link := { s.link with fifo := rest, tx := some f } }) ∧
    (∀ (s : State) k, s.Live → s.link.fifo = [] → k < 12 →
      let c (i : Nat) : Nat := (s.link.lastSent + i) % 12 + 1
      (∀ i, i < k → (s.slot (c i)).filled = false) → (s.slot (c k)).filled = true →
      exec .upstreamTransmit s = .next { s with link := { s.link with
        slots := s.link.slots.set (c k - 1) { s.slot (c k) with filled := false }
        lastSent := c k, tx := some (.telemetry (c k) (s.slot (c k)).status) } }) ∧
    (∀ (s : State), s.Live → s.link.fifo = [] → (∀ c, 1 ≤ c → c ≤ 12 → (s.slot c).filled = false) →
      exec .upstreamTransmit s = .next s)) ∧
  (∀ (party tag : Nat) (codes : List ReplyCode) (answer : List Byte) (value : Int) (c : Nat) (status : List Byte) (n : Notice),
    let p := BitVec.ofNat 8 party
    let t := BitVec.ofNat 8 tag
    (∀ code (v : Byte), (code, v) ∈ [(ReplyCode.ok, (0 : Byte)), (.clamped, 1), (.badLength, 2), (.badValue, 3), (.unknownKind, 4),
        (.wrongMode, 5), (.busy, 7), (.tableFull, 8), (.notServing, 9), (.superseded, 10), (.noConfirm, 11), (.notCommitted, 12),
        (.callBusy, 13), (.unknownCall, 14), (.unavailable, 15), (.downstreamFull, 16), (.causePresent, 17), (.badMap, 18),
        (.clockUnset, 19)] →
      replyCodeByte code = v ∧ (UpFrame.reply party tag code .none).bytes = some (linkFrame p 0x81 t [v]) ∧
      (UpFrame.reply party tag code (.results codes)).bytes = some (linkFrame p 0x81 t (v :: codes.map replyCodeByte)) ∧
      (UpFrame.reply party tag code (.cabinet answer)).bytes = some (linkFrame p 0x81 t (v :: answer))) ∧
    (∀ result (v : Byte), (result, v) ∈ [(SetResult.accepted, (0 : Byte)), (.limited, 1), (.refused, 2)] →
      -32768 ≤ value → value ≤ 32767 → ∃ hi lo, steps16 hi lo = value ∧
        (UpFrame.setAck party tag value result).bytes = some (linkFrame p 0x84 t [hi, lo, v])) ∧
    (UpFrame.notice n).party = 0 ∧ (UpFrame.notice n).kind = 0x82 ∧
    (UpFrame.telemetry c status).bytes = some (linkFrame (BitVec.ofNat 8 (0x40 + c)) 0x83 0 status))

/-! ## Charge requests, pass-through and reserve requests -/

/-- R51: the target of a berth, in the four cases of its table; it lies between 0 and the grant. -/
def Obligations.TargetFollowsGrantAndRequest : Prop :=
  ∀ (s : State) x,
    ((s.berth x).session ≠ .serving ∨ (s.berth x).coupling = .follower → s.target x = 0) ∧
    ((s.berth x).session = .serving → (s.berth x).coupling ≠ .follower →
      ((s.berth x).grant < 0 → s.target x = (s.berth x).grant) ∧
      (0 ≤ (s.berth x).grant → (s.berth x).request = none → s.target x = (s.berth x).grant) ∧
      (∀ r, 0 ≤ (s.berth x).grant → (s.berth x).request = some r → s.target x = min r.value (s.berth x).grant)) ∧
    ((∀ r, (s.berth x).request = some r → 0 ≤ r.value) →
      min 0 (s.berth x).grant ≤ s.target x ∧ s.target x ≤ max 0 (s.berth x).grant)

/-- R3, R49, R54, R57, R58: the refusals of a SETPOINT_REQ in their order, answered from the berth's party with no change of state. An
accepted one becomes the berth's request with a fresh lifetime, and its tag goes to the pending list or to the start queue by the
setpoint state, the target and the commanded value; the tag it displaces is answered SUPERSEDED. R3, R54: while the trim of a map
change stands on the list for an IDLE berth that would join the queue, the berth stays IDLE and the tag waits beside the list; that
this work waits, and does not join the queue of R58, is the model's choice (Log 15). Every other berth, its waiting work and
everything else stand, but for the next age, which a new entry takes. -/
def Obligations.SetpointReqIsCarried : Prop :=
  (∀ (s : State) x tag body, s.Live →
      let refused (code : ReplyCode) : Prop :=
        exec (.setpointReq x tag body) s = .next (reply (1 + x) tag code .none (linkTaken s))
      (body.length ≠ 2 → refused .badLength) ∧
      (body.length = 2 → tag = 0 → refused .badValue) ∧
      (body.length = 2 → tag ≠ 0 → s.ctl.mode ≠ .run → refused .wrongMode) ∧
      (body.length = 2 → tag ≠ 0 → s.ctl.mode = .run →
        (s.berth x).coupling = .follower ∨ (s.berth x).session ≠ .serving → refused .notServing)) ∧
  (∀ (s : State) x tag hi lo, s.Live → s.berths.length = 36 → x < 36 → tag ≠ 0 → s.ctl.mode = .run →
      (s.berth x).session = .serving → (s.berth x).coupling ≠ .follower →
      ∃ t, exec (.setpointReq x tag [hi, lo]) s = .next t ∧ (linkTaken s).OnlyPath t ∧ State.OthersKept x s t ∧
        State.OtherWorkKept x s t ∧
        t.path.nextAge = (if s.entryOf x = none ∧ (t.entryOf x).isSome = true then s.path.nextAge + 1 else s.path.nextAge) ∧
        t.berth x = { s.berth x with
          request := some ⟨max 0 (steps16 hi lo), if s.link.clockSet then s.link.second else 0, s.requestLifetime⟩
          setpoint := (t.berth x).setpoint } ∧
        ((s.berth x).setpoint = .active ∨ ((s.berth x).setpoint = .idle ∧
            (t.target x = 0 ∨ s.pairCommanded x ≠ 0 ∨ (s.trimWaits x = true ∧ s.queuedOf x = none))) →
          (t.berth x).setpoint = (s.berth x).setpoint ∧ t.path.queue = s.path.queue ∧
          t.entryOf x = some ⟨x, tag, match s.entryOf x with
            | some e => e.age
            | none => s.path.nextAge, none⟩ ∧
          t.link = (supersede x (entryTag (s.entryOf x)) (linkTaken s)).link) ∧
        ((s.berth x).setpoint = .idle → t.target x ≠ 0 → s.pairCommanded x = 0 → s.queuedOf x = none →
          s.trimWaits x = false →
          (t.berth x).setpoint = .startQueued ∧ t.path.queue = s.path.queue ++ [⟨x, tag⟩] ∧ t.entryOf x = none ∧
          t.link = (supersede x (entryTag (s.entryOf x)) (linkTaken s)).link) ∧
        (∀ q, (s.berth x).setpoint = .startQueued → s.queuedOf x = some q → s.entryOf x = none →
          (t.target x ≠ 0 → (t.berth x).setpoint = .startQueued ∧ t.entryOf x = none ∧
            t.path.queue = s.path.queue.map (fun r => if r.berth = x then ⟨x, tag⟩ else r)) ∧
          (t.target x = 0 → (t.berth x).setpoint = .idle ∧ t.entryOf x = some ⟨x, tag, s.path.nextAge, none⟩ ∧
            t.path.queue = s.path.queue.filter (fun r => decide (r.berth ≠ x))) ∧
          t.link = (supersede x q.tag (linkTaken s)).link))

/-- R131, R132: the refusals of a RESERVE CALL in their order; a refusal changes no state. A CALL with the id of the call in progress
takes the new reduction and restarts the duration, both bounded by the window; baseline, start time and import account are kept, no
notice is issued for it, and one immediate run follows. R133: a target below −E_x becomes −E_x and one above F − M becomes F − M; one
that is both, where F − M is below −E_x, becomes either of the two (Log 12). -/
def Obligations.ReserveCallIsRefusedOrUpdates : Prop :=
  (∀ (s : State) tag callId reduction duration, s.Live →
      let refused (code : ReplyCode) : Prop :=
        exec (.reserveCall tag callId reduction duration) s = .next (reply 0 tag code .none (linkTaken s))
      let inRange := callId ≠ 0 ∧ 1 ≤ reduction ∧ reduction ≤ 32767 ∧ duration ≠ 0
      (¬ inRange → refused .badValue) ∧
      (inRange → s.reserve.state = .unavailable → refused .unavailable) ∧
      (inRange → s.reserve.state = .idle → refused .notCommitted) ∧
      (inRange → s.reserve.state = .recovery → s.reserve.judged = none → refused .notCommitted) ∧
      (∀ c, inRange → s.reserve.state = .called → s.reserve.call = some c → c.callId ≠ callId → refused .callBusy)) ∧
  (∀ (s : State) w c record older tag (reduction duration : Nat), s.Live → c.callId ≠ 0 → 1 ≤ reduction →
      reduction ≤ 32767 → duration ≠ 0 → s.reserve.judged = some w → s.reserve.state = .called → s.reserve.call = some c →
      s.reserve.records = record :: older →
      let r := min (reduction : Int) w.reduction
      let code := if (reduction : Int) ≤ w.reduction ∧ duration ≤ w.maxDuration then ReplyCode.ok else .clamped
      exec (.reserveCall tag c.callId reduction duration) s = .next (immediateRun (reply 0 tag code .none { s with
        link := (linkTaken s).link
        reserve := { s.reserve with
          call := some { c with reduction := r, left := min duration w.maxDuration }
          records := { record with reduction := r, target := s.clampTarget (c.baseline - r) } :: older } }))) ∧
  (∀ (s : State) v,
    let high := s.feederLimit - s.margin
    (v < -s.exportLimit → v ≤ high → s.clampTarget v = -s.exportLimit) ∧
    (high < v → -s.exportLimit ≤ v → s.clampTarget v = high) ∧
    (-s.exportLimit ≤ v → v ≤ high → s.clampTarget v = v) ∧
    (v < -s.exportLimit → high < v → s.clampTarget v = -s.exportLimit ∨ s.clampTarget v = high))

/-- R131, R130, R133, R139, R70: a CALL taken in ARMED, UNDERCOVERED or RECOVERY with a window active begins a call bounded by the
window, measured against the floor of the mean of the baseline ring, with a record of its own at the head of the ring of eight; REPLY,
CALL_START and RESERVE_STATE are placed in that order, and one immediate allocation run follows. R136, R139: an END request with
another id, or with no call in progress, is answered UNKNOWN_CALL and changes nothing. With the call's own id the record is closed
with END_FRAME, the state becomes RECOVERY with the T_ctrl in force as its target, REPLY, CALL_END and RESERVE_STATE are placed in
that order, and one immediate run follows. (The trip count starts again: Log 52.) -/
def Obligations.ReserveCallsBeginAndEnd : Prop :=
  (∀ (s : State) w tag callId (reduction duration : Nat), s.Live → callId ≠ 0 → 1 ≤ reduction → reduction ≤ 32767 →
    duration ≠ 0 → s.reserve.judged = some w →
    s.reserve.state = .armed ∨ s.reserve.state = .undercovered ∨ s.reserve.state = .recovery →
    let r := min (reduction : Int) w.reduction
    let d := min duration w.maxDuration
    let b := s.meter.ring.sum / (s.meter.ring.length : Int)
    let target := s.clampTarget (b - r)
    let code := if (reduction : Int) ≤ w.reduction ∧ duration ≤ w.maxDuration then ReplyCode.ok else .clamped
    exec (.reserveCall tag callId reduction duration) s = .next (immediateRun (
      notify (.reserveState s.reserve.state .called (s.reserve.coverage.map (·.value)))
        (notify (.callStart callId r d b target)
          (reply 0 tag code .none { s with link := (linkTaken s).link, reserve := { s.reserve with
            state := .called, call := some ⟨callId, .frame, r, b, d, 0, 0⟩, recoveryTarget := none, tripCount := 0, recoverCount := 0
            records := (⟨callId, .frame, s.link.second, none, b, r, target, none, false, false, none⟩ ::
              s.reserve.records).take 8 } }))))) ∧
  (∀ (s : State) tag callId, s.Live → (∀ c, s.reserve.call = some c → c.callId ≠ callId) →
    exec (.reserveEnd tag callId) s = .next (reply 0 tag .unknownCall .none (linkTaken s))) ∧
  (∀ (s : State) c record older tag, s.Live → s.reserve.call = some c → s.reserve.state = .called →
    s.reserve.records = record :: older →
    let mean := if c.count = 0 then none else some (c.sum / (c.count : Int))
    exec (.reserveEnd tag c.callId) s = .next (immediateRun (
      notify (.reserveState .called .recovery (s.reserve.coverage.map (·.value)))
        (notify (.callEnd c.callId .endFrame mean)
          (reply 0 tag .ok .none { s with link := (linkTaken s).link, reserve := { s.reserve with
            state := .recovery, call := none, recoveryTarget := some (s.clampTarget (c.baseline - c.reduction))
            tripCount := 0, recoverCount := 0
            records := { record with finish := some s.link.second, mean := mean, cause := some .endFrame } :: older } })))))

/-! ## SERVICE entries -/

/-- R165: an entry that commands nothing has only a result: OK for 0xFF, UNKNOWN_KIND for an unknown command. The results of a frame
are kept until its last entry, when the one REPLY of the frame is placed with all of them. (How the results wait between the entries:
Log 3.) -/
def Obligations.ServiceEntriesMakeOneReply : Prop :=
  ∀ (s : State) pos command, s.Live →
    let before := if pos.first = true then [] else s.link.results
    (pos.remaining ≠ 0 →
      exec (.serviceNoop pos) s = .next { s with link := { (entryTaken pos s).link with results := before ++ [.ok] } } ∧
      exec (.serviceUnknownCommand pos command) s =
        .next { s with link := { (entryTaken pos s).link with results := before ++ [.unknownKind] } }) ∧
    (pos.remaining = 0 →
      exec (.serviceNoop pos) s = .next (reply 0 pos.tag .ok (.results (before ++ [.ok]))
        { s with link := { (entryTaken pos s).link with results := [] } }) ∧
      exec (.serviceUnknownCommand pos command) s = .next (reply 0 pos.tag .ok (.results (before ++ [.unknownKind]))
        { s with link := { (entryTaken pos s).link with results := [] } }))

/-- R6, R9, R11, R19, R57, R64: BERTH_ENABLE_CLEAR makes an enabled berth DISABLED with grant 0 and without a bus; a berth that was in
SERVING loses its request, DONE and projection too, and its waiting work, whose tags are answered SUPERSEDED, has its SETPOINT on the
line marked, and has a zero trim made where its commanded value is not 0. Flags stay latched, no run moves, and no other berth and no
other waiting work changes. ALL does so to the record, the association and the waiting work of every configured berth that is not a
FOLLOWER; the order of the answers it places is not said here (Log 56). (Outside SERVING a standing entry does for the trim: Log 30.) -/
def Obligations.DisableEndsTheSession : Prop :=
  ∀ (s : State) pos, s.Live → s.Associated →
    let u := entryTaken pos s
    let disabled (x : Nat) : Berth := { s.berth x with enable := false, session := .disabled, grant := 0, bus := none }
    let ended (x : Nat) : Berth := { disabled x with
      request := none, done := false, doneByComplete := false, projectedShort := false, setpoint := .idle }
    let acted (x : Nat) : Prop :=
      (s.berth x).configured = true ∧ (s.berth x).coupling ≠ .follower ∧ (s.berth x).session ≠ .disabled
    (∀ n, (¬ ∃ x, s.ActsOn n x) → exec (.berthEnableClear pos (.one n)) s = .next (serviceResult pos .badValue u)) ∧
    (∀ n x, s.ActsOn n x → (s.berth x).session = .disabled →
      exec (.berthEnableClear pos (.one n)) s = .next (serviceResult pos .ok u)) ∧
    (∀ n x, s.ActsOn n x → (s.berth x).session ≠ .disabled →
      ∃ t, exec (.berthEnableClear pos (.one n)) s = .next (serviceResult pos .ok t) ∧ u.OnlySessions t ∧
        t.runs = s.runs ∧ t.faults = s.faults ∧ State.OthersKept x s t ∧ State.OtherWorkKept x s t ∧ t.queuedOf x = none ∧
        (∀ b, t.fleetBus b = if (s.berth x).bus = some b then { s.fleetBus b with berth := none } else s.fleetBus b) ∧
        ((s.berth x).session ≠ .serving → t.bus = s.bus ∧ t.link = u.link ∧ t.berth x = disabled x ∧
          (s.commandedNonzero x = true → (t.entryOf x).isSome = true)) ∧
        ((s.berth x).session = .serving → t.bus = { s.bus with line := markLeft x s.bus.line } ∧ t.berth x = ended x ∧
          t.link = (supersede x (entryTag (s.entryOf x)) (supersede x (queuedTag (s.queuedOf x)) u)).link ∧
          t.entryOf x = if s.commandedNonzero x = true then some ⟨x, 0, s.path.nextAge, none⟩ else none)) ∧
    (∃ t, exec (.berthEnableClear pos .all) s = .next (serviceResult pos .ok t) ∧ u.OnlySessions t ∧ t.runs = s.runs ∧
      t.faults = s.faults ∧
      (∀ b x, acted x → (s.berth x).bus = some b → t.fleetBus b = { s.fleetBus b with berth := none }) ∧
      (∀ b, (∀ x, acted x → (s.berth x).bus ≠ some b) → t.fleetBus b = s.fleetBus b) ∧
      ∀ x, (¬ acted x → t.berth x = s.berth x) ∧
        (acted x → t.queuedOf x = none ∧ (s.commandedNonzero x = true → (t.entryOf x).isSome = true) ∧
          ((s.berth x).session = .serving → t.berth x = ended x) ∧ ((s.berth x).session ≠ .serving → t.berth x = disabled x)))

/-- R5, R11: BERTH_ENABLE_SET makes a DISABLED berth enabled, EMPTY or, with a flag latched on it or its follower, FAULTED; in any
other state of a configured berth nothing changes. ALL acts on every configured berth that is not a FOLLOWER. (A LEADER without a
follower stands alone: Log 13.) R22, R11: DONE_CLEAR clears DONE, and DONE by COMPLETE with it, on its target or on every configured
berth that is not a FOLLOWER, and changes nothing else. R157, R10: FAULT_CLEAR clears every flag and counter of the berth and of its
partner, or of every configured berth for ALL; FAULTED becomes EMPTY, and the confirm age and everything else are kept. -/
def Obligations.EnablesDoneAndFaultsAreChanged : Prop :=
  (∀ (s : State) pos, s.Live → s.berths.length = 36 →
    (∀ n, (¬ ∃ x, s.ActsOn n x) →
      exec (.berthEnableSet pos (.one n)) s = .next (serviceResult pos .badValue (entryTaken pos s))) ∧
    (∀ n x, s.ActsOn n x → (s.berth x).session ≠ .disabled →
      exec (.berthEnableSet pos (.one n)) s = .next (serviceResult pos .ok (entryTaken pos s))) ∧
    (∀ n x, s.ActsOn n x → (s.berth x).session = .disabled → ∃ session,
      (s.FaultOn x → session = .faulted) ∧ (¬ s.FaultOn x → session = .empty) ∧
      exec (.berthEnableSet pos (.one n)) s = .next (serviceResult pos .ok { s with
        link := (entryTaken pos s).link
        berths := s.berths.set x { s.berth x with enable := true, session := session } })) ∧
    (∃ t, exec (.berthEnableSet pos .all) s = .next (serviceResult pos .ok t) ∧
      t = { s with link := (entryTaken pos s).link, berths := t.berths } ∧ t.berths.length = 36 ∧
      ∀ x, if (s.berth x).configured = true ∧ (s.berth x).coupling ≠ .follower ∧ (s.berth x).session = .disabled
        then ∃ session, t.berth x = { s.berth x with enable := true, session := session } ∧
          (s.FaultOn x → session = .faulted) ∧ (¬ s.FaultOn x → session = .empty)
        else t.berth x = s.berth x)) ∧
  ((∀ (s : State) pos, s.Live → s.berths.length = 36 →
      (∀ n, (¬ ∃ x, s.ActsOn n x) →
        exec (.doneClear pos (.one n)) s = .next (serviceResult pos .badValue (entryTaken pos s))) ∧
      (∀ n x, s.ActsOn n x → exec (.doneClear pos (.one n)) s = .next (serviceResult pos .ok { s with
        link := (entryTaken pos s).link
        berths := s.berths.set x { s.berth x with done := false, doneByComplete := false } })) ∧
      (∃ t, exec (.doneClear pos .all) s = .next (serviceResult pos .ok t) ∧
        t = { s with link := (entryTaken pos s).link, berths := t.berths } ∧ t.berths.length = 36 ∧
        ∀ x, t.berth x = if (s.berth x).configured = true ∧ (s.berth x).coupling ≠ .follower
          then { s.berth x with done := false, doneByComplete := false } else s.berth x)) ∧
  (∀ (s : State) pos, s.Live → s.berths.length = 36 →
      let cleared (b : Berth) : Berth := { b with
        flags := FaultFlags.clear, counters := FaultCounters.zero
        session := if b.session = .faulted then .empty else b.session }
      (∀ n, (¬ ∃ x, s.ActsOn n x) →
        exec (.faultClear pos (.one n)) s = .next (serviceResult pos .badValue (entryTaken pos s))) ∧
      (∀ n x, s.ActsOn n x → ∃ t, exec (.faultClear pos (.one n)) s = .next (serviceResult pos .ok t) ∧
        t = { s with link := (entryTaken pos s).link, berths := t.berths } ∧ t.berths.length = 36 ∧
        t.berth x = cleared (s.berth x) ∧
        ∀ y, y ≠ x → (s.PairedWith x y → t.berth y = cleared (s.berth y)) ∧
          (¬ s.PairedWith x y → t.berth y = s.berth y)) ∧
      (∃ t, exec (.faultClear pos .all) s = .next (serviceResult pos .ok t) ∧
        t = { s with link := (entryTaken pos s).link, berths := t.berths } ∧ t.berths.length = 36 ∧
        ∀ x, t.berth x = if (s.berth x).configured = true then cleared (s.berth x) else s.berth x)))

/-- R12: NOTICE_ENABLE_SET and NOTICE_ENABLE_CLEAR set and clear the notice enable of the berth named, or of all 36 records,
configured or not; a number above 35 is answered BAD_VALUE; the session and every other field stay as they were, and a notice with
that berth as subject is not generated while the enable is clear. R159, R162: CLASS_ENABLE_SET and CLEAR and ALERT_ROUTE_SET and CLEAR
set one class enable (0 to 4) or one routing (0 to 5), or all of them; a number above is answered BAD_VALUE. Nothing else changes; the
ALERT line follows the new routing at once. R161: it is low exactly while a routed condition holds and the RESET pin is not held: a
latched flag on a configured berth, SAFE_HOLD, an invalid meter, OVERRUN, a shortfall of the call in progress, a run in SHORT. -/
def Obligations.NoticeClassAndRouteSettings : Prop :=
  (∀ (s : State) pos value, s.Live → s.berths.length = 36 →
    let command (target : Target) : Instr :=
      if value = true then .noticeEnableSet pos target else .noticeEnableClear pos target
    (∀ n, 35 < n → exec (command (.one n)) s = .next (serviceResult pos .badValue (entryTaken pos s))) ∧
    (∀ n, n ≤ 35 → exec (command (.one n)) s = .next (serviceResult pos .ok { s with
      link := (entryTaken pos s).link
      berths := s.berths.set n { s.berth n with noticeEnable := value } })) ∧
    exec (command .all) s = .next (serviceResult pos .ok { s with
      link := (entryTaken pos s).link
      berths := s.berths.map fun b => { b with noticeEnable := value } }) ∧
    (∀ x body, body.subjectBerth = some x → (s.berth x).noticeEnable = false → notify body s = s)) ∧
  ((∀ (s : State) pos value, s.Live → s.faults.classEnables.length = 5 → s.faults.routing.length = 6 →
    let enable (target : Target) : Instr :=
      if value = true then .classEnableSet pos target else .classEnableClear pos target
    let route (target : Target) : Instr :=
      if value = true then .alertRouteSet pos target else .alertRouteClear pos target
    let withEnables (l : List Bool) : State :=
      { s with link := (entryTaken pos s).link, faults := { s.faults with classEnables := l } }
    let withRouting (l : List Bool) : State :=
      { s with link := (entryTaken pos s).link, faults := { s.faults with routing := l } }
    (∀ n, n < 5 → exec (enable (.one n)) s =
      .next (serviceResult pos .ok (withEnables (s.faults.classEnables.set n value)))) ∧
    (∀ n, 5 ≤ n → exec (enable (.one n)) s = .next (serviceResult pos .badValue (entryTaken pos s))) ∧
    exec (enable .all) s = .next (serviceResult pos .ok (withEnables [value, value, value, value, value])) ∧
    (∀ n, n < 6 → exec (route (.one n)) s =
      .next (serviceResult pos .ok (withRouting (s.faults.routing.set n value)))) ∧
    (∀ n, 6 ≤ n → exec (route (.one n)) s = .next (serviceResult pos .badValue (entryTaken pos s))) ∧
    exec (route .all) s = .next (serviceResult pos .ok (withRouting [value, value, value, value, value, value]))) ∧
  (∀ (s : State) fault hold meter overrun shortfall run, s.faults.routing = [fault, hold, meter, overrun, shortfall, run] →
    (s.alertLow = true ↔ s.ctl.resetHeld = false ∧
      ((fault = true ∧ ∃ x, x < 36 ∧ (s.berth x).configured = true ∧ (s.berth x).flags ≠ FaultFlags.clear) ∨
        (hold = true ∧ s.ctl.mode = .safeHold) ∨ (meter = true ∧ ¬ s.MeterValid) ∨
        (overrun = true ∧ s.meter.overrun = .overrun) ∨
        (shortfall = true ∧ s.reserve.state = .called ∧ ∃ r older, s.reserve.records = r :: older ∧ r.shortfall = true) ∨
        (run = true ∧ ∃ r, r ∈ s.runs.active ∧ r.state = .short)))))

/-- R24, R54, R64, R70: a change of group enables changes those named, sets the grants of the members of a disabled one to 0 with
their waiting work brought in line, and is followed by one immediate run, the entries of both being aged by berth (Log 60); a command
that leaves every enable as it was changes nothing, and a number above 5 is answered BAD_VALUE. -/
def Obligations.GroupEnablesAreSet : Prop :=
  ∀ (s : State) pos value, s.Live → s.berths.length = 36 → s.groups.length = 6 →
    let command (target : Target) : Instr :=
      if value = true then .groupEnableSet pos target else .groupEnableClear pos target
    (∀ n, 5 < n → exec (command (.one n)) s = .next (serviceResult pos .badValue (entryTaken pos s))) ∧
    (∀ target (named : Nat → Prop), target = .all ∧ (∀ g, named g ↔ g < 6) ∨
        (∃ n, n ≤ 5 ∧ target = .one n ∧ ∀ g, named g ↔ g = n) →
      let changes (g : Nat) : Prop := named g ∧ (s.groupEntry g).enable ≠ value
      ((∀ g, ¬ changes g) → exec (command target) s = .next (serviceResult pos .ok (entryTaken pos s))) ∧
      ((∃ g, changes g) → ∃ t, exec (command target) s = .next (serviceResult pos .ok (ageByBerth s.path.nextAge (immediateRun t))) ∧
        (entryTaken pos { s with groups := t.groups }).OnlyPath t ∧ t.groups.length = 6 ∧
        (∀ g, (changes g → t.groupEntry g = { s.groupEntry g with enable := value }) ∧
          (¬ changes g → t.groupEntry g = s.groupEntry g)) ∧
        (value = true → t = { s with link := (entryTaken pos s).link, groups := t.groups }) ∧
        (value = false → ∀ x,
          (¬ (∃ g, changes g ∧ (s.berth x).group = some g ∧ (s.berth x).configured = true) →
            t.berth x = s.berth x ∧ t.entryOf x = s.entryOf x ∧ t.queuedOf x = s.queuedOf x) ∧
          (∀ g, changes g → (s.berth x).group = some g → (s.berth x).configured = true →
            t.berth x = { s.berth x with grant := 0, setpoint := (t.berth x).setpoint } ∧
            ((s.berth x).session = .serving → (s.berth x).coupling ≠ .follower →
              ((s.berth x).setpoint = .startQueued → (t.berth x).setpoint = .idle ∧ t.queuedOf x = none) ∧
              ((s.berth x).setpoint = .active → s.pairCommanded x ≠ 0 → (t.entryOf x).isSome = true))))))

/-- R172, R16, R118, R120, R126, R128, R136: TIME_SET takes a second up to 86,399, sets the clock, makes every stored energy stamp absent
and restarts the demand interval, incomplete; then the reserve windows are judged anew, and where none changes nothing else does. At most
one window of a table is active: the first that contains the second, from its start minute to its end minute, exclusive; none while the
clock is unset. A closing takes ARMED and UNDERCOVERED to IDLE, and a call in progress to RECOVERY with its end cause WINDOW_END, its
record closed and one immediate run; an opening leaves the coverage absent and takes IDLE to UNDERCOVERED. A closing and an opening in one
event are made one behind the other; RECOVERY and UNAVAILABLE stand. (Each of the two with its own RESERVE_STATE notice: Log 20; the trip
count at a call's end and between two windows: Logs 52 and 58.) -/
def Obligations.TimeSetMovesTheClock : Prop :=
  (∀ (s : State) pos second, s.Live →
      (86399 < second → exec (.timeSet pos second) s = .next (serviceResult pos .badValue (entryTaken pos s))) ∧
      (second ≤ 86399 →
        let interval : Interval := ⟨second / 900 * 900, 0, 0, true, false⟩
        let u := { s with
          link := { (entryTaken pos s).link with second := second, clockSet := true }
          fleet := s.fleet.map fun b => { b with stamp := none }
          storage := { s.storage with interval := some interval } }
        (u.windowNow = s.reserve.judged → exec (.timeSet pos second) s = .next (serviceResult pos .ok u)) ∧
        (let judged := judgeWindows u
         exec (.timeSet pos second) s =
          .next (serviceResult pos .ok (if judged.2 = true then immediateRun judged.1 else judged.1))) ∧
        (∃ t, exec (.timeSet pos second) s = .next (serviceResult pos .ok t) ∧ t.link.second = second ∧
          t.link.clockSet = true ∧ (∀ b, (t.fleetBus b).stamp = none) ∧ t.reserve.judged = u.windowNow ∧
          ∃ short, t.storage.interval = some { interval with shortfall := short }))) ∧
  ((∀ (s : State), s.link.clockSet = false → s.windowNow = none ∧ s.demandWindow = none ∧ s.holdWindow = none) ∧
    (∀ (s : State) w, s.windowNow = some w → ∃ before after, s.reserve.windows = before ++ w :: after ∧
      w.start * 60 ≤ s.link.second ∧ s.link.second < w.stop * 60 ∧
      ∀ v ∈ before, ¬ (v.start * 60 ≤ s.link.second ∧ s.link.second < v.stop * 60)) ∧
    (∀ (s : State), s.link.clockSet = true → s.windowNow = none →
      ∀ w ∈ s.reserve.windows, ¬ (w.start * 60 ≤ s.link.second ∧ s.link.second < w.stop * 60)) ∧
    (∀ (s : State) w, s.holdWindow = some w → s.MeterValid ∧ -s.exportLimit ≤ s.feederLimit - s.margin ∧
      ∃ before after, s.storage.windows = before ++ w :: after ∧ w.start * 60 ≤ s.link.second ∧ s.link.second < w.stop * 60 ∧
        ∀ v ∈ before, ¬ (v.start * 60 ≤ s.link.second ∧ s.link.second < v.stop * 60))) ∧
  (∀ (s : State),
    let r := s.reserve
    let moved (a b : ReserveState) (coverage : Option Coverage) (t : State) : State :=
      notify (.reserveState a b (coverage.map (·.value))) t
    let with' (r : Reserve) : State := { s with reserve := r }
    let ended (c : Call) (record : CallRecord) (older : List CallRecord) (r : Reserve) : State :=
      let mean := if c.count = 0 then none else some (c.sum / (c.count : Int))
      moved .called .recovery s.reserve.coverage (notify (.callEnd c.callId .windowEnd mean) (with' { r with
        state := .recovery, call := none, recoveryTarget := some (s.clampTarget (c.baseline - c.reduction)), tripCount := 0
        recoverCount := 0
        records := { record with finish := some s.link.second, mean := mean, cause := some .windowEnd } :: older }))
    (s.windowNow = r.judged → judgeWindows s = (s, false)) ∧ (s.windowNow ≠ r.judged → judgeWindows s = replaceWindow s) ∧
    (s.windowNow = none →
      let closed : Reserve := { r with judged := none, tripCount := 0 }
      (r.judged ≠ none → r.state = .armed ∨ r.state = .undercovered →
        replaceWindow s = (moved r.state .idle r.coverage (with' { closed with state := .idle }), false)) ∧
      (r.judged = none ∨ r.state = .idle ∨ r.state = .recovery ∨ r.state = .unavailable →
        replaceWindow s = (with' closed, false)) ∧
      (∀ c record older, r.judged ≠ none → r.state = .called → r.call = some c → r.records = record :: older →
        replaceWindow s = (ended c record older closed, true))) ∧
    (∀ w, s.windowNow = some w →
      let trip := if r.judged = none ∧ s.meterValid = true ∧ w.frequency = true ∧ r.state ≠ .unavailable ∧
        (r.state = .called → s.autonomous = false) then r.tripCount else 0
      let opened : Reserve := { r with judged := some w, coverage := none, tripCount := trip }
      (r.state = .idle →
        replaceWindow s = (moved .idle .undercovered none (with' { opened with state := .undercovered }), false)) ∧
      (r.judged ≠ none → r.state = .armed ∨ r.state = .undercovered → replaceWindow s =
        (moved .idle .undercovered none (moved r.state .idle r.coverage (with' { opened with state := .undercovered })), false)) ∧
      ((r.judged = none ∧ r.state ≠ .idle) ∨ r.state = .recovery ∨ r.state = .unavailable →
        replaceWindow s = (with' opened, false)) ∧
      (∀ c record older, r.judged ≠ none → r.state = .called → r.call = some c → r.records = record :: older →
        replaceWindow s = (ended c record older opened, true))))

/-- R105, R106, R107, R108, R126: in RUN, APPLY_DAY arms the pending day set and changes nothing else. In the other modes the set is
applied at once: the active tables become the pending ones and the pending set is emptied and disarmed. The active runs are those of the
pending run table in its order. A record matched with an active run of its id keeps that run's bus, state and short reason where it names
no used bus or the bus the run holds, and else takes the bus it names, WAITING; a new run is WAITING with the bus it names, or OPEN; a run
without a bus loses its pin. Then every bus is rederived (what that does: RunCommandsMoveRuns), and one DAY_APPLIED notice carries the
numbers of runs, cold points, demand windows and reserve windows. A call in progress goes on where the new table has a window that
contains the second: its reduction and its remaining duration are bounded by that window and its record takes the new reduction and
T_ctrl; where there is none it ends with WINDOW_END, and without a call the window active closes and the new one opens (what that does:
TimeSetMovesTheClock). All this is so wherever a set is applied, in stage 0 of a periodic run and at day end as well. PENDING_CLEAR
empties and disarms it in any mode. (DAY_APPLIED before CALL_END and the reserve notices of the same application: Log 23; the trip count
between two windows: Log 58.) -/
def Obligations.DaySetIsArmedAppliedOrCleared : Prop :=
  (∀ (s : State) pos, s.Live → exec (.pendingClear pos) s = .next (serviceResult pos .ok { s with
    link := (entryTaken pos s).link, runs := { s.runs with pending := ⟨[], [], [], [], false⟩ } })) ∧
  (∀ (s : State) pos, s.Live → s.ctl.mode = .run → exec (.applyDay pos) s = .next (serviceResult pos .ok { s with
    link := (entryTaken pos s).link, runs := { s.runs with pending := { s.runs.pending with armed := true } } })) ∧
  (∀ (s : State) pos, s.Live → s.ctl.mode ≠ .run →
    exec (.applyDay pos) s = .next (serviceResult pos .ok (applyDaySet (entryTaken pos s)).1)) ∧
  (∀ (s : State) pos, s.Live → s.ctl.mode ≠ .run →
    let named (rec : RunRecord) : Option Nat := rec.bus.filter fun b => (s.fleetBus b).used
    let merged (rec : RunRecord) : Run := match s.runs.active.find? fun r => decide (r.runId = rec.runId) with
      | none => { rec with
          bus := named rec, pinned := rec.pinned && (named rec).isSome, reason := none
          state := if named rec = none then .opened else .waiting }
      | some r =>
        if named rec = none ∨ named rec = r.bus then
          { rec with bus := r.bus, pinned := rec.pinned && r.bus.isSome, state := r.state, reason := r.reason }
        else { rec with bus := named rec, state := .waiting, reason := none }
    ∃ t, exec (.applyDay pos) s = .next (serviceResult pos .ok t) ∧
      t = { s with
        link := { (entryTaken pos s).link with fifo := t.link.fifo }
        runs := t.runs
        storage := { s.storage with windows := s.runs.pending.demand }
        reserve := { t.reserve with windows := s.runs.pending.reserve }
        faults := { s.faults with noticeLost := t.faults.noticeLost } } ∧
      t.runs.cold = s.runs.pending.cold ∧ t.runs.pending = ⟨[], [], [], [], false⟩ ∧ t.reserve.judged = t.windowNow ∧
      t.runs.active = (List.range' 1 64).foldl (fun l b => rederiveFrom b false l) (s.runs.pending.runs.map merged) ∧
      t.runs.active.map (fun r => { r with state := .opened, reason := none }) =
        (s.runs.pending.runs.map merged).map (fun r => { r with state := .opened, reason := none }) ∧
      (∀ r ∈ t.runs.active, r.bus = none → r.pinned = false)) ∧
  (∀ (s : State),
    let p := s.runs.pending
    let named (rec : RunRecord) : Option Nat := rec.bus.filter fun b => (s.fleetBus b).used
    let merged (rec : RunRecord) : Run := match s.runs.active.find? fun r => decide (r.runId = rec.runId) with
      | none => { rec with
          bus := named rec, pinned := rec.pinned && (named rec).isSome, reason := none
          state := if named rec = none then .opened else .waiting }
      | some r =>
        if named rec = none ∨ named rec = r.bus then
          { rec with bus := r.bus, pinned := rec.pinned && r.bus.isSome, state := r.state, reason := r.reason }
        else { rec with bus := named rec, state := .waiting, reason := none }
    let tables : State := notify (.dayApplied p.runs.length p.cold.length p.demand.length p.reserve.length) { s with
      runs := ⟨(List.range' 1 64).foldl (fun l b => rederiveFrom b false l) (p.runs.map merged), p.cold, ⟨[], [], [], [], false⟩⟩
      storage := { s.storage with windows := p.demand }
      reserve := { s.reserve with windows := p.reserve } }
    (s.reserve.call = none ∨ tables.windowNow = none → applyDaySet s = replaceWindow tables) ∧
    (∀ c record older w, s.reserve.state = .called → s.reserve.call = some c → s.reserve.records = record :: older →
      tables.windowNow = some w →
      let reduction := min c.reduction (w.reduction : Int)
      applyDaySet s = ({ tables with reserve := { tables.reserve with
        judged := some w
        call := some { c with reduction := reduction, left := min c.left w.maxDuration }
        tripCount := if s.meterValid = true ∧ w.frequency = true ∧ c.source = .frame then s.reserve.tripCount else 0
        records := { record with reduction := reduction, target := s.clampTarget (c.baseline - reduction) } :: older } }, false)))

/-- R103, R104: RUN_ASSIGN and RUN_CANCEL refuse a run that is not in the active table or is finished, and RUN_ASSIGN a bus that is
not used; else the run is released, re-pinned, given the bus or cancelled, and the buses it held and takes are rederived. R97:
rederiving bus `b` keeps every run of another bus and every finished run; the first unfinished run of `b` becomes ASSIGNED where it
was WAITING and is kept otherwise; every later one that is live becomes WAITING without a short reason. -/
def Obligations.RunCommandsMoveRuns : Prop :=
  (∀ (b : Nat) (before after : List Run) (r : Run), (∀ q ∈ before, q.unfinishedOf b = false) → r.unfinishedOf b = true →
    (∀ l, (∀ q ∈ l, q.unfinishedOf b = false) → rederiveFrom b false l = l) ∧
    rederiveFrom b false (before ++ r :: after) =
      before ++ (if r.state = .waiting then { r with state := .assigned } else r) ::
        after.map (fun q => if q.unfinishedOf b = true ∧ q.state.live = true
          then { q with state := .waiting, reason := none } else q)) ∧
  (∀ (s : State) pos runId, s.Live →
    let done (f : State → State) : Host.Outcome State Fault Refusal := .next (serviceResult pos .ok (f (entryTaken pos s)))
    let refused : Host.Outcome State Fault Refusal := .next (serviceResult pos .badValue (entryTaken pos s))
    let edited (f : Run → Run) (t : State) : State := { t with
      runs := { t.runs with active := t.runs.active.map fun q => if q.runId = runId then f q else q } }
    let released (q : Run) : Run := { q with bus := none, pinned := false, reason := none, state := .opened }
    let rederived (bus : Option Nat) (t : State) : State := match bus with
      | none => t
      | some b => { t with runs := { t.runs with active := rederiveFrom b false t.runs.active } }
    (∀ bus pin, (∀ r ∈ s.runs.active, r.runId ≠ runId) →
      exec (.runAssign pos runId bus pin) s = refused ∧ exec (.runCancel pos runId) s = refused) ∧
    (∀ r, s.runs.active.find? (fun q => decide (q.runId = runId)) = some r →
      (r.state = .departed ∨ r.state = .missed ∨ r.state = .cancelled → ∀ bus pin,
        exec (.runAssign pos runId bus pin) s = refused ∧ exec (.runCancel pos runId) s = refused) ∧
      (¬ (r.state = .departed ∨ r.state = .missed ∨ r.state = .cancelled) →
        (exec (.runCancel pos runId) s =
          done fun t => rederived r.bus (edited (fun q => { released q with state := .cancelled }) t)) ∧
        (∀ bus pin, 64 < bus ∨ (bus ≠ 0 ∧ (s.fleetBus bus).used = false) →
          exec (.runAssign pos runId bus pin) s = refused) ∧
        (∀ pin, exec (.runAssign pos runId 0 pin) s = done fun t => rederived r.bus (edited released t)) ∧
        (∀ bus pin, bus ≠ 0 → bus ≤ 64 → (s.fleetBus bus).used = true → r.bus = some bus →
          exec (.runAssign pos runId bus pin) s = done (edited fun q => { q with pinned := pin })) ∧
        (∀ bus pin, bus ≠ 0 → bus ≤ 64 → (s.fleetBus bus).used = true → r.bus ≠ some bus →
          exec (.runAssign pos runId bus pin) s = done fun t => rederived (some bus)
            (edited (fun q => { q with bus := some bus, pinned := pin, reason := none, state := .waiting })
              (rederived r.bus (edited released t)))))))

/-- R15, R19, R104: FLEET_DELETE refuses ALL, a number outside 1 to 64 and an unused slot; else the slot becomes unused, its berth goes on
without a bus, and the runs that name it lose it and their pin, the unfinished ones becoming OPEN. With the stored energy and its stamp
the bus's protected and available energies become absent (R114). -/
def Obligations.FleetDeleteFreesTheSlot : Prop :=
  ∀ (s : State) pos, s.Live → s.Associated →
    let lost (b : Nat) (r : Run) : Run :=
      if r.bus ≠ some b then r
      else if r.state = .departed ∨ r.state = .missed ∨ r.state = .cancelled then { r with bus := none, pinned := false }
      else { r with bus := none, pinned := false, reason := none, state := .opened }
    (exec (.fleetDelete pos .all) s = .next (serviceResult pos .badValue (entryTaken pos s))) ∧
    (∀ b, b = 0 ∨ 64 < b ∨ (s.fleetBus b).used = false →
      exec (.fleetDelete pos (.one b)) s = .next (serviceResult pos .badValue (entryTaken pos s))) ∧
    (∀ b, 1 ≤ b → b ≤ 64 → (s.fleetBus b).used = true →
      ∃ t, exec (.fleetDelete pos (.one b)) s = .next (serviceResult pos .ok t) ∧
        t = { s with link := (entryTaken pos s).link, berths := t.berths, fleet := t.fleet, runs := t.runs } ∧
        (t.fleetBus b).used = false ∧ (t.fleetBus b).stored = none ∧ (t.fleetBus b).stamp = none ∧
        (t.fleetBus b).berth = none ∧ (t.fleetBus b).protectedEnergy = none ∧ (t.fleetBus b).availableEnergy = none ∧
        (∀ c, c ≠ b → t.fleetBus c = s.fleetBus c) ∧
        (∀ x, t.berth x = if (s.berth x).bus = some b then { s.berth x with bus := none } else s.berth x) ∧
        t.runs = { s.runs with active := s.runs.active.map (lost b) })

/-! ## Modes -/

/-- R4, R69, R70, R127, R173, R174, R176: the refusals of START_RUN and RESUME in their order. Accepted, each makes the mode RUN with
one MODE notice, starts the period timer (once the start-up stop has gone), takes the reserve out of UNAVAILABLE while the meter is
valid, and is followed by one immediate run; RESUME starts the escalation count again at 0. (The timer while the stop is unsent: Log
33.) R64, R137, R173, R175: SAFE_HOLD and ENTER_COMMISSION by the mode they find. When RUN is left, one MODE notice stands before
every other frame of the event, the period timer stops, every grant becomes 0 and every request NONE, queued berths leave the start
queue, ACTIVE ones with a commanded value have a trim on the list, a call is closed with cause MODE and the reserve becomes
UNAVAILABLE; sessions and DONE stand, and no run follows. -/
def Obligations.RunIsEnteredAndLeft : Prop :=
  (∀ (s : State) pos, s.Live →
    let refused (c : Instr) (code : ReplyCode) : Prop := exec c s = .next (serviceResult pos code (entryTaken pos s))
    let consistent : Prop :=
      (∀ x y, x < 36 → y < 36 → x ≠ y → (s.berth x).configured = true → (s.berth y).configured = true →
        ((s.berth x).cabinet, (s.berth x).outlet) ≠ ((s.berth y).cabinet, (s.berth y).outlet)) ∧
      (∀ x, x < 36 → (s.berth x).configured = true → (s.berth x).coupling ≠ .single →
        ∃ p, (s.berth x).partner = some p ∧ (s.berth p).configured = true ∧ (s.berth p).partner = some x ∧
          (s.berth p).coupling = (if (s.berth x).coupling = .leader then .follower else .leader) ∧
          (s.berth p).cabinet = (s.berth x).cabinet ∧ (s.berth p).group = (s.berth x).group ∧
          (s.berth p).outlet ≠ (s.berth x).outlet)
    let mappable : Prop := s.bus.cabinets ≠ [] ∧ (∃ x, x < 36 ∧ (s.berth x).configured = true) ∧ consistent
    let running (escalation : Nat) : State := { s with
      link := (entryTaken pos s).link
      ctl := { s.ctl with mode := .run }
      meter := { s.meter with escalation := escalation }
      alloc := { s.alloc with periodRunning := s.bus.stopWhole } }
    let entered (c : Instr) (before : Mode) (cause : ModeCause) (escalation : Nat) : Prop :=
      (s.reserve.state = .unavailable → s.MeterValid →
        let st : ReserveState := if s.reserve.judged = none then .idle else .undercovered
        exec c s = .next (serviceResult pos .ok (immediateRun (
          notify (.reserveState .unavailable st (s.reserve.coverage.map (·.value)))
            (notify (.mode before .run cause)
              { running escalation with reserve := { s.reserve with state := st } }))))) ∧
      (s.reserve.state ≠ .unavailable ∨ ¬ s.MeterValid →
        exec c s = .next (serviceResult pos .ok (immediateRun (notify (.mode before .run cause) (running escalation)))))
    (s.ctl.mode ≠ .commission → refused (.startRun pos) .wrongMode) ∧
    (s.ctl.mode = .commission → s.Enrolling → refused (.startRun pos) .busy) ∧
    (s.ctl.mode = .commission → ¬ s.Enrolling → ¬ mappable → refused (.startRun pos) .badMap) ∧
    (s.ctl.mode = .commission → ¬ s.Enrolling → mappable →
      entered (.startRun pos) .commission .startRun s.meter.escalation) ∧
    (s.ctl.mode ≠ .safeHold → refused (.resume pos) .wrongMode) ∧
    (∀ p, s.ctl.mode = .safeHold → s.MeterValid → s.meter.power = some p → s.feederLimit < p →
      refused (.resume pos) .causePresent) ∧
    (s.ctl.mode = .safeHold → (∀ p, s.MeterValid → s.meter.power = some p → p ≤ s.feederLimit) →
      entered (.resume pos) .safeHold .resume 0)) ∧
  (∀ (s : State) pos, s.Live →
    (s.ctl.mode = .commission → exec (.safeHold pos) s = .next (serviceResult pos .wrongMode (entryTaken pos s)) ∧
      exec (.enterCommission pos) s = .next (serviceResult pos .ok (entryTaken pos s))) ∧
    (s.ctl.mode = .safeHold → exec (.safeHold pos) s = .next (serviceResult pos .ok (entryTaken pos s)) ∧
      exec (.enterCommission pos) s = .next (serviceResult pos .ok (notify (.mode .safeHold .commission .enterCommission)
        { s with link := (entryTaken pos s).link, ctl := { s.ctl with mode := .commission } }))) ∧
    (∀ c after, s.ctl.mode = .run → s.berths.length = 36 →
      (c = .safeHold pos ∧ after = .safeHold) ∨ (c = .enterCommission pos ∧ after = .commission) →
      ∃ t, exec c s = .next (serviceResult pos .ok t) ∧
        t = { s with
          link := { (entryTaken pos s).link with fifo := t.link.fifo, answerLost := t.link.answerLost }
          ctl := { s.ctl with mode := after }
          berths := t.berths
          alloc := { s.alloc with periodRunning := false }
          path := { s.path with list := t.path.list, waiting := t.path.waiting, queue := t.path.queue, nextAge := t.path.nextAge }
          reserve := { s.reserve with
            state := .unavailable, call := none, recoveryTarget := none, tripCount := 0, recoverCount := 0
            records := t.reserve.records }
          faults := { s.faults with noticeLost := t.faults.noticeLost } } ∧
        (∃ more, t.link.fifo = (notify (.mode .run after (if after = .safeHold then .safeHold else .enterCommission))
          (entryTaken pos s)).link.fifo ++ more) ∧
        (s.reserve.call = none → t.reserve.records = s.reserve.records) ∧
        (∀ call record older, s.reserve.call = some call → s.reserve.records = record :: older →
          t.reserve.records = { record with
            finish := some s.link.second, cause := some .mode
            mean := if call.count = 0 then none else some (call.sum / (call.count : Int)) } :: older) ∧
        (∀ x, t.berth x = { s.berth x with grant := 0, request := none, setpoint := (t.berth x).setpoint } ∧
          ((s.berth x).session = .serving → (s.berth x).coupling ≠ .follower →
            ((s.berth x).setpoint = .startQueued → (t.berth x).setpoint = .idle ∧ t.queuedOf x = none) ∧
            ((s.berth x).setpoint ≠ .startQueued → (t.berth x).setpoint = (s.berth x).setpoint) ∧
            ((s.berth x).setpoint = .active → s.pairCommanded x ≠ 0 → (t.entryOf x).isSome = true)))))

/-- R2, R13, R48, R68, R91, R111, R120, R137, R150, R165, R169, R170, R179: what RESTART keeps and what it leaves, and the frame's REPLY,
with BUSY for the entries after it, as the only entry of the emptied FIFO. Of the last-run totals the kind is NONE and every other field
0. (The results kept for the REPLY: Log 3; the totals' binding term FEEDER, the one coded 0: Log 41; the meter's latest sequence and the
second of its last sample: Log 47; the bytes of the depot link's and the meter port's framers and of the berth bus receiver: Log 63.) -/
def Obligations.RestartClearsTheLiveWork : Prop :=
  ∀ (s : State) pos, s.Live →
    ∃ t, exec (.restart pos) s = .next t ∧
      t = { s with
        link := { (entryTaken pos s).link with
          results := [], slots := List.replicate 12 ⟨[], false⟩, lastSent := 12
          fifo := [.reply 0 pos.tag .ok (.results ((if pos.first = true then [] else s.link.results) ++
            ReplyCode.ok :: List.replicate pos.remaining .busy))] }
        ctl := { s.ctl with autorun := false }
        bus := { s.bus with
          line := .stopSending, rx := [], busTx := [0xD2, 0x5F, 0x00, 0x03, 0x8E], chainOut := false, passFifo := []
          missCounts := List.replicate 12 0, surveyRunning := false, surveyDue := false, nextKind := .full, quietCount := 0
          recheck := false, enrollWaiting := false, stopWhole := false }
        meter := { s.meter with
          state := .noSignal, missCount := 0, recoverCount := 0, sequence := none, power := none, frequency := none, lastSequence := none
          lastSecond := none, timerRunning := false, ring := [], overrun := .normal, squeeze := 0, overCount := 0
          overExcess := 0, underCount := 0, escalation := 0 }
        berths := t.berths
        fleet := s.fleet.map fun b => { b with berth := none, protectedEnergy := none, availableEnergy := none }
        runs := { s.runs with active := s.runs.active.map fun r =>
          if r.state = .charging ∨ r.state = .ready ∨ r.state = .short then { r with state := .assigned, reason := none } else r }
        alloc := {
          totals := {
            kind := .none, time := 0, hard := 0, softLimit := 0, soft := 0, binding := .feeder, siteLoad := 0, squeeze := 0
            chargeSum := 0, dischargeSum := 0, served := 0, guarded := 0, short := 0, unallocated := 0, demand := 0
            shortfall := 0, count := 0 }
          periodRunning := false }
        path := { s.path with list := [], waiting := [], queue := [], nextAge := 0, slotRunning := false }
        storage := { s.storage with interval :=
          if s.link.clockSet = true then some ⟨s.link.second / 900 * 900, 0, 0, true, false⟩ else none }
        reserve := { s.reserve with
          state := .unavailable, coverage := none, call := none, recoveryTarget := none, tripCount := 0, recoverCount := 0
          records := t.reserve.records } } ∧
      (s.reserve.call = none → t.reserve.records = s.reserve.records) ∧
      (∀ call record older, s.reserve.call = some call → s.reserve.records = record :: older →
        t.reserve.records = { record with
          finish := some s.link.second, cause := some .restart
          mean := if call.count = 0 then none else some (call.sum / (call.count : Int)) } :: older) ∧
      ∀ x, t.berth x = { s.berth x with
        session := if (s.berth x).configured = false then .unconfigured else if (s.berth x).coupling = .follower then .follower
          else if (s.berth x).enable = true then .empty else .disabled
        plug := .none, tag := 0, soc := none, measured := 0, acceptMax := 0, bus := none, request := none, grant := 0
        commanded := 0, confirmed := 0, inFlight := false, setpoint := .idle, done := false, doneByComplete := false
        flags := ⟨false, false, false, false, false⟩, counters := ⟨0, 0, 0, 0, 0⟩, confirmAge := none, projectedShort := false }

/-! ## TABLE loads -/

/-- R3, R64, R166: a BERTH_MAP frame is refused outside COMMISSION and during an enrollment; else its entries are taken in order, each
with its own result. An entry out of range leaves the berth as it was; an unmapping entry clears a configured berth, and a mapping
entry gives the berth its fields with the outlet's enrolled maxima. A configured berth first loses its session: bus, request, DONE,
flags, counters and queued work, with a zero trim to the old outlets that the list still has where it was commanded, and what is on
the line for it stays addressed there and writes none of its fields. The trims of all the frame's entries are aged in ascending berth
number (R54, Log 60). (The trim's address: Log 15; a coupling or partner byte out of range: Log 8; what is kept: Log 35.) -/
def Obligations.BerthMapEntries : Prop :=
  (∀ (s : State) tag entries, s.Live → s.ctl.mode ≠ .commission →
    exec (.berthMap tag entries) s = .next (reply 0 tag .wrongMode .none (linkTaken s))) ∧
  (∀ (s : State) tag entries, s.Live → s.ctl.mode = .commission → s.Enrolling →
    exec (.berthMap tag entries) s = .next (reply 0 tag .busy .none (linkTaken s))) ∧
  (∀ (s : State) tag entries, s.Live → s.ctl.mode = .commission → ¬ s.Enrolling →
    let r := takeEntries takeMapEntry entries (linkTaken s)
    exec (.berthMap tag entries) s = .next (reply 0 tag .ok (.results r.2) (ageByBerth s.path.nextAge r.1))) ∧
  (∀ (s : State) e rest,
    let first := takeMapEntry e s
    let others := takeEntries takeMapEntry rest first.1
    takeEntries takeMapEntry [] s = (s, []) ∧ takeEntries takeMapEntry (e :: rest) s = (others.1, first.2 :: others.2)) ∧
  (∀ (s : State) (e : MapEntry), 35 < e.berth → takeMapEntry e s = (s, .badValue)) ∧
  (∀ (s : State) (e : MapEntry), e.berth < 36 → s.berths.length = 36 →
    let x := e.berth
    let role := [Coupling.single, .leader, .follower][e.coupling]?
    let figures := s.outletRecord e.cabinet e.outlet
    let fits : Prop := e.cabinet ≤ s.bus.cabinets.length ∧ figures.isSome = true ∧ e.group ≤ 5 ∧ role.isSome = true ∧
      (role = some .single → e.partner = none) ∧ (role ≠ some .single → ∃ p, e.partner = some p ∧ p ≠ x)
    (e.cabinet ≠ 0 → ¬ fits → takeMapEntry e s = (s, .badValue)) ∧
    (e.cabinet = 0 → (s.berth x).configured = false → takeMapEntry e s = (s, .ok)) ∧
    (∀ outlet coupling, e.cabinet ≠ 0 → fits → figures = some outlet → role = some coupling →
      ∃ t, takeMapEntry e s = (t, .ok) ∧ s.OnlySessions t ∧ t.runs = s.runs ∧ t.faults = s.faults ∧
        State.OthersKept x s t ∧ (∀ y, y ≠ x → t.entryOf y = s.entryOf y ∧ t.queuedOf y = s.queuedOf y) ∧
        (t.berth x).configured = true ∧ (t.berth x).cabinet = some e.cabinet ∧ (t.berth x).outlet = some e.outlet ∧
        (t.berth x).group = some e.group ∧ (t.berth x).coupling = coupling ∧ (t.berth x).partner = e.partner ∧
        (t.berth x).hwCharge = outlet.charge ∧ (t.berth x).hwDischarge = outlet.discharge ∧ (t.berth x).enable = false ∧
        (t.berth x).session = (if coupling = .follower then .follower else .disabled) ∧
        ((s.berth x).configured = false → s.link = t.link ∧ s.path = t.path ∧ s.fleet = t.fleet ∧ s.bus = t.bus)) ∧
    (e.cabinet = 0 → (s.berth x).configured = true →
      ∃ t, takeMapEntry e s = (t, .ok) ∧ s.OnlySessions t ∧ t.runs = s.runs ∧ t.faults = s.faults ∧
        State.OthersKept x s t ∧ (∀ y, y ≠ x → t.entryOf y = s.entryOf y ∧ t.queuedOf y = s.queuedOf y) ∧
        (t.berth x).configured = false ∧ (t.berth x).cabinet = none ∧ (t.berth x).outlet = none ∧
        (t.berth x).group = none ∧ (t.berth x).coupling = .single ∧ (t.berth x).partner = none ∧
        (t.berth x).hwCharge = 0 ∧ (t.berth x).hwDischarge = 0 ∧ (t.berth x).enable = false ∧
        (t.berth x).session = .unconfigured) ∧
    (e.cabinet = 0 ∨ fits → (s.berth x).configured = true → ∃ t, takeMapEntry e s = (t, .ok) ∧
        (t.berth x).grant = 0 ∧ (t.berth x).commanded = 0 ∧ (t.berth x).confirmed = 0 ∧ (t.berth x).request = none ∧
        (t.berth x).bus = none ∧ (t.berth x).done = false ∧ (t.berth x).doneByComplete = false ∧
        (t.berth x).projectedShort = false ∧ (t.berth x).flags = FaultFlags.clear ∧
        (t.berth x).counters = FaultCounters.zero ∧ (t.berth x).setpoint = .idle ∧ t.queuedOf x = none ∧
        (∀ b, t.fleetBus b = if (s.berth x).bus = some b then { s.fleetBus b with berth := none } else s.fleetBus b) ∧
        t.path.list = (s.path.list.filter fun q => !q.ownOf x) ++
          (if s.commandedNonzero x = true ∧ s.trimWaits x = false then (s.oldAddress x).toList.map fun a => ⟨x, 0, s.path.nextAge, some a⟩ else []) ∧
        t.path.waiting = s.path.waiting.filter (fun q => !q.ownOf x) ∧
        t.link = (supersede x (entryTag (s.entryOf x)) (supersede x (queuedTag (s.queuedOf x)) s)).link ∧
        t.bus = { s.bus with line := markDetached x s.bus.line })) ∧
  (∀ (tx : SetpointTx), let gone := { tx with
      detached := true, left := true, shares := tx.shares.map fun h => { h with berth := none } }
    markDetached tx.berth (.setpointSending tx) = .setpointSending gone ∧
      markDetached tx.berth (.setpointAck tx) = .setpointAck gone) ∧
  (∀ (s : State) x c o (record : Cabinet), (s.berth x).cabinet = some c → (s.berth x).outlet = some o →
    (s.cabinet? c = none → s.oldAddress x = none) ∧
    (s.cabinet? c = some record → s.followerOf x = none →
      s.oldAddress x = if o < record.outlets.length then some ⟨c, [o]⟩ else none) ∧
    (∀ p q, s.cabinet? c = some record → s.followerOf x = some p → (s.berth p).outlet = some q →
      s.oldAddress x = match [o, q].filter fun n => decide (n < record.outlets.length) with
        | [] => none
        | outlets => some ⟨c, outlets⟩))

/-- R23, R166, R167: the entries of GROUP and PARAMS frames are taken in order, each in the state the one before it has left and with
its own result. A group above 5 or an unknown parameter is answered BAD_VALUE; a value out of range is clamped to the nearer end and
answered CLAMPED, one within range OK. A GROUP frame that changes a limit is followed by one immediate run; nothing else changes. (The
limit's sign: Log 10; the REPLY before the run: Log 23.) -/
def Obligations.GroupAndParameterValuesAreClamped : Prop :=
  (∀ (s : State) tag entries, s.Live →
    let r := takeEntries takeParam entries (linkTaken s)
    exec (.params tag entries) s = .next (reply 0 tag .ok (.results r.2) r.1)) ∧
  (∀ (s : State) tag entries, s.Live →
    let r := takeEntries takeGroupEntry entries (linkTaken s)
    let kept : Prop := ∀ e ∈ entries, e.group ≤ 5 → (s.groupEntry e.group).limit = max 0 (min e.limit 30000)
    (kept → r.1 = linkTaken s ∧ exec (.group tag entries) s = .next (reply 0 tag .ok (.results r.2) r.1)) ∧
    (s.groups.length = 6 → ¬ kept →
      exec (.group tag entries) s = .next (immediateRun (reply 0 tag .ok (.results r.2) r.1)))) ∧
  (∀ (s : State) e rest,
    let first := takeGroupEntry e s
    let others := takeEntries takeGroupEntry rest first.1
    takeEntries takeGroupEntry [] s = (s, []) ∧ takeEntries takeGroupEntry (e :: rest) s = (others.1, first.2 :: others.2)) ∧
  (∀ (s : State) e rest,
    let first := takeParam e s
    let others := takeEntries takeParam rest first.1
    takeEntries takeParam [] s = (s, []) ∧ takeEntries takeParam (e :: rest) s = (others.1, first.2 :: others.2)) ∧
  (∀ (s : State) (e : GroupEntry),
    (5 < e.group → takeGroupEntry e s = (s, .badValue)) ∧
    (e.group ≤ 5 → takeGroupEntry e s =
      ({ s with groups := s.groups.set e.group { s.groupEntry e.group with limit := max 0 (min e.limit 30000) } },
        if 0 ≤ e.limit ∧ e.limit ≤ 30000 then .ok else .clamped))) ∧
  (∀ (s : State) (e : ParamEntry),
    (e.id = 0 ∨ 27 < e.id → takeParam e s = (s, .badValue)) ∧
    (e.id = 22 → takeParam e s =
      ({ s with link := { s.link with params := s.link.params.set 21 (if e.value ≤ 55000 then 50000 else 60000) } },
        if e.value = 50000 ∨ e.value = 60000 then .ok else .clamped)) ∧
    (∀ low high, (e.id, low, high) ∈ ([(1, 500, 30000), (2, 0, 1000), (3, 0, 5000), (4, 800, 1000), (5, 0, 3600),
        (6, 600, 14400), (7, 1800, 43200), (8, 600, 7200), (9, 200, 900), (10, 100, 600), (11, 0, 1500), (12, 200, 1000),
        (13, 0, 1500), (14, 10, 600), (15, 1, 10), (16, 0, 100), (17, 0, 200), (18, 0, 60), (19, -30, 15), (20, 0, 10000),
        (21, 0, 1000), (23, 50, 1000), (24, 10, 500), (25, 1, 50), (26, 5, 200), (27, 10, 5000)] : List (Nat × Int × Int)) →
      takeParam e s =
        ({ s with link := { s.link with
            params := s.link.params.set (e.id - 1) (if e.value < low then low else if high < e.value then high else e.value) } },
          if low ≤ e.value ∧ e.value ≤ high then .ok else .clamped)))

/-- R14, R19, R114: a FLEET frame is refused for a field out of range or a tag of another used slot; else it replaces the record's fields.
The estimate, its stamp and the berth are kept under the same tag and dropped under a different one. A slot that becomes used has them
absent, and its protected and available energies too; those of a used slot are held. (A permitted byte above 1: Log 9; an unused slot's
fields: Log 28.) -/
def Obligations.FleetRecordsAreReplaced : Prop :=
  ∀ (s : State) tag (e : FleetEntry), s.Live → s.Associated →
    let inRange : Prop := 1 ≤ e.bus ∧ e.bus ≤ 64 ∧ e.tag ≠ 0 ∧ 50000 ≤ e.capacity ∧ e.capacity ≤ 1000000 ∧ 300 ≤ e.rate ∧
      e.rate ≤ 3000 ∧ e.arrivalFloor ≤ 500 ∧ 500 ≤ e.maxCharge ∧ e.maxCharge ≤ 1000 ∧ e.permitted ≤ 1 ∧ e.dischargeMax ≤ 3000
    let taken : Prop := ∃ b, b ≠ e.bus ∧ (s.fleetBus b).used = true ∧ (s.fleetBus b).tag = e.tag
    let old := s.fleetBus e.bus
    let written (b : Bus) : Bus := { b with
      used := true, tag := e.tag, capacity := e.capacity, rate := e.rate, arrivalFloor := e.arrivalFloor
      maxCharge := e.maxCharge, permitted := decide (e.permitted = 1), dischargeMax := e.dischargeMax }
    (¬ inRange ∨ taken → exec (.fleet tag e) s = .next (reply 0 tag .badValue .none (linkTaken s))) ∧
    (inRange → ¬ taken → ∃ t, exec (.fleet tag e) s = .next (reply 0 tag .ok .none t) ∧
      t = { s with link := (linkTaken s).link, berths := t.berths, fleet := t.fleet } ∧
      (∀ b, b ≠ e.bus → t.fleetBus b = s.fleetBus b) ∧
      (old.used = false → t.fleetBus e.bus = written (t.fleetBus e.bus) ∧ (t.fleetBus e.bus).stored = none ∧
        (t.fleetBus e.bus).stamp = none ∧ (t.fleetBus e.bus).berth = none ∧ (t.fleetBus e.bus).protectedEnergy = none ∧
        (t.fleetBus e.bus).availableEnergy = none ∧ t.berths = s.berths) ∧
      (old.used = true → old.tag = e.tag → t.fleetBus e.bus = written old ∧ t.berths = s.berths) ∧
      (old.used = true → old.tag ≠ e.tag → t.fleetBus e.bus = { written old with berth := none, stored := none, stamp := none } ∧
        ∀ x, t.berth x = if old.berth = some x then { s.berth x with bus := none } else s.berth x))

/-- R95, R105: the entries of RUN_PENDING are taken in order: BUSY while the set is armed, BAD_VALUE out of range or with an id
already pending, TABLE_FULL at 48 runs, else the record joins in table order. A COLD_PENDING table is taken whole or refused. R117,
R124, R125: the entries of DEMAND_PENDING and RESERVE_PENDING are taken in order: BUSY while the set is armed, BAD_VALUE out of range
or overlapping a pending window, TABLE_FULL at 8 or 12 windows, else the window joins the pending table, which stays in the order of
the start minutes. Each entry is taken in the state the one before it has left. (A frequency byte above 1: Log 9.) -/
def Obligations.PendingTablesAreLoaded : Prop :=
  (∀ (s : State) tag entries, s.Live →
    let r := takeEntries takeRunEntry entries (linkTaken s)
    exec (.runPending tag entries) s = .next (reply 0 tag .ok (.results r.2) r.1)) ∧
  (∀ (s : State) e rest,
    let first := takeRunEntry e s
    let others := takeEntries takeRunEntry rest first.1
    takeEntries takeRunEntry [] s = (s, []) ∧ takeEntries takeRunEntry (e :: rest) s = (others.1, first.2 :: others.2)) ∧
  (∀ (s : State) (e : RunEntry),
    let p := s.runs.pending
    let inRange : Prop := 1 ≤ e.runId ∧ e.runId ≤ 9999 ∧ e.departure ≤ 1439 ∧ 1 ≤ e.distance ∧ e.distance ≤ 3000 ∧ e.bus ≤ 64
    let twice : Prop := ∃ r ∈ p.runs, r.runId = e.runId
    let record : RunRecord := ⟨e.runId, e.departure, e.distance, if e.bus = 0 then none else some e.bus, e.pinned,
      e.swapAllowed, e.precondition⟩
    let earlier (r q : RunRecord) : Prop := r.departure < q.departure ∨ (r.departure = q.departure ∧ r.runId < q.runId)
    (p.armed = true → takeRunEntry e s = (s, .busy)) ∧
    (p.armed = false → ¬ inRange ∨ twice → takeRunEntry e s = (s, .badValue)) ∧
    (p.armed = false → inRange → ¬ twice → 48 ≤ p.runs.length → takeRunEntry e s = (s, .tableFull)) ∧
    (p.armed = false → inRange → ¬ twice → p.runs.length < 48 → p.runs.Pairwise earlier →
      ∃ l, takeRunEntry e s = ({ s with runs := { s.runs with pending := { p with runs := l } } }, .ok) ∧
        l.Perm (record :: p.runs) ∧ l.Pairwise earlier)) ∧
  (∀ (s : State) tag points, s.Live →
    let p := s.runs.pending
    let valid : Prop := 2 ≤ points.length ∧ points.length ≤ 8 ∧
      (∀ q ∈ points, -40 ≤ q.temperature ∧ q.temperature ≤ 50 ∧ 800 ≤ q.factor ∧ q.factor ≤ 2000) ∧
      points.Pairwise fun a b => a.temperature < b.temperature
    (p.armed = true → exec (.coldPending tag points) s = .next (reply 0 tag .busy .none (linkTaken s))) ∧
    (p.armed = false → ¬ valid → exec (.coldPending tag points) s = .next (reply 0 tag .badValue .none (linkTaken s))) ∧
    (p.armed = false → valid → exec (.coldPending tag points) s = .next (reply 0 tag .ok .none { s with
      link := (linkTaken s).link, runs := { s.runs with pending := { p with cold := points } } }))) ∧
  (∀ (s : State) tag entries, s.Live →
    let r := takeEntries takeDemandEntry entries (linkTaken s)
    exec (.demandPending tag entries) s = .next (reply 0 tag .ok (.results r.2) r.1)) ∧
  (∀ (s : State) tag entries, s.Live →
    let r := takeEntries takeReserveEntry entries (linkTaken s)
    exec (.reservePending tag entries) s = .next (reply 0 tag .ok (.results r.2) r.1)) ∧
  (∀ (s : State) e rest,
    let first := takeDemandEntry e s
    let others := takeEntries takeDemandEntry rest first.1
    takeEntries takeDemandEntry [] s = (s, []) ∧ takeEntries takeDemandEntry (e :: rest) s = (others.1, first.2 :: others.2)) ∧
  (∀ (s : State) e rest,
    let first := takeReserveEntry e s
    let others := takeEntries takeReserveEntry rest first.1
    takeEntries takeReserveEntry [] s = (s, []) ∧ takeEntries takeReserveEntry (e :: rest) s = (others.1, first.2 :: others.2)) ∧
  (∀ (s : State) (e : DemandEntry),
    let p := s.runs.pending
    let inRange : Prop := e.start ≤ 1439 ∧ e.start < e.stop ∧ e.stop ≤ 1440 ∧ e.hold ≤ 30000
    let overlaps : Prop := ∃ w ∈ p.demand, e.start < w.stop ∧ w.start < e.stop
    (p.armed = true → takeDemandEntry e s = (s, .busy)) ∧
    (p.armed = false → ¬ inRange ∨ overlaps → takeDemandEntry e s = (s, .badValue)) ∧
    (p.armed = false → inRange → ¬ overlaps → 8 ≤ p.demand.length → takeDemandEntry e s = (s, .tableFull)) ∧
    (p.armed = false → inRange → ¬ overlaps → p.demand.length < 8 →
      (∀ w ∈ p.demand, w.start < w.stop) → p.demand.Pairwise (fun a b => a.start < b.start) →
      ∃ l, takeDemandEntry e s = ({ s with runs := { s.runs with pending := { p with demand := l } } }, .ok) ∧
        l.Perm (⟨e.start, e.stop, e.hold⟩ :: p.demand) ∧ l.Pairwise fun a b => a.start < b.start)) ∧
  (∀ (s : State) (e : ReserveEntry),
    let p := s.runs.pending
    let inRange : Prop := e.start ≤ 1439 ∧ e.start < e.stop ∧ e.stop ≤ 1440 ∧ 1 ≤ e.reduction ∧ e.reduction ≤ 30000 ∧
      60 ≤ e.maxDuration ∧ e.maxDuration ≤ 14400 ∧ e.frequency ≤ 1
    let overlaps : Prop := ∃ w ∈ p.reserve, e.start < w.stop ∧ w.start < e.stop
    (p.armed = true → takeReserveEntry e s = (s, .busy)) ∧
    (p.armed = false → ¬ inRange ∨ overlaps → takeReserveEntry e s = (s, .badValue)) ∧
    (p.armed = false → inRange → ¬ overlaps → 12 ≤ p.reserve.length → takeReserveEntry e s = (s, .tableFull)) ∧
    (p.armed = false → inRange → ¬ overlaps → p.reserve.length < 12 →
      (∀ w ∈ p.reserve, w.start < w.stop) → p.reserve.Pairwise (fun a b => a.start < b.start) →
      ∃ l, takeReserveEntry e s = ({ s with runs := { s.runs with pending := { p with reserve := l } } }, .ok) ∧
        l.Perm (⟨e.start, e.stop, e.reduction, e.maxDuration, decide (e.frequency = 1)⟩ :: p.reserve) ∧
        l.Pairwise fun a b => a.start < b.start))

/-! ## Queries -/

/-- R168: the answer of every query, and what it carries. No query changes state but its own answer, except that part 0 of QUERY_STATUS
clears the two lost flags it reports. (The answers as fields, not bytes: Log 32; part 0 against a full FIFO: Log 44; bit 14 of a QUERY_RUN
index: Log 11; the mean of an empty ring: Log 51; part 0 without the latest sequence: Log 66.) -/
def Obligations.QueriesAnswerAsTheStateStands : Prop :=
  ∀ (s : State) tag index, s.Live →
    let answered (c : Instr) (code : ReplyCode) (body : ReplyBody) : Prop :=
      exec c s = .next (reply 0 tag code body (linkTaken s))
    (exec (.queryStatus tag 0) s = .next (reply 0 tag .ok (.status {
      mode := s.ctl.mode, second := s.link.second, clockSet := s.link.clockSet, meterState := s.meter.state
      missCount := s.meter.missCount, recoverCount := s.meter.recoverCount, power := s.meter.power
      frequency := s.meter.frequency, ambient := s.meter.ambient, overrun := s.meter.overrun, squeeze := s.meter.squeeze
      reserve := s.reserve.state, coverage := s.reserve.coverage, cabinets := s.bus.cabinets.length
      armed := s.runs.pending.armed, pendingRuns := s.runs.pending.runs.length
      pendingCold := s.runs.pending.cold.length, pendingDemand := s.runs.pending.demand.length
      pendingReserve := s.runs.pending.reserve.length, noticeLost := s.faults.noticeLost, answerLost := s.link.answerLost }) { s with
      link := { (linkTaken s).link with answerLost := false }, faults := { s.faults with noticeLost := false } })) ∧
    answered (.queryStatus tag 1) .ok (.totals s.alloc.totals) ∧
    (∃ fault shortfall run : Bool,
      (fault = true ↔ ∃ x, x < 36 ∧ (s.berth x).configured = true ∧ (s.berth x).flags ≠ FaultFlags.clear) ∧
      (shortfall = true ↔ s.reserve.state = .called ∧ ∃ r older, s.reserve.records = r :: older ∧ r.shortfall = true) ∧
      (run = true ↔ ∃ r, r ∈ s.runs.active ∧ r.state = .short) ∧
      answered (.queryStatus tag 2) .ok (.alert ⟨s.faults.routing, [fault, decide (s.ctl.mode = .safeHold),
        decide (s.meter.state ≠ .valid ∧ s.meter.state ≠ .holding), decide (s.meter.overrun = .overrun), shortfall, run], s.alertLow⟩)) ∧
    (2 < index → answered (.queryStatus tag index) .badValue .none) ∧
    (index ≤ 35 → answered (.queryBerth tag index) .ok (.berth (s.berth index))) ∧
    (35 < index → answered (.queryBerth tag index) .badValue .none) ∧
    (1 ≤ index → index ≤ 64 → answered (.queryBus tag index) .ok
      (.bus ⟨s.fleetBus index, (s.currentRun index).map (·.runId), s.fresh index⟩)) ∧
    (index = 0 ∨ 64 < index → answered (.queryBus tag index) .badValue .none) ∧
    (∀ r, index < 32768 → s.runs.active.find? (fun q => decide (q.runId = index)) = some r →
      answered (.queryRun tag index) .ok
        (.activeRun r (r.bus.map (s.energyTarget r.toRunRecord)) (r.bus.map (s.chargingTarget r.toRunRecord)))) ∧
    (index < 32768 → (∀ r ∈ s.runs.active, r.runId ≠ index) → answered (.queryRun tag index) .badValue .none) ∧
    (∀ r, index < 16384 → s.runs.pending.runs.find? (fun q => decide (q.runId = index)) = some r →
      answered (.queryRun tag (32768 + index)) .ok (.pendingRun r)) ∧
    (index < 16384 → (∀ r ∈ s.runs.pending.runs, r.runId ≠ index) →
      answered (.queryRun tag (32768 + index)) .badValue .none) ∧
    answered (.queryGroups tag 0) .ok (.groups ([0, 1, 2, 3, 4, 5].map fun g =>
      ⟨(s.groupEntry g).limit, (s.groupEntry g).enable, s.groupLoad g,
        if (s.groupEntry g).enable = true then max 0 ((s.groupEntry g).limit - s.groupLoad g) else 0⟩)) ∧
    (index ≠ 0 → answered (.queryGroups tag index) .badValue .none) ∧
    answered (.queryCalls tag 0) .ok (.calls ⟨s.reserve.state, s.reserve.call, s.reserve.recoveryTarget, s.reserve.coverage,
      s.reserve.tripCount, s.reserve.recoverCount, s.meter.ring.length,
      if s.meter.ring = [] then none else some (s.meter.ring.sum / (s.meter.ring.length : Int))⟩) ∧
    (∀ r, s.reserve.records[index]? = some r → answered (.queryCalls tag (index + 1)) .ok (.callRecord r)) ∧
    (s.reserve.records.length ≤ index → answered (.queryCalls tag (index + 1)) .badValue .none) ∧
    answered (.queryDemand tag 0) (if s.link.clockSet = true then .ok else .clockUnset) (.demand ⟨s.holdWindow.isSome,
      s.holdTarget, s.storage.interval, s.storage.last, s.storage.dayPeak, s.storage.previousPeak⟩) ∧
    answered (.queryDemand tag 1) .ok (.demandWindows s.storage.windows) ∧
    answered (.queryDemand tag 2) .ok (.demandWindows s.runs.pending.demand) ∧
    (2 < index → answered (.queryDemand tag index) .badValue .none)

/-! ## The clock, the tick and the durations -/

/-- R100, R109, R120, R121, R126, R171: an advance moves the clock by one second, 86,399 going to 0, and with the clock unset that is
all. With it set, each run whose resolution second has come ends, in table order, DEPARTED with a RUN_DEPARTED notice or MISSED with a
RUN_MISSED one, its bus being rederived before the next is taken; the demand interval is closed and begun anew at each multiple of 900;
and the reserve windows are judged (what a change of window does: TimeSetMovesTheClock). At 0 every unfinished run becomes MISSED, an
armed day set is applied (DaySetIsArmedAppliedOrCleared), every run is renewed, one DAY_END notice says how many were missed and whether
a set was applied, and the day peak, the closed interval judged with it, becomes the previous one. Where a call has ended, one immediate
run follows. (The order of the blocks: Log 21; a set applied at the wrap before the windows are judged: Log 53.) -/
def Obligations.ClockAdvanceMovesTheDay : Prop :=
  ∀ (s : State), s.Live →
    let second := if s.link.second = 86399 then 0 else s.link.second + 1
    let u : State := { s with link := { s.link with second := second } }
    let due (r : Run) : Prop := r.state.unfinished = true ∧ r.departure * 60 + 900 ≤ second
    let begun : Interval := ⟨second, 0, 0, false, false⟩
    let closed (i : Interval) : IntervalRecord :=
      ⟨i.start, if i.count = 0 then none else some (i.sum / (i.count : Int)), decide (9000 ≤ i.count ∧ i.incomplete = false),
        i.shortfall⟩
    let peak : Option Peak := match s.storage.interval with
      | none => s.storage.dayPeak
      | some i => if (closed i).complete = true ∧ ∀ p, s.storage.dayPeak = some p → p.average < i.sum / (i.count : Int)
          then some ⟨i.sum / (i.count : Int), i.start⟩ else s.storage.dayPeak
    let last : Option IntervalRecord := match s.storage.interval with
      | none => s.storage.last
      | some i => some (closed i)
    let turned (v : State) : State := { v with
      storage := { v.storage with interval := some begun, last := last, dayPeak := peak } }
    let finish (r : Run) (state : RunState) (v : State) : State :=
      let set := v.runs.active.map fun q => if q.runId = r.runId then { q with state := state, reason := none } else q
      { v with runs := { v.runs with active := match r.bus with
        | none => set
        | some b => rederiveFrom b false set } }
    let resolve (v : State) (r : Run) : State := match r.bus with
      | none => finish r .missed (notify (.runMissed r.runId none) v)
      | some b => if (s.fleetBus b).berth.isSome = true then finish r .missed (notify (.runMissed r.runId (some b)) v)
        else finish r .departed (notify (.runDeparted r.runId b second) v)
    let judge (asked : Bool) (v : State) : Host.Outcome State Fault Refusal :=
      let judged := judgeWindows v
      .next (if asked = true ∨ judged.2 = true then immediateRun judged.1 else judged.1)
    (s.link.clockSet = false → exec .clockAdvance s = .next u) ∧
    (s.link.clockSet = true → ∃ t, exec .clockAdvance s = .next t ∧ t.link.second = second ∧ t.link.clockSet = true ∧
      t.reserve.judged = t.windowNow ∧ t.reserve.windows = (if second = 0 ∧ s.runs.pending.armed = true
        then s.runs.pending.reserve else s.reserve.windows)) ∧
    (s.link.clockSet = true → second % 900 ≠ 0 → (∀ r ∈ s.runs.active, ¬ due r) → u.windowNow = s.reserve.judged →
      exec .clockAdvance s = .next u) ∧
    (s.link.clockSet = true → second % 900 = 0 → second ≠ 0 → (∀ r ∈ s.runs.active, ¬ due r) →
      u.windowNow = s.reserve.judged → exec .clockAdvance s = .next (turned u)) ∧
    (s.link.clockSet = true → second ≠ 0 → (s.runs.active.map (·.runId)).Nodup →
      (let resolved := (s.runs.active.filter fun r => r.state.unfinished && decide (r.departure * 60 + 900 ≤ second)).foldl resolve u
       exec .clockAdvance s = judge false (if second % 900 = 0 then turned resolved else resolved)) ∧
      ∃ t, exec .clockAdvance s = .next t ∧
        ∀ (n : Nat) (r : Run), s.runs.active[n]? = some r → ∃ q : Run, t.runs.active[n]? = some q ∧
        { q with state := r.state, reason := r.reason } = r ∧
          (due r → r.bus = none → q.state = .missed) ∧
          (∀ b, due r → r.bus = some b → q.state = if (s.fleetBus b).berth.isSome = true then .missed else .departed) ∧
          (¬ due r → r.state.unfinished = q.state.unfinished)) ∧
    (s.link.clockSet = true → second = 0 →
      let missed := (s.runs.active.filter (·.state.unfinished)).length
      let passed : State := { u with runs := { s.runs with active := s.runs.active.map fun r =>
        if r.state.unfinished = true then { r with state := .missed, reason := none } else r } }
      let applied : State × Bool := if s.runs.pending.armed = true then applyDaySet passed else (passed, false)
      let day : State := notify (.dayEnd missed s.runs.pending.armed) { applied.1 with runs := { applied.1.runs with
        active := (List.range' 1 64).foldl (fun l b => rederiveFrom b false l) (applied.1.runs.active.map fun r =>
          { r with state := if r.bus = none then .opened else .waiting, reason := none }) } }
      let turnedDay : State := { turned day with storage := { (turned day).storage with dayPeak := none, previousPeak := peak } }
      exec .clockAdvance s = judge applied.2 turnedDay ∧
      (day.runs.active.map (fun r => { r with state := .opened }) =
        applied.1.runs.active.map fun r => { r with state := .opened, reason := none }) ∧
      ∀ r ∈ day.runs.active, (r.bus = none → r.state = .opened) ∧ (r.bus ≠ none → r.state = .waiting ∨ r.state = .assigned))

/-- R50, R131, R136, R151, R171: the tick moves every duration by one second. A request whose lifetime has run out becomes NONE and
nothing else; a call whose duration has run out ends with cause DURATION into RECOVERY, with one immediate run; neither event arises
while seconds are left (Log 2). (The trip count at a call's end: Log 52.) -/
def Obligations.TicksAndDurations : Prop :=
  (∀ (s : State), s.Live → exec .oneSecondTick s = .next { s with
    berths := s.berths.map fun b => { b with
      confirmAge := b.confirmAge.map (· + 1), request := b.request.map fun r => { r with left := r.left - 1 } }
    reserve := { s.reserve with call := s.reserve.call.map fun c => { c with left := c.left - 1 } } }) ∧
  (∀ (s : State) x r, s.Live → (s.berth x).request = some r → r.left = 0 →
    exec (.requestLifetimeExpiry x) s = .next { s with berths := s.berths.set x { s.berth x with request := none } }) ∧
  (∀ (s : State) x, s.Live → (∀ r, (s.berth x).request = some r → r.left ≠ 0) →
    exec (.requestLifetimeExpiry x) s = .next s) ∧
  (∀ (s : State), s.Live → (∀ c, s.reserve.call = some c → c.left ≠ 0) → exec .callDurationExpiry s = .next s) ∧
  (∀ (s : State) c record older, s.Live → s.reserve.call = some c → c.left = 0 → s.reserve.state = .called →
    s.reserve.records = record :: older →
    let mean := if c.count = 0 then none else some (c.sum / (c.count : Int))
    exec .callDurationExpiry s = .next (immediateRun (
      notify (.reserveState .called .recovery (s.reserve.coverage.map (·.value)))
        (notify (.callEnd c.callId .duration mean) { s with reserve := { s.reserve with
          state := .recovery, call := none, recoveryTarget := some (s.clampTarget (c.baseline - c.reduction))
          tripCount := 0, recoverCount := 0
          records := { record with finish := some s.link.second, mean := mean, cause := some .duration } :: older } }))))

/-! ## Allocation -/

/-- R69, R89, R91, R115: a periodic run, and an immediate one in RUN, leave grants that keep the three laws: the positive grants of
all berths within the hard budget and those of each group within its limit; a grant only in RUN at a SERVING berth that is no
FOLLOWER, in an enabled group; a negative grant only with the meter valid, at an unguarded berth, from a permitted and fresh bus,
within dcap and p_avail. The terms of the hard budget: BudgetsFollowTheTerms. (No run without its timer or out of RUN: Log 2.) -/
def Obligations.AllocationRunsKeepTheLaws : Prop :=
  let lawful (u t : State) : Prop :=
    t.alloc.totals.chargeSum = ((List.range 36).map fun x => max 0 (t.berth x).grant).sum ∧
    t.alloc.totals.dischargeSum = ((List.range 36).map fun x => max 0 (-(t.berth x).grant)).sum ∧
    t.alloc.totals.hard = t.feederLimit - t.margin - t.meter.squeeze - t.alloc.totals.siteLoad ∧
    t.alloc.totals.chargeSum ≤ max 0 t.alloc.totals.hard ∧
    (∀ g, g < 6 → t.groupLoad g ≤ (t.groupEntry g).limit) ∧
    ∀ x, (t.berth x).grant ≠ 0 → t.ctl.mode = .run ∧ (t.berth x).session = .serving ∧ (t.berth x).coupling ≠ .follower ∧
      (∀ g, (t.berth x).group = some g → (t.groupEntry g).enable = true) ∧
      ((t.berth x).grant < 0 → t.MeterValid ∧ ∃ b, (t.berth x).bus = some b ∧ (t.fleetBus b).permitted = true ∧
        t.fresh b = true ∧ -(t.berth x).grant ≤ t.dischargeCap x ∧
        (∀ r, u.link.clockSet = true → u.liveRun b = some r → u.timeToDeadline r.toRunRecord ≤ u.guardHorizon →
          u.chargingTarget r.toRunRecord b ≤ u.storedOrZero b ∧ u.preconditions r.toRunRecord = false) ∧
        ((t.fleetBus b).used = true → b ≤ 64 → b ≤ t.fleet.length →
          ∃ e : Nat, (t.fleetBus b).availableEnergy = some e ∧ -(t.berth x).grant ≤ (e * 36 / t.horizon : Nat)))
  (∀ (s : State), s.Live → s.alloc.periodRunning = true → s.ctl.mode = .run → s.berths.length = 36 →
    (∀ g, 0 ≤ (s.groupEntry g).limit) →
    ∃ t, exec .periodicRun s = .next t ∧ lawful (reboundStep (stageZero s)) t ∧ t.alloc.totals.kind = .periodic ∧
      t.alloc.totals.count = (s.alloc.totals.count + 1) % 65536 ∧
      t.alloc.totals.time = (if s.link.clockSet = true then s.link.second else 0)) ∧
  (∀ (s : State), s.ctl.mode = .run → s.berths.length = 36 → (∀ g, 0 ≤ (s.groupEntry g).limit) → lawful s (immediateRun s)) ∧
  (∀ (s : State), s.Live → s.alloc.periodRunning = false ∨ s.ctl.mode ≠ .run → exec .periodicRun s = .next s)

/-- R62, R63, R70, R71, R92, R54, R57, R59, R61: outside RUN an immediate run is none. In RUN it writes the grants, the setpoint work they
bring, DONE and the projections, the energies, the live runs' states, the totals and the shortfall flags of the demand interval and of
the newest call record, and leaves everything else, the reserve state and the coverage among it, as it was. The setpoint work of every
run, periodic too, follows the new targets at each berth in SERVING that is no FOLLOWER, and at no other. ACTIVE: a trim where the
target is 0, of the other sign or below the commanded value, a raise from the raise deadband on, each untagged or the entry that stands,
and no new entry otherwise. IDLE: commanded 0 with a target joins the start queue with the tag of its entry, commanded other than 0 with
neither entry nor SETPOINT in flight has an untagged entry. START_QUEUED keeps its place with a target, and leaves the queue for IDLE
without, for the list where it is tagged. New entries and new places in the queue come in ascending berth number. (Behind a map change's
trim the work waits, of whichever kind: Log 15.) -/
def Obligations.ImmediateRunsWriteOnlyTheirOutcome : Prop :=
  (∀ (s : State), s.ctl.mode ≠ .run → immediateRun s = s) ∧
  (∀ (s : State), s.ctl.mode = .run →
    let t := immediateRun s
    s.OnlyRun t ∧ t.reserve.state = s.reserve.state ∧ t.reserve.coverage = s.reserve.coverage ∧
    (s.storage.interval = none → t.storage.interval = none) ∧
    (∀ i, s.storage.interval = some i → ∃ short, t.storage.interval = some { i with shortfall := short }) ∧
    (s.reserve.records = [] → t.reserve.records = []) ∧
    (∀ r older, s.reserve.records = r :: older → ∃ short, t.reserve.records = { r with shortfall := short } :: older) ∧
    t.alloc.totals.kind = .immediate ∧ t.alloc.totals.count = (s.alloc.totals.count + 1) % 65536 ∧
    (∀ x, t.berth x = { s.berth x with
      grant := (t.berth x).grant, setpoint := (t.berth x).setpoint, done := (t.berth x).done
      doneByComplete := (t.berth x).doneByComplete, projectedShort := (t.berth x).projectedShort }) ∧
    (∀ b, t.fleetBus b = { s.fleetBus b with
      protectedEnergy := (t.fleetBus b).protectedEnergy, availableEnergy := (t.fleetBus b).availableEnergy }) ∧
    t.runs.active.map (fun r => { r with state := .opened, reason := none }) =
      s.runs.active.map (fun r => { r with state := .opened, reason := none })) ∧
  (∀ kind (u t : State), RunLeaves kind u t → u.Granted → u.PathOrdered →
    (∀ x,
      let k := u.berth x
      let g := t.target x
      let c := u.pairCommanded x
      let kept : Prop := (t.berth x).setpoint = k.setpoint ∧ t.entryOf x = u.entryOf x ∧ t.queuedOf x = u.queuedOf x
      let made (st : SetpointState) (tag : Nat) : Prop := (t.berth x).setpoint = st ∧ t.queuedOf x = none ∧
        ∃ age, u.path.nextAge ≤ age ∧ age < t.path.nextAge ∧ t.entryOf x = some ⟨x, tag, age, none⟩
      let originated : Prop := (u.entryOf x = none → made k.setpoint 0) ∧ (u.entryOf x ≠ none → kept)
      let follows : Prop := g ≠ c ∧ (g = 0 ∨ (c < 0 ∧ 0 < g) ∨ (0 < c ∧ g < 0) ∨ g.natAbs < c.natAbs ∨
        u.raiseDeadband ≤ (g.natAbs : Int) - c.natAbs)
      (k.session ≠ .serving ∨ k.coupling = .follower → kept) ∧
      (k.session = .serving → k.coupling ≠ .follower →
        (k.setpoint = .active → (follows → originated) ∧ (¬ follows → kept)) ∧
        (k.setpoint = .startQueued → (g ≠ 0 → kept) ∧ (∀ q, g = 0 → u.queuedOf x = some q →
          (q.tag = 0 → (t.berth x).setpoint = .idle ∧ t.queuedOf x = none ∧ t.entryOf x = none) ∧
          (q.tag ≠ 0 → made .idle q.tag))) ∧
        (k.setpoint = .idle → c = 0 → (g = 0 → kept) ∧
          (g ≠ 0 → u.trimWaits x = false → (t.berth x).setpoint = .startQueued ∧ t.entryOf x = none ∧
            t.queuedOf x = some ⟨x, entryTag (u.entryOf x)⟩) ∧
          (g ≠ 0 → u.trimWaits x = true → originated)) ∧
        (k.setpoint = .idle → c ≠ 0 → (u.entryOf x = none → u.trimWaits x = false → k.inFlight = false → made .idle 0) ∧
          (u.entryOf x ≠ none ∨ u.trimWaits x = true ∨ k.inFlight = true → kept)))) ∧
    (∃ joined : List Queued, joined.Pairwise (fun a b => a.berth < b.berth) ∧
      t.path.queue = (u.path.queue.filter fun q => decide (t.target q.berth ≠ 0)) ++ joined) ∧
    (∃ created : List Entry, created.Pairwise (fun a b => a.berth < b.berth ∧ a.age < b.age) ∧
      (∀ e ∈ created, e.old = none ∧ u.path.nextAge ≤ e.age) ∧
      t.path.list = (u.path.list.filter fun e => e.old.isSome || (t.queuedOf e.berth).isNone) ++ created))

/-- R72, R101, R102, R107, R108, R126, R129, R138, R92: a periodic run first applies an armed day set, with one DAY_APPLIED notice and its
four counts; a call in progress goes on under the new table's window, bounded by it, or ends with WINDOW_END, and no second run follows
(the whole of an application: DaySetIsArmedAppliedOrCleared; DAY_APPLIED before CALL_END and RESERVE_STATE: Log 23). Then it gives each
OPEN run near its departure the candidate bus of greatest surplus, and moves each SHORT run that may be swapped to the best feasible
candidate that no swap has freed; then the rebound step raises the recovery target or ends RECOVERY. Its write-out stores the coverage of
the window active, which sets ARMED or UNDERCOVERED; without a window, or UNAVAILABLE, nothing is stored. -/
def Obligations.PeriodicRunsAssignSwapAndCover : Prop :=
  let serving (s : State) (b : Nat) (x : Nat) : Prop := (s.fleetBus b).berth = some x ∧ (s.berth x).session = .serving
  let surplus (s : State) (r : Run) (b : Nat) : Int :=
    (((s.fleetBus b).stored.getD 0 : Nat) : Int) - s.energyTarget r.toRunRecord b
  let candidate (s : State) (r : Run) (b : Nat) : Prop := 1 ≤ b ∧ b ≤ 64 ∧ (s.fleetBus b).used = true ∧ (∃ x, serving s b x) ∧
    (∀ q ∈ s.runs.active, q.bus = some b → q.state.unfinished = false) ∧
    s.energyTarget r.toRunRecord b ≤ (s.fleetBus b).capacity * (s.fleetBus b).maxCharge / 1000
  let feasible (s : State) (r : Run) (b : Nat) : Prop := 0 ≤ surplus s r b ∨ ∃ x, serving s b x ∧ 0 < s.chargeCap x ∧
    ((ceilDiv ((s.energyTarget r.toRunRecord b - (s.fleetBus b).stored.getD 0) * 36000) (s.chargeCap x * s.efficiency) : Nat) : Int) ≤
      (r.departure : Int) * 60 - s.readyLead - s.link.second
  let best (s : State) (r : Run) (fits : Nat → Prop) (b : Nat) : Prop := fits b ∧
    ∀ c, fits c → surplus s r c < surplus s r b ∨ (surplus s r c = surplus s r b ∧ b ≤ c)
  let taken (n b : Nat) (pin : Bool) (s : State) : State := { s with runs := { s.runs with
    active := rederiveFrom b false (s.runs.active.map fun q =>
      if q.runId = n then { q with bus := some b, pinned := pin, reason := none, state := .waiting } else q) } }
  let rederived (bus : Option Nat) (s : State) : State := match bus with
    | none => s
    | some b => { s with runs := { s.runs with active := rederiveFrom b false s.runs.active } }
  (∀ (s : State), stageZero s =
    (let u := if s.runs.pending.armed = true then (applyDaySet s).1 else s
     let v := (u.runs.active.map (·.runId)).foldl assignRun u
     ((v.runs.active.map (·.runId)).foldl swapRun (v, [])).1)) ∧
  (∀ (s : State), let u := (applyDaySet s).1
    u.runs.cold = s.runs.pending.cold ∧ u.runs.pending = ⟨[], [], [], [], false⟩ ∧ u.storage.windows = s.runs.pending.demand ∧
      u.reserve.windows = s.runs.pending.reserve ∧ u.reserve.judged = u.windowNow ∧
      u.runs.active.map (·.runId) = s.runs.pending.runs.map (·.runId)) ∧
  (∀ (s : State),
    let p := s.runs.pending
    let u := (applyDaySet s).1
    let told : State := notify (.dayApplied p.runs.length p.cold.length p.demand.length p.reserve.length) s
    let coverage := s.reserve.coverage.map (·.value)
    (s.reserve.call = none → s.reserve.state = .unavailable → u.link = told.link ∧ u.reserve.state = .unavailable) ∧
    (∀ c record older, s.reserve.state = .called → s.reserve.call = some c → s.reserve.records = record :: older →
      (∀ w, u.windowNow = some w →
        let reduction := min c.reduction (w.reduction : Int)
        u.link = told.link ∧ u.reserve.state = .called ∧
        u.reserve.call = some { c with reduction := reduction, left := min c.left w.maxDuration } ∧
        u.reserve.records = { record with reduction := reduction, target := s.clampTarget (c.baseline - reduction) } :: older) ∧
      (u.windowNow = none → s.reserve.judged ≠ none →
        let mean := if c.count = 0 then none else some (c.sum / (c.count : Int))
        u.link = (notify (.reserveState .called .recovery coverage) (notify (.callEnd c.callId .windowEnd mean) told)).link ∧
        u.reserve.state = .recovery ∧ u.reserve.call = none ∧
        u.reserve.recoveryTarget = some (s.clampTarget (c.baseline - c.reduction)) ∧
        u.reserve.records = { record with finish := some s.link.second, mean := mean, cause := some .windowEnd } :: older))) ∧
  (∀ (s : State) n r, s.runs.active.find? (fun q => decide (q.runId = n)) = some r →
    let near : Prop := r.state = .opened ∧ s.link.clockSet = true ∧
      (r.departure : Int) * 60 - s.link.second ≤ s.assignmentHorizon ∧ s.link.second < r.departure * 60 + 900
    (¬ near ∨ (∀ b, ¬ candidate s r b) → assignRun s n = s) ∧
    (∀ b, near → best s r (candidate s r) b →
      assignRun s n = taken n b false (notify (.runAssigned n b (surplus s r b)) s))) ∧
  (∀ (s : State) n r freed, s.runs.active.find? (fun q => decide (q.runId = n)) = some r →
    let movable : Prop := r.state = .short ∧ r.pinned = false ∧ r.swapAllowed = true ∧ s.link.clockSet = true ∧
      s.swapCutoff ≤ (r.departure : Int) * 60 - s.link.second
    let fits (b : Nat) : Prop := candidate s r b ∧ feasible s r b ∧ b ∉ freed
    (¬ movable ∨ (∀ b, ¬ fits b) → swapRun (s, freed) n = (s, freed)) ∧
    (∀ b, movable → best s r fits b → swapRun (s, freed) n =
      (rederived r.bus (taken n b false (notify (.runReassigned n (r.bus.getD 0) b) s)), r.bus.getD 0 :: freed))) ∧
  (∀ (s : State),
    (s.reserve.state ≠ .recovery ∨ s.reserve.recoveryTarget = none → reboundStep s = s) ∧
    (∀ target, s.reserve.state = .recovery → s.reserve.recoveryTarget = some target →
      let raised := target + s.reboundStep
      (raised < s.feederLimit - s.margin →
        reboundStep s = { s with reserve := { s.reserve with recoveryTarget := some raised } }) ∧
      (s.feederLimit - s.margin ≤ raised → s.reserve.judged ≠ none →
        reboundStep s = { s with reserve := { s.reserve with recoveryTarget := none } }) ∧
      (s.feederLimit - s.margin ≤ raised → s.reserve.judged = none →
        reboundStep s = notify (.reserveState .recovery .idle (s.reserve.coverage.map (·.value)))
          { s with reserve := { s.reserve with state := .idle, recoveryTarget := none } }))) ∧
  (∀ (s : State), s.Live → s.alloc.periodRunning = true → s.ctl.mode = .run → s.berths.length = 36 →
    let u := reboundStep (stageZero s)
    let served := u.servedInputs
    ∃ t, exec .periodicRun s = .next t ∧ t.reserve.judged = u.reserve.judged ∧
      (u.reserve.judged = none ∨ u.reserve.state = .unavailable →
        t.reserve.coverage = u.reserve.coverage ∧ t.reserve.state = u.reserve.state) ∧
      (∀ w, u.reserve.judged = some w → u.reserve.state ≠ .unavailable →
        let grant (v : Served) : Int := (t.berth v.berth).grant
        let value : Int := ((served.filter fun v => !v.guarded).map fun v => max 0 (grant v)).sum +
          ((served.filter fun v => v.eligible).map fun v =>
            max 0 (min (v.dcap : Int) ((v.available * 36 / w.maxDuration : Nat) : Int) - max 0 (-(grant v)))).sum
        let judged : ReserveState := if w.reduction ≤ value then .armed else .undercovered
        t.reserve.coverage = some ⟨value, if u.link.clockSet = true then u.link.second else 0, w.reduction⟩ ∧
        (u.reserve.state = .armed ∨ u.reserve.state = .undercovered ∨
          (u.reserve.state = .recovery ∧ u.reserve.recoveryTarget = none) → t.reserve.state = judged) ∧
        (u.reserve.state = .idle ∨ u.reserve.state = .called ∨
          (u.reserve.state = .recovery ∧ u.reserve.recoveryTarget ≠ none) → t.reserve.state = u.reserve.state)))

/-- R95, R96, R112, R113, R114: the cold factor of a table in strictly ascending order, rounded up between two points; the energy
target of a run on a bus, its charging target and the storage target, each bounded by the ceiling; the protected energy with the
recharge credit of a live run, and the available energy. Every allocation run writes the last two to each used bus, as they stand
after stage 0, and nothing else of a bus. -/
def Obligations.EnergiesFollowRunAndWeather : Prop :=
  let rising (l : List ColdPoint) : Prop := l.Pairwise fun p q => p.temperature < q.temperature
  (∀ a, coldFactor [] a = 1000) ∧
  (∀ table, table ≠ [] → (∃ q ∈ table, q.factor = coldFactor table none) ∧ ∀ q ∈ table, q.factor ≤ coldFactor table none) ∧
  (∀ p above a, a ≤ p.temperature → coldFactor (p :: above) (some a) = p.factor) ∧
  (∀ below p a, rising (below ++ [p]) → p.temperature ≤ a → coldFactor (below ++ [p]) (some a) = p.factor) ∧
  (∀ below p q above a, rising (below ++ p :: q :: above) → p.temperature ≤ a → a < q.temperature →
    let gain : Int := coldFactor (below ++ p :: q :: above) (some a) - (p.factor : Int)
    let exact : Int := ((q.factor : Int) - p.factor) * (a - p.temperature)
    exact ≤ gain * (q.temperature - p.temperature) ∧ (gain - 1) * (q.temperature - p.temperature) < exact) ∧
  (∀ (s : State) (r : RunRecord) b,
    let bus := s.fleetBus b
    let ceiling := bus.capacity * bus.maxCharge / 1000
    s.energyTarget r b = (r.distance * bus.rate * coldFactor s.runs.cold s.meter.ambient + 9999) / 10000 +
      (bus.capacity * bus.arrivalFloor + 999) / 1000 ∧
    s.chargingTarget r b = min (s.energyTarget r b) ceiling ∧
    s.storageTargetEnergy b = min (s.storageTarget * bus.capacity / 1000) ceiling) ∧
  (∀ (s : State) b,
    let bus := s.fleetBus b
    let least := (bus.capacity * s.storageFloor + 999) / 1000
    let current := s.runs.active.find? fun q => decide (q.bus = some b) && q.state.unfinished
    ((∀ r, current = some r → r.state.live = false) → s.protectedOf b = least) ∧
    (∀ r, current = some r → r.state.live = true →
      let target := s.energyTarget r.toRunRecord b
      let left : Int := (r.departure : Int) * 60 - s.readyLead - s.link.second - s.guardHorizon
      (s.link.clockSet = false ∨ left ≤ 0 → s.protectedOf b = max least target) ∧
      (s.link.clockSet = true → 0 < left →
        (s.protectedOf b : Int) = max (least : Int) (target - left * s.rechargePower * s.efficiency / 36000))) ∧
    (bus.stored = none → s.availableOf b = 0) ∧
    (∀ e : Nat, bus.stored = some e → (s.availableOf b : Int) = max 0 ((e : Int) - s.protectedOf b))) ∧
  (∀ kind (u t : State), RunLeaves kind u t → ∀ b, b ≤ 64 →
    t.fleetBus b = if (u.fleetBus b).used = true then { u.fleetBus b with
      protectedEnergy := some (u.protectedOf b), availableEnergy := some (u.availableOf b) } else u.fleetBus b)

/-- R20, R25, R73 to R79, R115: stage 1 for one berth: cap and dcap, of the pair for a LEADER; the bus and its live run; need, T, the
precondition add, the guard, the energy floor, the floor and the slack; whether the berth may discharge. A run brings DONE of every
berth in SERVING that is no FOLLOWER into line with the need, with a BERTH_DONE notice where it sets it, and leaves every other
berth's DONE alone. (A LEADER without a follower stands alone: Log 13.) -/
def Obligations.InputsFollowTheVehicle : Prop :=
  (∀ (s : State) x,
    let v := s.inputs x
    let k := s.berth x
    let add : Nat := if v.precondition = true then s.preconditionPower else 0
    let hours (d : Nat) : Nat := (v.need * 36000 + d * s.efficiency - 1) / (d * s.efficiency)
    let capped (charge accept discharge : Nat) : Prop :=
      (k.bus = none → v.cap = min (min charge accept) s.guestCap ∧ v.dcap = 0) ∧
      (∀ b, k.bus = some b → v.cap = min charge accept ∧ v.dcap = min discharge (s.fleetBus b).dischargeMax)
    let untimed : Prop := v.time = none ∧ v.precondition = false ∧ v.guarded = false ∧ v.floor = 0 ∧ v.slack = .absent
    v.berth = x ∧ v.bus = k.bus ∧ (∀ g, k.group = some g → v.group = g) ∧
    ((∀ p, ¬ s.PairedWith x p) → capped k.hwCharge k.acceptMax k.hwDischarge) ∧
    (∀ p, s.PairedWith x p → capped (k.hwCharge + (s.berth p).hwCharge) (k.acceptMax + (s.berth p).acceptMax)
      (k.hwDischarge + (s.berth p).hwDischarge)) ∧
    (k.bus = none → v.run = none ∧ v.need = 0 ∧ v.eligible = false ∧ untimed ∧
      (v.wants = true ↔ (∃ n, k.soc = some n ∧ n < s.guestTarget) ∨ (k.soc = none ∧ k.plug = .ready))) ∧
    (∀ b, k.bus = some b →
      let bus := s.fleetBus b
      let current := s.runs.active.find? fun q => decide (q.bus = some b) && q.state.unfinished
      (v.wants = true ↔ 0 < v.need) ∧ v.available = s.availableOf b ∧
      (v.eligible = true ↔ s.ctl.mode = .run ∧ s.MeterValid ∧ bus.permitted = true ∧ 0 < v.dcap ∧ v.guarded = false ∧
        (∃ n, bus.stamp = some n ∧ (s.link.second + 86400 - n) % 86400 ≤ 60) ∧ 0 < v.available) ∧
      ((∀ r, current = some r → r.state.live = false) →
        v.run = none ∧ v.need = s.storageTargetEnergy b - bus.stored.getD 0 ∧ v.capacityLimited = false ∧ untimed) ∧
      (∀ r, current = some r → r.state.live = true →
        v.run = some r ∧ v.need = s.chargingTarget r.toRunRecord b - bus.stored.getD 0 ∧
        v.time = (if s.link.clockSet = true then some ((r.departure : Int) * 60 - s.readyLead - s.link.second) else none) ∧
        (v.precondition = true ↔ r.precondition = true ∧ s.link.clockSet = true ∧
          ((r.departure : Int) - s.preconditionWindow) * 60 ≤ s.link.second ∧ s.link.second < r.departure * 60 ∧
          ∀ a, s.meter.ambient = some a → a ≤ s.preconditionThreshold) ∧
        (v.capacityLimited = true ↔ bus.capacity * bus.maxCharge / 1000 < s.energyTarget r.toRunRecord b))) ∧
    (v.time = none → v.guarded = false ∧ v.floor = 0 ∧ v.slack = .absent) ∧
    (∀ n, v.time = some n →
      (v.guarded = true ↔ n ≤ s.guardHorizon ∧ (0 < v.need ∨ v.precondition = true)) ∧
      (0 < n → v.energyFloor = hours n.toNat ∧ v.floor = min (v.energyFloor + add) v.cap) ∧
      (n ≤ 0 → v.floor = if 0 < v.need then v.cap else min add v.cap) ∧
      (v.need = 0 → v.slack = .time n) ∧
      (0 < v.need → v.slack = if v.cap = 0 then .noCap else .time (n - hours v.cap)))) ∧
  (∀ (s : State) (v : Served),
    let k := s.berth v.berth
    let met : Prop := (v.bus ≠ none ∧ v.need = 0) ∨ (v.bus = none ∧ ∃ n, k.soc = some n ∧ s.guestTarget ≤ n)
    let with' (done : Bool) : State := { s with
      berths := s.berths.set v.berth { k with done := done, doneByComplete := false } }
    (v.berth < s.berths.length → met → k.done = false →
      alignDone v s = notify (.berthDone v.berth k.bus k.soc) (with' true)) ∧
    (met → k.done = true → alignDone v s = with' true) ∧
    (¬ met → v.wants = true → k.plug ≠ .complete → alignDone v s = with' false) ∧
    (¬ met → v.wants = false ∨ k.plug = .complete → alignDone v s = s)) ∧
  (∀ kind (u t : State), RunLeaves kind u t → u.berths.length = 36 → ∀ x,
    let v := u.inputs x
    let k := u.berth x
    let met : Prop := (k.bus ≠ none ∧ v.need = 0) ∨ (k.bus = none ∧ ∃ n, k.soc = some n ∧ u.guestTarget ≤ n)
    (k.session = .serving → k.coupling ≠ .follower →
      (met → (t.berth x).done = true) ∧
      (¬ met → (t.berth x).done = if v.wants = true ∧ k.plug ≠ .complete then false else k.done)) ∧
    (k.session ≠ .serving ∨ k.coupling = .follower → (t.berth x).done = k.done))

/-- R81, R82, R118, R122, R133, R146, R147: the site load is the latest import less the power measured at every berth in SERVING or
FOLLOWER, not below 0, and the fallback load while the meter is invalid. The demand term is there while the clock is set, the meter
valid and a demand window contains the second, unless F − M is below −E_x; the reserve term in CALLED and with a recovery target in
RECOVERY. Every run's totals hold the terms it read: the hard budget F − M − Z − S_base, the smallest of the terms present, bounded
below by −E_x, the soft budget under it, and which term was binding. With the meter invalid the soft limit is the feeder term alone and
the two budgets are equal. (The bound against the feeder term: Log 50.) -/
def Obligations.BudgetsFollowTheTerms : Prop :=
  (∀ (s : State),
    let drawn : Int := (((List.range 36).filter fun x =>
      decide ((s.berth x).session = .serving ∨ (s.berth x).session = .follower)).map fun x => (s.berth x).measured).sum
    (∀ p, s.MeterValid → s.meter.power = some p → s.siteLoad = max 0 (p - drawn)) ∧
    (¬ s.MeterValid → s.siteLoad = s.fallbackLoad)) ∧
  (∀ (s : State),
    let low := -s.exportLimit
    let high := s.feederLimit - s.margin
    let window := s.storage.windows.find? fun w => decide (w.start * 60 ≤ s.link.second ∧ s.link.second < w.stop * 60)
    (s.link.clockSet = false ∨ window = none ∨ ¬ s.MeterValid ∨ high < low → s.holdTarget = none) ∧
    (∀ w i, s.link.clockSet = true → window = some w → s.MeterValid → low ≤ high → s.storage.interval = some i →
      let lead := w.hold * 9000 - i.sum
      s.holdTarget = some (if i.count < 9000 then max low (min high (lead / (9000 - (i.count : Int))))
        else if 0 ≤ lead then high else low)) ∧
    (s.reserve.state ≠ .called → s.reserve.state ≠ .recovery → s.reserveTerm = none) ∧
    (s.reserve.state = .recovery → s.reserve.recoveryTarget = none → s.reserveTerm = none) ∧
    (∀ n, (∃ c, s.reserve.state = .called ∧ s.reserve.call = some c ∧ n = c.baseline - c.reduction) ∨
        (s.reserve.state = .recovery ∧ s.reserve.recoveryTarget = some n) →
      low ≤ high → s.reserveTerm = some (max low (min high n)))) ∧
  (∀ kind (u t : State), RunLeaves kind u t →
    let feeder := u.feederLimit - u.margin - u.meter.squeeze
    let least := min (min feeder (u.holdTarget.getD feeder)) (u.reserveTerm.getD feeder)
    let y := t.alloc.totals
    y.siteLoad = u.siteLoad ∧ y.squeeze = u.meter.squeeze ∧ y.hard = feeder - u.siteLoad ∧
    y.soft = y.softLimit - u.siteLoad ∧
    (u.MeterValid → y.softLimit = max (-u.exportLimit) least ∧
      y.binding = if u.reserveTerm = some least then .reserve else if u.holdTarget = some least then .demand else .feeder) ∧
    (¬ u.MeterValid → y.softLimit = feeder ∧ y.soft = y.hard ∧ y.binding = .feeder))

/-- R79, R83 to R87, R91: the four passes over the served berths. The pass order is by slack and then by number. Pass 1 gives each
guarded berth, pass 2 each unguarded one, its floor within what the berths before it have left of its group and of the budgets. Pass 3
fills in rounds until nothing remains or no berth is fill-eligible. Pass 4 takes what the floors exceed the soft budget by from the
eligible berths with no grant, by descending available energy. A run writes what the passes leave as the grants and its totals. -/
def Obligations.PassesShareThePower : Prop :=
  let sum (f : Served → Int) (l : List Served) : Int := (l.map f).sum
  let ahead (v w : Served) : Prop := match v.slack, w.slack with
    | .noCap, .time _ => True
    | .noCap, .absent => True
    | .time _, .absent => True
    | .time m, .time n => m < n ∨ (m = n ∧ v.berth < w.berth)
    | .noCap, .noCap => v.berth < w.berth
    | .absent, .absent => v.berth < w.berth
    | _, _ => False
  (∀ (s : State) (b : Budgets) (served : List Served),
    served.Pairwise (fun v w => v.berth < w.berth) → (∀ v ∈ served, v.berth < 36) →
    let o := s.passes b served
    ∃ order : List Served, ∃ given : Served → Int, order.Perm served ∧ order.Pairwise ahead ∧
      let room (l : List Served) (f : Served → Int) (g : Nat) : Int := if (s.groupEntry g).enable = true
        then max 0 ((s.groupEntry g).limit - sum (fun v => max 0 (f v)) (l.filter fun v => decide (v.group = g))) else 0
      (∀ front v back, order = front ++ v :: back →
        let before := if v.guarded = true then front.filter (·.guarded)
          else order.filter (·.guarded) ++ front.filter (!·.guarded)
        let within := min (min (v.floor : Int) (room before given v.group)) (max 0 b.hard - sum given before)
        given v = if v.guarded = true then within else min within (max 0 (b.soft - sum given before))) ∧
      (let holds (p : Passing) (v : Served) : Int := p.grants.getD v.berth 0
       let most (p : Passing) (v : Served) : Int := min ((v.cap : Int) - holds p v) (room order (holds p) v.group)
       let open' (p : Passing) : List Served := order.filter fun v =>
         !(s.berth v.berth).done && v.wants && decide (0 < most p v)
       let round (p : Passing) : Passing :=
         let share := p.rest / ((open' p).length : Int)
         (open' p).foldl (fun q v =>
           let gain := max 0 (min (min (if 0 < share then share else 1) q.rest) (most q v))
           ⟨q.grants.set v.berth (holds q v + gain), q.rest - gain⟩) p
       ∃ (start : Passing) (n : Nat), start.grants.length = 36 ∧ (∀ v ∈ order, holds start v = given v) ∧
         (∀ x, (∀ v ∈ order, v.berth ≠ x) → start.grants.getD x 0 = 0) ∧
         start.rest = max 0 (min b.soft b.hard - sum given order) ∧
         (∀ k, k < n → 0 < (round^[k] start).rest ∧ open' (round^[k] start) ≠ []) ∧
         round^[n] start = ⟨o.filled, o.unallocated⟩ ∧ (o.unallocated = 0 ∨ open' ⟨o.filled, o.unallocated⟩ = [])) ∧
      (let filled (v : Served) : Int := o.filled.getD v.berth 0
       let drawn (v : Served) : Int := -o.grants.getD v.berth 0
       o.demand = max 0 (sum (fun v => max 0 (filled v)) order - b.soft) ∧
       ∃ parked : List Served,
         parked.Perm (served.filter fun v => v.eligible && decide (filled v = 0) && (s.groupEntry v.group).enable) ∧
         parked.Pairwise (fun v w => w.available < v.available ∨ (v.available = w.available ∧ v.berth < w.berth)) ∧
         (∀ front v back, parked = front ++ v :: back →
           drawn v = min (min (v.dcap : Int) ((v.available * 36 / s.horizon : Nat) : Int)) (o.demand - sum drawn front)) ∧
         o.shortfall = o.demand - sum drawn parked ∧
         ∀ x, (∀ v ∈ parked, v.berth ≠ x) → o.grants.getD x 0 = o.filled.getD x 0)) ∧
  (∀ (s : State), (∀ c, s.reserve.state = .called → s.reserve.call = some c → s.horizon = max 60 c.left) ∧
    (s.reserve.state ≠ .called → s.horizon = 900)) ∧
  (∀ kind (u t : State), RunLeaves kind u t → u.berths.length = 36 →
    let served := u.servedInputs
    let y := t.alloc.totals
    let o := { u with berths := t.berths }.passes ⟨y.hard, y.softLimit, y.soft, y.binding⟩ served
    (∀ x, (t.berth x).grant = o.grants.getD x 0) ∧ y.unallocated = o.unallocated ∧ y.demand = o.demand ∧
    y.shortfall = o.shortfall ∧ y.served = served.length ∧ y.guarded = (served.filter (·.guarded)).length ∧
    y.kind = kind ∧ y.time = (if u.link.clockSet = true then u.link.second else 0) ∧
    y.count = (u.alloc.totals.count + 1) % 65536)

/-- R80, R88, R90, R98: when a served berth is projected short, and with which reason. A run hands each live run of a served berth
over with its bus's need and projection, in table order: SHORT for CAPACITY, else READY without need, else SHORT for TIME, else
CHARGING, with one RUN_SHORT notice as it enters SHORT; no other run changes. It writes every berth's projected-short flag and the
short count, and a discharge shortfall sets the flag of the demand interval or of the call in progress, with one notice, by the
binding term. (No TIME projection without a deadline: Log 19. Run ids stand once in the table: BoundsAndOrderAreKept.) -/
def Obligations.RunsAreHandedOver : Prop :=
  (∀ (v : Served) (filled : Int),
    let late (n : Int) : Prop := 0 < v.need ∧ (n ≤ 0 ∨ v.cap = 0 ∨ (∃ m, v.slack = .time m ∧ m < 0) ∨
      (v.guarded = true ∧ filled < v.energyFloor))
    (v.run = none → v.projection filled = none) ∧
    (v.run ≠ none → v.capacityLimited = true → v.projection filled = some .capacity) ∧
    (v.run ≠ none → v.capacityLimited = false → v.time = none → v.projection filled = none) ∧
    (∀ n, v.run ≠ none → v.capacityLimited = false → v.time = some n →
      (late n → v.projection filled = some .time) ∧ (¬ late n → v.projection filled = none))) ∧
  (∀ (s : State) (r : Run) b need,
    let moved (state : RunState) (reason : Option ShortReason) (u : State) : State := { u with runs := { u.runs with
      active := u.runs.active.map fun q => if q.runId = r.runId then { q with state := state, reason := reason } else q } }
    let told (reason : ShortReason) : State := if r.state = .short then s else notify (.runShort r.runId b reason need) s
    handOver r b need (some .capacity) s = moved .short (some .capacity) (told .capacity) ∧
    (∀ reason, need = 0 → reason ≠ some .capacity → handOver r b need reason s = moved .ready none s) ∧
    (0 < need → handOver r b need (some .time) s = moved .short (some .time) (told .time)) ∧
    (0 < need → handOver r b need none s = moved .charging none s)) ∧
  (∀ (s : State) served filled, handRuns served filled s = s.runs.active.foldl (fun s r =>
    match served.find? (fun v => decide (v.run.map (·.runId) = some r.runId)) with
    | none => s
    | some v => handOver r (v.bus.getD 0) v.need (v.projection (filled.getD v.berth 0)) s) s) ∧
  (∀ (s : State) amount (b : Budgets),
    (amount ≤ 0 ∨ b.binding = .feeder ∨ (b.binding = .reserve ∧ s.reserve.state ≠ .called) → handShortfall amount b s = s) ∧
    (∀ c record older, 0 < amount → b.binding = .reserve → s.reserve.state = .called → s.reserve.call = some c →
      s.reserve.records = record :: older →
      handShortfall amount b s = if record.shortfall = true then s else notify (.reserveShortfall c.callId amount)
        { s with reserve := { s.reserve with records := { record with shortfall := true } :: older } }) ∧
    (∀ i w, 0 < amount → b.binding = .demand → s.storage.interval = some i → s.holdWindow = some w →
      handShortfall amount b s = if i.shortfall = true then s
        else notify (.peakShortfall amount i.start w.hold (s.holdTarget.getD 0))
          { s with storage := { s.storage with interval := some { i with shortfall := true } } })) ∧
  (∀ kind (u t : State), RunLeaves kind u t → u.berths.length = 36 →
    let served := u.servedInputs
    let y := t.alloc.totals
    let o := { u with berths := t.berths }.passes ⟨y.hard, y.softLimit, y.soft, y.binding⟩ served
    let short (v : Served) : Option ShortReason := v.projection (o.filled.getD v.berth 0)
    let handed (r : Run) : Run := match served.find? (fun v => decide (v.run = some r)) with
      | none => r
      | some v => { r with
        state := if short v = some .capacity then .short else if v.need = 0 then .ready
          else if short v = some .time then .short else .charging
        reason := if short v = some .capacity then some .capacity else if v.need = 0 then none else short v }
    y.short = (served.filter fun v => (short v).isSome).length ∧
    (∀ x, (t.berth x).projectedShort = true ↔ ∃ v ∈ served, v.berth = x ∧ short v ≠ none) ∧
    ((u.runs.active.map (·.runId)).Nodup → t.runs = { u.runs with active := u.runs.active.map handed }) ∧
    (let flagged := decide (0 < y.shortfall ∧ y.binding = .demand)
     t.storage.interval = u.storage.interval.map fun i => { i with shortfall := i.shortfall || flagged }) ∧
    (∀ c record older, u.reserve.call = some c → u.reserve.records = record :: older →
      let flagged := decide (0 < y.shortfall ∧ y.binding = .reserve ∧ u.reserve.state = .called)
      t.reserve.records = { record with shortfall := record.shortfall || flagged } :: older))

/-! ## The start-up stop and the start gate -/

/-- R48, R60, R69: when the start-up stop has been sent whole the line is free, every commanded and confirmed value is 0, and the
survey timer, the start slot timer and, in RUN, the period timer start. Each start slot expiry releases at most the head of the start
queue: with a target it becomes ACTIVE with an entry; without, IDLE, with an entry only for a tag. (An expiry of a timer that does not
run: Log 2. No queued berth has an entry on the list: SetpointPathStaysOrdered.) -/
def Obligations.StopAndStartGate : Prop :=
  (∀ (s : State), s.Live → s.bus.line = .stopSending → exec .stopSent s = .next { s with
    bus := { s.bus with line := .idle, stopWhole := true, surveyRunning := true }
    path := { s.path with slotRunning := true, slotSpacing := s.startSpacing }
    alloc := { s.alloc with periodRunning := decide (s.ctl.mode = .run) }
    berths := s.berths.map fun b => { b with commanded := 0, confirmed := 0 } }) ∧
  (∀ (s : State), s.Live → s.bus.line ≠ .stopSending → exec .stopSent s = .next s) ∧
  (∀ (s : State), s.Live → s.path.slotRunning = false → exec .startSlotExpiry s = .next s) ∧
  (∀ (s : State), s.Live → s.path.slotRunning = true →
    let spaced (t : State) : Host.Outcome State Fault Refusal :=
      .next { t with path := { t.path with slotSpacing := s.startSpacing } }
    (s.path.queue = [] → exec .startSlotExpiry s = spaced s) ∧
    (∀ q rest, s.path.queue = q :: rest → s.trimWaits q.berth = false →
      let released (setpoint : SetpointState) (entered : Bool) : State := { s with
        berths := s.berths.set q.berth { s.berth q.berth with setpoint := setpoint }
        path := { s.path with
          queue := rest
          list := if entered = true then s.path.list ++ [⟨q.berth, q.tag, s.path.nextAge, none⟩] else s.path.list
          nextAge := if entered = true then s.path.nextAge + 1 else s.path.nextAge } }
      (s.target q.berth ≠ 0 → exec .startSlotExpiry s = spaced (released .active true)) ∧
      (s.target q.berth = 0 → exec .startSlotExpiry s = spaced (released .idle (decide (q.tag ≠ 0))))))

/-! ## Surveys and reports -/

/-- R31, R32, R33, R35, R48: a running survey timer makes a survey due when the stop has gone, no enrollment is in progress, a cabinet
is enrolled and no survey holds the line, and sends an abandoned stop again; a due survey takes the free line with SURVEY_OPEN; its
first slot opens when that has gone; CLOSE sent ends it with the kind it named. Otherwise nothing happens. (Log 2; when the recheck
flag is cleared: Log 34; the receiver emptied as the first slot opens: Log 57.) -/
def Obligations.SurveysTakeTheLine : Prop :=
  ∀ (s : State), s.Live →
    let surveying : Prop := ∃ k c b, s.bus.line = .surveyOpen k ∨ s.bus.line = .surveySlot k c b ∨ s.bus.line = .surveyClose k
    let judged : Prop := s.bus.stopWhole = true ∧ ¬ s.Enrolling ∧ s.bus.cabinets ≠ [] ∧ ¬ surveying
    let second := if s.link.clockSet = true then s.link.second else 0
    let code : Byte := if s.bus.nextKind = .full then 0 else 1
    let flag : Byte := if s.link.clockSet = true then 1 else 0
    (s.bus.surveyRunning = false → exec .surveyTimerExpiry s = .next s) ∧
    (s.bus.surveyRunning = true → s.bus.line = .stopHeld → exec .surveyTimerExpiry s = .next { s with
      bus := { s.bus with line := .stopSending, busTx := [0xD2, 0x5F, 0x00, 0x03, 0x8E] } }) ∧
    (s.bus.surveyRunning = true → s.bus.line ≠ .stopHeld → judged → exec .surveyTimerExpiry s = .next { s with
      bus := { s.bus with surveyDue := true } }) ∧
    (s.bus.line ≠ .stopHeld → ¬ judged → exec .surveyTimerExpiry s = .next s) ∧
    (s.bus.line = .idle → s.bus.enrollWaiting = false → s.bus.surveyDue = true → exec .surveyStart s = .next { s with
      bus := { s.bus with
        line := .surveyOpen s.bus.nextKind, surveyDue := false
        busTx := busFrame 0 31 [code, flag, BitVec.ofNat 8 (second / 65536), BitVec.ofNat 8 (second / 256),
          BitVec.ofNat 8 second] } }) ∧
    (s.bus.line ≠ .idle ∨ s.bus.enrollWaiting = true ∨ s.bus.surveyDue = false → exec .surveyStart s = .next s) ∧
    (∀ k, s.bus.line = .surveyOpen k → s.bus.cabinets ≠ [] → exec .surveyOpenSent s = .next { s with
      bus := { s.bus with line := .surveySlot k 1 false, rx := [], recheck := if k = .full then false else s.bus.recheck } }) ∧
    ((∀ k, s.bus.line ≠ .surveyOpen k) → exec .surveyOpenSent s = .next s) ∧
    (∀ k, s.bus.line = .surveyClose k → exec .closeSent s = .next { s with
      bus := { s.bus with line := .idle, nextKind := k } }) ∧
    ((∀ k, s.bus.line ≠ .surveyClose k) → exec .closeSent s = .next s)

/-- R27, R33, R34, R35, R154: a slot that ends at its timer, a frame still incomplete being discarded with it. In a FULL survey it is a
miss: the count rises to at most 3 and the next survey is FULL, and a miss that leaves it at 3 latches COMM_MISS on the cabinet's watched
berths, one after another in ascending number (what a latch does: DetectorsLatchFaults): a SINGLE berth and a LEADER are FAULTED by it,
and a LEADER whose FOLLOWER of a lower number has latched before it is FAULTED by that latch and takes none of its own. In a QUIET survey
nothing is missed, and only a corrupt slot makes the next survey FULL. The next slot follows, or after the last the CLOSE with the next
kind. (No slot open: Log 2; the latch of one half of a pair is seen by the other's: Log 18; an incomplete frame makes the slot corrupt:
Log 39; the trims of all the latches aged by berth: Log 60.) -/
def Obligations.ExpiredSlotsAreCounted : Prop :=
  (∀ (s : State) k c corrupt, s.Live → s.bus.line = .surveySlot k c corrupt → 1 ≤ c → c ≤ s.bus.missCounts.length →
    s.berths.length = 36 →
    let misses := if k = .full then min 3 (s.missCount c + 1) else s.missCount c
    let recheck := decide (k = .full ∨ corrupt = true ∨ s.bus.rx ≠ [] ∨ s.bus.recheck = true)
    let quiet := if k = .full then 0 else s.bus.quietCount + 1
    let next : SurveyKind := if 4 ≤ quiet ∨ recheck = true then .full else .quiet
    ∃ t, exec .slotTimerExpiry s = .next t ∧ t.missCount c = misses ∧ t.bus.rx = [] ∧
      (∀ d, d ≠ c → 1 ≤ d → t.missCount d = s.missCount d) ∧ t.bus.recheck = recheck ∧
      (c < s.bus.cabinets.length → t.bus.line = .surveySlot k (c + 1) false ∧ t.bus.quietCount = s.bus.quietCount) ∧
      (s.bus.cabinets.length ≤ c → t.bus.line = .surveyClose next ∧ t.bus.quietCount = quiet ∧
        t.bus.busTx = busFrame 4 31 [if next = .full then 0 else 1]) ∧
      (∀ x, ((s.berth x).configured = false ∨ (s.berth x).cabinet ≠ some c) → (t.berth x).flags = (s.berth x).flags) ∧
      (∀ x, x < 36 → (s.berth x).configured = true → (s.berth x).cabinet = some c →
        (t.berth x).counters.commMiss = misses ∧
        (k = .quiet ∨ misses < 3 → t.berth x = { s.berth x with counters := { (s.berth x).counters with commMiss := misses } }) ∧
        (k = .full → misses = 3 → (s.berth x).coupling ≠ .leader → (s.berth x).session.watched = true →
          (s.berth x).flags.commMiss = false →
          (t.berth x).flags.commMiss = true ∧ ((s.berth x).coupling = .single → (s.berth x).session ≠ .follower →
            (t.berth x).session = .faulted)) ∧
        (k = .full → misses = 3 → (s.berth x).coupling = .leader → (s.berth x).session.watched = true →
          (s.berth x).session ≠ .follower → (s.berth x).flags.commMiss = false →
          let before : Prop := ∃ p, p < x ∧ s.PairedWith x p ∧ (s.berth p).cabinet = some c ∧ (s.berth p).session.watched = true ∧
            (s.berth p).flags.commMiss = false
          (t.berth x).session = .faulted ∧ (¬ before → (t.berth x).flags.commMiss = true) ∧
            (before → (t.berth x).flags = (s.berth x).flags))) ∧
      (k = .full → misses = 3 →
        let named := (List.range 36).filter fun x => (s.berth x).configured && decide ((s.berth x).cabinet = some c)
        let counted := named.foldl
          (fun u x => u.editBerth x fun b => { b with counters := { b.counters with commMiss := 3 } })
          { s with bus := { s.bus with missCounts := s.bus.missCounts.set (c - 1) 3, recheck := true } }
        t = nextSlot .full c (ageByBerth s.path.nextAge (named.foldl (fun u x =>
          if (u.berth x).session.watched = true ∧ (u.berth x).flags.commMiss = false then latchFault x .commMiss u else u)
          counted)))) ∧
  (∀ (s : State), s.Live → (∀ k c b, s.bus.line ≠ .surveySlot k c b) → exec .slotTimerExpiry s = .next s)

/-- R33, R34, R35, R36, R37, R38, R170: a STATUS body is a run of 12-byte entries, and valid where its length is that of the cabinet's
outlets and its entries name outlets the cabinet has, none twice, with plug states 0 to 3. A valid STATUS of the slot's cabinet ends
the slot with miss count 0, fills the cabinet's telemetry slot with its body, and writes each entry's fields to the berth that names
its outlet; other berths keep theirs. The next slot follows, or after the last the CLOSE with the next kind. A STATUS of the slot's
cabinet that is not valid is discarded: it changes nothing but the receiver and the slot's outcome, now corrupt, and the slot runs on.
(Berths that share an outlet: Log 14.) -/
def Obligations.StatusIsReported : Prop :=
  (∀ n body, statusValid n body = true ↔ body.length = 12 * n ∧ (∀ e ∈ statusEntries body, e.outlet < n ∧ e.plug ≤ 3) ∧
    ((statusEntries body).map (·.outlet)).Nodup) ∧
  (∀ body : List Byte, body.length < 12 → statusEntries body = []) ∧
  (∀ (place flags t1 t2 t3 t4 c1 c2 p1 p2 m1 m2 : Byte) rest,
    statusEntries (place :: flags :: t1 :: t2 :: t3 :: t4 :: c1 :: c2 :: p1 :: p2 :: m1 :: m2 :: rest) =
      { outlet := place.toNat / 16, plug := place.toNat % 16, trip := flags.getLsbD 0, isolation := flags.getLsbD 1
        contactor := flags.getLsbD 2, tag := t1 ++ t2 ++ t3 ++ t4, soc := c1.toNat * 256 + c2.toNat, measured := steps16 p1 p2
        acceptMax := m1.toNat * 256 + m2.toNat } :: statusEntries rest) ∧
  (∀ (s : State) k c corrupt body, s.Live → s.bus.line = .surveySlot k c corrupt →
    (∀ record, s.cabinet? c = some record → statusValid record.outlets.length body = false) →
    exec (.status c body) s = .next { s with bus := { s.bus with rx := [], line := .surveySlot k c true } }) ∧
  ∀ (s : State) k c corrupt record body, s.Live → s.bus.line = .surveySlot k c corrupt → 1 ≤ c → c ≤ 12 →
    s.bus.missCounts.length = 12 → s.link.slots.length = 12 → s.berths.length = 36 →
    s.cabinet? c = some record → statusValid record.outlets.length body = true →
    let quiet := if k = .full then 0 else s.bus.quietCount + 1
    let next : SurveyKind := if 4 ≤ quiet ∨ s.bus.recheck = true then .full else .quiet
    body.length = 12 * record.outlets.length ∧
    ∃ t, exec (.status c body) s = .next t ∧ t.missCount c = 0 ∧ t.slot c = ⟨body, true⟩ ∧
      (∀ d, d ≠ c → 1 ≤ d → t.slot d = s.slot d ∧ t.missCount d = s.missCount d) ∧ t.bus.recheck = s.bus.recheck ∧ t.bus.rx = [] ∧
      (c < s.bus.cabinets.length → t.bus.line = .surveySlot k (c + 1) false ∧ t.bus.quietCount = s.bus.quietCount) ∧
      (s.bus.cabinets.length ≤ c → t.bus.line = .surveyClose next ∧ t.bus.quietCount = quiet ∧
        t.bus.busTx = busFrame 4 31 [if next = .full then 0 else 1]) ∧
      (∀ x, x < 36 → (s.berth x).configured = true → (s.berth x).cabinet = some c →
        ∀ e ∈ statusEntries body, (s.berth x).outlet = some e.outlet →
          (t.berth x).plug = plugOf e.plug ∧ (t.berth x).tag = e.tag ∧ (t.berth x).measured = e.measured ∧
          (t.berth x).soc = (if e.soc = 65535 then none else if e.soc ≤ 1000 then some e.soc else some 1000) ∧
          (t.berth x).acceptMax = min e.acceptMax (s.berth x).hwCharge) ∧
      (∀ x, ((s.berth x).configured = false ∨ (s.berth x).cabinet ≠ some c ∨
          ∀ e ∈ statusEntries body, (s.berth x).outlet ≠ some e.outlet) →
        (t.berth x).plug = (s.berth x).plug ∧ (t.berth x).tag = (s.berth x).tag ∧ (t.berth x).soc = (s.berth x).soc ∧
        (t.berth x).measured = (s.berth x).measured ∧ (t.berth x).acceptMax = (s.berth x).acceptMax)

/-- R7, R8, R10, R152 to R154: what a reported plug state makes of the session of a SINGLE or LEADER berth where the detectors of the
berth, and of a FOLLOWER that names it, latch nothing, by the conditions of those rules themselves: EMPTY, CONNECTED and SERVING
follow the plug of its own outlet, and every other state is kept. R99, R19: where an unplug drops the berth's bus and the bus's
current run is live, in its departure window the run becomes DEPARTED with a RUN_DEPARTED notice and its bus is rederived, and outside
it ASSIGNED without a short reason; other runs stand. (SERVING to CONNECTED: Log 38; two berths of one outlet: Log 14.) -/
def Obligations.SessionsFollowThePlug : Prop :=
  let quiet (s : State) (x y : Nat) (f : StatusEntry) : Prop :=
    let b := s.berth y
    (s.berth x).session = .disabled ∨ (s.berth x).session = .faulted ∨ (s.berth x).session = .unconfigured ∨
    (f.trip = false ∧ f.isolation = false ∧
      (f.measured.natAbs ≤ b.commanded.natAbs + max 20 (b.commanded.natAbs / 10) ∨ b.counters.overcurrent = 0) ∧
      (b.counters.openPath < 4 ∨ b.commanded.natAbs < 50 ∨ b.confirmed.natAbs < 50 ∨ f.contactor = false ∨
        s.inFlightFor y = true ∨ (∀ n, b.confirmAge = some n → n < 10) ∨ 5 ≤ f.measured.natAbs))
  (∀ (s : State) k c corrupt record body x e t, s.Live → s.bus.line = .surveySlot k c corrupt → 1 ≤ c → c ≤ 12 →
    s.berths.length = 36 → s.cabinet? c = some record → statusValid record.outlets.length body = true →
    x < 36 → (s.berth x).configured = true → (s.berth x).cabinet = some c → (s.berth x).coupling ≠ .follower →
    e ∈ statusEntries body → (s.berth x).outlet = some e.outlet →
    (∀ y f, y = x ∨ ((s.berth y).coupling = .follower ∧ (s.berth y).partner = some x) → (s.berth y).cabinet = some c →
      f ∈ statusEntries body → (s.berth y).outlet = some f.outlet → quiet s x y f) →
    exec (.status c body) s = .next t →
    let plug := plugOf e.plug
    ((s.berth x).session = .empty → (t.berth x).session =
      if plug = .none then .empty else if plug = .ready then .serving else .connected) ∧
    ((s.berth x).session = .connected → (t.berth x).session =
      if plug = .none then .empty else if plug = .ready then .serving else .connected) ∧
    ((s.berth x).session = .serving → (t.berth x).session =
      if plug = .none then .empty else if plug = .connected then .connected else .serving) ∧
    ((s.berth x).session = .disabled ∨ (s.berth x).session = .faulted ∨ (s.berth x).session = .unconfigured ∨
      (s.berth x).session = .follower → (t.berth x).session = (s.berth x).session) ∧
    (t.berth x).flags = (s.berth x).flags ∧
    ((s.berth x).session = .serving → (t.berth x).session ≠ .serving → (t.berth x).grant = 0 ∧ (t.berth x).request = none ∧
      (t.berth x).done = false ∧ (t.berth x).setpoint = .idle)) ∧
  (∀ (s : State) x b, s.Associated → x < 36 → (s.berth x).bus = some b → (s.berth x).plug = .none →
    (s.berth x).session = .empty ∨ (s.berth x).session = .connected ∨ (s.berth x).session = .serving ∨
      (s.berth x).session = .faulted →
    let t := plugRule x s
    let current := s.runs.active.find? (·.unfinishedOf b)
    let moved (state : RunState) (r : Run) : List Run :=
      s.runs.active.map fun q => if q.runId = r.runId then { q with state := state, reason := none } else q
    let v := if (s.berth x).session = .serving then
        supersede x (entryTag (s.entryOf x)) (supersede x (queuedTag (s.queuedOf x)) s) else s
    (t.berth x).bus = none ∧ (t.fleetBus b).berth = none ∧ { t.runs with active := s.runs.active } = s.runs ∧
    ((∀ r, current = some r → r.state.live = false) → t.runs = s.runs ∧ t.link = v.link) ∧
    (∀ r, current = some r → r.state.live = true →
      let window : Prop :=
        s.link.clockSet = true ∧ r.departure * 60 ≤ s.link.second + 2700 ∧ s.link.second < r.departure * 60 + 900
      (window → t.runs.active = rederiveFrom b false (moved .departed r) ∧
        t.link = (notify (.runDeparted r.runId b s.link.second) v).link) ∧
      (¬ window → t.link = v.link ∧ t.runs.active = if r.state = .assigned then s.runs.active else moved .assigned r)))

/-- R7, R16, R17, R18, R21, R22, R38, R54: a STATUS hands its entries to their berths one after another, each entry in the order session
and tag, stored energy, detectors. A tag that names no used bus drops the association with a TAG_UNKNOWN notice; one that names a bus
takes it, with a TAG_CONFLICT notice where another berth had it. In CONNECTED or SERVING a changed tag is resolved again (Log 37), and a
berth left without a bus takes a free one whose tag it reports. The estimate of the berth's bus is written from the SoC, with the clock's
second. COMPLETE sets DONE at a SERVING berth, with a notice where it was clear; another plug state clears a DONE that COMPLETE set. After
the entries the setpoint work they all made takes ages in ascending berth number, newer than all work from before (Log 60). (Two berths of
one outlet: Log 14; on entry to SERVING no commanded value is written: Log 40; the estimate's stamp is the second the clock holds also
while the clock is unset: Log 42.) -/
def Obligations.StatusResolvesTagsAndEnergy : Prop :=
  (∀ (s : State) k c corrupt record body, s.Live → s.bus.line = .surveySlot k c corrupt → s.cabinet? c = some record →
    statusValid record.outlets.length body = true →
    let v := ageByBerth s.path.nextAge ((statusEntries body).foldl (fun u e => (((List.range 36).filter fun x => (u.berth x).configured &&
      decide ((u.berth x).cabinet = some c)).filter fun x => decide ((u.berth x).outlet = some e.outlet)).foldl
        (fun u x => reportBerth x e u) u) (slotOutcome c 0 false s))
    exec (.status c body) s =
      .next (nextSlot k c { v with link := { v.link with slots := v.link.slots.set (c - 1) ⟨body, true⟩ } })) ∧
  (∀ (s : State) first, ∃ created, ageByBerth first s = { s with path := { s.path with
      list := (s.path.list.filter fun e => decide (e.age < first)) ++ created } } ∧
    (created.map fun e => { e with age := 0 }).Perm
      ((s.path.list.filter fun e => decide (first ≤ e.age)).map fun e => { e with age := 0 }) ∧
    (created.Pairwise fun a b => a.berth ≤ b.berth ∧ a.age < b.age) ∧
    ∀ e ∈ created, first ≤ e.age ∧ e.age < first + created.length) ∧
  (∀ (s : State) x (e : StatusEntry), reportBerth x e s =
    detectFaults x e.trip e.isolation e.contactor (storeEnergy x (s.berth x).session
      (reportDone x (tagRules x (s.berth x).tag (plugRule x (s.editBerth x (·.report e))))))) ∧
  (∀ (s : State) b x, x < s.berths.length → 1 ≤ b → b ≤ s.fleet.length → associate b x s = { s with
    berths := s.berths.set x { s.berth x with bus := some b }
    fleet := s.fleet.set (b - 1) { s.fleetBus b with berth := some x } }) ∧
  (∀ (s : State) x, s.Associated → x < 36 →
    let tag := (s.berth x).tag
    let plugged : Prop := (s.berth x).session = .connected ∨ (s.berth x).session = .serving
    let names (b : Nat) : Prop := tag ≠ 0 ∧ (s.fleetBus b).used = true ∧ (s.fleetBus b).tag = tag
    let first (b : Nat) : Prop := names b ∧ ∀ c, c < b → ¬ names c
    ((s.berth x).bus = none → dissociate x s = s) ∧
    (∀ b, (s.berth x).bus = some b → dissociate x s = { s with
      berths := s.berths.set x { s.berth x with bus := none }
      fleet := s.fleet.set (b - 1) { s.fleetBus b with berth := none } }) ∧
    ((∀ b, ¬ names b) → resolveTag x s = notify (.tagUnknown x tag) (dissociate x s)) ∧
    (∀ b, first b → (s.fleetBus b).berth = some x → resolveTag x s = s) ∧
    (∀ b, first b → (s.fleetBus b).berth = none → resolveTag x s = associate b x (dissociate x s)) ∧
    (∀ b y, first b → (s.fleetBus b).berth = some y → y ≠ x →
      resolveTag x s = notify (.tagConflict x b y tag) (associate b x (dissociate y (dissociate x s)))) ∧
    (∀ old, (¬ plugged → tagRules x old s = s) ∧
      (plugged → tagRules x old s = reassociate x (if tag = old then s else resolveTag x s))) ∧
    ((s.berth x).bus ≠ none ∨ (∀ b, ¬ names b) → reassociate x s = s) ∧
    (∀ b, (s.berth x).bus = none → first b → (s.fleetBus b).berth ≠ none → reassociate x s = s) ∧
    (∀ b, (s.berth x).bus = none → first b → (s.fleetBus b).berth = none → reassociate x s = associate b x s) ∧
    ((s.berth x).session = .empty → (s.berth x).plug ≠ .none →
      let u := resolveTag x (s.editBerth x fun b => { b with session := .connected })
      plugRule x s = if (s.berth x).plug = .ready then u.editBerth x fun b => { b with session := .serving, setpoint := .idle }
        else u) ∧
    (∀ before n soc, (s.berth x).bus = some n → (s.berth x).soc = some soc → (s.berth x).coupling ≠ .follower →
      before = .connected ∨ before = .serving ∨ plugged →
      storeEnergy x before s = { s with
        fleet := s.fleet.set (n - 1)
          { s.fleetBus n with stored := some ((s.fleetBus n).capacity * soc / 1000), stamp := some s.link.second } }) ∧
    (∀ before, (s.berth x).bus = none ∨ (s.berth x).soc = none ∨ (s.berth x).coupling = .follower ∨
      ¬ (before = .connected ∨ before = .serving ∨ plugged) → storeEnergy x before s = s) ∧
    ((s.berth x).session ≠ .serving → reportDone x s = s) ∧
    ((s.berth x).session = .serving →
      let complete : State := { s with berths := s.berths.set x { s.berth x with done := true, doneByComplete := true } }
      ((s.berth x).plug = .complete → (s.berth x).done = true → reportDone x s = complete) ∧
      ((s.berth x).plug = .complete → (s.berth x).done = false →
        reportDone x s = notify (.berthDone x (s.berth x).bus (s.berth x).soc) complete) ∧
      ((s.berth x).plug ≠ .complete → (s.berth x).doneByComplete = false → reportDone x s = s) ∧
      ((s.berth x).plug ≠ .complete → (s.berth x).doneByComplete = true → reportDone x s =
        { s with berths := s.berths.set x { s.berth x with done := false, doneByComplete := false } })))

/-- R151, R152, R153, R154, R155: in the watched session states the detectors of a STATUS entry run in the order OVERCURRENT, OPEN_PATH,
ISOLATION (Log 17), each left alone by a latched flag; in the others they start afresh (Log 16). OVERCURRENT latches on a trip, or on the
second report in a row above the commanded value by more than 20 steps and a tenth; OPEN_PATH on the fifth in a row without power behind a
closed contactor; ISOLATION at once. A latch sets the flag, takes the session of the berth, or of a FOLLOWER's leader, to FAULTED with its
setpoint work withdrawn, and is reported with one BERTH_FAULT notice. R10, R11, R156: where that berth is in another state, as a leader
already FAULTED or DISABLED, the flag is set and reported and no session moves; the same for a FOLLOWER that no configured LEADER names,
which the notice names as the berth carrying its session (Log 13). (A trip leaves the OVERCURRENT count as it was: Log 59.) -/
def Obligations.DetectorsLatchFaults : Prop :=
  (∀ (s : State) x trip isolation contactor, s.berths.length = 36 → x < 36 →
    let b := s.berth x
    let counted (f : FaultCounters) : State := { s with berths := s.berths.set x { b with counters := f } }
    let watched : Prop := b.session = .empty ∨ b.session = .connected ∨ b.session = .serving ∨ b.session = .follower
    let excess : Prop := b.commanded.natAbs + max 20 (b.commanded.natAbs / 10) < b.measured.natAbs
    let still : Prop := 50 ≤ b.commanded.natAbs ∧ 50 ≤ b.confirmed.natAbs ∧ contactor = true ∧ s.inFlightFor x = false ∧
      (∃ n, b.confirmAge = some n ∧ 10 ≤ n) ∧ b.measured.natAbs < 5
    (watched → detectFaults x trip isolation contactor s =
      detectIsolation x isolation (detectOpenPath x contactor (detectOvercurrent x trip s))) ∧
    (¬ watched → detectFaults x trip isolation contactor s = counted { b.counters with
      overcurrent := if b.flags.overcurrent = true then b.counters.overcurrent else 0
      openPath := if b.flags.openPath = true then b.counters.openPath else 0
      isolation := if b.flags.isolation = true then b.counters.isolation else 0 }) ∧
    (b.flags.overcurrent = true → detectOvercurrent x trip s = s) ∧
    (b.flags.overcurrent = false → (trip = true → detectOvercurrent x trip s = latchFault x .overcurrent s) ∧
      (trip = false → ¬ excess → detectOvercurrent x trip s = counted { b.counters with overcurrent := 0 }) ∧
      (trip = false → excess → b.counters.overcurrent = 0 →
        detectOvercurrent x trip s = counted { b.counters with overcurrent := 1 }) ∧
      (trip = false → excess → 1 ≤ b.counters.overcurrent →
        detectOvercurrent x trip s = latchFault x .overcurrent (counted { b.counters with overcurrent := 2 }))) ∧
    (b.flags.openPath = true → detectOpenPath x contactor s = s) ∧
    (b.flags.openPath = false → (¬ still → detectOpenPath x contactor s = counted { b.counters with openPath := 0 }) ∧
      (still → b.counters.openPath < 4 →
        detectOpenPath x contactor s = counted { b.counters with openPath := b.counters.openPath + 1 }) ∧
      (still → 4 ≤ b.counters.openPath →
        detectOpenPath x contactor s = latchFault x .openPath (counted { b.counters with openPath := 5 }))) ∧
    (b.flags.isolation = true → detectIsolation x isolation s = s) ∧
    (b.flags.isolation = false →
      (isolation = true → detectIsolation x isolation s = latchFault x .isolation (counted { b.counters with isolation := 1 })) ∧
      (isolation = false → detectIsolation x isolation s = counted { b.counters with isolation := 0 }))) ∧
  (∀ (s : State) l x flag, s.berths.length = 36 → l < 36 → x < 36 → (s.berth l).coupling ≠ .follower → (s.berth l).configured = true →
    x = l ∨ s.PairedWith l x →
    (s.berth l).session = .empty ∨ (s.berth l).session = .connected ∨ (s.berth l).session = .serving →
    let old := s.berth l
    ∃ u, latchFault x flag s = notify (.berthFault x flag l old.bus (s.berth x).measured) u ∧ s.OnlySessions u ∧
      u.runs = s.runs ∧ u.fleet = s.fleet ∧ u.faults = s.faults ∧
      u.link = (supersede l (entryTag (s.entryOf l)) (supersede l (queuedTag (s.queuedOf l)) s)).link ∧
      (∀ y, y ≠ l → y ≠ x → u.berth y = s.berth y) ∧ (u.berth x).flags = (s.berth x).flags.latch flag ∧
      (u.berth l).session = .faulted ∧ (u.berth l).setpoint = .idle ∧ (u.berth l).bus = old.bus ∧
      (u.berth l).commanded = old.commanded ∧ u.queuedOf l = none ∧ State.OtherWorkKept l s u ∧
      (u.entryOf l = if s.commandedNonzero l = true then some ⟨l, 0, s.path.nextAge, none⟩ else none) ∧
      (x ≠ l → u.berth x = { s.berth x with flags := (s.berth x).flags.latch flag } ∧ (u.berth l).flags = old.flags) ∧
      (old.session = .serving → (u.berth l).grant = 0 ∧ (u.berth l).request = none ∧ (u.berth l).done = false ∧
        (u.berth l).doneByComplete = false ∧ (u.berth l).projectedShort = false ∧
        u.bus = { s.bus with line := markLeft l s.bus.line }) ∧
      (old.session ≠ .serving → (u.berth l).grant = old.grant ∧ (u.berth l).request = old.request ∧ u.bus = s.bus)) ∧
  (∀ (s : State) x flag, s.berths.length = 36 → x < 36 → (s.berth x).configured = true →
    let flagged (y : Nat) : State := notify (.berthFault x flag y (s.berth y).bus (s.berth x).measured)
      { s with berths := s.berths.set x { s.berth x with flags := (s.berth x).flags.latch flag } }
    (∀ l, (x = l ∧ (s.berth x).coupling ≠ .follower) ∨ ((s.berth l).configured = true ∧ s.PairedWith l x) →
      (s.berth l).session ≠ .empty → (s.berth l).session ≠ .connected → (s.berth l).session ≠ .serving →
      latchFault x flag s = flagged l) ∧
    ((s.berth x).coupling = .follower → (∀ l, (s.berth l).configured = true → ¬ s.PairedWith l x) →
      latchFault x flag s = flagged x))

/-- R27, R33, R36, R41, R44, R46, R140, R141: received frames that are discarded. The berth bus receiver drops bytes up to a lead byte
and holds a frame that is still incomplete; a discarded frame ends nothing, and in a survey slot makes the outcome corrupt, be it of
another cabinet or kind or a STATUS of the slot's own cabinet that is not valid. A meter frame that is abandoned, damaged, invalid or
a duplicate has no effect but on the framer, which after a CRC failure hunts again from the byte after that frame's lead byte. (Where
the berth bus hunts on: Log 46; any discarded frame makes the slot corrupt: Log 39; events that do not arise: Log 2.) -/
def Obligations.DiscardedFramesEndNothing : Prop :=
  let unfit (s : State) (c : Nat) (body : List Byte) : Prop :=
    ∀ record, s.cabinet? c = some record → statusValid record.outlets.length body = false
  ((∀ bytes : List Byte, (∀ b ∈ bytes, b ≠ 0xD2) → busComplete bytes = [] ∧ busIncomplete bytes = []) ∧
    (∀ (noise : List Byte) rest, (∀ b ∈ noise, b ≠ 0xD2) → rest.length < 2 →
      busComplete (noise ++ 0xD2 :: rest) = [] ∧ busIncomplete (noise ++ 0xD2 :: rest) = 0xD2 :: rest) ∧
    (∀ (noise : List Byte) (addr len : Byte) rest, (∀ b ∈ noise, b ≠ 0xD2) →
      let bytes := noise ++ 0xD2 :: addr :: len :: rest
      (rest.length < len.toNat + 2 → busComplete bytes = [] ∧ busIncomplete bytes = 0xD2 :: addr :: len :: rest) ∧
      (len.toNat + 2 ≤ rest.length →
        busComplete bytes = (0xD2 :: addr :: len :: rest.take (len.toNat + 2)) :: busComplete (rest.drop (len.toNat + 2)) ∧
        busIncomplete bytes = busIncomplete (rest.drop (len.toNat + 2))))) ∧
  ((∀ (lead addr len : Byte) rest, busFrameFields (lead :: addr :: len :: rest) = none ↔
      lead ≠ 0xD2 ∨ 40 < len.toNat ∨ rest.length ≠ len.toNat + 2 ∨
        rest.drop len.toNat ≠ crcBytes (addr :: len :: rest.take len.toNat)) ∧
    (∀ kind cabinet body, kind < 8 → cabinet < 32 → body.length ≤ 40 →
      busFrameFields (busFrame kind cabinet body) = some (kind, cabinet, body)) ∧
    (∀ (s : State) bytes k c b, s.Live → s.bus.line = .surveySlot k c b →
      busFrameFields bytes = none ∨
        (∃ kind cabinet body, busFrameFields bytes = some (kind, cabinet, body) ∧ (kind ≠ 1 ∨ cabinet ≠ c ∨ unfit s c body)) →
      exec (.berthBusFrameDiscarded bytes) s = .next { s with bus := { s.bus with
        rx := busIncomplete bytes, line := .surveySlot k c (b || decide (busComplete bytes ≠ [])) } }) ∧
    (∀ (s : State) cabinet body k c b f, s.Live → s.bus.line = .surveySlot k c b →
      (f = .status cabinet body ∧ (cabinet ≠ c ∨ unfit s c body)) ∨ f = .ack cabinet body ∨ f = .passAnswer cabinet body ∨
        f = .enrollReport cabinet body →
      exec f s = .next { s with bus := { s.bus with rx := [], line := .surveySlot k c true } }) ∧
    (∀ (s : State) cabinet body bytes, s.Live → (∀ k c b, s.bus.line ≠ .surveySlot k c b) →
      let heard (rx : List Byte) : Host.Outcome State Fault Refusal := .next { s with bus := { s.bus with rx := rx } }
      (busFrameFields bytes = none ∨ (∃ kind source held, busFrameFields bytes = some (kind, source, held) ∧
          (kind = 3 → ∀ tx, s.bus.line ≠ .setpointAck tx) ∧ (kind = 5 → s.bus.line ≠ .enrollReply source) ∧
          (kind = 6 → ∀ f, s.bus.line = .passAck f → f.cabinet ≠ some source)) →
        exec (.berthBusFrameDiscarded bytes) s = heard (busIncomplete bytes)) ∧
      (∃ rx, exec (.berthBusFrameDiscarded bytes) s = heard rx) ∧ exec (.status cabinet body) s = heard [] ∧
      ((∀ tx, s.bus.line ≠ .setpointAck tx) → exec (.ack cabinet body) s = heard []) ∧
      ((∀ f, s.bus.line = .passAck f → f.cabinet ≠ some cabinet) → exec (.passAnswer cabinet body) s = heard []) ∧
      (s.bus.line ≠ .enrollReply cabinet → exec (.enrollReport cabinet body) s = heard []))) ∧
  (∀ (s : State) bytes, s.Live →
    exec (.meterFrameGapAbandon bytes) s = .next { s with meter := { s.meter with rx := [] } } ∧
    exec .meterSampleInvalidFlag s = .next { s with meter := { s.meter with rx := [] } } ∧
    exec .meterSampleDuplicate s = .next { s with meter := { s.meter with rx := [] } } ∧
    ((∀ b ∈ bytes.tail, b ≠ 0xB4) → exec (.meterFrameCrcFail bytes) s = .next { s with meter := { s.meter with rx := [] } })) ∧
  (∀ (s : State) lead before after, s.Live → (∀ b ∈ before, b ≠ 0xB4) → after.length < 9 →
    exec (.meterFrameCrcFail (lead :: (before ++ 0xB4 :: after))) s =
      .next { s with meter := { s.meter with rx := 0xB4 :: after } }) ∧
  (∀ (s : State) sample, s.Live → s.meter.lastSequence = some sample.sequence →
    exec (.meterSampleAccepted sample) s = .next s)

/-! ## Setpoints on the line -/

/-- R25, R39, R40, R55, R56: with the line free, no enrollment waiting and no survey due, the oldest reduction leaves the list, or
else the oldest entry (the list stands in order of age: SetpointPathStaysOrdered). It is sent at the value of that moment: 0 unless
the berth is SERVING and ACTIVE, never past the grant or across zero, and split in two for a pair, to the berth's cabinet. R3: the
trim of a map change is sent with 0 to the cabinet and outlets it was made for. (Line not free: Log 2; the trim of a map change: Log
15.) -/
def Obligations.SetpointsAreChosenAndValued : Prop :=
  (∀ (s : State), s.Live → s.bus.line ≠ .idle ∨ s.bus.enrollWaiting = true ∨ s.bus.surveyDue = true ∨ s.path.list = [] →
    exec .setpointDequeue s = .next s) ∧
  (∀ (s : State), s.Live → s.bus.line = .idle → s.bus.enrollWaiting = false → s.bus.surveyDue = false → s.path.list ≠ [] →
    ∃ e before after, s.path.list = before ++ e :: after ∧
      (s.isReduction e = true ∧ (∀ q ∈ before, s.isReduction q = false) ∨
        (∀ q ∈ s.path.list, s.isReduction q = false) ∧ before = []) ∧
      exec .setpointDequeue s = .next { s with
        bus := { s.bus with
          line := .setpointSending (s.setpointOf e)
          busTx := busFrame 2 (s.setpointOf e).cabinet (setpointBody (s.setpointOf e).shares) }
        path := { s.path with list := s.path.list.filter fun q => decide (q ≠ e) } }) ∧
  (∀ (s : State) e,
    (s.isReduction e = true ↔ e.old.isSome = true ∨ (s.entryValue e).natAbs < (s.pairCommanded e.berth).natAbs ∨
      (s.entryValue e).natAbs < (s.pairConfirmed e.berth).natAbs) ∧
    ((s.berth e.berth).session ≠ .serving ∨ (s.berth e.berth).setpoint ≠ .active ∨ e.old.isSome = true →
      s.entryValue e = 0) ∧
    ((s.berth e.berth).session = .serving → (s.berth e.berth).setpoint = .active → e.old = none →
      (s.target e.berth * s.pairCommanded e.berth < 0 → s.entryValue e = 0) ∧
      (0 ≤ s.target e.berth * s.pairCommanded e.berth → s.entryValue e = s.target e.berth)) ∧
    (((∀ r, (s.berth e.berth).request = some r → 0 ≤ r.value) →
      (0 ≤ s.entryValue e ∧ s.entryValue e ≤ max 0 (s.berth e.berth).grant) ∨
        (s.entryValue e = (s.berth e.berth).grant ∧ (s.berth e.berth).grant < 0))) ∧
    (e.old = none → s.setpointOf e = ⟨e.berth, e.tag, e.age, s.entryValue e, (s.berth e.berth).cabinet.getD 0,
      (s.setpointOf e).shares, false, false, false⟩) ∧
    (∀ a, e.old = some a →
      s.setpointOf e = ⟨e.berth, e.tag, e.age, 0, a.cabinet, a.outlets.map fun o => ⟨o, 0, none⟩, true, true, false⟩) ∧
    (e.old = none → s.followerOf e.berth = none → (s.setpointOf e).shares =
      [⟨(s.berth e.berth).outlet.getD 0, s.entryValue e, some e.berth⟩]) ∧
    (∀ p, e.old = none → s.followerOf e.berth = some p → ∃ a b : Int, a + b = s.entryValue e ∧
      (a - b = 0 ∨ a - b = 1 ∧ 0 < s.entryValue e ∨ a - b = -1 ∧ s.entryValue e < 0) ∧ (s.setpointOf e).shares =
        [⟨(s.berth e.berth).outlet.getD 0, a, some e.berth⟩, ⟨(s.berth p).outlet.getD 0, b, some p⟩]))

/-- R3, R40, R56, R64: when a SETPOINT has been sent whole the ack window opens, the value of each outlet is commanded at its berth and
the berth is in flight. A value of 0 makes the berth IDLE, and in SERVING with a target it joins the start queue; behind another value the
zero trim follows where the berth has left SERVING meanwhile, one for a pair. The trim of a map change, and a SETPOINT whose berth has
changed on the map, write no commanded value; behind the latter a trim at its old address follows a value other than 0, and the berth's
own work waits for it. When such a trim has gone, the work that waited makes its entry. (No trim of the berth on the list but for a map
change: SetpointPathStaysOrdered. Nothing being sent: Log 2; the receiver emptied as the window opens: Log 57; a map change: Log 15; the
in-flight flag of a FOLLOWER: Log 65.) -/
def Obligations.SentSetpointsAreCommanded : Prop :=
  ∀ (s : State), s.Live →
    ((∀ tx, s.bus.line ≠ .setpointSending tx) → exec .setpointSent s = .next s) ∧
    (∀ tx x o, s.bus.line = .setpointSending tx → tx.trim = false → tx.detached = false → tx.berth = x →
      tx.shares = [⟨o, tx.value, some x⟩] → x < s.berths.length → s.trimWaits x = false →
      let sent : State := { s with bus := { s.bus with line := .setpointAck tx, rx := [] } }
      let commanded := s.berths.set x { s.berth x with commanded := tx.value, inFlight := true }
      (tx.value ≠ 0 → tx.left = false ∨ (s.berth x).session = .serving ∨ s.entryOf x ≠ none →
        exec .setpointSent s = .next { sent with berths := commanded }) ∧
      (tx.value ≠ 0 → tx.left = true → (s.berth x).session ≠ .serving → s.entryOf x = none →
        exec .setpointSent s = .next { sent with
          berths := commanded
          path := { s.path with
            list := s.path.list ++ [⟨x, 0, s.path.nextAge, none⟩], nextAge := s.path.nextAge + 1 } }) ∧
      (tx.value = 0 → (s.berth x).session ≠ .serving ∨ s.target x = 0 → s.queuedOf x = none →
        exec .setpointSent s = .next { sent with
          berths := s.berths.set x { s.berth x with commanded := 0, inFlight := true, setpoint := .idle } }) ∧
      (tx.value = 0 → (s.berth x).session = .serving → s.target x ≠ 0 → s.followerOf x = none → s.queuedOf x = none →
        exec .setpointSent s = .next { sent with
          berths := s.berths.set x { s.berth x with commanded := 0, inFlight := true, setpoint := .startQueued }
          path := { s.path with
            list := s.path.list.filter fun e => !e.ownOf x
            waiting := s.path.waiting.filter fun e => !e.ownOf x
            queue := s.path.queue ++ [⟨x, entryTag (s.entryOf x)⟩] } })) ∧
    (∀ tx x p o q v w, s.bus.line = .setpointSending tx → tx.trim = false → tx.detached = false → tx.berth = x →
      x ≠ p → tx.shares = [⟨o, v, some x⟩, ⟨q, w, some p⟩] → x < s.berths.length → p < s.berths.length →
      s.trimWaits x = false →
      let sent (setpoint : SetpointState) : State := { s with
        bus := { s.bus with line := .setpointAck tx, rx := [] }
        berths := (s.berths.set x { s.berth x with commanded := v, inFlight := true, setpoint := setpoint }).set p
          { s.berth p with commanded := w } }
      (tx.value ≠ 0 → tx.left = false ∨ (s.berth x).session = .serving ∨ s.entryOf x ≠ none →
        exec .setpointSent s = .next (sent (s.berth x).setpoint)) ∧
      (tx.value ≠ 0 → tx.left = true → (s.berth x).session ≠ .serving → s.entryOf x = none →
        v ≠ 0 ∨ (s.followerOf x = some p ∧ w ≠ 0) →
        exec .setpointSent s = .next { sent (s.berth x).setpoint with path := { s.path with
          list := s.path.list ++ [⟨x, 0, s.path.nextAge, none⟩], nextAge := s.path.nextAge + 1 } }) ∧
      (tx.value = 0 → v = 0 → w = 0 → s.queuedOf x = none →
        ((s.berth x).session ≠ .serving ∨ s.target x = 0 → exec .setpointSent s = .next (sent .idle)) ∧
        ((s.berth x).session = .serving → s.target x ≠ 0 → s.followerOf x = some p →
          exec .setpointSent s = .next { sent .startQueued with path := { s.path with
            list := s.path.list.filter fun e => !e.ownOf x
            waiting := s.path.waiting.filter fun e => !e.ownOf x
            queue := s.path.queue ++ [⟨x, entryTag (s.entryOf x)⟩] } }))) ∧
    (∀ tx, s.bus.line = .setpointSending tx → tx.trim = false → tx.detached = true → (∀ h ∈ tx.shares, h.berth = none) →
      let sent : State := { s with
        bus := { s.bus with line := .setpointAck tx, rx := [] }
        berths := s.berths.set tx.berth { s.berth tx.berth with inFlight := true } }
      (tx.value = 0 ∨ s.trimWaits tx.berth = true → exec .setpointSent s = .next sent) ∧
      (tx.value ≠ 0 → s.trimWaits tx.berth = false → exec .setpointSent s = .next { sent with
        berths := s.berths.set tx.berth { s.berth tx.berth with
          inFlight := true, setpoint := if (s.queuedOf tx.berth).isSome = true then .idle else (s.berth tx.berth).setpoint }
        path := { s.path with
          list := (s.path.list.filter fun e => !e.ownOf tx.berth) ++
            [⟨tx.berth, 0, s.path.nextAge, some ⟨tx.cabinet, tx.shares.map (·.outlet)⟩⟩]
          waiting := s.path.waiting ++ s.path.list.filter (·.ownOf tx.berth) ++
            (s.queuedOf tx.berth).toList.map fun q => ⟨tx.berth, q.tag, s.path.nextAge, none⟩
          queue := s.path.queue.filter fun q => decide (q.berth ≠ tx.berth)
          nextAge := s.path.nextAge + 1 } })) ∧
    (∀ tx, s.bus.line = .setpointSending tx → tx.trim = true → (∀ h ∈ tx.shares, h.berth = none) →
      let sent : State := { s with
        bus := { s.bus with line := .setpointAck tx, rx := [] }
        berths := s.berths.set tx.berth { s.berth tx.berth with inFlight := true } }
      let others := s.path.waiting.filter fun e => !e.ownOf tx.berth
      (s.path.waiting.find? (·.ownOf tx.berth) = none → exec .setpointSent s = .next sent) ∧
      (∀ e, s.path.waiting.find? (·.ownOf tx.berth) = some e →
        let entry : Entry := ⟨tx.berth, e.tag, s.path.nextAge, none⟩
        exec .setpointSent s = .next { sent with path := { s.path with
          list := if s.trimWaits tx.berth = true then s.path.list else s.path.list ++ [entry]
          waiting := if s.trimWaits tx.berth = true then others ++ [entry] else others
          nextAge := s.path.nextAge + 1 } }))

/-- R41, R65, R27: an ACK from the cabinet addressed, naming exactly the outlets of the SETPOINT with results up to 2, ends the
transaction: confirmed takes the accepted values whatever the results, in flight ends, the NO_CONFIRM count returns to 0, and a tag is
answered with SET_ACK, the pair's values added and its worse result given. Any other ACK is discarded and leaves the window as it was.
R3: the ACK of the trim of a map change, or of a SETPOINT that a map change has overtaken, ends the transaction in the same way and
writes no confirmed field of a berth whose map entry has changed. (The fields of the transaction itself: Log 15; those of a
FOLLOWER: Log 65.) (A sum that two signed bytes do not hold: Log 45.) -/
def Obligations.AcknowledgementsConfirm : Prop :=
  (∀ sum : Int, -32768 ≤ sum → sum ≤ 32767 → ackValue sum = sum) ∧
  ∀ (s : State) tx, s.Live → s.bus.line = .setpointAck tx →
    let x := tx.berth
    let result (r : Nat) : SetResult := if r = 2 then .refused else if r = 1 then .limited else .accepted
    let acked (value : Int) (r : Nat) (t : State) : Host.Outcome State Fault Refusal :=
      .next (if tx.tag = 0 then t else answer (.setAck (1 + x) tx.tag value (result r)) t)
    let ended (value : Int) : Berth := { s.berth x with
      confirmed := value, confirmAge := some 0, inFlight := false, counters := { (s.berth x).counters with noConfirm := 0 } }
    let idle : State := { s with bus := { s.bus with line := .idle, rx := [] } }
    (∀ cabinet body, cabinet ≠ tx.cabinet ∨ body.length ≠ 4 * tx.shares.length ∨
        (∃ h ∈ tx.shares, ∀ e ∈ ackEntries body, e.outlet ≠ h.outlet) ∨
        (∃ e ∈ ackEntries body, 2 < e.result ∨ ∀ h ∈ tx.shares, h.outlet ≠ e.outlet) →
      exec (.ack cabinet body) s = .next { s with bus := { s.bus with rx := [] } }) ∧
    (∀ (o r hi lo : Byte) v, tx.shares = [⟨o.toNat, v, some x⟩] → r.toNat ≤ 2 → x < s.berths.length →
      exec (.ack tx.cabinet [o, r, hi, lo]) s =
        acked (steps16 hi lo) r.toNat { idle with berths := s.berths.set x (ended (steps16 hi lo)) }) ∧
    (∀ (o q r1 r2 h1 l1 h2 l2 : Byte) p v w, tx.shares = [⟨o.toNat, v, some x⟩, ⟨q.toNat, w, some p⟩] → o ≠ q → x ≠ p →
      r1.toNat ≤ 2 → r2.toNat ≤ 2 → x < s.berths.length → p < s.berths.length →
      let other : Berth := { s.berth p with confirmed := steps16 h2 l2, confirmAge := some 0 }
      let pair : State := { idle with berths := (s.berths.set x (ended (steps16 h1 l1))).set p other }
      exec (.ack tx.cabinet [o, r1, h1, l1, q, r2, h2, l2]) s =
        acked (ackValue (steps16 h1 l1 + steps16 h2 l2)) (max r1.toNat r2.toNat) pair ∧
      exec (.ack tx.cabinet [q, r2, h2, l2, o, r1, h1, l1]) s =
        acked (ackValue (steps16 h1 l1 + steps16 h2 l2)) (max r1.toNat r2.toNat) pair) ∧
    (let quiet : Berth := { s.berth x with inFlight := false, counters := { (s.berth x).counters with noConfirm := 0 } }
     let kept : State := { idle with berths := s.berths.set x quiet }
     (∀ (o r hi lo : Byte) v, tx.shares = [⟨o.toNat, v, none⟩] → r.toNat ≤ 2 → x < s.berths.length →
       exec (.ack tx.cabinet [o, r, hi, lo]) s = acked (steps16 hi lo) r.toNat kept) ∧
     (∀ (o q r1 r2 h1 l1 h2 l2 : Byte) (own : Option Nat) v w, own = none ∨ own = some x →
       tx.shares = [⟨o.toNat, v, own⟩, ⟨q.toNat, w, none⟩] → o ≠ q → r1.toNat ≤ 2 → r2.toNat ≤ 2 → x < s.berths.length →
       let after : State := if own = none then kept else { idle with berths := s.berths.set x (ended (steps16 h1 l1)) }
       exec (.ack tx.cabinet [o, r1, h1, l1, q, r2, h2, l2]) s =
         acked (ackValue (steps16 h1 l1 + steps16 h2 l2)) (max r1.toNat r2.toNat) after ∧
       exec (.ack tx.cabinet [q, r2, h2, l2, o, r1, h1, l1]) s =
         acked (ackValue (steps16 h1 l1 + steps16 h2 l2)) (max r1.toNat r2.toNat) after))

/-- R42, R66, R154, R155: an ack window that expires frees the line, ends in flight, keeps commanded and confirmed, answers a tag
NO_CONFIRM and counts to at most 3. Below 3 a configured berth with no entry on the list, its own or the trim of a map change, no work
that waits and no place in the queue has a fresh untagged entry made; at 3 NO_CONFIRM latches on a watched berth, which leaves its
session FAULTED. In any other session state, or with the flag latched already, the counter stays at 3 and nothing more happens. (No
window open: Log 2; no fresh entry for an unconfigured berth or a FOLLOWER, and after a map change's trim the berth's own: Log 31; a
berth that is a FOLLOWER by then is counted and not reported: Log 65.) -/
def Obligations.MissingAcknowledgementsAreCounted : Prop :=
  (∀ (s : State), s.Live → (∀ tx, s.bus.line ≠ .setpointAck tx) → exec .ackWindowExpiry s = .next s) ∧
  (∀ (s : State) tx, s.Live → s.bus.line = .setpointAck tx → tx.berth < s.berths.length →
    let x := tx.berth
    let n := (s.berth x).counters.noConfirm + 1
    let answered (t : State) : State := if tx.tag = 0 then t else reply (1 + x) tx.tag .noConfirm .none t
    let counted : State := { s with
      bus := { s.bus with line := .idle, rx := [] }
      berths := s.berths.set x { s.berth x with inFlight := false, counters := { (s.berth x).counters with noConfirm := min 3 n } } }
    let fresh : Prop := (∀ e ∈ s.path.list, e.berth ≠ x) ∧ s.entryOf x = none ∧ s.queuedOf x = none ∧ (s.berth x).configured = true ∧
      (s.berth x).coupling ≠ .follower
    (n < 3 → fresh → exec .ackWindowExpiry s = .next (answered { counted with path := { s.path with
      list := s.path.list ++ [⟨x, 0, s.path.nextAge, none⟩], nextAge := s.path.nextAge + 1 } })) ∧
    (n < 3 → ¬ fresh → exec .ackWindowExpiry s = .next (answered counted)) ∧
    (3 ≤ n → (s.berth x).flags.noConfirm = true ∨
      ((s.berth x).session ≠ .empty ∧ (s.berth x).session ≠ .connected ∧ (s.berth x).session ≠ .serving) →
      exec .ackWindowExpiry s = .next (answered counted)) ∧
    (3 ≤ n → (s.berth x).coupling ≠ .follower → (s.berth x).flags.noConfirm = false →
      (s.berth x).session = .empty ∨ (s.berth x).session = .connected ∨ (s.berth x).session = .serving →
      ∃ t, exec .ackWindowExpiry s = .next t ∧ (t.berth x).counters.noConfirm = 3 ∧
        (t.berth x).flags = { (s.berth x).flags with noConfirm := true } ∧ (t.berth x).session = .faulted ∧
        (t.berth x).inFlight = false ∧ (t.berth x).commanded = (s.berth x).commanded ∧
        (t.berth x).confirmed = (s.berth x).confirmed ∧ t.queuedOf x = none ∧ State.OthersKept x s t ∧
        ((s.berth x).session = .serving → (t.berth x).grant = 0 ∧ (t.berth x).request = none) ∧
        t.entryOf x = if s.commandedNonzero x = true then some ⟨x, 0, s.path.nextAge, none⟩ else none))

/-- R30, R67: the echo check abandons the frame being sent. A SETPOINT's entry goes back to its place by age with its tag, the abandonment
counting toward NO_CONFIRM, and commanded and in flight as they were; a berth that has left SERVING has the tag answered SUPERSEDED. The
third in a row latches NO_CONFIRM on a watched berth first; one that was in SERVING has thereby left it, another has its entry back at its
place. In any other session state, or with the flag latched already, the counter stays at 3 and only the entry is placed. The trim of a
map change goes back where no later one stands, and the berth's own work made since waits for it; where the third abandonment is that of
such a trim, the zero trim that the latch makes is the work that waits. A PASS is answered NO_CONFIRM; a survey ends and the next is FULL;
FORGET and ASSIGN are sent again; the start-up stop keeps the line. (Counted first, then placed: Log 29; the trim: Log 15; a berth that is
a FOLLOWER by then: Log 65; a PASS's party: Log 61; nothing being sent: Log 2.) -/
def Obligations.AbandonedFramesAreReturned : Prop :=
  ∀ (s : State), s.Live →
    (∀ tx, s.bus.line = .setpointSending tx → tx.berth < s.berths.length →
      (s.berth tx.berth).counters.noConfirm < 2 ∨ (s.berth tx.berth).flags.noConfirm = true ∨
        ((s.berth tx.berth).session ≠ .empty ∧ (s.berth tx.berth).session ≠ .connected ∧ (s.berth tx.berth).session ≠ .serving) →
      let x := tx.berth
      let counted : State := { s with
        bus := { s.bus with line := .idle }
        berths := s.berths.set x { s.berth x with
          counters := { (s.berth x).counters with noConfirm := min 3 ((s.berth x).counters.noConfirm + 1) } } }
      let returned (e : Entry) : Prop := ∀ older newer, s.path.list = older ++ newer → (∀ q ∈ older, q.age ≤ tx.age) →
        (∀ q ∈ newer, tx.age < q.age) →
        exec .echoMismatch s = .next { counted with path := { s.path with list := older ++ e :: newer } }
      (tx.trim = true → s.trimWaits x = false → ∀ older newer,
        (s.path.list.filter fun e => !e.ownOf x) = older ++ newer → (∀ q ∈ older, q.age ≤ tx.age) → (∀ q ∈ newer, tx.age < q.age) →
        exec .echoMismatch s = .next { counted with
          berths := s.berths.set x { s.berth x with
            counters := { (s.berth x).counters with noConfirm := min 3 ((s.berth x).counters.noConfirm + 1) }
            setpoint := if (s.queuedOf x).isSome = true then .idle else (s.berth x).setpoint }
          path := { s.path with
            list := older ++ ⟨x, tx.tag, tx.age, some ⟨tx.cabinet, tx.shares.map (·.outlet)⟩⟩ :: newer
            waiting := s.path.waiting ++ s.path.list.filter (·.ownOf x) ++
              (s.queuedOf x).toList.map fun q => ⟨x, q.tag, s.path.nextAge, none⟩
            queue := s.path.queue.filter fun q => decide (q.berth ≠ x) } }) ∧
      (tx.trim = true → s.trimWaits x = true → exec .echoMismatch s = .next counted) ∧
      (tx.trim = false → tx.left = true → exec .echoMismatch s = .next (supersede x tx.tag counted)) ∧
      (tx.trim = false → tx.left = false → s.trimWaits x = false → s.entryOf x = none → s.queuedOf x = none →
        returned ⟨x, tx.tag, tx.age, none⟩) ∧
      (∀ q, tx.trim = false → tx.left = false → s.queuedOf x = some q →
        (q.tag ≠ 0 → exec .echoMismatch s = .next (supersede x tx.tag counted)) ∧
        (q.tag = 0 → exec .echoMismatch s = .next { counted with path := { s.path with
          queue := s.path.queue.map fun r => if r.berth = x then ⟨x, tx.tag⟩ else r } })) ∧
      (∀ e, tx.trim = false → tx.left = false → s.queuedOf x = none → s.entryOf x = some e →
        ∃ t, exec .echoMismatch s = .next t ∧ t.berths = counted.berths ∧ t.bus = counted.bus ∧
          t.entryOf x = some ⟨x, if e.tag = 0 then tx.tag else e.tag, min e.age tx.age, none⟩ ∧
          t.link = (if e.tag = 0 then s else supersede x tx.tag s).link)) ∧
    (∀ tx, s.bus.line = .setpointSending tx → tx.trim = false → tx.berth < s.berths.length → tx.age < s.path.nextAge →
      2 ≤ (s.berth tx.berth).counters.noConfirm → (s.berth tx.berth).coupling ≠ .follower →
      (s.berth tx.berth).flags.noConfirm = false → (s.berth tx.berth).session = .empty ∨
        (s.berth tx.berth).session = .connected ∨ (s.berth tx.berth).session = .serving →
      let x := tx.berth
      ∃ t, exec .echoMismatch s = .next t ∧ t.bus.line = .idle ∧ (t.berth x).counters.noConfirm = 3 ∧
        (t.berth x).flags = { (s.berth x).flags with noConfirm := true } ∧ (t.berth x).session = .faulted ∧
        (t.berth x).commanded = (s.berth x).commanded ∧ (t.berth x).confirmed = (s.berth x).confirmed ∧
        (t.berth x).inFlight = (s.berth x).inFlight ∧ State.OthersKept x s t ∧ t.queuedOf x = none ∧
        ((s.berth x).session = .serving ∨ tx.left = true →
          t.entryOf x = if s.commandedNonzero x = true then some ⟨x, 0, s.path.nextAge, none⟩ else none) ∧
        ((s.berth x).session ≠ .serving → tx.left = false → t.entryOf x = some ⟨x, tx.tag, tx.age, none⟩) ∧
        ∃ u, u.link = (supersede x (entryTag (s.entryOf x)) (supersede x (queuedTag (s.queuedOf x)) s)).link ∧
          u.faults = s.faults ∧ (u.berth x).noticeEnable = (s.berth x).noticeEnable ∧
          t.link = (supersede x (if (s.berth x).session = .serving ∨ tx.left = true then tx.tag else 0)
            (notify (.berthFault x .noConfirm x (s.berth x).bus (s.berth x).measured) u)).link) ∧
    (∀ tx, s.bus.line = .setpointSending tx → tx.trim = true → tx.berth < s.berths.length →
      2 ≤ (s.berth tx.berth).counters.noConfirm → (s.berth tx.berth).coupling ≠ .follower →
      (s.berth tx.berth).flags.noConfirm = false → (s.berth tx.berth).session = .empty ∨
        (s.berth tx.berth).session = .connected ∨ (s.berth tx.berth).session = .serving →
      let x := tx.berth
      let own : List Entry := if s.commandedNonzero x = true then [⟨x, 0, s.path.nextAge, none⟩] else []
      let others := s.path.list.filter fun e => !e.ownOf x
      ∃ t, exec .echoMismatch s = .next t ∧ t.bus = { s.bus with line := .idle } ∧ (t.berth x).counters.noConfirm = 3 ∧
        (t.berth x).flags = { (s.berth x).flags with noConfirm := true } ∧ (t.berth x).session = .faulted ∧
        (t.berth x).setpoint = .idle ∧ (t.berth x).commanded = (s.berth x).commanded ∧
        (t.berth x).confirmed = (s.berth x).confirmed ∧ (t.berth x).inFlight = (s.berth x).inFlight ∧ State.OthersKept x s t ∧
        t.path = { s.path with
          list := t.path.list, waiting := (s.path.waiting.filter fun e => !e.ownOf x) ++ own
          queue := s.path.queue.filter fun q => decide (q.berth ≠ x), nextAge := s.path.nextAge + own.length } ∧
        (s.trimWaits x = true → t.path.list = others) ∧
        (s.trimWaits x = false → ∀ older newer, others = older ++ newer → (∀ q ∈ older, q.age ≤ tx.age) →
          (∀ q ∈ newer, tx.age < q.age) →
          t.path.list = older ++ ⟨x, tx.tag, tx.age, some ⟨tx.cabinet, tx.shares.map (·.outlet)⟩⟩ :: newer) ∧
        ∃ u, u.link = (supersede x (entryTag (s.entryOf x)) (supersede x (queuedTag (s.queuedOf x)) s)).link ∧
          u.faults = s.faults ∧ (u.berth x).noticeEnable = (s.berth x).noticeEnable ∧
          t.link = (notify (.berthFault x .noConfirm x (s.berth x).bus (s.berth x).measured) u).link) ∧
    (∀ f, s.bus.line = .passSending f → exec .echoMismatch s = .next (reply (cabinetParty f.cabinet) f.tag .noConfirm .none
      { s with bus := { s.bus with line := .idle } })) ∧
    (∀ k, s.bus.line = .surveyOpen k ∨ s.bus.line = .surveyClose k → exec .echoMismatch s = .next { s with
      bus := { s.bus with line := .idle, nextKind := .full } }) ∧
    (∀ n, n < 2 → s.bus.line = .enrollForget n → exec .echoMismatch s = .next { s with
      bus := { s.bus with line := .enrollForget (n + 1), busTx := busFrame 5 31 [1] } }) ∧
    (∀ k n, n < 2 → s.bus.line = .enrollAssign k n → exec .echoMismatch s = .next { s with
      bus := { s.bus with line := .enrollAssign k (n + 1), busTx := busFrame 5 0 [2, BitVec.ofNat 8 k] } }) ∧
    (s.bus.line = .stopSending → exec .echoMismatch s = .next { s with
      bus := { s.bus with line := .stopHeld, surveyRunning := true } }) ∧
    (s.bus.line = .idle ∨ s.bus.line = .stopHeld → exec .echoMismatch s = .next s)

/-! ## Pass-through on the line -/

/-- R43: a pass-through request is refused, in the order of the table, or joins the tail of the pass-through FIFO. R39, R44: with the
line free, nothing waiting before it and the pending list empty, the oldest pass-through frame is sent to its cabinet or to 31. Sent
whole it is answered OK, or waits for the cabinet's answer, which is carried up with the cabinet as its party; a window that expires
is answered NO_CONFIRM. (Line not free, nothing being sent: Log 2; the receiver emptied as the window opens: Log 57; the source party
of a REPLY: Log 61.) -/
def Obligations.PassThroughIsCarried : Prop :=
  (∀ (s : State) cabinet tag body, s.Live →
    let party := match cabinet with
      | none => 0x5F
      | some c => 0x40 + c
    let refused (code : ReplyCode) : Prop :=
      exec (.pass cabinet tag body) s = .next (reply party tag code .none (linkTaken s))
    let listed := ∀ c, cabinet = some c → 1 ≤ c ∧ c ≤ s.bus.cabinets.length
    (40 < body.length → refused .badLength) ∧
    (body.length ≤ 40 → ¬ listed → refused .badValue) ∧
    (body.length ≤ 40 → listed → 16 ≤ s.bus.passFifo.length → refused .downstreamFull) ∧
    (body.length ≤ 40 → listed → s.bus.passFifo.length < 16 →
      exec (.pass cabinet tag body) s = .next { s with
        link := (linkTaken s).link
        bus := { s.bus with passFifo := s.bus.passFifo ++ [⟨cabinet, tag, body⟩] } })) ∧
  ∀ (s : State), s.Live →
    (s.bus.line ≠ .idle ∨ s.bus.enrollWaiting = true ∨ s.bus.surveyDue = true ∨ s.path.list ≠ [] ∨ s.bus.passFifo = [] →
      exec .passDequeue s = .next s) ∧
    (∀ f rest, s.bus.line = .idle → s.bus.enrollWaiting = false → s.bus.surveyDue = false → s.path.list = [] →
      s.bus.passFifo = f :: rest → exec .passDequeue s = .next { s with bus := { s.bus with
        line := .passSending f, passFifo := rest
        busTx := busFrame 6 (match f.cabinet with
          | none => 31
          | some c => c) f.body } }) ∧
    ((∀ f, s.bus.line ≠ .passSending f) → exec .passSent s = .next s) ∧
    (∀ f, s.bus.line = .passSending f →
      let free : State := { s with bus := { s.bus with line := .idle } }
      (∀ c, f.cabinet = some c → f.tag ≠ 0 → exec .passSent s = .next { s with bus := { s.bus with line := .passAck f, rx := [] } }) ∧
      (f.cabinet = none → exec .passSent s = .next (reply 0x5F f.tag .ok .none free)) ∧
      (∀ c, f.cabinet = some c → f.tag = 0 → exec .passSent s = .next (reply (0x40 + c) 0 .ok .none free))) ∧
    (∀ f c body, s.bus.line = .passAck f → f.cabinet = some c →
      exec (.passAnswer c body) s = .next (reply (0x40 + c) f.tag .ok (.cabinet body)
        { s with bus := { s.bus with line := .idle, rx := [] } })) ∧
    (∀ f, s.bus.line = .passAck f → exec .passAckWindowExpiry s = .next (reply (cabinetParty f.cabinet) f.tag .noConfirm .none
      { s with bus := { s.bus with line := .idle, rx := [] } })) ∧
    ((∀ f, s.bus.line ≠ .passAck f) → exec .passAckWindowExpiry s = .next s)

/-! ## Enrollment -/

/-- R45, R46, R173: ENROLL is refused outside COMMISSION with WRONG_MODE and during an enrollment with BUSY; else it is answered OK
and waits for the free line, where the list and the miss counts are cleared, CHAIN_OUT is raised and FORGET is sent; then for each k
an ASSIGN and its reply window. A REPORT of cabinet k with a new serial joins the list and the next ASSIGN follows; a REPORT that does
not fit is discarded and leaves the window as it was. (CHAIN_OUT rises as FORGET begins: Log 48; line not free, no such window: Log 2;
the receiver emptied as the window opens: Log 57; a figure above 32,767: Log 55.) -/
def Obligations.EnrollmentBuildsTheList : Prop :=
  (∀ (s : State) pos, s.Live →
      (s.ctl.mode ≠ .commission → exec (.enroll pos) s = .next (serviceResult pos .wrongMode (entryTaken pos s))) ∧
      (s.ctl.mode = .commission → s.Enrolling → exec (.enroll pos) s = .next (serviceResult pos .busy (entryTaken pos s))) ∧
      (s.ctl.mode = .commission → ¬ s.Enrolling → exec (.enroll pos) s = .next (serviceResult pos .ok { s with
        link := (entryTaken pos s).link, bus := { s.bus with enrollWaiting := true } }))) ∧
  (∀ (s : State), s.Live →
      (s.bus.line = .idle → s.bus.enrollWaiting = true → exec .enrollLineTaken s = .next { s with bus := { s.bus with
        line := .enrollForget 0, busTx := busFrame 5 31 [1], enrollWaiting := false, surveyDue := false, cabinets := []
        missCounts := List.replicate 12 0, chainOut := true } }) ∧
      (s.bus.line ≠ .idle ∨ s.bus.enrollWaiting = false → exec .enrollLineTaken s = .next s) ∧
      (∀ n, s.bus.line = .enrollForget n → exec .enrollForgetSent s = .next { s with bus := { s.bus with
        line := .enrollAssign 1 0, busTx := busFrame 5 0 [2, 1] } }) ∧
      ((∀ n, s.bus.line ≠ .enrollForget n) → exec .enrollForgetSent s = .next s) ∧
      (∀ k n, s.bus.line = .enrollAssign k n → exec .enrollAssignSent s = .next { s with bus := { s.bus with
        line := .enrollReply k, rx := [] } }) ∧
      ((∀ k n, s.bus.line ≠ .enrollAssign k n) → exec .enrollAssignSent s = .next s) ∧
      (∀ k body, s.bus.line = .enrollReply k → reportRecord body = none →
        exec (.enrollReport k body) s = .next { s with bus := { s.bus with rx := [] } }) ∧
      (∀ k body record, s.bus.line = .enrollReply k → reportRecord body = some record → k < 12 →
        (∀ r ∈ s.bus.cabinets, r.serial ≠ record.serial) →
        exec (.enrollReport k body) s = .next { s with bus := { s.bus with
          rx := [], cabinets := s.bus.cabinets ++ [record], line := .enrollAssign (k + 1) 0
          busTx := busFrame 5 0 [2, BitVec.ofNat 8 (k + 1)] } }) ∧
      (∀ (a b c d n : Byte) outlets, reportRecord (3 :: a :: b :: c :: d :: n :: outlets) = none ↔
        ¬ (1 ≤ n.toNat ∧ n.toNat ≤ 3 ∧ outlets.length = 4 * n.toNat)) ∧
      (∀ (a b c d p q v w : Byte), reportRecord [3, a, b, c, d, 1, p, q, v, w] =
        some ⟨a ++ b ++ c ++ d, [⟨p.toNat * 256 + q.toNat, v.toNat * 256 + w.toNat⟩]⟩))

/-- R29, R30, R35, R46, R47: enrollment ends at a reply window's expiry, at a duplicate serial, after cabinet 12, and at the third
abandonment of one frame: CHAIN_OUT is lowered, the map and the pass-through FIFO are brought in line with the new list, each frame
that goes being answered BAD_VALUE after the SUPERSEDED answers of the map, the next survey is FULL, the line is free, and one
ENROLLED notice carries the number of cabinets. Every trim at an old address that stays is for outlets on the new list (Log 49). (The
answers' order: Log 56; their party: Log 61; the ages of the work made: Log 60; a stored vehicle acceptance max above the new hardware
maximum: Log 62.) -/
def Obligations.EnrollmentEnds : Prop :=
  ∀ (s : State) c u, s.Live → s.ctl.autorun = false → s.berths.length = 36 →
    (∃ k, s.bus.line = .enrollReply k ∧
      ((c = .enrollReplyWindowExpiry ∧ u = s) ∨
        ∃ body record, c = .enrollReport k body ∧ reportRecord body = some record ∧
          (((∃ r ∈ s.bus.cabinets, r.serial = record.serial) ∧ u = s) ∨
            ((∀ r ∈ s.bus.cabinets, r.serial ≠ record.serial) ∧ 12 ≤ k ∧
              u = { s with bus := { s.bus with cabinets := s.bus.cabinets ++ [record] } })))) ∨
      (c = .echoMismatch ∧ u = s ∧ ∃ k, s.bus.line = .enrollForget 2 ∨ s.bus.line = .enrollAssign k 2) →
    let stays (f : PassFrame) : Bool := match f.cabinet with
      | none => true
      | some c => decide (1 ≤ c ∧ c ≤ u.bus.cabinets.length)
    ∃ t v, exec c s = .next t ∧
      t = { u with
        link := { s.link with fifo := t.link.fifo, answerLost := t.link.answerLost }
        bus := { u.bus with
          line := .idle, rx := [], chainOut := false, nextKind := .full, quietCount := 0, recheck := true
          passFifo := u.bus.passFifo.filter stays }
        berths := t.berths
        fleet := t.fleet
        path := { s.path with list := t.path.list, waiting := t.path.waiting, queue := t.path.queue, nextAge := t.path.nextAge }
        faults := { s.faults with noticeLost := t.faults.noticeLost } } ∧
      v = { s with link := { s.link with fifo := v.link.fifo, answerLost := v.link.answerLost } } ∧
      (∃ more, v.link.fifo = s.link.fifo ++ more ∧ ∀ f ∈ more, ∃ x tag, f = .reply (1 + x) tag .superseded .none) ∧
      ((∀ x, (s.berth x).configured = false) → v = s) ∧
      (let w := notify (.enrolled u.bus.cabinets.length) ((u.bus.passFifo.filter fun f => !stays f).foldl
          (fun w f => reply (cabinetParty f.cabinet) f.tag .badValue .none w) v)
       t.link = w.link ∧ t.faults = w.faults) ∧
      (∀ e ∈ t.path.list, ∀ a, e.old = some a →
        a.outlets ≠ [] ∧ ∀ o ∈ a.outlets, (u.outletRecord a.cabinet o).isSome = true) ∧
      ∀ x, ((s.berth x).configured = false → t.berth x = s.berth x) ∧
        (∀ cabinet outlet, (s.berth x).configured = true → (s.berth x).cabinet = some cabinet →
          (s.berth x).outlet = some outlet →
          (∀ figures, u.outletRecord cabinet outlet = some figures →
            t.berth x = { s.berth x with hwCharge := figures.charge, hwDischarge := figures.discharge }) ∧
          (u.outletRecord cabinet outlet = none → (t.berth x).configured = false ∧ (t.berth x).session = .unconfigured ∧
            (t.berth x).cabinet = none ∧ (t.berth x).bus = none ∧ (t.berth x).grant = 0))

/-- R178, R30, R46, R47, R173, R174: an enrollment begun by the AUTORUN start-up, at each of its ends: a reply window's expiry, a
duplicate serial, cabinet 12, and the third abandonment of one frame. The start-up is over, CHAIN_OUT lowered, the line free and the
next survey FULL, and one ENROLLED notice carries the number of cabinets. Where that is none, the controller stays in COMMISSION
without a map. Otherwise the outlets found are mapped in enrollment order, by cabinet and then by outlet number, to berths 0 upward,
SINGLE, enabled and EMPTY, in groups by cabinet, and the berths beyond stay as they were; every group is enabled at 3000.0 kW, and the
mode becomes RUN with a MODE notice of cause AUTORUN behind the ENROLLED. Then steps 1 to 4 of R174: the period timer runs, or waits
for the stop (Log 33), the reserve leaves UNAVAILABLE with its notice where the meter is valid, and one immediate run follows. (The
ages of work: Log 60; trims at old addresses, of which a start-up has none: Log 49.) -/
def Obligations.AutorunMapsAndStarts : Prop :=
  (∀ (s : State), (∀ c o figures, (c, o, figures) ∈ s.outletOrder ↔ s.outletRecord c o = some figures) ∧
    s.outletOrder.Pairwise fun a b => a.1 < b.1 ∨ (a.1 = b.1 ∧ a.2.1 < b.2.1)) ∧
  ∀ (s : State) c u, s.Live → s.ctl.autorun = true → s.berths.length = 36 → s.groups.length = 6 →
    (∀ x, (s.berth x).configured = false) →
    (∃ k, s.bus.line = .enrollReply k ∧
      ((c = .enrollReplyWindowExpiry ∧ u = s) ∨
        ∃ body record, c = .enrollReport k body ∧ reportRecord body = some record ∧
          (((∃ r ∈ s.bus.cabinets, r.serial = record.serial) ∧ u = s) ∨
            ((∀ r ∈ s.bus.cabinets, r.serial ≠ record.serial) ∧ 12 ≤ k ∧
              u = { s with bus := { s.bus with cabinets := s.bus.cabinets ++ [record] } })))) ∨
      (c = .echoMismatch ∧ u = s ∧ ∃ k, s.bus.line = .enrollForget 2 ∨ s.bus.line = .enrollAssign k 2) →
    let stays (f : PassFrame) : Bool := match f.cabinet with
      | none => true
      | some c => decide (1 ≤ c ∧ c ≤ u.bus.cabinets.length)
    let told : State := notify (.enrolled u.bus.cabinets.length) ((u.bus.passFifo.filter fun f => !stays f).foldl
      (fun w f => reply (cabinetParty f.cabinet) f.tag .badValue .none w) s)
    let ended : State := { s with
      ctl := { s.ctl with autorun := false }
      link := told.link
      faults := told.faults
      bus := { u.bus with
        line := .idle, rx := [], chainOut := false, nextKind := .full, quietCount := 0, recheck := true
        passFifo := u.bus.passFifo.filter stays } }
    ∃ t m : State, exec c s = .next t ∧ m = { ended with berths := m.berths, path := m.path } ∧ (s.path.list = [] → m.path = s.path) ∧
      (u.bus.cabinets = [] → t = { ended with path := t.path } ∧ (s.path.list = [] → t.path = s.path)) ∧
      (u.bus.cabinets ≠ [] →
        (∀ x, (x < 36 → ∀ cabinet outlet figures, u.outletOrder[x]? = some (cabinet, outlet, figures) →
            m.berth x = { s.berth x with
              configured := true, cabinet := some cabinet, outlet := some outlet, group := some ((cabinet - 1) % 6)
              coupling := .single, partner := none, hwCharge := figures.charge, hwDischarge := figures.discharge
              enable := true, session := .empty }) ∧
          (u.outletOrder.length ≤ x → m.berth x = s.berth x)) ∧
        (∀ x, t.berth x = { m.berth x with grant := (t.berth x).grant, projectedShort := (t.berth x).projectedShort }) ∧
        t.ctl.mode = .run ∧ t.groups = List.replicate 6 ⟨30000, true⟩ ∧ t.alloc.totals.kind = .immediate ∧
        let running : State := notify (.mode s.ctl.mode .run .autorun) { m with
          ctl := { m.ctl with mode := .run }
          groups := List.replicate 6 ⟨30000, true⟩
          alloc := { m.alloc with periodRunning := s.bus.stopWhole } }
        (s.reserve.state = .unavailable → s.MeterValid →
          let st : ReserveState := if s.reserve.judged = none then .idle else .undercovered
          t = ageByBerth s.path.nextAge (immediateRun (notify (.reserveState .unavailable st (s.reserve.coverage.map (·.value)))
            { running with reserve := { s.reserve with state := st } }))) ∧
        (s.reserve.state ≠ .unavailable ∨ ¬ s.MeterValid → t = ageByBerth s.path.nextAge (immediateRun running)))

/-! ## The meter -/

/-- R119, R127, R130, R139, R141 to R145: an accepted sample writes the latest-sample fields, restarts the timer and moves the meter
state; a missing one moves it the other way, to LOST at the tenth or from RECOVERING, which stops the timer and empties the ring. The
ring takes each accepted import outside CALLED and RECOVERY, and the accounts of the demand interval and of a call take the import
while the meter is valid afterwards. On LOST a call in progress is closed with cause METER, a recovery ends, and the reserve is
UNAVAILABLE; where it was so before, as out of RUN, the METER_STATE notice is the only one. At the sample that makes the meter VALID
one METER_STATE notice is placed, in RUN the reserve leaves UNAVAILABLE for UNDERCOVERED or, without a window, IDLE, with its notice
behind, and one immediate run follows (R127). (The order of a sample's hand-overs: Log 22; the second a LOST notice carries: Log 24; a
timer that does not run: Log 2.) -/
def Obligations.SamplesMoveTheMeter : Prop :=
  (∀ (s : State) sample, s.Live → s.meter.lastSequence ≠ some sample.sequence →
    ∃ t, exec (.meterSampleAccepted sample) s = .next t ∧
      t.meter.sequence = some sample.sequence ∧ t.meter.power = some sample.power ∧ t.meter.frequency = some sample.frequency ∧
      t.meter.ambient = some (max (-60) (min sample.ambient 60)) ∧ t.meter.lastSequence = some sample.sequence ∧
      t.meter.lastSecond = some s.link.second ∧ t.meter.timerRunning = true ∧ t.meter.rx = [] ∧
      (s.meter.state = .noSignal ∨ s.meter.state = .lost → t.meter.state = .recovering ∧ t.meter.recoverCount = 1) ∧
      (s.meter.state = .recovering → s.meter.recoverCount + 1 < 20 →
        t.meter.state = .recovering ∧ t.meter.recoverCount = s.meter.recoverCount + 1) ∧
      (s.meter.state = .recovering → 20 ≤ s.meter.recoverCount + 1 → t.meter.state = .valid ∧ t.meter.recoverCount = 0) ∧
      (s.meter.state = .valid → t.meter.state = .valid) ∧
      (s.meter.state = .holding → t.meter.state = .valid ∧ t.meter.missCount = 0) ∧
      (s.reserve.state ≠ .called → s.reserve.state ≠ .recovery →
        t.meter.ring = (s.meter.ring ++ [sample.power]).drop (s.meter.ring.length + 1 - 50)) ∧
      (s.reserve.state = .called ∨ s.reserve.state = .recovery → t.meter.ring = s.meter.ring) ∧
      (∀ i, s.storage.interval = some i → ∃ short,
        (t.MeterValid → t.storage.interval =
          some { i with sum := i.sum + sample.power, count := i.count + 1, shortfall := short }) ∧
        (¬ t.MeterValid → t.storage.interval = some { i with shortfall := short })) ∧
      (∀ c, s.reserve.state = .called → s.reserve.call = some c → c.source = .frame →
        s.meter.overrun = .normal ∨ s.ctl.mode ≠ .run →
        (t.MeterValid → t.reserve.call = some { c with sum := c.sum + sample.power, count := c.count + 1 }) ∧
        (¬ t.MeterValid → t.reserve.call = some c))) ∧
  (∀ (s : State) sample, s.Live → s.meter.lastSequence ≠ some sample.sequence →
    s.meter.state = .recovering → 20 ≤ s.meter.recoverCount + 1 → s.meter.overrun = .normal →
    sample.power ≤ s.feederLimit + s.overrunMargin → s.reserve.state = .unavailable → s.reserve.call = none →
    let low : Prop := (sample.frequency : Int) ≤ s.nominalFrequency - s.tripOffset
    let counted : Nat := if s.ctl.mode = .run ∧ s.reserve.judged.any (·.frequency) = true ∧ low then s.reserve.tripCount + 1 else 0
    let st : ReserveState := if s.ctl.mode ≠ .run then .unavailable else if s.reserve.judged = none then .idle else .undercovered
    let valid : State := notify (.meterState .valid none) { s with
      meter := { s.meter with
        rx := [], sequence := some sample.sequence, power := some sample.power, frequency := some sample.frequency
        ambient := some (max (-60) (min sample.ambient 60)), lastSequence := some sample.sequence
        lastSecond := some s.link.second, timerRunning := true, state := .valid, recoverCount := 0
        ring := (s.meter.ring ++ [sample.power]).drop (s.meter.ring.length + 1 - 50), overCount := 0, overExcess := 0 }
      storage := { s.storage with interval := s.storage.interval.map fun i =>
        { i with sum := i.sum + sample.power, count := i.count + 1 } }
      reserve := { s.reserve with state := st, tripCount := counted, recoverCount := 0 } }
    counted < s.tripCount ∨ counted = 0 → exec (.meterSampleAccepted sample) s = .next (immediateRun (
      if s.ctl.mode = .run then notify (.reserveState .unavailable st (s.reserve.coverage.map (·.value))) valid else valid))) ∧
  (∀ (s : State), s.Live → s.meter.timerRunning = false → exec .sampleTimerExpiry s = .next s) ∧
  (∀ (s : State), s.Live → s.meter.timerRunning = true →
    let account (t : State) : State := { t with
      storage := { t.storage with interval := t.storage.interval.map fun i =>
        { i with sum := i.sum + t.meter.power.getD 0, count := i.count + 1 } }
      reserve := { t.reserve with call := t.reserve.call.map fun c =>
        { c with sum := c.sum + t.meter.power.getD 0, count := c.count + 1 } } }
    let lost : Meter := { s.meter with
      state := .lost, missCount := 0, recoverCount := 0, ring := [], lastSequence := none, timerRunning := false }
    let unavailable : Reserve := { s.reserve with
      state := .unavailable, call := none, recoveryTarget := none, tripCount := 0, recoverCount := 0 }
    let coverage := s.reserve.coverage.map (·.value)
    (s.meter.state = .valid → exec .sampleTimerExpiry s =
      .next (account { s with meter := { s.meter with state := .holding, missCount := 1 } })) ∧
    (s.meter.state = .holding → s.meter.missCount + 1 < 10 → exec .sampleTimerExpiry s =
      .next (account { s with meter := { s.meter with missCount := s.meter.missCount + 1 } })) ∧
    (s.meter.state = .recovering → exec .sampleTimerExpiry s = .next { s with meter := lost }) ∧
    (s.meter.state = .holding → 10 ≤ s.meter.missCount + 1 → s.reserve.call = none → s.reserve.state ≠ .unavailable →
      exec .sampleTimerExpiry s = .next (immediateRun (notify (.reserveState s.reserve.state .unavailable coverage)
        (notify (.meterState .lost s.meter.lastSecond) { s with meter := lost, reserve := unavailable })))) ∧
    (s.meter.state = .holding → 10 ≤ s.meter.missCount + 1 → s.reserve.call = none → s.reserve.state = .unavailable →
      exec .sampleTimerExpiry s = .next (immediateRun (
        notify (.meterState .lost s.meter.lastSecond) { s with meter := lost, reserve := unavailable })) ∧
      (s.ctl.mode ≠ .run → exec .sampleTimerExpiry s = .next (
        notify (.meterState .lost s.meter.lastSecond) { s with meter := lost, reserve := unavailable }))) ∧
    (∀ c record older, s.meter.state = .holding → 10 ≤ s.meter.missCount + 1 → s.reserve.call = some c →
      s.reserve.state ≠ .unavailable → s.reserve.records = record :: older →
      let mean := if c.count = 0 then none else some (c.sum / (c.count : Int))
      exec .sampleTimerExpiry s = .next (immediateRun (notify (.reserveState s.reserve.state .unavailable coverage)
        (notify (.callEnd c.callId .meter mean) (notify (.meterState .lost s.meter.lastSecond) { s with
          meter := lost
          reserve := { unavailable with
            records := { record with finish := some s.link.second, mean := mean, cause := some .meter } :: older } }))))))

/-- R70, R148, R149, R173, R175: the import of each accepted sample while the meter is valid afterwards. In NORMAL, samples above F +
overrun margin are counted, the 30th making OVERRUN with the largest excess as squeeze, one OVERRUN notice and one immediate run; in
OVERRUN the squeeze only grows, 20 samples at or below F end it with one OVERRUN notice and no run, and in RUN the 100th sample
without an end enters SAFE_HOLD with one MODE notice and every grant 0. Where no frequency counts, nothing else happens. (The order of
a sample's hand-overs: Log 22; the END notice carries a squeeze of 0: Log 25.) -/
def Obligations.OverrunsAreSqueezedAndEscalated : Prop :=
  ∀ (s : State) sample t, s.Live → s.meter.lastSequence ≠ some sample.sequence →
    s.meter.state = .valid ∨ s.meter.state = .holding ∨ (s.meter.state = .recovering ∧ 20 ≤ s.meter.recoverCount + 1) →
    exec (.meterSampleAccepted sample) s = .next t →
    let excess := sample.power - s.feederLimit
    let most := if s.meter.overCount = 0 then excess else max s.meter.overExcess excess
    let ends : Prop := excess ≤ 0 ∧ 20 ≤ s.meter.underCount + 1
    let quiet : Prop := s.meter.state ≠ .recovering ∧ (∀ c, s.reserve.call = some c → c.source = .frame) ∧
      ∀ w, s.reserve.judged = some w → w.frequency = false
    let accepted (m : Meter) : State := { s with
      meter := { m with
        rx := [], sequence := some sample.sequence, power := some sample.power, frequency := some sample.frequency
        ambient := some (max (-60) (min sample.ambient 60)), lastSequence := some sample.sequence
        lastSecond := some s.link.second, timerRunning := true, state := .valid
        missCount := if s.meter.state = .holding then 0 else m.missCount
        ring := if s.reserve.state = .called ∨ s.reserve.state = .recovery then m.ring
          else (m.ring ++ [sample.power]).drop (m.ring.length + 1 - 50) }
      storage := { s.storage with interval := s.storage.interval.map fun i =>
        { i with sum := i.sum + sample.power, count := i.count + 1 } }
      reserve := { s.reserve with
        tripCount := 0, recoverCount := 0
        call := s.reserve.call.map fun c => { c with sum := c.sum + sample.power, count := c.count + 1 } } }
    (s.meter.overrun = .normal → t.ctl.mode = s.ctl.mode ∧
      (excess ≤ s.overrunMargin → t.meter.overrun = .normal ∧ t.meter.overCount = 0 ∧ t.meter.squeeze = s.meter.squeeze ∧
        (quiet → t = accepted { s.meter with overCount := 0, overExcess := 0 })) ∧
      (s.overrunMargin < excess → s.meter.overCount + 1 < 30 →
        t.meter.overrun = .normal ∧ t.meter.overCount = s.meter.overCount + 1 ∧ t.meter.overExcess = most ∧
        t.meter.squeeze = s.meter.squeeze ∧
        (quiet → t = accepted { s.meter with overCount := s.meter.overCount + 1, overExcess := most })) ∧
      (s.overrunMargin < excess → 30 ≤ s.meter.overCount + 1 →
        t.meter.overrun = .overrun ∧ t.meter.squeeze = most ∧ t.meter.overCount = 0 ∧ t.meter.underCount = 0 ∧
        t.meter.escalation = 0 ∧
        (quiet → t = immediateRun (notify (.overrun true most sample.power s.feederLimit) (accepted { s.meter with
          overrun := .overrun, squeeze := most, overCount := 0, overExcess := 0, underCount := 0, escalation := 0 }))))) ∧
    (s.meter.overrun = .overrun →
      (ends → t.meter.overrun = .normal ∧ t.meter.squeeze = 0 ∧ t.meter.underCount = 0 ∧ t.meter.escalation = 0 ∧
        t.ctl.mode = s.ctl.mode ∧
        (quiet → t = notify (.overrun false 0 sample.power s.feederLimit) (accepted { s.meter with
          overrun := .normal, squeeze := 0, underCount := 0, escalation := 0 }))) ∧
      (¬ ends → t.meter.overrun = .overrun ∧ t.meter.squeeze = max s.meter.squeeze excess ∧
        t.meter.underCount = (if 0 < excess then 0 else s.meter.underCount + 1) ∧
        (s.ctl.mode ≠ .run → t.ctl.mode = s.ctl.mode ∧ t.meter.escalation = s.meter.escalation) ∧
        (s.ctl.mode = .run → s.meter.escalation + 1 < 100 →
          t.ctl.mode = .run ∧ t.meter.escalation = s.meter.escalation + 1) ∧
        (quiet → s.ctl.mode ≠ .run ∨ s.meter.escalation + 1 < 100 → t = accepted { s.meter with
          squeeze := max s.meter.squeeze excess
          underCount := if 0 < excess then 0 else s.meter.underCount + 1
          escalation := if s.ctl.mode = .run then s.meter.escalation + 1 else s.meter.escalation }) ∧
        (s.ctl.mode = .run → 100 ≤ s.meter.escalation + 1 → t.ctl.mode = .safeHold ∧ t.meter.escalation = 0 ∧
          t.alloc.periodRunning = false ∧ t.reserve.state = .unavailable ∧ t.reserve.call = none ∧
          (∃ more, t.link.fifo = (notify (.mode .run .safeHold .overrun) s).link.fifo ++ more) ∧
          (s.berths.length = 36 → ∀ x, (t.berth x).grant = 0 ∧ (t.berth x).request = none))))

/-- R134, R135, R131, R136, R137, R139, R149: in each accepted sample with the meter valid, in an overrun as well. While a frequency
window is active and the reserve ARMED, UNDERCOVERED, in RECOVERY or CALLED by a frame, samples at or below nominal frequency − trip
offset are counted, another setting the count to 0; at the trip count an autonomous call with id 0 begins with the window's reduction and
duration, or the frame call's record is marked. Elsewhere the count is 0. During an autonomous call the samples at or above the threshold
plus hysteresis are counted, and at the recovery count it ends with cause FREQUENCY into RECOVERY. The sample by which an overrun takes
RUN to SAFE_HOLD ends a call with cause MODE and leaves the reserve UNAVAILABLE, where nothing is counted. (At a call's end and between
two windows the count is 0: Logs 52 and 58; the sample enters ring and accounts before its overrun is judged, and that is judged before
its frequency: Log 22; the sample that makes the meter VALID: SamplesMoveTheMeter.) -/
def Obligations.FrequencyCallsAreCounted : Prop :=
  ∀ (s : State) sample t, s.Live → s.meter.lastSequence ≠ some sample.sequence → s.meter.state = .valid ∨ s.meter.state = .holding →
    exec (.meterSampleAccepted sample) s = .next t →
    let threshold := s.nominalFrequency - s.tripOffset
    let low : Prop := (sample.frequency : Int) ≤ threshold
    let high : Prop := threshold + s.hysteresis ≤ (sample.frequency : Int)
    let framed : Prop := ∃ c, s.reserve.call = some c ∧ c.source = .frame
    let waiting : Prop := s.reserve.state = .armed ∨ s.reserve.state = .undercovered ∨ s.reserve.state = .recovery
    let accounted (c : Call) : Call := { c with sum := c.sum + sample.power, count := c.count + 1 }
    let escalated : Prop := s.meter.overrun = .overrun ∧ s.ctl.mode = .run ∧ 100 ≤ s.meter.escalation + 1 ∧
      ¬ (sample.power ≤ s.feederLimit ∧ 20 ≤ s.meter.underCount + 1)
    (escalated → t.reserve.state = .unavailable ∧ t.reserve.call = none ∧ t.reserve.recoveryTarget = none ∧
      t.reserve.tripCount = 0 ∧ t.reserve.recoverCount = 0 ∧ (s.reserve.call = none → t.reserve.records = s.reserve.records) ∧
      ∀ c record older, s.reserve.call = some c → s.reserve.records = record :: older → t.reserve.records = { record with
        finish := some s.link.second, mean := some ((c.sum + sample.power) / ((c.count + 1 : Nat) : Int))
        cause := some .mode } :: older) ∧
    (¬ escalated →
      (∀ w, s.reserve.judged = some w → w.frequency = true → waiting ∨ (s.reserve.state = .called ∧ framed) →
        (¬ low → t.reserve.tripCount = 0 ∧ t.reserve.state = s.reserve.state) ∧
        (low → s.reserve.tripCount + 1 < s.tripCount →
          t.reserve.tripCount = s.reserve.tripCount + 1 ∧ t.reserve.state = s.reserve.state) ∧
        (low → s.tripCount ≤ s.reserve.tripCount + 1 → waiting →
          let b := t.meter.ring.sum / (t.meter.ring.length : Int)
          t.reserve.state = .called ∧ t.reserve.tripCount = 0 ∧ t.reserve.recoverCount = 0 ∧ t.reserve.recoveryTarget = none ∧
          t.reserve.call = some ⟨0, .frequency, w.reduction, b, w.maxDuration, 0, 0⟩ ∧
          ∃ short, t.reserve.records = (⟨0, .frequency, s.link.second, none, b, w.reduction, s.clampTarget (b - w.reduction), none,
            short, true, none⟩ :: s.reserve.records).take 8) ∧
        (∀ c record older, low → s.tripCount ≤ s.reserve.tripCount + 1 → s.reserve.state = .called → s.reserve.call = some c →
          c.source = .frame → s.reserve.records = record :: older →
          t.reserve.state = .called ∧ t.reserve.tripCount = 0 ∧ t.reserve.call = some (accounted c) ∧
          ∃ short, t.reserve.records = { record with frequencyDuring := true, shortfall := short } :: older)) ∧
      (¬ (∃ w, s.reserve.judged = some w ∧ w.frequency = true) ∨ ¬ (waiting ∨ s.reserve.state = .called) → t.reserve.tripCount = 0) ∧
      (∀ c, s.reserve.state = .called → s.reserve.call = some c → c.source = .frequency → 0 < s.recoveryCount →
        t.reserve.tripCount = 0 ∧
        (¬ high → t.reserve.state = .called ∧ t.reserve.recoverCount = 0 ∧ t.reserve.call = some (accounted c)) ∧
        (high → s.reserve.recoverCount + 1 < s.recoveryCount →
          t.reserve.state = .called ∧ t.reserve.recoverCount = s.reserve.recoverCount + 1 ∧ t.reserve.call = some (accounted c)) ∧
        (∀ record older, high → s.recoveryCount ≤ s.reserve.recoverCount + 1 → s.reserve.records = record :: older →
          t.reserve.state = .recovery ∧ t.reserve.recoverCount = 0 ∧ t.reserve.call = none ∧
          t.reserve.recoveryTarget = some (s.clampTarget (c.baseline - c.reduction)) ∧
          t.reserve.records = { record with
            finish := some s.link.second, mean := some ((c.sum + sample.power) / ((c.count + 1 : Nat) : Int))
            cause := some .frequency } :: older)))
end

