-- ==== Sys2Proof/Laws/State.lean ====
section
/-! SUPPORT. Laws/State.lean: what reading a record gives after a record is written, and the other small lemmas of the
accessors of Machine/Ops.lean. -/

namespace Sys2Proof.Machine

/-! ## Folds -/

/-- A quantity that every step of a fold keeps, the fold keeps. -/
theorem foldl_keeps {σ α γ : Type} (g : σ → γ) (f : σ → α → σ) (h : ∀ s a, g (f s a) = g s) (l : List α) (s : σ) :
    g (l.foldl f s) = g s := by
  induction l generalizing s with
  | nil => rfl
  | cons a l ih => rw [List.foldl_cons, ih, h]

/-- A property that every step of a fold keeps, the fold keeps. -/
theorem foldl_inv {σ α : Type} (p : σ → Prop) (f : σ → α → σ) (h : ∀ s a, p s → p (f s a)) (l : List α) (s : σ)
    (hs : p s) : p (l.foldl f s) := by
  induction l generalizing s with
  | nil => exact hs
  | cons a l ih => exact ih _ (h _ _ hs)

/-! ## Berth records -/

@[simp] theorem setBerth_self_same (s : State) (x : Nat) (b : Berth) :
    (s.setBerth x b).pending = s.pending ∧ (s.setBerth x b).ctl = s.ctl ∧ (s.setBerth x b).link = s.link ∧
    (s.setBerth x b).bus = s.bus ∧ (s.setBerth x b).meter = s.meter ∧ (s.setBerth x b).groups = s.groups ∧
    (s.setBerth x b).fleet = s.fleet ∧ (s.setBerth x b).runs = s.runs ∧ (s.setBerth x b).alloc = s.alloc ∧
    (s.setBerth x b).path = s.path ∧ (s.setBerth x b).storage = s.storage ∧ (s.setBerth x b).reserve = s.reserve ∧
    (s.setBerth x b).faults = s.faults := ⟨rfl, rfl, rfl, rfl, rfl, rfl, rfl, rfl, rfl, rfl, rfl, rfl, rfl⟩

@[simp] theorem editBerth_self_same (s : State) (x : Nat) (f : Berth → Berth) :
    (s.editBerth x f).pending = s.pending ∧ (s.editBerth x f).ctl = s.ctl ∧ (s.editBerth x f).link = s.link ∧
    (s.editBerth x f).bus = s.bus ∧ (s.editBerth x f).meter = s.meter ∧ (s.editBerth x f).groups = s.groups ∧
    (s.editBerth x f).fleet = s.fleet ∧ (s.editBerth x f).runs = s.runs ∧ (s.editBerth x f).alloc = s.alloc ∧
    (s.editBerth x f).path = s.path ∧ (s.editBerth x f).storage = s.storage ∧ (s.editBerth x f).reserve = s.reserve ∧
    (s.editBerth x f).faults = s.faults := ⟨rfl, rfl, rfl, rfl, rfl, rfl, rfl, rfl, rfl, rfl, rfl, rfl, rfl⟩

@[simp] theorem setBerth_length (s : State) (x : Nat) (b : Berth) : (s.setBerth x b).berths.length = s.berths.length := by
  simp [State.setBerth]

@[simp] theorem editBerth_length (s : State) (x : Nat) (f : Berth → Berth) :
    (s.editBerth x f).berths.length = s.berths.length := by simp [State.editBerth]

/-- Reading a berth record after one is written: a number past the table's end names no record. -/
theorem berth_setBerth (s : State) (x y : Nat) (b : Berth) :
    (s.setBerth x b).berth y = if y = x ∧ x < s.berths.length then b else s.berth y := by
  simp only [State.setBerth, State.berth, List.getD_eq_getElem?_getD, List.getElem?_set]
  by_cases h : x = y
  · subst h
    by_cases hx : x < s.berths.length
    · simp [hx]
    · simp [hx]
  · simp [h, Ne.symm h]

/-- Reading a berth record after one is changed. -/
theorem berth_editBerth (s : State) (x y : Nat) (f : Berth → Berth) :
    (s.editBerth x f).berth y = if y = x ∧ x < s.berths.length then f (s.berth x) else s.berth y :=
  berth_setBerth s x y _

@[simp] theorem berth_editBerth_ne (s : State) {x y : Nat} (f : Berth → Berth) (h : y ≠ x) :
    (s.editBerth x f).berth y = s.berth y := by simp [berth_editBerth, h]

@[simp] theorem berth_editBerth_self (s : State) {x : Nat} (f : Berth → Berth) (h : x < s.berths.length) :
    (s.editBerth x f).berth x = f (s.berth x) := by simp [berth_editBerth, h]

/-- A field of a berth record that a change keeps reads the same at every berth. -/
theorem berth_editBerth_field {γ : Type} (g : Berth → γ) (s : State) (x y : Nat) (f : Berth → Berth)
    (h : ∀ b, g (f b) = g b) : g ((s.editBerth x f).berth y) = g (s.berth y) := by
  rw [berth_editBerth]
  split
  · rename_i h'; rw [h, h'.1]
  · rfl

/-! ## Bus records -/

@[simp] theorem editBus_same (s : State) (b : Nat) (f : Bus → Bus) :
    (s.editBus b f).pending = s.pending ∧ (s.editBus b f).ctl = s.ctl ∧ (s.editBus b f).link = s.link ∧
    (s.editBus b f).bus = s.bus ∧ (s.editBus b f).meter = s.meter ∧ (s.editBus b f).berths = s.berths ∧
    (s.editBus b f).groups = s.groups ∧ (s.editBus b f).runs = s.runs ∧ (s.editBus b f).alloc = s.alloc ∧
    (s.editBus b f).path = s.path ∧ (s.editBus b f).storage = s.storage ∧ (s.editBus b f).reserve = s.reserve ∧
    (s.editBus b f).faults = s.faults := by
  unfold State.editBus; split <;> simp

@[simp] theorem editBus_length (s : State) (b : Nat) (f : Bus → Bus) : (s.editBus b f).fleet.length = s.fleet.length := by
  unfold State.editBus; split <;> simp

/-- Reading a bus record after one is changed: 0 and a number past the table's end name no slot. -/
theorem fleetBus_editBus (s : State) (b c : Nat) (f : Bus → Bus) :
    (s.editBus b f).fleetBus c = if c = b ∧ 1 ≤ b ∧ b ≤ s.fleet.length then f (s.fleetBus b) else s.fleetBus c := by
  unfold State.editBus
  rcases b with _ | b
  · simp
  · rcases c with _ | c
    · simp [State.fleetBus]
    · simp only [State.fleetBus, List.getD_eq_getElem?_getD, List.getElem?_cons_succ]
      by_cases h : b = c
      · subst h
        by_cases hx : b < s.fleet.length
        · simp [hx]
        · simp [hx]
      · have hc : ¬c = b := fun e => h e.symm
        simp [h, hc]

/-- A read of a berth record looks at the berth table alone. -/
theorem berth_congr {s t : State} (h : s.berths = t.berths) (x : Nat) : s.berth x = t.berth x := by
  simp [State.berth, h]

/-- A read of a bus record looks at the fleet register alone. -/
theorem fleetBus_congr {s t : State} (h : s.fleet = t.fleet) (b : Nat) : s.fleetBus b = t.fleetBus b := by
  simp [State.fleetBus, h]

end Sys2Proof.Machine
end

