-- ==== Sys2Proof/Laws/Ops.lean ====
section
/-! SUPPORT. Laws/Ops.lean: what the shared operations of Machine/Ops.lean can do, once each. -/

namespace Sys2Proof.Machine

/-- With the RESET pin held nothing happens. -/
theorem whileRunning_held (f : State → State) {s : State} (h : s.ctl.resetHeld = true) : whileRunning f s = .next s := by
  simp [whileRunning, h]

/-- With the RESET pin released the effect takes place. -/
theorem whileRunning_live (f : State → State) {s : State} (h : s.ctl.resetHeld = false) :
    whileRunning f s = .next (f s) := by
  simp [whileRunning, h]

/-- An answer changes nothing but the upstream FIFO and ANSWER_LOST. -/
theorem answer_only (f : UpFrame) (s : State) :
    answer f s = { s with link := { s.link with fifo := (answer f s).link.fifo, answerLost := (answer f s).link.answerLost } } := by
  unfold answer; split <;> rfl

/-- A notice changes nothing but the upstream FIFO and NOTICE_LOST. -/
theorem notify_only (b : NoticeBody) (s : State) :
    notify b s = { s with link := { s.link with fifo := (notify b s).link.fifo },
                          faults := { s.faults with noticeLost := (notify b s).faults.noticeLost } } := by
  unfold notify; repeat' split
  all_goals rfl

end Sys2Proof.Machine
end

