-- ==== Sys2Proof/Laws/Frames.lean ====
section
/-! SUPPORT. Laws/Frames.lean: the frames of Safety.lean compose, and what it means for a change to respect the upstream
FIFO's bounds. An operation's frame is proved once and joined with the next by `trans`. -/

namespace Sys2Proof.Machine

variable {s t u : State}

/-! ## The frames, field by field -/

theorem onlyQueue_iff : s.OnlyQueue t ↔ t.pending = s.pending ∧ t.ctl = s.ctl ∧
    t.link = { s.link with fifo := t.link.fifo, answerLost := t.link.answerLost } ∧ t.bus = s.bus ∧ t.meter = s.meter ∧
    t.berths = s.berths ∧ t.groups = s.groups ∧ t.fleet = s.fleet ∧ t.runs = s.runs ∧ t.alloc = s.alloc ∧
    t.path = s.path ∧ t.storage = s.storage ∧ t.reserve = s.reserve ∧
    t.faults = { s.faults with noticeLost := t.faults.noticeLost } := by
  unfold State.OnlyQueue
  cases s; cases t; simp only [State.mk.injEq]

theorem onlyPath_iff : s.OnlyPath t ↔ t.pending = s.pending ∧ t.ctl = s.ctl ∧
    t.link = { s.link with fifo := t.link.fifo, answerLost := t.link.answerLost } ∧ t.bus = s.bus ∧ t.meter = s.meter ∧
    t.groups = s.groups ∧ t.fleet = s.fleet ∧ t.runs = s.runs ∧ t.alloc = s.alloc ∧
    t.path = { s.path with list := t.path.list, waiting := t.path.waiting, queue := t.path.queue, nextAge := t.path.nextAge } ∧
    t.storage = s.storage ∧ t.reserve = s.reserve ∧ t.faults = s.faults := by
  unfold State.OnlyPath
  cases s; cases t; simp only [State.mk.injEq]; tauto

theorem onlySessions_iff : s.OnlySessions t ↔ t.pending = s.pending ∧ t.ctl = s.ctl ∧
    t.link = { s.link with fifo := t.link.fifo, answerLost := t.link.answerLost } ∧
    t.bus = { s.bus with line := t.bus.line } ∧ t.meter = s.meter ∧
    t.groups = s.groups ∧ t.runs = { s.runs with active := t.runs.active } ∧ t.alloc = s.alloc ∧
    t.path = { s.path with list := t.path.list, waiting := t.path.waiting, queue := t.path.queue, nextAge := t.path.nextAge } ∧
    t.storage = s.storage ∧ t.reserve = s.reserve ∧ t.faults = { s.faults with noticeLost := t.faults.noticeLost } := by
  unfold State.OnlySessions
  cases s; cases t; simp only [State.mk.injEq]; tauto

theorem onlyRun_iff : s.OnlyRun t ↔ t.pending = s.pending ∧ t.ctl = s.ctl ∧
    t.link = { s.link with fifo := t.link.fifo, answerLost := t.link.answerLost } ∧
    t.bus = s.bus ∧ t.meter = s.meter ∧ t.groups = s.groups ∧ t.runs = { s.runs with active := t.runs.active } ∧
    t.alloc = { s.alloc with totals := t.alloc.totals } ∧
    t.path = { s.path with list := t.path.list, waiting := t.path.waiting, queue := t.path.queue, nextAge := t.path.nextAge } ∧
    t.storage = { s.storage with interval := t.storage.interval } ∧
    t.reserve = { s.reserve with
      state := t.reserve.state, coverage := t.reserve.coverage, records := t.reserve.records } ∧
    t.faults = { s.faults with noticeLost := t.faults.noticeLost } := by
  unfold State.OnlyRun
  cases s; cases t; simp only [State.mk.injEq]; tauto

theorem State.OnlyQueue.refl (s : State) : s.OnlyQueue s := rfl
theorem State.OnlyPath.refl (s : State) : s.OnlyPath s := rfl
theorem State.OnlySessions.refl (s : State) : s.OnlySessions s := rfl
theorem State.OnlyRun.refl (s : State) : s.OnlyRun s := rfl

theorem State.OnlyQueue.trans (h : s.OnlyQueue t) (h' : t.OnlyQueue u) : s.OnlyQueue u := by
  rw [onlyQueue_iff] at *
  obtain ⟨a1, a2, a3, a4, a5, a6, a7, a8, a9, a10, a11, a12, a13, a14⟩ := h
  obtain ⟨b1, b2, b3, b4, b5, b6, b7, b8, b9, b10, b11, b12, b13, b14⟩ := h'
  refine ⟨b1.trans a1, b2.trans a2, ?_, b4.trans a4, b5.trans a5, b6.trans a6, b7.trans a7, b8.trans a8, b9.trans a9,
    b10.trans a10, b11.trans a11, b12.trans a12, b13.trans a13, ?_⟩
  · rw [b3, a3]
  · rw [b14, a14]

theorem State.OnlyPath.trans (h : s.OnlyPath t) (h' : t.OnlyPath u) : s.OnlyPath u := by
  rw [onlyPath_iff] at *
  obtain ⟨a1, a2, a3, a4, a5, a6, a7, a8, a9, a10, a11, a12, a13⟩ := h
  obtain ⟨b1, b2, b3, b4, b5, b6, b7, b8, b9, b10, b11, b12, b13⟩ := h'
  refine ⟨b1.trans a1, b2.trans a2, ?_, b4.trans a4, b5.trans a5, b6.trans a6, b7.trans a7, b8.trans a8, b9.trans a9, ?_,
    b11.trans a11, b12.trans a12, b13.trans a13⟩
  · rw [b3, a3]
  · rw [b10, a10]

theorem State.OnlySessions.trans (h : s.OnlySessions t) (h' : t.OnlySessions u) : s.OnlySessions u := by
  rw [onlySessions_iff] at *
  obtain ⟨a1, a2, a3, a4, a5, a6, a7, a8, a9, a10, a11, a12⟩ := h
  obtain ⟨b1, b2, b3, b4, b5, b6, b7, b8, b9, b10, b11, b12⟩ := h'
  refine ⟨b1.trans a1, b2.trans a2, ?_, ?_, b5.trans a5, b6.trans a6, ?_, b8.trans a8, ?_, b10.trans a10, b11.trans a11, ?_⟩
  · rw [b3, a3]
  · rw [b4, a4]
  · rw [b7, a7]
  · rw [b9, a9]
  · rw [b12, a12]

theorem State.OnlyRun.trans (h : s.OnlyRun t) (h' : t.OnlyRun u) : s.OnlyRun u := by
  rw [onlyRun_iff] at *
  obtain ⟨a1, a2, a3, a4, a5, a6, a7, a8, a9, a10, a11, a12⟩ := h
  obtain ⟨b1, b2, b3, b4, b5, b6, b7, b8, b9, b10, b11, b12⟩ := h'
  refine ⟨b1.trans a1, b2.trans a2, ?_, b4.trans a4, b5.trans a5, b6.trans a6, ?_, ?_, ?_, ?_, ?_, ?_⟩
  · rw [b3, a3]
  · rw [b7, a7]
  · rw [b8, a8]
  · rw [b9, a9]
  · rw [b10, a10]
  · rw [b11, a11]
  · rw [b12, a12]

theorem State.OnlyPath.sessions (h : s.OnlyPath t) : s.OnlySessions t := by
  rw [onlyPath_iff] at h; rw [onlySessions_iff]
  obtain ⟨a1, a2, a3, a4, a5, a6, a7, a8, a9, a10, a11, a12, a13⟩ := h
  simp only [a1, a2, a4, a5, a6, a8, a9, a11, a12, a13]
  exact ⟨trivial, trivial, a3, trivial, trivial, trivial, trivial, trivial, a10, trivial, trivial, trivial⟩

theorem State.OnlyPath.run (h : s.OnlyPath t) : s.OnlyRun t := by
  rw [onlyPath_iff] at h; rw [onlyRun_iff]
  obtain ⟨a1, a2, a3, a4, a5, a6, a7, a8, a9, a10, a11, a12, a13⟩ := h
  simp only [a1, a2, a4, a5, a6, a8, a9, a11, a12, a13]
  exact ⟨trivial, trivial, a3, trivial, trivial, trivial, trivial, trivial, a10, trivial, trivial, trivial⟩

theorem State.OnlyQueue.sessions (h : s.OnlyQueue t) : s.OnlySessions t := by
  rw [onlyQueue_iff] at h; rw [onlySessions_iff]
  obtain ⟨a1, a2, a3, a4, a5, a6, a7, a8, a9, a10, a11, a12, a13, a14⟩ := h
  simp only [a1, a2, a4, a5, a7, a9, a10, a11, a12, a13]
  exact ⟨trivial, trivial, a3, trivial, trivial, trivial, trivial, trivial, trivial, trivial, trivial, a14⟩

theorem State.OnlyQueue.run (h : s.OnlyQueue t) : s.OnlyRun t := by
  rw [onlyQueue_iff] at h; rw [onlyRun_iff]
  obtain ⟨a1, a2, a3, a4, a5, a6, a7, a8, a9, a10, a11, a12, a13, a14⟩ := h
  simp only [a1, a2, a4, a5, a7, a9, a10, a11, a12, a13]
  exact ⟨trivial, trivial, a3, trivial, trivial, trivial, trivial, trivial, trivial, trivial, trivial, a14⟩

/-! ## The upstream FIFO -/

/-- The bounds of R160 and R169 are kept. -/
def QueueKept (s t : State) : Prop :=
  s.link.fifo.length ≤ 32 ∧ s.noticeCount ≤ 24 → t.link.fifo.length ≤ 32 ∧ t.noticeCount ≤ 24

theorem QueueKept.refl (s : State) : QueueKept s s := id

theorem QueueKept.trans (h : QueueKept s t) (h' : QueueKept t u) : QueueKept s u := h' ∘ h

/-- A change that leaves the FIFO as it was. -/
theorem QueueKept.of_fifo (h : t.link.fifo = s.link.fifo) : QueueKept s t := by
  unfold QueueKept State.noticeCount; rw [h]; exact id

theorem answer_queue (f : UpFrame) (hf : f.isNotice = false) (s : State) : QueueKept s (answer f s) := by
  unfold answer; split
  · rename_i h
    rintro ⟨h1, h2⟩
    simp only [State.noticeCount] at *
    simp only [List.filter_append, List.length_append, List.filter_cons, hf, List.length_cons, List.length_nil]
    simp [Config.upstreamEntries] at *; omega
  · exact QueueKept.of_fifo rfl

theorem notify_queue (b : NoticeBody) (s : State) : QueueKept s (notify b s) := by
  unfold notify; split
  · split
    · rename_i h
      rintro ⟨h1, h2⟩
      simp only [State.noticeCount] at *
      simp only [List.filter_append, List.length_append]
      have : (List.filter (·.isNotice) [UpFrame.notice ⟨b, s.stampedSecond, s.link.clockSet⟩]).length = 1 := rfl
      simp only [List.length_singleton]
      simp only [Config.upstreamNotices, Config.upstreamEntries] at h
      exact ⟨by omega, by omega⟩
    · exact QueueKept.of_fifo rfl
  · exact QueueKept.refl s

theorem reply_queue (p g : Nat) (c : ReplyCode) (b : ReplyBody) (s : State) : QueueKept s (reply p g c b s) :=
  answer_queue _ rfl s

theorem answer_onlyQueue (f : UpFrame) (s : State) : s.OnlyQueue (answer f s) := by
  unfold answer State.OnlyQueue; split <;> rfl

theorem answer_onlyPath (f : UpFrame) (s : State) : s.OnlyPath (answer f s) := by
  unfold answer State.OnlyPath; split <;> rfl

theorem notify_onlyQueue (b : NoticeBody) (s : State) : s.OnlyQueue (notify b s) := by
  unfold notify State.OnlyQueue; repeat' split
  all_goals rfl

@[simp] theorem answer_berths (f : UpFrame) (s : State) : (answer f s).berths = s.berths := by unfold answer; split <;> rfl
@[simp] theorem answer_path (f : UpFrame) (s : State) : (answer f s).path = s.path := by unfold answer; split <;> rfl
@[simp] theorem answer_bus (f : UpFrame) (s : State) : (answer f s).bus = s.bus := by unfold answer; split <;> rfl
@[simp] theorem reply_berths (p g : Nat) (c : ReplyCode) (b : ReplyBody) (s : State) : (reply p g c b s).berths = s.berths :=
  answer_berths _ s
@[simp] theorem reply_path (p g : Nat) (c : ReplyCode) (b : ReplyBody) (s : State) : (reply p g c b s).path = s.path :=
  answer_path _ s

/-- What a notice leaves as it was. -/
@[simp] theorem notify_same (b : NoticeBody) (s : State) :
    (notify b s).pending = s.pending ∧ (notify b s).ctl = s.ctl ∧ (notify b s).bus = s.bus ∧ (notify b s).meter = s.meter ∧
    (notify b s).berths = s.berths ∧ (notify b s).groups = s.groups ∧ (notify b s).fleet = s.fleet ∧
    (notify b s).runs = s.runs ∧ (notify b s).alloc = s.alloc ∧ (notify b s).path = s.path ∧
    (notify b s).storage = s.storage ∧ (notify b s).reserve = s.reserve := by
  unfold notify; repeat' split
  all_goals exact ⟨rfl, rfl, rfl, rfl, rfl, rfl, rfl, rfl, rfl, rfl, rfl, rfl⟩

end Sys2Proof.Machine
end

