-- ==== Sys2Proof/Laws/Path.lean ====
section
/-! SUPPORT. Laws/Path.lean: what the Setpoint Path's shared operations can do (Machine/SetpointPath.lean), once each: they
write the list, the queue and setpoint states, answer tags, and nothing else. -/

namespace Sys2Proof.Machine

variable {s t u : State}

/-- What an operation of the Setpoint Path may do: of the berth records it changes setpoint states alone. -/
structure PathStep (s t : State) : Prop where
  only : s.OnlyPath t
  queue : QueueKept s t
  length : t.berths.length = s.berths.length
  berth : ∀ y, t.berth y = { s.berth y with setpoint := (t.berth y).setpoint }

theorem PathStep.refl (s : State) : PathStep s s := ⟨State.OnlyPath.refl s, QueueKept.refl s, rfl, fun _ => rfl⟩

theorem PathStep.trans (h : PathStep s t) (h' : PathStep t u) : PathStep s u :=
  ⟨h.only.trans h'.only, h.queue.trans h'.queue, h'.length.trans h.length, fun y => by rw [h'.berth y, h.berth y]⟩

/-- An operation that leaves the berth records as they were. -/
theorem PathStep.of_berths (h : s.OnlyPath t) (q : QueueKept s t) (b : t.berths = s.berths) : PathStep s t :=
  ⟨h, q, by rw [b], fun y => by rw [berth_congr b]⟩

theorem PathStep.foldl {α : Type} (f : State → α → State) (h : ∀ s a, PathStep s (f s a)) (l : List α) (s : State) :
    PathStep s (l.foldl f s) := by
  induction l generalizing s with
  | nil => exact PathStep.refl s
  | cons a l ih => exact (h s a).trans (ih _)

/-! ## Reads that a setpoint state does not touch -/

theorem leaderOf_congr (h : ∀ y, (t.berth y).coupling = (s.berth y).coupling ∧ (t.berth y).partner = (s.berth y).partner ∧
    (t.berth y).configured = (s.berth y).configured) (x : Nat) : t.leaderOf x = s.leaderOf x := by
  unfold State.leaderOf
  rw [(h x).1, (h x).2.1]
  cases (s.berth x).partner with
  | none => rfl
  | some l => simp only [(h l).1, (h l).2.1, (h l).2.2]

theorem followerOf_congr (h : ∀ y, (t.berth y).coupling = (s.berth y).coupling ∧ (t.berth y).partner = (s.berth y).partner ∧
    (t.berth y).configured = (s.berth y).configured) (x : Nat) : t.followerOf x = s.followerOf x := by
  unfold State.followerOf
  rw [(h x).1, (h x).2.1]
  cases (s.berth x).partner with
  | none => rfl
  | some l => simp only [(h l).1, (h l).2.1, (h l).2.2]

theorem PathStep.followerOf (h : PathStep s t) (x : Nat) : t.followerOf x = s.followerOf x :=
  followerOf_congr (fun y => by rw [h.berth y]; exact ⟨rfl, rfl, rfl⟩) x

theorem PathStep.pairSum (h : PathStep s t) (f : Berth → Int) (hf : ∀ b p, f { b with setpoint := p } = f b) (x : Nat) :
    t.pairSum f x = s.pairSum f x := by
  unfold State.pairSum
  rw [h.followerOf x, h.berth x, hf]
  cases s.followerOf x with
  | none => rfl
  | some p => simp only; rw [h.berth p]; exact congrArg _ (hf _ _)

theorem PathStep.pairCommanded (h : PathStep s t) (x : Nat) : t.pairCommanded x = s.pairCommanded x :=
  h.pairSum _ (fun _ _ => rfl) x

theorem PathStep.pairConfirmed (h : PathStep s t) (x : Nat) : t.pairConfirmed x = s.pairConfirmed x :=
  h.pairSum _ (fun _ _ => rfl) x

theorem PathStep.commandedNonzero (h : PathStep s t) (x : Nat) : t.commandedNonzero x = s.commandedNonzero x := by
  unfold State.commandedNonzero
  rw [h.followerOf x, h.berth x]
  cases s.followerOf x with
  | none => rfl
  | some p => simp only; rw [h.berth p]

theorem PathStep.target (h : PathStep s t) (x : Nat) : t.target x = s.target x := by
  unfold State.target; rw [h.berth x]

/-! ## The operations -/

theorem supersede_step (x tag : Nat) (s : State) : PathStep s (supersede x tag s) := by
  unfold supersede; split
  · exact PathStep.refl s
  · exact .of_berths (answer_onlyPath _ s) (reply_queue _ _ _ _ s) (by simp)

@[simp] theorem supersede_path (x tag : Nat) (s : State) : (supersede x tag s).path = s.path := by
  unfold supersede; split <;> simp

@[simp] theorem supersede_berths (x tag : Nat) (s : State) : (supersede x tag s).berths = s.berths := by
  unfold supersede; split <;> simp

theorem addEntry_step (x tag : Nat) (s : State) : PathStep s (addEntry x tag s) := .of_berths rfl (.of_fifo rfl) rfl

theorem addTrim_step (x : Nat) (a : OldAddress) (s : State) : PathStep s (addTrim x a s) := .of_berths rfl (.of_fifo rfl) rfl

@[simp] theorem agedFrom_length (first : Nat) (l : List Entry) : (agedFrom first l).length = l.length := by
  induction l generalizing first with
  | nil => rfl
  | cons e l ih => simp [agedFrom, ih]

/-- R54: consecutive ages in the order of the list. -/
theorem agedFrom_ages (first : Nat) (l : List Entry) : (agedFrom first l).map (·.age) = List.range' first l.length := by
  induction l generalizing first with
  | nil => rfl
  | cons e l ih => simp [agedFrom, ih, List.range'_succ]

/-- R54: nothing but the age changes. -/
theorem agedFrom_same (first : Nat) (l : List Entry) :
    (agedFrom first l).map (fun e => { e with age := 0 }) = l.map fun e => { e with age := 0 } := by
  induction l generalizing first with
  | nil => rfl
  | cons e l ih => simp [agedFrom, ih]

/-- R54: `ageByBerth` is a change of the pending list alone. -/
theorem ageByBerth_step (first : Nat) (s : State) : PathStep s (ageByBerth first s) := .of_berths rfl (.of_fifo rfl) rfl

@[simp] theorem ageByBerth_bus (first : Nat) (s : State) : (ageByBerth first s).bus = s.bus := rfl

theorem tagEntry_step (x tag : Nat) (s : State) : PathStep s (tagEntry x tag s) := .of_berths rfl (.of_fifo rfl) rfl

theorem removeEntry_step (x : Nat) (s : State) : PathStep s (removeEntry x s) := .of_berths rfl (.of_fifo rfl) rfl

theorem removeQueued_step (x : Nat) (s : State) : PathStep s (removeQueued x s) := .of_berths rfl (.of_fifo rfl) rfl

theorem setSetpointState_step (x : Nat) (p : SetpointState) (s : State) : PathStep s (setSetpointState x p s) := by
  refine ⟨rfl, .of_fifo rfl, by simp [setSetpointState], fun y => ?_⟩
  unfold setSetpointState; rw [berth_editBerth]
  split
  · rename_i h; rw [h.1]
  · rfl

theorem originateEntry_step (x : Nat) (s : State) : PathStep s (originateEntry x s) := by
  unfold originateEntry; split
  · exact addEntry_step _ _ s
  · exact PathStep.refl s

theorem requestEntry_step (x tag : Nat) (s : State) : PathStep s (requestEntry x tag s) := by
  unfold requestEntry; split
  · exact addEntry_step _ _ s
  · exact (supersede_step _ _ s).trans (tagEntry_step _ _ _)

theorem joinQueue_step (x tag : Nat) (s : State) : PathStep s (joinQueue x tag s) := by
  have hw : PathStep s (setSetpointState x .startQueued (removeEntry x
      (if tag = 0 then s else supersede x (heldTag x s) s))) := by
    refine (PathStep.trans ?_ (removeEntry_step _ _)).trans (setSetpointState_step _ _ _)
    split
    · exact PathStep.refl s
    · exact supersede_step _ _ s
  unfold joinQueue; split
  · split
    · exact originateEntry_step x s
    · exact requestEntry_step x tag s
  dsimp only
  revert hw; generalize setSetpointState x .startQueued _ = w; intro hw
  refine hw.trans ?_
  cases w.queuedOf x <;> exact .of_berths rfl (.of_fifo rfl) rfl

theorem leaveQueue_step (x : Nat) (s : State) : PathStep s (leaveQueue x s) := by
  unfold leaveQueue
  have h := (removeQueued_step x s).trans (setSetpointState_step x .idle _)
  dsimp only; split
  · exact h
  · exact h.trans (requestEntry_step _ _ _)

theorem withdrawWork_step (x : Nat) (s : State) : PathStep s (withdrawWork x s) := by
  unfold withdrawWork
  exact (((setSetpointState_step _ _ s).trans (supersede_step _ _ _)).trans (removeQueued_step _ _)).trans
    ((supersede_step _ _ _).trans (removeEntry_step _ _))

theorem zeroTrim_step (x : Nat) (s : State) : PathStep s (zeroTrim x s) := by
  unfold zeroTrim; split
  · exact originateEntry_step _ s
  · exact PathStep.refl s

theorem pathGrantZeroed_step (x : Nat) (s : State) : PathStep s (pathGrantZeroed x s) := by
  unfold pathGrantZeroed; dsimp only; split
  · exact PathStep.refl s
  · split
    · exact leaveQueue_step _ s
    · split
      · exact originateEntry_step _ s
      · exact PathStep.refl s
    · exact PathStep.refl s

theorem carryRequest_step (x tag : Nat) (s : State) : PathStep s (carryRequest x tag s) := by
  unfold carryRequest; split
  · exact requestEntry_step _ _ s
  · split
    · exact joinQueue_step _ _ s
    · exact (leaveQueue_step _ s).trans (requestEntry_step _ _ _)
  · split
    · exact joinQueue_step _ _ s
    · exact requestEntry_step _ _ s

theorem recompute_step (x : Nat) (s : State) : PathStep s (recompute x s) := by
  unfold recompute; dsimp only; split
  · exact PathStep.refl s
  · split
    · split
      · exact originateEntry_step _ s
      · exact PathStep.refl s
    · split
      · exact leaveQueue_step _ s
      · exact PathStep.refl s
    · split
      · split
        · exact joinQueue_step _ _ s
        · exact PathStep.refl s
      · split
        · exact addEntry_step _ _ s
        · exact PathStep.refl s

theorem recomputeAll_step (s : State) : PathStep s (recomputeAll s) := PathStep.foldl _ (fun s x => recompute_step x s) _ s

theorem zeroSent_step (x : Nat) (s : State) : PathStep s (zeroSent x s) := by
  unfold zeroSent; split
  · exact (setSetpointState_step x .idle s).trans (joinQueue_step _ _ _)
  · exact leaveQueue_step x s

theorem releaseWork_step (x : Nat) (s : State) : PathStep s (releaseWork x s) := by
  unfold releaseWork; split
  · exact PathStep.refl s
  · rename_i e _
    have h : PathStep s { s with path := { s.path with waiting := s.path.waiting.filter fun e => !e.ownOf x } } :=
      .of_berths rfl (.of_fifo rfl) rfl
    exact h.trans (addEntry_step _ _ _)

theorem holdWork_step (x : Nat) (s : State) : PathStep s (holdWork x s) := by
  unfold holdWork; dsimp only
  refine PathStep.trans (t := if (s.queuedOf x).toList.map (fun q => (⟨x, q.tag, s.path.nextAge, none⟩ : Entry)) = [] then s
    else setSetpointState x .idle (removeQueued x s)) ?_ (.of_berths rfl (.of_fifo rfl) rfl)
  split
  · exact PathStep.refl s
  · exact (removeQueued_step x s).trans (setSetpointState_step _ _ _)

theorem returnEntry_step (e : Entry) (s : State) : PathStep s (returnEntry e s) := .of_berths rfl (.of_fifo rfl) rfl

theorem dropEntry_step (e : Entry) (s : State) : PathStep s (dropEntry e s) := .of_berths rfl (.of_fifo rfl) rfl

theorem placeReturned_step (tx : SetpointTx) (s : State) : PathStep s (placeReturned tx s) := by
  unfold placeReturned; dsimp only; split
  · split
    · exact PathStep.refl s
    · exact (holdWork_step _ s).trans (returnEntry_step _ _)
  · split
    · exact supersede_step _ _ s
    · split
      · split
        · exact .of_berths rfl (.of_fifo rfl) rfl
        · exact supersede_step _ _ s
      · refine PathStep.trans ?_ ((removeEntry_step _ _).trans (returnEntry_step _ _))
        split
        · exact PathStep.refl s
        · exact supersede_step _ _ s
      · exact returnEntry_step _ s

theorem releaseStart_step (s : State) : PathStep s (releaseStart s) := by
  unfold releaseStart; split
  · exact PathStep.refl s
  · rename_i q rest _
    have h : PathStep s { s with path := { s.path with queue := rest } } := .of_berths rfl (.of_fifo rfl) rfl
    dsimp only; split
    · exact h.trans ((setSetpointState_step _ _ _).trans (addEntry_step _ _ _))
    · refine h.trans ((setSetpointState_step q.berth .idle _).trans ?_)
      split
      · exact PathStep.refl _
      · exact addEntry_step _ _ _

end Sys2Proof.Machine
end

