-- ==== Sys2Proof/Laws/PathWork.lean ====
section
/-! SUPPORT. Laws/PathWork.lean: what each operation of the Setpoint Path makes of a berth's entry on the pending list and of
its place in the start queue. -/

namespace Sys2Proof.Machine

variable {s t : State}

theorem ownOf_iff (x : Nat) (e : Entry) : e.ownOf x = true ↔ e.berth = x ∧ e.old = none := by simp [Entry.ownOf]

/-- An entry found for berth `x` is its own. -/
theorem entryOf_own {x : Nat} {e : Entry} (h : s.entryOf x = some e) : e.berth = x ∧ e.old = none :=
  (ownOf_iff x e).mp (List.find?_some h)

theorem entryOf_congr (h : t.path.list = s.path.list) (w : t.path.waiting = s.path.waiting) (x : Nat) :
    t.entryOf x = s.entryOf x := by
  unfold State.entryOf; rw [h, w]

theorem entryOf_congr_path (h : t.path = s.path) (x : Nat) : t.entryOf x = s.entryOf x := by
  unfold State.entryOf; rw [h]

theorem queuedOf_congr (h : t.path.queue = s.path.queue) (x : Nat) : t.queuedOf x = s.queuedOf x := by
  unfold State.queuedOf; rw [h]

/-! ## The start queue -/

@[simp] theorem setSetpointState_path (x : Nat) (p : SetpointState) (s : State) : (setSetpointState x p s).path = s.path := rfl
@[simp] theorem removeEntry_queue (x : Nat) (s : State) : (removeEntry x s).path.queue = s.path.queue := rfl
@[simp] theorem tagEntry_queue (x g : Nat) (s : State) : (tagEntry x g s).path.queue = s.path.queue := rfl
@[simp] theorem addEntry_queue (x g : Nat) (s : State) : (addEntry x g s).path.queue = s.path.queue := rfl
@[simp] theorem addEntry_nextAge (x g : Nat) (s : State) : (addEntry x g s).path.nextAge = s.path.nextAge + 1 := rfl
@[simp] theorem addTrim_queue (x : Nat) (a : OldAddress) (s : State) : (addTrim x a s).path.queue = s.path.queue := rfl
@[simp] theorem removeQueued_list (x : Nat) (s : State) : (removeQueued x s).path.list = s.path.list := rfl

@[simp] theorem originateEntry_queue (x : Nat) (s : State) : (originateEntry x s).path.queue = s.path.queue := by
  unfold originateEntry; split <;> rfl
@[simp] theorem requestEntry_queue (x g : Nat) (s : State) : (requestEntry x g s).path.queue = s.path.queue := by
  unfold requestEntry; split <;> simp
@[simp] theorem zeroTrim_queue (x : Nat) (s : State) : (zeroTrim x s).path.queue = s.path.queue := by
  unfold zeroTrim; split <;> simp

theorem removeQueued_queue (x : Nat) (s : State) :
    (removeQueued x s).path.queue = s.path.queue.filter fun q => decide (q.berth ≠ x) := rfl

theorem withdrawWork_queue (x : Nat) (s : State) :
    (withdrawWork x s).path.queue = s.path.queue.filter fun q => decide (q.berth ≠ x) := by
  simp [withdrawWork, removeQueued_queue]

theorem leaveQueue_queue (x : Nat) (s : State) :
    (leaveQueue x s).path.queue = s.path.queue.filter fun q => decide (q.berth ≠ x) := by
  unfold leaveQueue; dsimp only; split <;> simp [removeQueued_queue]

/-- A queue without berth `x`. -/
theorem queuedOf_filter {x y : Nat} (h : t.path.queue = s.path.queue.filter fun q => decide (q.berth ≠ x)) :
    t.queuedOf y = if y = x then none else s.queuedOf y := by
  unfold State.queuedOf; rw [h, List.find?_filter]
  split
  · rename_i e; subst e; simp [List.find?_eq_none]
  · rename_i e
    congr 1; funext q
    by_cases hq : q.berth = y
    · subst hq; simp [e]
    · simp [hq]

/-! ## The pending list -/

/-- Of the lists an own entry is looked for in, `addEntry` lengthens one by the new entry. -/
theorem entryOf_addEntry (x y g : Nat) (s : State) (h : y = x → s.entryOf x = none) :
    (addEntry x g s).entryOf y = if y = x then some ⟨x, g, s.path.nextAge, none⟩ else s.entryOf y := by
  split
  · rename_i e; subst e
    have hn := h rfl
    unfold State.entryOf at hn ⊢; unfold addEntry
    simp only [List.find?_append, Option.or_eq_none_iff] at hn ⊢
    have he : Entry.ownOf y ⟨y, g, s.path.nextAge, none⟩ = true := by simp [Entry.ownOf]
    split <;> simp only [List.find?_append, hn.1, hn.2, List.find?_singleton, he, if_true, Option.none_or, Option.or_none]
  · rename_i e
    unfold State.entryOf addEntry
    simp only [List.find?_append]
    split <;> simp [List.find?_append, Entry.ownOf, Ne.symm e]

theorem entryOf_addEntry_self {x : Nat} (g : Nat) (h : s.entryOf x = none) :
    (addEntry x g s).entryOf x = some ⟨x, g, s.path.nextAge, none⟩ := by
  rw [entryOf_addEntry x x g s fun _ => h, if_pos rfl]

theorem entryOf_addEntry_ne {x y : Nat} (hy : y ≠ x) (g : Nat) (s : State) : (addEntry x g s).entryOf y = s.entryOf y := by
  rw [entryOf_addEntry x y g s fun h => absurd h hy, if_neg hy]

theorem entryOf_addTrim (x y : Nat) (a : OldAddress) (s : State) : (addTrim x a s).entryOf y = s.entryOf y := by
  unfold State.entryOf addTrim
  simp [List.find?_append, Entry.ownOf]

theorem entryOf_removeEntry (x y : Nat) (s : State) :
    (removeEntry x s).entryOf y = if y = x then none else s.entryOf y := by
  unfold State.entryOf removeEntry; simp only [← List.filter_append, List.find?_filter]
  split
  · rename_i e; subst e; simp [List.find?_eq_none]
  · rename_i e
    congr 1; funext q
    by_cases hq : q.berth = y
    · subst hq; simp [Entry.ownOf, e]
    · simp [Entry.ownOf, hq]

theorem ownOf_retag (x y g : Nat) (e : Entry) : Entry.ownOf y (if e.ownOf x then { e with tag := g } else e) = e.ownOf y := by
  split <;> rfl

theorem entryOf_tagEntry (x y g : Nat) (s : State) :
    (tagEntry x g s).entryOf y = (s.entryOf y).map fun e => if y = x then { e with tag := g } else e := by
  unfold State.entryOf tagEntry; simp only [← List.map_append, List.find?_map]
  have : ((fun e : Entry => e.ownOf y) ∘ fun e : Entry => if e.ownOf x then { e with tag := g } else e) =
      fun e : Entry => e.ownOf y := by
    funext e; exact ownOf_retag x y g e
  rw [this]
  cases h : (s.path.list ++ s.path.waiting).find? (fun e => e.ownOf y) with
  | none => rfl
  | some e =>
    have := (ownOf_iff y e).mp (List.find?_some h)
    simp only [Option.map_some, Entry.ownOf, this.1, this.2]
    by_cases hy : y = x <;> simp [hy]

theorem entryOf_requestEntry (x g : Nat) (s : State) :
    (requestEntry x g s).entryOf x = some ⟨x, g, match s.entryOf x with
      | some e => e.age
      | none => s.path.nextAge, none⟩ := by
  unfold requestEntry
  cases h : s.entryOf x with
  | none => exact entryOf_addEntry_self g h
  | some e =>
    have := entryOf_own h
    simp only [entryOf_tagEntry, entryOf_congr_path (supersede_path x e.tag s), h, Option.map_some, if_true]
    rw [this.1, this.2]

theorem entryOf_requestEntry_ne {x y : Nat} (hy : y ≠ x) (g : Nat) (s : State) :
    (requestEntry x g s).entryOf y = s.entryOf y := by
  unfold requestEntry
  cases h : s.entryOf x with
  | none => exact entryOf_addEntry_ne hy g s
  | some e =>
    simp only [entryOf_tagEntry, hy, if_false, Option.map_id']
    exact entryOf_congr_path (by simp) y

theorem entryOf_originateEntry (x : Nat) (s : State) :
    (originateEntry x s).entryOf x = some ((s.entryOf x).getD ⟨x, 0, s.path.nextAge, none⟩) := by
  unfold originateEntry
  cases h : s.entryOf x with
  | none => simp [entryOf_addEntry_self 0 h]
  | some e => simp [h]

theorem entryOf_originateEntry_ne {x y : Nat} (hy : y ≠ x) (s : State) : (originateEntry x s).entryOf y = s.entryOf y := by
  unfold originateEntry; split
  · exact entryOf_addEntry_ne hy _ s
  · rfl

theorem entryOf_zeroTrim (x : Nat) (s : State) : (zeroTrim x s).entryOf x =
    if s.commandedNonzero x then some ((s.entryOf x).getD ⟨x, 0, s.path.nextAge, none⟩) else s.entryOf x := by
  unfold zeroTrim; split
  · exact entryOf_originateEntry x s
  · rfl

theorem withdrawWork_list (x : Nat) (s : State) :
    (withdrawWork x s).path.list = s.path.list.filter fun e => !e.ownOf x := by
  simp [withdrawWork, removeEntry]

theorem withdrawWork_waiting (x : Nat) (s : State) :
    (withdrawWork x s).path.waiting = s.path.waiting.filter fun e => !e.ownOf x := by
  simp [withdrawWork, removeEntry, removeQueued]

theorem withdrawWork_nextAge (x : Nat) (s : State) : (withdrawWork x s).path.nextAge = s.path.nextAge := by
  simp [withdrawWork, removeEntry, removeQueued]

theorem entryOf_withdrawWork (x y : Nat) (s : State) :
    (withdrawWork x s).entryOf y = if y = x then none else s.entryOf y := by
  rw [← entryOf_removeEntry x y s]
  exact entryOf_congr (withdrawWork_list x s) (withdrawWork_waiting x s) y

theorem entryOf_leaveQueue_ne {x y : Nat} (hy : y ≠ x) (s : State) : (leaveQueue x s).entryOf y = s.entryOf y := by
  unfold leaveQueue; dsimp only; split
  · rfl
  · rw [entryOf_requestEntry_ne hy]; rfl

end Sys2Proof.Machine
end

