-- ==== Sys2Proof/Laws/Sessions.lean ====
section
/-! SUPPORT. Laws/Sessions.lean: what the Berth Table's session operations can do, once each: they stay inside the frame
`OnlySessions`, and keep the association one-to-one (R19) and the grants where they are allowed (R89 Law 2). -/

namespace Sys2Proof.Machine

variable {s t u : State}

/-! ## A berth record on its own -/

/-- What `State.Granted` asks of one berth record. -/
structure BerthOk (mode : Mode) (groups : List Group) (b : Berth) : Prop where
  grant : b.grant ≠ 0 → mode = .run ∧ b.session = .serving ∧ b.coupling ≠ .follower ∧
    ∃ g, b.group = some g ∧ (groups.getD g ⟨0, false⟩).enable = true
  group : b.group.isSome = b.configured
  session : b.session = .unconfigured ↔ b.configured = false
  follower : b.session = .follower ↔ b.configured = true ∧ b.coupling = .follower

theorem granted_iff : s.Granted ↔ s.berths.length = 36 ∧ ∀ x, BerthOk s.ctl.mode s.groups (s.berth x) :=
  ⟨fun h => ⟨h.berths, fun x => ⟨h.grant x, h.group x, h.session x, h.follower x⟩⟩,
   fun h => ⟨h.1, fun x => (h.2 x).grant, fun x => (h.2 x).group, fun x => (h.2 x).session, fun x => (h.2 x).follower⟩⟩

theorem blank_ok (m : Mode) (g : List Group) : BerthOk m g Berth.blank := by
  constructor <;> simp [Berth.blank]

/-- Outside SERVING there is no grant. -/
theorem BerthOk.idle {m : Mode} {g : List Group} {b : Berth} (h : BerthOk m g b) (hs : b.session ≠ .serving) : b.grant = 0 := by
  by_contra hg; exact hs (h.grant hg).2.1

/-! ## The association -/

theorem associated_lt (h : s.Associated) {b x : Nat} (hb : (s.fleetBus b).berth = some x) : 1 ≤ b ∧ b ≤ 64 ∧ x < 36 := by
  have h2 := (h.both b x).mp hb
  refine ⟨?_, ?_, ?_⟩
  · by_contra hc
    have : b = 0 := by omega
    subst this; simp [State.fleetBus, Bus.unused] at hb
  · by_contra hc
    have : (s.fleetBus b) = Bus.unused := by
      unfold State.fleetBus
      rw [List.getD_eq_getElem?_getD, List.getElem?_eq_none (by simp [h.fleet]; omega)]; rfl
    rw [this] at hb; simp [Bus.unused] at hb
  · by_contra hc
    have : s.berth x = Berth.blank := by
      unfold State.berth
      rw [List.getD_eq_getElem?_getD, List.getElem?_eq_none (by simp [h.berths]; omega)]; rfl
    rw [this] at h2; simp [Berth.blank] at h2

theorem fleetBus_out (b : Nat) (h : b = 0 ∨ s.fleet.length < b) : s.fleetBus b = Bus.unused := by
  unfold State.fleetBus
  rcases h with h | h
  · subst h; rfl
  · rw [List.getD_eq_getElem?_getD, List.getElem?_eq_none (by simp; omega)]; rfl

theorem berth_out (x : Nat) (h : s.berths.length ≤ x) : s.berth x = Berth.blank := by
  unfold State.berth
  rw [List.getD_eq_getElem?_getD, List.getElem?_eq_none h]; rfl

/-- What a dissociation makes of the bus records. -/
theorem fleetBus_dissociate (x b : Nat) (s : State) : (dissociate x s).fleetBus b =
    if (s.berth x).bus = some b then { s.fleetBus b with berth := none } else s.fleetBus b := by
  unfold dissociate
  cases hb : (s.berth x).bus with
  | none => simp
  | some c =>
    simp only [fleetBus_editBus, Option.some.injEq]
    by_cases hc : b = c
    · subst hc
      simp only [true_and, if_true]
      split
      · rfl
      · rename_i h
        have : s.fleetBus b = Bus.unused := fleetBus_out b (by
          simp only [editBerth_self_same] at h; omega)
        change s.fleetBus b = _
        rw [this]; rfl
    · simp only [hc, Ne.symm hc, false_and, if_false]; rfl

theorem fleetBus_dissociate_used (x b : Nat) (s : State) : ((dissociate x s).fleetBus b).used = (s.fleetBus b).used := by
  rw [fleetBus_dissociate]; split <;> rfl

/-- What a dissociation makes of the berth records. -/
theorem berth_dissociate (x y : Nat) (s : State) : (dissociate x s).berth y =
    if y = x then { s.berth x with bus := none } else s.berth y := by
  unfold dissociate
  cases hb : (s.berth x).bus with
  | none =>
    simp only
    split
    · rename_i e; subst e; rw [← hb]
    · rfl
  | some c =>
    simp only [berth_congr (editBus_same _ c _).2.2.2.2.2.1, berth_editBerth]
    by_cases hy : y = x
    · subst hy
      by_cases hx : y < s.berths.length
      · simp [hx]
      · have := berth_out y (Nat.le_of_not_lt hx)
        rw [this] at hb; simp [Berth.blank] at hb
    · simp [hy]

theorem associated_dissociate (x : Nat) (h : s.Associated) : (dissociate x s).Associated := by
  refine ⟨?_, ?_, ?_, ?_⟩
  · unfold dissociate; split <;> simp [h.berths]
  · unfold dissociate; split <;> simp [h.fleet]
  · intro b y
    rw [fleetBus_dissociate, berth_dissociate]
    have hb := h.both b
    by_cases hx : (s.berth x).bus = some b
    · simp only [hx, if_true]
      have := (hb x).mpr hx
      constructor
      · intro hc; simp at hc
      · intro hc
        split at hc
        · simp at hc
        · rename_i hy; have := (hb y).mpr hc; simp_all
    · simp only [hx, if_false]
      split
      · rename_i hy; subst hy
        simp only [reduceCtorEq, iff_false]
        intro hc; exact hx ((hb y).mp hc)
      · exact hb y
  · intro b hu
    rw [fleetBus_dissociate] at hu ⊢
    split
    · rfl
    · rename_i hx; rw [if_neg hx] at hu; exact h.unused b hu

theorem fleetBus_associate (b c x : Nat) (s : State) : (associate b x s).fleetBus c =
    if c = b ∧ 1 ≤ b ∧ b ≤ s.fleet.length then { s.fleetBus b with berth := some x } else s.fleetBus c := by
  unfold associate; rw [fleetBus_editBus]; rfl

theorem berth_associate (b x y : Nat) (s : State) : (associate b x s).berth y =
    if y = x ∧ x < s.berths.length then { s.berth x with bus := some b } else s.berth y := by
  unfold associate
  rw [berth_congr (editBus_same _ b _).2.2.2.2.2.1, berth_editBerth]

theorem associated_associate {b x : Nat} (h : s.Associated) (hx : x < 36) (hb : 1 ≤ b ∧ b ≤ 64)
    (hu : (s.fleetBus b).used = true) (hfree : (s.fleetBus b).berth = none) (hguest : (s.berth x).bus = none) :
    (associate b x s).Associated := by
  refine ⟨?_, ?_, ?_, ?_⟩
  · unfold associate; simp [h.berths]
  · unfold associate; simp [h.fleet]
  · intro c y
    rw [fleetBus_associate, berth_associate, h.berths, h.fleet]
    have hbx := h.both b
    by_cases hc : c = b
    · subst hc
      simp only [hb, and_self, if_true, Option.some.injEq]
      by_cases hy : y = x
      · subst hy; simp [hx]
      · simp only [hy, false_and, if_false]
        rw [← hbx y, hfree]; simp [Ne.symm hy]
    · simp only [hc, false_and, if_false]
      by_cases hy : y = x
      · subst hy
        simp only [hx, true_and, if_true, Option.some.injEq, Ne.symm hc, iff_false]
        intro hcy; have := (h.both c y).mp hcy; simp_all
      · simp only [hy, false_and, if_false]; exact h.both c y
  · intro c hc
    rw [fleetBus_associate, h.fleet] at hc ⊢
    split
    · rename_i e; rw [if_pos e] at hc; simp [hu] at hc
    · rename_i e; rw [if_neg e] at hc; exact h.unused c hc

theorem busWithTag_some {tag : Ident} {b : Nat} (h : s.busWithTag tag = some b) :
    (s.fleetBus b).used = true ∧ (s.fleetBus b).tag = tag ∧ 1 ≤ b ∧ b ≤ 64 := by
  unfold State.busWithTag at h
  split at h
  · simp at h
  · have h1 := List.find?_some h
    have h2 := List.mem_of_find?_eq_some h
    simp only [busNumbers, List.mem_map, List.mem_range] at h2
    simp only [Bool.and_eq_true, decide_eq_true_eq] at h1
    obtain ⟨a, ha, rfl⟩ := h2
    exact ⟨h1.1, h1.2, by omega, by have : Config.buses = 64 := rfl; omega⟩

/-- A change that leaves the buses of the berths and the berths of the buses as they were. -/
theorem associated_congr (h : s.Associated) (hl : t.berths.length = s.berths.length) (hf : t.fleet.length = s.fleet.length)
    (hb : ∀ x, (t.berth x).bus = (s.berth x).bus)
    (hc : ∀ b, (t.fleetBus b).berth = (s.fleetBus b).berth ∧ (t.fleetBus b).used = (s.fleetBus b).used) : t.Associated :=
  ⟨hl.trans h.berths, hf.trans h.fleet, fun b x => by rw [hb, (hc b).1]; exact h.both b x,
   fun b hu => by rw [(hc b).1]; exact h.unused b ((hc b).2 ▸ hu)⟩

/-! ## What a session operation may do -/

/-- The line's holder, the marks of a SETPOINT on it left aside. -/
def lineKind : Line → Option Line
  | .setpointSending _ => none
  | .setpointAck _ => none
  | l => some l

/-- The frame of a session operation, with the relations it keeps. -/
structure SessionStep (s t : State) : Prop where
  only : s.OnlySessions t
  queue : QueueKept s t
  length : t.berths.length = s.berths.length
  fleetLength : t.fleet.length = s.fleet.length
  runs : t.runs.active.length = s.runs.active.length
  line : lineKind t.bus.line = lineKind s.bus.line
  assoc : s.Associated → t.Associated
  granted : s.Granted → t.Granted

theorem SessionStep.refl (s : State) : SessionStep s s := ⟨State.OnlySessions.refl s, QueueKept.refl s, rfl, rfl, rfl, rfl, id, id⟩

theorem SessionStep.trans (h : SessionStep s t) (h' : SessionStep t u) : SessionStep s u :=
  ⟨h.only.trans h'.only, h.queue.trans h'.queue, h'.length.trans h.length, h'.fleetLength.trans h.fleetLength,
   h'.runs.trans h.runs, h'.line.trans h.line, h'.assoc ∘ h.assoc, h'.granted ∘ h.granted⟩

theorem SessionStep.foldl {α : Type} (f : State → α → State) (l : List α) (h : ∀ a ∈ l, ∀ s, SessionStep s (f s a)) (s : State) :
    SessionStep s (l.foldl f s) := by
  induction l generalizing s with
  | nil => exact SessionStep.refl s
  | cons a l ih =>
    exact (h a (by simp) s).trans (ih (fun b hb => h b (by simp [hb])) _)

/-- Grants stay allowed where the mode and the groups stay and every record stays in order. -/
theorem granted_congr (h : s.Granted) (hc : t.ctl.mode = s.ctl.mode) (hg : t.groups = s.groups)
    (hl : t.berths.length = s.berths.length)
    (hb : ∀ x, BerthOk s.ctl.mode s.groups (s.berth x) → BerthOk s.ctl.mode s.groups (t.berth x)) : t.Granted := by
  rw [granted_iff] at *
  exact ⟨hl.trans h.1, fun x => by rw [hc, hg]; exact hb x (h.2 x)⟩

theorem onlySessions_same (h : s.OnlySessions t) : t.ctl = s.ctl ∧ t.groups = s.groups := by
  rw [onlySessions_iff] at h; exact ⟨h.2.1, h.2.2.2.2.2.1⟩

theorem PathStep.session (h : PathStep s t) : SessionStep s t := by
  have h2 := onlyPath_iff.mp h.only
  refine ⟨h.only.sessions, h.queue, h.length, by rw [h2.2.2.2.2.2.2.1], by rw [h2.2.2.2.2.2.2.2.1], by rw [h2.2.2.2.1], ?_, ?_⟩
  · intro ha
    refine associated_congr ha h.length (by rw [h2.2.2.2.2.2.2.1]) (fun x => by rw [h.berth x]) (fun b => ?_)
    rw [fleetBus_congr h2.2.2.2.2.2.2.1]; exact ⟨rfl, rfl⟩
  · intro hg
    refine granted_congr hg (by rw [h2.2.1]) h2.2.2.2.2.2.1 h.length (fun x hx => ?_)
    rw [h.berth x]; exact ⟨hx.grant, hx.group, hx.session, hx.follower⟩

theorem notify_step (b : NoticeBody) (s : State) : SessionStep s (notify b s) := by
  have h := notify_same b s
  refine ⟨(notify_onlyQueue b s).sessions, notify_queue b s, by rw [h.2.2.2.2.1], by rw [h.2.2.2.2.2.2.1],
    by rw [h.2.2.2.2.2.2.2.1], by rw [h.2.2.1], ?_, ?_⟩
  · intro ha
    exact associated_congr ha (by rw [h.2.2.2.2.1]) (by rw [h.2.2.2.2.2.2.1])
      (fun x => by rw [berth_congr h.2.2.2.2.1]) (fun c => by rw [fleetBus_congr h.2.2.2.2.2.2.1]; exact ⟨rfl, rfl⟩)
  · intro hg
    exact granted_congr hg (by rw [h.2.1]) h.2.2.2.2.2.1 (by rw [h.2.2.2.2.1])
      (fun x hx => by rw [berth_congr h.2.2.2.2.1]; exact hx)

/-- A change of one berth record that keeps its bus, and keeps it in order. -/
theorem editBerth_step (x : Nat) (f : Berth → Berth) (s : State) (hbus : ∀ b, (f b).bus = b.bus)
    (hok : BerthOk s.ctl.mode s.groups (s.berth x) → BerthOk s.ctl.mode s.groups (f (s.berth x))) :
    SessionStep s (s.editBerth x f) := by
  refine ⟨State.OnlyPath.sessions rfl, .of_fifo rfl, by simp, rfl, rfl, rfl, ?_, ?_⟩
  · intro ha
    exact associated_congr ha (by simp) rfl (fun y => berth_editBerth_field (·.bus) s x y f hbus) (fun _ => ⟨rfl, rfl⟩)
  · intro hg
    refine granted_congr hg rfl rfl (by simp) (fun y hy => ?_)
    rw [berth_editBerth]; split
    · rename_i h; rw [h.1] at hy; exact hok hy
    · exact hy

/-- A change of one bus record that keeps its berth and its use. -/
theorem editBus_step (b : Nat) (f : Bus → Bus) (s : State) (hf : ∀ r, (f r).berth = r.berth ∧ (f r).used = r.used) :
    SessionStep s (s.editBus b f) := by
  have h := editBus_same s b f
  refine ⟨?_, .of_fifo (by rw [h.2.2.1]), by rw [h.2.2.2.2.2.1], by simp, by rw [h.2.2.2.2.2.2.2.1], by rw [h.2.2.2.1], ?_, ?_⟩
  · rw [onlySessions_iff]
    simp only [h, and_self]
  · intro ha
    refine associated_congr ha (by rw [h.2.2.2.2.2.1]) (by simp) (fun y => by rw [berth_congr h.2.2.2.2.2.1]) (fun c => ?_)
    rw [fleetBus_editBus]; split
    · rename_i hc; rw [hc.1]; exact hf _
    · exact ⟨rfl, rfl⟩
  · intro hg
    exact granted_congr hg (by rw [h.2.1]) h.2.2.2.2.2.2.1 (by rw [h.2.2.2.2.2.1])
      (fun y hy => by rw [berth_congr h.2.2.2.2.2.1]; exact hy)

/-- A change of the active table that keeps its length. -/
theorem editActive_step (f : List Run → List Run) (s : State) (hf : (f s.runs.active).length = s.runs.active.length) :
    SessionStep s (editActive f s) := ⟨rfl, .of_fifo rfl, rfl, rfl, hf, rfl,
    fun h => ⟨h.berths, h.fleet, h.both, h.unused⟩,
    fun h => ⟨h.berths, h.grant, h.group, h.session, h.follower⟩⟩

theorem dissociate_only (x : Nat) (s : State) : s.OnlySessions (dissociate x s) := by
  unfold dissociate; split
  · rfl
  · rw [onlySessions_iff]; simp only [editBus_same, editBerth_self_same, and_self]

theorem dissociate_step (x : Nat) (s : State) : SessionStep s (dissociate x s) := by
  refine ⟨dissociate_only x s, .of_fifo ?_, ?_, ?_, ?_, ?_, associated_dissociate x, fun hg => ?grants⟩
  case grants =>
    have h := onlySessions_same (dissociate_only x s)
    refine granted_congr hg (by rw [h.1]) h.2 (by unfold dissociate; split <;> simp) (fun y hy => ?_)
    rw [berth_dissociate]; split
    · rename_i e; subst e; exact ⟨hy.grant, hy.group, hy.session, hy.follower⟩
    · exact hy
  all_goals (unfold dissociate; split <;> simp)

theorem associate_step {b x : Nat} (s : State) (hx : x < 36) (hb : 1 ≤ b ∧ b ≤ 64) (hu : (s.fleetBus b).used = true)
    (hfree : s.Associated → (s.fleetBus b).berth = none) (hguest : s.Associated → (s.berth x).bus = none) :
    SessionStep s (associate b x s) := by
  refine ⟨?_, .of_fifo ?_, ?_, ?_, ?_, ?_, fun h => associated_associate h hx hb hu (hfree h) (hguest h), ?grants⟩
  · rw [onlySessions_iff]; unfold associate; simp only [editBus_same, editBerth_self_same, and_self]
  case grants =>
    intro hg
    refine granted_congr hg ?_ ?_ ?_ (fun y hy => ?_)
    · unfold associate; simp
    · unfold associate; simp
    · unfold associate; simp
    · rw [berth_associate]; split
      · rename_i e; rw [e.1] at hy; exact ⟨hy.grant, hy.group, hy.session, hy.follower⟩
      · exact hy
  all_goals (unfold associate; simp)

/-! ## Unplugs and tags (R17 to R19, R99) -/

theorem rederiveFrom_length (b : Nat) (seen : Bool) (l : List Run) : (rederiveFrom b seen l).length = l.length := by
  induction l generalizing seen with
  | nil => rfl
  | cons r l ih => unfold rederiveFrom; split <;> simp [ih]

theorem rederive_step (b : Nat) (s : State) : SessionStep s (rederive b s) := editActive_step _ s (rederiveFrom_length _ _ _)

theorem rederiveOpt_step (b : Option Nat) (s : State) : SessionStep s (rederiveOpt b s) := by
  unfold rederiveOpt; split
  · exact SessionStep.refl s
  · exact rederive_step _ s

theorem editRun_step (runId : Nat) (f : Run → Run) (s : State) : SessionStep s (editRun runId f s) :=
  editActive_step _ s (by simp)

theorem finishRun_step (r : Run) (st : RunState) (s : State) : SessionStep s (finishRun r st s) :=
  (editRun_step _ _ s).trans (rederiveOpt_step _ _)

theorem runUnplug_step (b : Nat) (s : State) : SessionStep s (runUnplug b s) := by
  unfold runUnplug; split
  · exact SessionStep.refl s
  · split
    · exact (notify_step _ s).trans (finishRun_step _ _ _)
    · split
      · exact SessionStep.refl s
      · exact editRun_step _ _ s

theorem unplug_step (x : Nat) (s : State) : SessionStep s (unplug x s) := by
  unfold unplug; split
  · exact SessionStep.refl s
  · exact (dissociate_step x s).trans (runUnplug_step _ _)

theorem resolveTag_step {x : Nat} (hx : x < 36) (s : State) : SessionStep s (resolveTag x s) := by
  unfold resolveTag; dsimp only; split
  · exact (dissociate_step x s).trans (notify_step _ _)
  · rename_i b hb
    have hw := busWithTag_some hb
    split
    · rename_i hfree
      refine (dissociate_step x s).trans (associate_step _ hx hw.2.2 ?_ ?_ ?_)
      · rw [fleetBus_dissociate]; split <;> simp [hw.1]
      · intro _; rw [fleetBus_dissociate]; split <;> simp [hfree]
      · intro _; rw [berth_dissociate]; simp
    · rename_i y hy
      split
      · exact SessionStep.refl s
      · refine (dissociate_step x s).trans ((dissociate_step y _).trans ((associate_step _ hx hw.2.2 ?_ ?_ ?_).trans (notify_step _ _)))
        · rw [fleetBus_dissociate_used, fleetBus_dissociate_used]; exact hw.1
        · intro hd
          rw [fleetBus_dissociate]; split
          · rfl
          · rename_i hne
            by_contra hc
            obtain ⟨z, hz⟩ := Option.ne_none_iff_exists'.mp hc
            rw [fleetBus_dissociate] at hz
            split at hz
            · simp at hz
            · rename_i hne2
              rw [hy] at hz
              have h1 : (dissociate y (dissociate x s)).fleetBus b = (s.fleetBus b) := by
                rw [fleetBus_dissociate, if_neg hne, fleetBus_dissociate, if_neg hne2]
              have h2 := (hd.both b y).mp (by rw [h1, hy])
              rw [berth_dissociate] at h2; simp at h2
        · intro _; rw [berth_dissociate]; split
          · rfl
          · rw [berth_dissociate, if_pos rfl]

theorem reassociate_step {x : Nat} (hx : x < 36) (s : State) : SessionStep s (reassociate x s) := by
  unfold reassociate; split
  · rename_i b hbus hb
    have hw := busWithTag_some hb
    split
    · rename_i hf
      exact associate_step s hx hw.2.2 hw.1 (fun _ => by simpa using hf) (fun _ => hbus)
    · exact SessionStep.refl s
  · exact SessionStep.refl s

/-! ## Leaving SERVING, DONE and the plug (R7 to R10, R21, R22) -/

/-- A change of the line's marks alone. -/
theorem mark_step (f : Line → Line) (hf : ∀ l, lineKind (f l) = lineKind l) (s : State) :
    SessionStep s { s with bus := { s.bus with line := f s.bus.line } } :=
  ⟨rfl, .of_fifo rfl, rfl, rfl, rfl, hf _, fun h => ⟨h.berths, h.fleet, h.both, h.unused⟩,
    fun h => ⟨h.berths, h.grant, h.group, h.session, h.follower⟩⟩

theorem markLeft_kind (x : Nat) (l : Line) : lineKind (markLeft x l) = lineKind l := by
  unfold markLeft; repeat' split
  all_goals rfl

theorem markDetached_kind (x : Nat) (l : Line) : lineKind (markDetached x l) = lineKind l := by
  unfold markDetached; split <;> rfl

theorem pathLeaveServing_step (x : Nat) (s : State) : SessionStep s (pathLeaveServing x s) := by
  unfold pathLeaveServing
  exact (mark_step (markLeft x) (markLeft_kind x) s).trans ((withdrawWork_step _ _).session.trans (zeroTrim_step _ _).session)

/-- A berth may leave SERVING for a state that fits its record. -/
theorem leaveServing_step (x : Nat) (dest : Session) (s : State) (hs : (s.berth x).session = .serving)
    (hd : dest ≠ .unconfigured ∧ dest ≠ .follower) : SessionStep s (leaveServing x dest s) := by
  unfold leaveServing
  refine SessionStep.trans ?_ (pathLeaveServing_step _ _)
  refine editBerth_step x _ s (fun _ => rfl) (fun h => ?_)
  have h1 := h.session; have h2 := h.follower
  rw [hs] at h1 h2
  refine ⟨fun hc => absurd rfl hc, h.group, ?_, ?_⟩
  · constructor
    · exact fun e => absurd e hd.1
    · exact fun e => by simpa using h1.mpr e
  · constructor
    · exact fun e => absurd e hd.2
    · exact fun e => by simpa using h2.mpr e

theorem setDone_step (x : Nat) (s : State) : SessionStep s (setDone x s) := by
  unfold setDone; split
  · exact SessionStep.refl s
  · refine SessionStep.trans ?_ (notify_step _ _)
    exact editBerth_step x _ s (fun _ => rfl) (fun h => ⟨h.grant, h.group, h.session, h.follower⟩)

theorem clearDone_step (x : Nat) (s : State) : SessionStep s (clearDone x s) :=
  editBerth_step x _ s (fun _ => rfl) (fun h => ⟨h.grant, h.group, h.session, h.follower⟩)

theorem reportDone_step (x : Nat) (s : State) : SessionStep s (reportDone x s) := by
  unfold reportDone; repeat' split
  · exact SessionStep.refl s
  · refine SessionStep.trans ?_ (setDone_step _ _)
    exact editBerth_step x _ s (fun _ => rfl) (fun h => ⟨h.grant, h.group, h.session, h.follower⟩)
  · exact clearDone_step x s
  · exact SessionStep.refl s

/-- A change of session between two states of an idle configured berth. -/
theorem editSession_step (x : Nat) (f : Berth → Berth) (s : State) (hbus : ∀ b, (f b).bus = b.bus)
    (hold : (s.berth x).session ≠ .serving ∧ (s.berth x).session ≠ .unconfigured ∧ (s.berth x).session ≠ .follower)
    (hnew : (f (s.berth x)).session ≠ .unconfigured ∧ (f (s.berth x)).session ≠ .follower)
    (hk : (f (s.berth x)).grant = (s.berth x).grant ∧ (f (s.berth x)).group = (s.berth x).group ∧
      (f (s.berth x)).configured = (s.berth x).configured ∧ (f (s.berth x)).coupling = (s.berth x).coupling) :
    SessionStep s (s.editBerth x f) := by
  refine editBerth_step x f s hbus (fun h => ?_)
  have h1 := h.session; have h2 := h.follower
  refine ⟨?_, by rw [hk.2.1, hk.2.2.1]; exact h.group, ?_, ?_⟩
  · rw [hk.1]; exact fun hc => absurd (h.idle hold.1) hc
  · rw [hk.2.2.1]; exact ⟨fun e => absurd e hnew.1, fun e => absurd (h1.mpr e) hold.2.1⟩
  · rw [hk.2.2.1, hk.2.2.2]; exact ⟨fun e => absurd e hnew.2, fun e => absurd (h2.mpr e) hold.2.2⟩

theorem enterServing_step (x : Nat) (s : State)
    (h : (s.berth x).session ≠ .serving ∧ (s.berth x).session ≠ .unconfigured ∧ (s.berth x).session ≠ .follower) :
    SessionStep s (enterServing x s) :=
  editSession_step x _ s (fun _ => rfl) h ⟨by simp, by simp⟩ ⟨rfl, rfl, rfl, rfl⟩

theorem enterConnected_step {x : Nat} (hx : x < 36) (s : State)
    (h : (s.berth x).session ≠ .serving ∧ (s.berth x).session ≠ .unconfigured ∧ (s.berth x).session ≠ .follower) :
    SessionStep s (enterConnected x s) := by
  refine SessionStep.trans ?_ (resolveTag_step hx _)
  exact editSession_step x _ s (fun _ => rfl) h ⟨by simp, by simp⟩ ⟨rfl, rfl, rfl, rfl⟩

/-! ## What a step keeps of a berth's own record -/

theorem berth_runUnplug (b : Nat) (s : State) : (runUnplug b s).berths = s.berths := by
  unfold runUnplug finishRun rederiveOpt rederive editRun editActive
  repeat' split
  all_goals simp

theorem berth_unplug (x y : Nat) (s : State) :
    (unplug x s).berth y = if y = x then { s.berth x with bus := none } else s.berth y := by
  unfold unplug
  cases hb : (s.berth x).bus with
  | none =>
    simp only; split
    · rename_i e; subst e; rw [← hb]
    · rfl
  | some b => simp only; rw [berth_congr (berth_runUnplug b _), berth_dissociate]

/-- Resolving a tag changes nothing of a berth record but its bus. -/
theorem berth_resolveTag (x y : Nat) (s : State) :
    (resolveTag x s).berth y = { s.berth y with bus := ((resolveTag x s).berth y).bus } := by
  have h1 : ∀ (z : Nat) (u : State), (dissociate z u).berth y = { u.berth y with bus := ((dissociate z u).berth y).bus } := by
    intro z u; rw [berth_dissociate]; split
    · rename_i e; rw [e]
    · rfl
  have h2 : ∀ (b z : Nat) (u : State), (associate b z u).berth y = { u.berth y with bus := ((associate b z u).berth y).bus } := by
    intro b z u; rw [berth_associate]; split
    · rename_i e; rw [e.1]
    · rfl
  have h3 : ∀ (b : NoticeBody) (u : State), (notify b u).berth y = u.berth y := fun b u => by
    rw [berth_congr (notify_same b u).2.2.2.2.1]
  unfold resolveTag; dsimp only; split
  · rw [h3]; exact h1 x s
  · split
    · rw [h2]; rw [h1]
    · split
      · rfl
      · rw [h3, h2]; rw [h1]; rw [h1]

theorem berth_reassociate (x y : Nat) (s : State) :
    (reassociate x s).berth y = { s.berth y with bus := ((reassociate x s).berth y).bus } := by
  unfold reassociate; split
  · split
    · rw [berth_associate]; split
      · rename_i e; rw [e.1]
      · rfl
    · rfl
  · rfl

theorem plugRule_step {x : Nat} (hx : x < 36) (s : State) : SessionStep s (plugRule x s) := by
  unfold plugRule; split
  · exact unplug_step x s
  · rename_i h _
    refine (enterConnected_step hx s (by rw [h]; simp)).trans ?_
    by_cases hl : x < s.berths.length
    · refine enterServing_step x _ ?_
      have : ((enterConnected x s).berth x).session = .connected := by
        unfold enterConnected; rw [berth_resolveTag]; simp [hl]
      rw [this]; simp
    · have := berth_out (s := s) x (Nat.le_of_not_lt hl)
      rw [this] at h; simp [Berth.blank] at h
  · rename_i h; exact enterConnected_step hx s (by simp_all)
  · rename_i h _
    refine SessionStep.trans ?_ (unplug_step _ _)
    exact editSession_step x _ s (fun _ => rfl) (by rw [h]; simp) ⟨by simp, by simp⟩ ⟨rfl, rfl, rfl, rfl⟩
  · rename_i h _; exact enterServing_step x s (by rw [h]; simp)
  · rename_i h _; exact (leaveServing_step x .empty s h ⟨by simp, by simp⟩).trans (unplug_step _ _)
  · rename_i h _; exact (leaveServing_step x .connected s h ⟨by simp, by simp⟩).trans (resolveTag_step hx _)
  · exact unplug_step x s
  · exact SessionStep.refl s

theorem tagRules_step {x : Nat} (hx : x < 36) (tag : Ident) (s : State) : SessionStep s (tagRules x tag s) := by
  unfold tagRules; split
  · refine SessionStep.trans ?_ (reassociate_step hx _)
    split
    · exact resolveTag_step hx _
    · exact SessionStep.refl _
  · exact SessionStep.refl _

theorem sessionRules_step {x : Nat} (hx : x < 36) (tag : Ident) (s : State) : SessionStep s (sessionRules x tag s) :=
  (plugRule_step hx s).trans ((tagRules_step hx tag _).trans (reportDone_step _ _))

/-! ## Faults (R10, R151 to R157) -/

theorem editCounters_step (x : Nat) (f : FaultCounters → FaultCounters) (s : State) : SessionStep s (editCounters x f s) :=
  editBerth_step x _ s (fun _ => rfl) (fun h => ⟨h.grant, h.group, h.session, h.follower⟩)

theorem faultSession_step (x : Nat) (s : State) : SessionStep s (faultSession x s) := by
  unfold faultSession; split
  · rename_i h; exact leaveServing_step x _ s h ⟨by simp, by simp⟩
  · rename_i h
    refine SessionStep.trans ?_ ((withdrawWork_step _ _).session.trans (zeroTrim_step _ _).session)
    exact editSession_step x _ s (fun _ => rfl) (by rw [h]; simp) ⟨by simp, by simp⟩ ⟨rfl, rfl, rfl, rfl⟩
  · rename_i h
    refine SessionStep.trans ?_ ((withdrawWork_step _ _).session.trans (zeroTrim_step _ _).session)
    exact editSession_step x _ s (fun _ => rfl) (by rw [h]; simp) ⟨by simp, by simp⟩ ⟨rfl, rfl, rfl, rfl⟩
  · exact SessionStep.refl s

theorem latchFault_step (x : Nat) (flag : FaultFlag) (s : State) : SessionStep s (latchFault x flag s) := by
  unfold latchFault; dsimp only
  refine SessionStep.trans ?_ (notify_step _ _)
  refine SessionStep.trans (t := s.editBerth x fun b => { b with flags := b.flags.latch flag }) ?_ ?_
  · exact editBerth_step x _ s (fun _ => rfl) (fun h => ⟨h.grant, h.group, h.session, h.follower⟩)
  · split
    · exact SessionStep.refl _
    · exact faultSession_step _ _

theorem detectOvercurrent_step (x : Nat) (trip : Bool) (s : State) : SessionStep s (detectOvercurrent x trip s) := by
  unfold detectOvercurrent; dsimp only; split
  · exact SessionStep.refl s
  · split
    · exact latchFault_step _ _ s
    · split
      · split
        · exact (editCounters_step _ _ s).trans (latchFault_step _ _ _)
        · exact editCounters_step _ _ s
      · exact editCounters_step _ _ s

theorem detectOpenPath_step (x : Nat) (contactor : Bool) (s : State) : SessionStep s (detectOpenPath x contactor s) := by
  unfold detectOpenPath; dsimp only; split
  · exact SessionStep.refl s
  · split
    · split
      · exact (editCounters_step _ _ s).trans (latchFault_step _ _ _)
      · exact editCounters_step _ _ s
    · exact editCounters_step _ _ s

theorem detectIsolation_step (x : Nat) (fault : Bool) (s : State) : SessionStep s (detectIsolation x fault s) := by
  unfold detectIsolation; split
  · exact SessionStep.refl s
  · split
    · exact (editCounters_step _ _ s).trans (latchFault_step _ _ _)
    · exact editCounters_step _ _ s

theorem detectFaults_step (x : Nat) (a b c : Bool) (s : State) : SessionStep s (detectFaults x a b c s) := by
  unfold detectFaults; split
  · exact (detectOvercurrent_step _ _ s).trans ((detectOpenPath_step _ _ _).trans (detectIsolation_step _ _ _))
  · unfold breakCounters; exact editCounters_step x _ s

theorem detection_step (x : Nat) (flag : FaultFlag) (s : State) : SessionStep s (detection x flag s) := by
  unfold detection; split
  · exact latchFault_step _ _ s
  · exact SessionStep.refl s

theorem commMissOutcome_step (c misses : Nat) (d : Bool) (s : State) : SessionStep s (commMissOutcome c misses d s) := by
  unfold commMissOutcome; dsimp only
  split
  · exact (SessionStep.foldl _ _ (fun a _ s => editCounters_step a _ s) s).trans
      ((SessionStep.foldl _ _ (fun a _ s => detection_step a _ s) _).trans (ageByBerth_step _ _).session)
  · exact SessionStep.foldl _ _ (fun a _ s => editCounters_step a _ s) s

theorem countNoConfirm_step (x : Nat) (s : State) : SessionStep s (countNoConfirm x s) := by
  unfold countNoConfirm; dsimp only
  split
  · exact (editCounters_step _ _ s).trans (detection_step _ _ _)
  · exact editCounters_step _ _ s

/-- R66 step 2, R154: below 3, or where a detection has no effect, the count is all that a missing acknowledgement does. -/
theorem countNoConfirm_quiet (x : Nat) (s : State)
    (h : (s.berth x).counters.noConfirm < 2 ∨ (s.berth x).flags.noConfirm = true ∨
      ((s.berth x).session ≠ .empty ∧ (s.berth x).session ≠ .connected ∧ (s.berth x).session ≠ .serving)) :
    countNoConfirm x s = editCounters x (fun c => { c with noConfirm := min 3 ((s.berth x).counters.noConfirm + 1) }) s := by
  unfold countNoConfirm; dsimp only
  split
  · next reported =>
    by_cases hx : x < s.berths.length
    · simp only [editCounters, berth_editBerth, hx, and_self, if_true] at reported
      obtain h | h | ⟨h1, h2, h3⟩ := h
      · omega
      · simp [detection, editCounters, hx, FaultFlags.has, h]
      · have unwatched : (s.berth x).session.watched = false := by
          revert h1 h2 h3 reported; cases (s.berth x).session <;> simp [Session.watched]
        simp [detection, editCounters, hx, unwatched]
    · rw [berth_out (s := s) x (Nat.le_of_not_lt hx)] at reported
      simp [Berth.blank, FaultCounters.zero] at reported
  · rfl

theorem clearFaults_step (x : Nat) (s : State) : SessionStep s (clearFaults x s) := by
  refine editBerth_step x _ s (fun _ => rfl) (fun h => ?_)
  by_cases hs : (s.berth x).session = .faulted
  · have h1 := h.session; have h2 := h.follower; rw [hs] at h1 h2
    refine ⟨?_, h.group, ?_, ?_⟩
    · exact fun hc => absurd (h.idle (by rw [hs]; simp)) hc
    · simpa [hs] using h1
    · simpa [hs] using h2
  · simp only [hs, if_false]; exact ⟨h.grant, h.group, h.session, h.follower⟩

theorem clearPairFaults_step (x : Nat) (s : State) : SessionStep s (clearPairFaults x s) := by
  unfold clearPairFaults; split
  · exact clearFaults_step _ s
  · exact (clearFaults_step _ s).trans (clearFaults_step _ _)

/-! ## Enables (R5, R6) -/

theorem enableBerth_step (x : Nat) (s : State) : SessionStep s (enableBerth x s) := by
  unfold enableBerth; split
  · rename_i h
    refine editSession_step x _ s (fun _ => rfl) (by rw [h]; simp) ?_ ⟨rfl, rfl, rfl, rfl⟩
    dsimp only; split <;> exact ⟨by simp, by simp⟩
  · exact SessionStep.refl s

/-! ## Reports (R37, R38) -/

theorem storeEnergy_step (x : Nat) (before : Session) (s : State) : SessionStep s (storeEnergy x before s) := by
  unfold storeEnergy; dsimp only; split
  · split
    · exact editBus_step _ _ s (fun _ => ⟨rfl, rfl⟩)
    · exact SessionStep.refl s
  · exact SessionStep.refl s

theorem reportBerth_step {x : Nat} (hx : x < 36) (e : StatusEntry) (s : State) : SessionStep s (reportBerth x e s) := by
  unfold reportBerth; dsimp only
  refine SessionStep.trans ?_ ((sessionRules_step hx _ _).trans ((storeEnergy_step _ _ _).trans (detectFaults_step _ _ _ _ _)))
  exact editBerth_step x _ s (fun _ => rfl) (fun h => ⟨h.grant, h.group, h.session, h.follower⟩)

theorem berthNumbers_lt {x : Nat} (h : x ∈ berthNumbers) : x < 36 := by simpa [berthNumbers] using h

theorem reportEntry_step (c : Nat) (e : StatusEntry) (s : State) : SessionStep s (reportEntry c e s) := by
  unfold reportEntry
  refine SessionStep.foldl _ _ (fun a ha s => reportBerth_step (berthNumbers_lt ?_) _ s) s
  exact (List.mem_filter.mp (List.mem_filter.mp ha).1).1

end Sys2Proof.Machine
end

