-- ==== Sys2Proof/Laws/Maps.lean ====
section
/-! SUPPORT. Laws/Maps.lean: what disabling, mapping, unmapping and aligning a berth can do (R3, R6, R47). -/

namespace Sys2Proof.Machine

variable {s t : State}

@[simp] theorem berth_setLine (s : State) (l : Line) (x : Nat) :
    ({ s with bus := { s.bus with line := l } } : State).berth x = s.berth x := rfl

theorem berth_withdrawWork (x y : Nat) (s : State) : (withdrawWork x s).berth y =
    if y = x ∧ x < s.berths.length then { s.berth x with setpoint := .idle } else s.berth y := by
  have h : (withdrawWork x s).berths = (setSetpointState x .idle s).berths := by
    unfold withdrawWork; simp [removeEntry, removeQueued]
  rw [berth_congr h]
  exact berth_editBerth s x y _

@[simp] theorem originateEntry_berths (x : Nat) (s : State) : (originateEntry x s).berths = s.berths := by
  unfold originateEntry; split <;> rfl

@[simp] theorem zeroTrim_berths (x : Nat) (s : State) : (zeroTrim x s).berths = s.berths := by
  unfold zeroTrim; split <;> simp

/-- R9, R64: the record of a berth that leaves SERVING. -/
theorem berth_leaveServing (x y : Nat) (dest : Session) (s : State) : (leaveServing x dest s).berth y =
    if y = x ∧ x < s.berths.length then { s.berth x with
      session := dest, grant := 0, request := none, done := false, doneByComplete := false, projectedShort := false
      setpoint := .idle } else s.berth y := by
  unfold leaveServing pathLeaveServing
  rw [berth_congr (zeroTrim_berths x _), berth_withdrawWork]
  simp only [berth_setLine, berth_editBerth]
  by_cases hy : y = x ∧ x < s.berths.length
  · simp [hy]
  · simp [hy]

/-- A record made idle in a state that fits a configured berth which carries a session. -/
theorem editIdle_step (x : Nat) (f : Berth → Berth) (s : State) (hbus : ∀ b, (f b).bus = b.bus)
    (hx : (s.berth x).configured = true ∧ (s.berth x).coupling ≠ .follower)
    (hf : (f (s.berth x)).grant = 0 ∧ (f (s.berth x)).session ≠ .unconfigured ∧ (f (s.berth x)).session ≠ .follower ∧
      (f (s.berth x)).group = (s.berth x).group ∧ (f (s.berth x)).configured = true ∧
      (f (s.berth x)).coupling = (s.berth x).coupling) :
    SessionStep s (s.editBerth x f) :=
  editBerth_step x f s hbus (fun h =>
    ⟨fun hc => absurd hf.1 hc, by rw [hf.2.2.2.1, hf.2.2.2.2.1, h.group, hx.1],
     ⟨fun e => absurd e hf.2.1, fun e => by rw [hf.2.2.2.2.1] at e; exact absurd e (by simp)⟩,
     ⟨fun e => absurd e hf.2.2.1, fun e => absurd (hf.2.2.2.2.2 ▸ e.2) hx.2⟩⟩)

/-- R6: BERTH_ENABLE_CLEAR on one berth. -/
theorem disableBerth_step (x : Nat) (s : State) (hx : (s.berth x).configured = true ∧ (s.berth x).coupling ≠ .follower) :
    SessionStep s (disableBerth x s) := by
  unfold disableBerth; dsimp only; split
  · exact SessionStep.refl s
  · refine SessionStep.trans ?_ (dissociate_step x _)
    split
    · rename_i hs
      refine (leaveServing_step x .disabled s hs ⟨by simp, by simp⟩).trans ?_
      have h : ((leaveServing x .disabled s).berth x).configured = true ∧ ((leaveServing x .disabled s).berth x).coupling ≠ .follower := by
        rw [berth_leaveServing]; split
        · exact hx
        · exact hx
      exact editIdle_step x _ _ (fun _ => rfl) h ⟨rfl, by simp, by simp, rfl, h.1, rfl⟩
    · have h0 := (removeQueued_step x s).trans (zeroTrim_step x _)
      refine h0.session.trans ?_
      have h : ((zeroTrim x (removeQueued x s)).berth x).configured = true ∧
          ((zeroTrim x (removeQueued x s)).berth x).coupling ≠ .follower := by
        rw [h0.berth x]; exact hx
      exact editIdle_step x _ _ (fun _ => rfl) h ⟨rfl, by simp, by simp, rfl, h.1, rfl⟩

/-! ## Losing a map entry (R3) -/

theorem detachedTrim_step (x : Nat) (s : State) : PathStep s (detachedTrim x s) := by
  unfold detachedTrim; split
  · split
    · exact PathStep.refl s
    · exact addTrim_step _ _ s
  · exact PathStep.refl s

@[simp] theorem detachedTrim_berths (x : Nat) (s : State) : (detachedTrim x s).berths = s.berths := by
  unfold detachedTrim; split
  · split <;> rfl
  · rfl

/-- R3: the record of a berth that has lost its session. -/
theorem berth_loseSession (x y : Nat) (s : State) : (loseSession x s).berth y =
    if y = x ∧ x < s.berths.length then { s.berth x with
      grant := 0, commanded := 0, confirmed := 0, request := none, done := false, doneByComplete := false
      projectedShort := false, flags := .clear, counters := .zero, enable := false, setpoint := .idle, bus := none }
    else s.berth y := by
  unfold loseSession; dsimp only
  rw [berth_dissociate]
  simp only [berth_editBerth, berth_congr (detachedTrim_berths x _), detachedTrim_berths, berth_withdrawWork, berth_setLine]
  by_cases hy : y = x
  · subst hy
    by_cases hl : y < s.berths.length
    · have : y < (withdrawWork y { s with bus := { s.bus with line := markDetached y s.bus.line } }).berths.length := by
        rw [(withdrawWork_step y _).length]; exact hl
      simp [hl, this]
    · have hb := berth_out (s := s) y (Nat.le_of_not_lt hl)
      have : ¬ y < (withdrawWork y { s with bus := { s.bus with line := markDetached y s.bus.line } }).berths.length := by
        rw [(withdrawWork_step y _).length]; exact hl
      simp [hl, this, hb, Berth.blank]
  · simp [hy]

theorem loseSession_step (x : Nat) (s : State) : SessionStep s (loseSession x s) := by
  unfold loseSession; dsimp only
  refine (mark_step (markDetached x) (markDetached_kind x) s).trans
    ((withdrawWork_step x _).session.trans ((detachedTrim_step x _).session.trans (SessionStep.trans ?_ (dissociate_step x _))))
  exact editBerth_step x _ _ (fun _ => rfl) (fun h => ⟨fun hc => absurd rfl hc, h.group, h.session, h.follower⟩)

/-- R3: an unmapping entry. -/
theorem unmapBerth_step (x : Nat) (s : State) : SessionStep s (unmapBerth x s) := by
  unfold unmapBerth; split
  · refine (loseSession_step x s).trans ?_
    refine editBerth_step x _ _ (fun _ => rfl) (fun h => ⟨fun hc => ?_, rfl, by simp, by simp⟩)
    rw [berth_loseSession] at hc
    by_cases hl : x < s.berths.length
    · simp [hl] at hc
    · simp [hl, berth_out (s := s) x (Nat.le_of_not_lt hl), Berth.blank] at hc
  · exact SessionStep.refl s

/-- R3: the record of a berth whose map entry is taken away. -/
theorem berth_unmapBerth (x y : Nat) (s : State) : (unmapBerth x s).berth y =
    if y = x ∧ (s.berth x).configured = true then { s.berth x with
      grant := 0, commanded := 0, confirmed := 0, request := none, done := false, doneByComplete := false
      projectedShort := false, flags := .clear, counters := .zero, enable := false, setpoint := .idle, bus := none
      configured := false, cabinet := none, outlet := none, group := none, partner := none, coupling := .single
      hwCharge := 0, hwDischarge := 0, session := .unconfigured } else s.berth y := by
  unfold unmapBerth
  by_cases hc : (s.berth x).configured = true
  · have hl : x < s.berths.length := by
      by_contra hl
      rw [berth_out x (Nat.le_of_not_lt hl)] at hc; simp [Berth.blank] at hc
    simp only [hc, if_true, berth_editBerth, berth_loseSession, (loseSession_step x s).length, hl, and_true]
    by_cases hy : y = x
    · simp [hy]
    · simp [hy]
  · simp [hc]

/-- R3: an accepted mapping entry. -/
theorem mapBerth_step (x c o g : Nat) (k : Coupling) (p : Option Nat) (fig : Outlet) (s : State) :
    SessionStep s (mapBerth x c o g k p fig s) := by
  unfold mapBerth; dsimp only
  have ok : ∀ u : State, (BerthOk u.ctl.mode u.groups (u.berth x) → (u.berth x).grant = 0) →
      SessionStep u (u.editBerth x fun b =>
        { b with configured := true, cabinet := some c, outlet := some o, group := some g, coupling := k, partner := p,
                 hwCharge := fig.charge, hwDischarge := fig.discharge, enable := false,
                 session := if k = .follower then .follower else .disabled }) := by
    intro u hu
    refine editBerth_step x _ u (fun _ => rfl) (fun h => ⟨fun hc => absurd (hu h) hc, rfl, ?_, ?_⟩)
    · dsimp only; split <;> simp
    · dsimp only; split <;> simp_all
  split
  · refine (loseSession_step x s).trans (ok _ (fun _ => ?_))
    rw [berth_loseSession]; split
    · rfl
    · rename_i hl
      rw [berth_out x (by simp at hl; omega)]; rfl
  · rename_i hc
    refine ok s (fun h => h.idle ?_)
    rw [h.session.mpr (by simpa using hc)]; simp

/-- R3: the record of a berth that has taken a map entry. -/
theorem berth_mapBerth (x y c o g : Nat) (k : Coupling) (p : Option Nat) (fig : Outlet) (s : State) (hl : x < s.berths.length) :
    (mapBerth x c o g k p fig s).berth y = if y = x then
      { (if (s.berth x).configured = true then { s.berth x with
          grant := 0, commanded := 0, confirmed := 0, request := none, done := false, doneByComplete := false
          projectedShort := false, flags := .clear, counters := .zero, enable := false, setpoint := .idle, bus := none }
        else s.berth x) with
        configured := true, cabinet := some c, outlet := some o, group := some g, coupling := k, partner := p
        hwCharge := fig.charge, hwDischarge := fig.discharge, enable := false
        session := if k = .follower then .follower else .disabled } else s.berth y := by
  unfold mapBerth; dsimp only
  by_cases hc : (s.berth x).configured = true
  · simp only [hc, if_true, berth_editBerth, berth_loseSession, (loseSession_step x s).length, hl, and_true]
    by_cases hy : y = x
    · simp [hy]
    · simp [hy]
  · simp only [hc, berth_editBerth]
    by_cases hy : y = x
    · subst hy; simp [hl]
    · simp [hy]

theorem alignBerth_step (x : Nat) (s : State) : SessionStep s (alignBerth x s) := by
  unfold alignBerth; split
  · split
    · exact unmapBerth_step x s
    · exact editBerth_step x _ s (fun _ => rfl) (fun h => ⟨h.grant, h.group, h.session, h.follower⟩)
  · exact SessionStep.refl s

theorem takeMapEntry_step (e : MapEntry) (s : State) : SessionStep s (takeMapEntry e s).1 := by
  unfold takeMapEntry; split
  · exact SessionStep.refl s
  · split
    · exact unmapBerth_step _ s
    · split
      · split
        · exact SessionStep.refl s
        · exact mapBerth_step _ _ _ _ _ _ _ s
      · exact SessionStep.refl s

/-- Entries taken one after another. -/
theorem takeEntries_inv {α : Type} (P : State → State → Prop) (take : α → State → State × ReplyCode)
    (refl : ∀ s, P s s) (trans : ∀ s t u, P s t → P t u → P s u) (one : ∀ e s, P s (take e s).1) (l : List α) (s : State) :
    P s (takeEntries take l s).1 := by
  induction l generalizing s with
  | nil => exact refl s
  | cons e l ih => exact trans _ _ _ (one e s) (ih _)

end Sys2Proof.Machine
end

