-- ==== Sys2Proof/Laws/Reserve.lean ====
section
/-! SUPPORT. Laws/Reserve.lean: what the Reserve Unit's shared operations can do (Machine/ReserveOps.lean), once each: they
write the unit's own state and place notices and answers; the window tables and the bound of the call records stand. -/

namespace Sys2Proof.Machine

variable {s t u : State}

/-- What an operation of the Reserve Unit may do to the part. -/
structure ReserveStep (s t : State) : Prop where
  only : t = { s with
    link := { s.link with fifo := t.link.fifo, answerLost := t.link.answerLost }
    reserve := t.reserve
    faults := { s.faults with noticeLost := t.faults.noticeLost } }
  queue : QueueKept s t
  windows : t.reserve.windows = s.reserve.windows
  records : s.reserve.records.length ≤ 8 → t.reserve.records.length ≤ 8

theorem ReserveStep.refl (s : State) : ReserveStep s s := ⟨rfl, QueueKept.refl s, rfl, id⟩

theorem ReserveStep.trans (h : ReserveStep s t) (h' : ReserveStep t u) : ReserveStep s u := by
  refine ⟨?_, h.queue.trans h'.queue, h'.windows.trans h.windows, h'.records ∘ h.records⟩
  have e := h'.only; rw [h.only] at e; exact e

/-- The same with the last step first, from which the state between is read. -/
theorem ReserveStep.trans' (h' : ReserveStep t u) (h : ReserveStep s t) : ReserveStep s u := h.trans h'

/-- A notice or an answer. -/
theorem State.OnlyQueue.reserveStep (h : s.OnlyQueue t) (q : QueueKept s t) : ReserveStep s t := by
  have hr : t.reserve = s.reserve := (onlyQueue_iff.mp h).2.2.2.2.2.2.2.2.2.2.2.2.1
  refine ⟨?_, q, by rw [hr], by rw [hr]; exact id⟩
  rw [hr]; exact h

theorem notify_reserve (b : NoticeBody) (s : State) : ReserveStep s (notify b s) :=
  (notify_onlyQueue b s).reserveStep (notify_queue b s)

theorem reply_reserve (p g : Nat) (c : ReplyCode) (b : ReplyBody) (s : State) : ReserveStep s (reply p g c b s) :=
  State.OnlyQueue.reserveStep (answer_onlyQueue _ s) (reply_queue p g c b s)

/-- The unit's own state is written, its windows and records apart. -/
theorem setReserve_step (r : Reserve) (s : State) (hw : r.windows = s.reserve.windows)
    (hr : r.records.length = s.reserve.records.length) : ReserveStep s { s with reserve := r } :=
  ⟨rfl, .of_fifo rfl, hw, by simp only [hr]; exact id⟩

/-! ## State changes, windows and calls -/

theorem changeReserve_step (st : ReserveState) (s : State) : ReserveStep s (changeReserve st s) := by
  unfold changeReserve; split
  · exact .refl s
  · exact .trans' (notify_reserve _ _) (setReserve_step _ s rfl rfl)

theorem editRecord_step (f : CallRecord → CallRecord) (s : State) : ReserveStep s (editRecord f s) := by
  unfold editRecord; split
  · exact .refl s
  · rename_i h; exact setReserve_step _ s rfl (by simp [h])

theorem closeCall_step (c : Call) (cause : CallCause) (target : Option Int) (s : State) :
    ReserveStep s (closeCall c cause target s) :=
  (editRecord_step _ s).trans (setReserve_step _ _ rfl rfl)

theorem endCall_step (cause : CallCause) (answered : State → State) (h : ∀ s, ReserveStep s (answered s)) (s : State) :
    ReserveStep s (endCall cause answered s) := by
  unfold endCall; split
  · exact .refl s
  · exact (((closeCall_step _ _ _ s).trans (h _)).trans (notify_reserve _ _)).trans (changeReserve_step _ _)

theorem reserveUnavailable_step (cause : CallCause) (s : State) : ReserveStep s (reserveUnavailable cause s) := by
  unfold reserveUnavailable; dsimp only
  split
  · exact .trans' (changeReserve_step _ _) (setReserve_step _ s rfl rfl)
  · rename_i c _
    refine .trans' (changeReserve_step _ _) (.trans' (setReserve_step _ (notify _ (closeCall c cause none s)) rfl rfl) ?_)
    exact .trans' (notify_reserve _ _) (closeCall_step _ _ _ s)

theorem reserveAvailable_step (s : State) : ReserveStep s (reserveAvailable s) := by
  unfold reserveAvailable; split
  · exact changeReserve_step _ s
  · exact .refl s

theorem closeWindow_step (s : State) : ReserveStep s (closeWindow s).1 := by
  have h : ReserveStep s { s with reserve := { s.reserve with judged := none } } := setReserve_step _ s rfl rfl
  unfold closeWindow; dsimp only; split
  · exact h.trans (changeReserve_step _ _)
  · exact h.trans (changeReserve_step _ _)
  · exact h.trans (endCall_step _ _ .refl _)
  · exact h

theorem openWindow_step (w : ReserveWindow) (s : State) : ReserveStep s (openWindow w s) := by
  have h : ReserveStep s { s with reserve := { s.reserve with judged := some w, coverage := none } } :=
    setReserve_step _ s rfl rfl
  unfold openWindow; dsimp only; split
  · exact h.trans (changeReserve_step _ _)
  · exact h

theorem settleTrip_step (s : State) : ReserveStep s (settleTrip s) := by
  unfold settleTrip; split
  · exact .refl s
  · exact setReserve_step _ s rfl rfl

theorem replaceWindow_step (s : State) : ReserveStep s (replaceWindow s).1 := by
  have h : ReserveStep s
      (if s.reserve.judged.isSome then (settleTrip (closeWindow s).1, (closeWindow s).2) else (s, false)).1 := by
    split
    · exact (closeWindow_step s).trans (settleTrip_step _)
    · exact .refl s
  unfold replaceWindow; dsimp only; split
  · exact h.trans (settleTrip_step _)
  · exact (h.trans (openWindow_step _ _)).trans (settleTrip_step _)

theorem judgeWindows_step (s : State) : ReserveStep s (judgeWindows s).1 := by
  unfold judgeWindows; split
  · exact .refl s
  · exact replaceWindow_step s

theorem rebindCall_step (c : Call) (w : ReserveWindow) (s : State) : ReserveStep s (rebindCall c w s) :=
  (editRecord_step _ _).trans' (setReserve_step _ s rfl rfl)

theorem judgeApplication_step (s : State) : ReserveStep s (judgeApplication s).1 := by
  unfold judgeApplication; split
  · exact (rebindCall_step _ _ s).trans (settleTrip_step _)
  · exact replaceWindow_step s

theorem startCall_step (callId : Nat) (source : CallSource) (reduction : Int) (duration : Nat)
    (answered : State → State) (h : ∀ s, ReserveStep s (answered s)) (s : State) :
    ReserveStep s (startCall callId source reduction duration answered s) := by
  unfold startCall; dsimp only
  refine ReserveStep.trans ?_ (changeReserve_step _ _)
  refine ReserveStep.trans ?_ (notify_reserve _ _)
  refine ReserveStep.trans ?_ (h _)
  exact ⟨rfl, .of_fifo rfl, rfl, fun _ => by simp [Config.callRecords]⟩

theorem updateCall_step (c : Call) (reduction : Int) (duration : Nat) (s : State) :
    ReserveStep s (updateCall c reduction duration s) :=
  (editRecord_step _ _).trans' (setReserve_step _ s rfl rfl)

theorem callRequest_step (tag callId reduction duration : Nat) (s : State) :
    ReserveStep s (callRequest tag callId reduction duration s).1 := by
  unfold callRequest; dsimp only
  split
  · exact reply_reserve _ _ _ _ s
  · split
    case h_4 =>
      split
      · exact reply_reserve _ _ _ _ s
      · split
        · exact reply_reserve _ _ _ _ s
        · exact (updateCall_step _ _ _ s).trans (reply_reserve _ _ _ _ _)
    case h_6 => exact startCall_step _ _ _ _ _ (reply_reserve _ _ _ _) s
    all_goals exact reply_reserve _ _ _ _ s

theorem endRequest_step (tag callId : Nat) (s : State) : ReserveStep s (endRequest tag callId s).1 := by
  unfold endRequest; split
  · exact reply_reserve _ _ _ _ s
  · split
    · exact reply_reserve _ _ _ _ s
    · exact endCall_step _ _ (reply_reserve _ _ _ _) s

/-! ## The frequency trigger, the account, recovery and coverage -/

theorem frequencyTrip_step (s : State) : ReserveStep s (frequencyTrip s).1 := by
  unfold frequencyTrip; split
  · exact (editRecord_step _ _).trans' (setReserve_step _ s rfl rfl)
  · exact startCall_step _ _ _ _ _ .refl s
  · exact .refl s

theorem frequencySample_step (frequency : Nat) (s : State) : ReserveStep s (frequencySample frequency s).1 := by
  unfold frequencySample; dsimp only
  split
  · generalize (if s.nominalFrequency - s.tripOffset + s.hysteresis ≤ frequency then s.reserve.recoverCount + 1 else 0) = n
    split
    · exact .trans' (endCall_step _ _ .refl _) (setReserve_step _ s rfl rfl)
    · exact setReserve_step _ s rfl rfl
  · split
    · generalize (if (frequency : Int) ≤ s.nominalFrequency - s.tripOffset then s.reserve.tripCount + 1 else 0) = n
      split
      · exact .trans' (frequencyTrip_step _) (setReserve_step _ s rfl rfl)
      · exact setReserve_step _ s rfl rfl
    · exact setReserve_step _ s rfl rfl

theorem accountCall_step (power : Int) (s : State) : ReserveStep s (accountCall power s) := by
  unfold accountCall; split
  · exact .refl s
  · exact setReserve_step _ s rfl rfl

theorem reserveShortfall_step (amount : Int) (s : State) : ReserveStep s (reserveShortfall amount s) := by
  unfold reserveShortfall; split
  · split
    · exact .refl s
    · exact (editRecord_step _ s).trans (notify_reserve _ _)
  · exact .refl s

theorem reboundStep_step (s : State) : ReserveStep s (reboundStep s) := by
  unfold reboundStep; split
  · dsimp only; split
    · exact setReserve_step _ s rfl rfl
    · split
      · exact .trans' (changeReserve_step _ _) (setReserve_step _ s rfl rfl)
      · exact setReserve_step _ s rfl rfl
  · exact .refl s

theorem storeCoverage_step (value : Int) (w : ReserveWindow) (s : State) : ReserveStep s (storeCoverage value w s) := by
  have h : ReserveStep s { s with reserve := { s.reserve with
      coverage := some ⟨value, s.stampedSecond, w.reduction⟩ } } := setReserve_step _ s rfl rfl
  unfold storeCoverage; dsimp only; split
  · exact h.trans (changeReserve_step _ _)
  · exact h.trans (changeReserve_step _ _)
  · split
    · exact h.trans (changeReserve_step _ _)
    · exact h
  · exact h

/-- R130: of an accepted sample the ring keeps the newest 50 values. -/
theorem feedRing_ring (power : Int) (s : State) (h : s.meter.ring.length ≤ 50) :
    (feedRing power s).meter.ring.length ≤ 50 := by
  unfold feedRing; split
  · exact h
  · simp only [List.length_drop, List.length_append, List.length_singleton, Config.baselineSamples]; omega

/-- R130: the ring is all that feeding it writes. -/
theorem feedRing_only (power : Int) (s : State) :
    feedRing power s = { s with meter := { s.meter with ring := (feedRing power s).meter.ring } } := by
  unfold feedRing; split <;> rfl

end Sys2Proof.Machine
end

