-- ==== Sys2Proof/Laws/Runs.lean ====
section
/-! SUPPORT. Laws/Runs.lean: what an allocation run can do (R71 to R92): its frame, and that the four passes keep the granted
sum within the budgets, every group within its limit, and the grants where Law 2 allows them. -/

namespace Sys2Proof.Machine

variable {s t u : State}

/-! ## The frame of a run -/

/-- A record of the active table without what a run decides of it. -/
def Run.plan (r : Run) : Run := { r with state := .opened, reason := none }

/-- A demand interval without its shortfall flag. -/
def Interval.plain (i : Interval) : Interval := { i with shortfall := false }

/-- What an allocation run may do to the part. -/
structure RunStep (s t : State) : Prop where
  only : s.OnlyRun t
  queue : QueueKept s t
  length : t.berths.length = s.berths.length
  fleetLength : t.fleet.length = s.fleet.length
  runs : t.runs.active.map Run.plan = s.runs.active.map Run.plan
  records : t.reserve.records.length = s.reserve.records.length
  interval : t.storage.interval.map Interval.plain = s.storage.interval.map Interval.plain
  berth : ∀ y, t.berth y = { s.berth y with
    grant := (t.berth y).grant, setpoint := (t.berth y).setpoint, done := (t.berth y).done
    doneByComplete := (t.berth y).doneByComplete, projectedShort := (t.berth y).projectedShort }
  bus : ∀ b, t.fleetBus b = { s.fleetBus b with
    protectedEnergy := (t.fleetBus b).protectedEnergy, availableEnergy := (t.fleetBus b).availableEnergy }

theorem RunStep.refl (s : State) : RunStep s s :=
  ⟨State.OnlyRun.refl s, QueueKept.refl s, rfl, rfl, rfl, rfl, rfl, fun _ => rfl, fun _ => rfl⟩

theorem RunStep.trans (h : RunStep s t) (h' : RunStep t u) : RunStep s u :=
  ⟨h.only.trans h'.only, h.queue.trans h'.queue, h'.length.trans h.length, h'.fleetLength.trans h.fleetLength,
   h'.runs.trans h.runs, h'.records.trans h.records, h'.interval.trans h.interval,
   fun y => by rw [h'.berth y, h.berth y], fun b => by rw [h'.bus b, h.bus b]⟩

theorem RunStep.foldl {α : Type} (f : State → α → State) (h : ∀ s a, RunStep s (f s a)) (l : List α) (s : State) :
    RunStep s (l.foldl f s) := by
  induction l generalizing s with
  | nil => exact RunStep.refl s
  | cons a l ih => exact (h s a).trans (ih _)

theorem RunStep.assoc (h : RunStep s t) (ha : s.Associated) : t.Associated :=
  associated_congr ha h.length h.fleetLength (fun x => by rw [h.berth x]) (fun b => by rw [h.bus b]; exact ⟨rfl, rfl⟩)

theorem PathStep.run (h : PathStep s t) : RunStep s t := by
  have h2 := onlyPath_iff.mp h.only
  refine ⟨h.only.run, h.queue, h.length, by rw [h2.2.2.2.2.2.2.1], by rw [h2.2.2.2.2.2.2.2.1],
    by rw [h2.2.2.2.2.2.2.2.2.2.2.2.1], by rw [h2.2.2.2.2.2.2.2.2.2.2.1], fun y => by rw [h.berth y], fun b => by
      rw [fleetBus_congr h2.2.2.2.2.2.2.1]⟩

theorem notify_run (b : NoticeBody) (s : State) : RunStep s (notify b s) := by
  have h := notify_same b s
  refine ⟨(notify_onlyQueue b s).run, notify_queue b s, by rw [h.2.2.2.2.1], by rw [h.2.2.2.2.2.2.1],
    by rw [h.2.2.2.2.2.2.2.1], by rw [h.2.2.2.2.2.2.2.2.2.2.2], by rw [h.2.2.2.2.2.2.2.2.2.2.1],
    fun y => by rw [berth_congr h.2.2.2.2.1], fun b => by rw [fleetBus_congr h.2.2.2.2.2.2.1]⟩

theorem editBerth_run (x : Nat) (f : Berth → Berth) (s : State)
    (hf : ∀ b, f b = { b with grant := (f b).grant, setpoint := (f b).setpoint, done := (f b).done
                              doneByComplete := (f b).doneByComplete, projectedShort := (f b).projectedShort }) :
    RunStep s (s.editBerth x f) := by
  refine ⟨State.OnlyPath.run rfl, .of_fifo rfl, by simp, rfl, rfl, rfl, rfl, fun y => ?_, fun _ => rfl⟩
  rw [berth_editBerth]; split
  · rename_i h; rw [h.1]; exact hf _
  · rfl

theorem setDone_run (x : Nat) (s : State) : RunStep s (setDone x s) := by
  unfold setDone; split
  · exact RunStep.refl s
  · refine RunStep.trans ?_ (notify_run _ _)
    exact editBerth_run x _ s (fun _ => rfl)

theorem alignDone_run (v : Served) (s : State) : RunStep s (alignDone v s) := by
  unfold alignDone; dsimp only
  generalize (if v.bus.isSome = true then decide (v.need = 0) else _) = a
  split
  · refine RunStep.trans ?_ (setDone_run _ _)
    exact editBerth_run _ _ s (fun _ => rfl)
  · split
    · exact editBerth_run _ _ s (fun _ => rfl)
    · exact RunStep.refl s

theorem editRun_run (runId : Nat) (f : Run → Run) (hf : ∀ r, (f r).plan = r.plan) (s : State) :
    RunStep s (editRun runId f s) := by
  refine ⟨rfl, .of_fifo rfl, rfl, rfl, ?_, rfl, rfl, fun _ => rfl, fun _ => rfl⟩
  simp only [editRun, editActive, List.map_map]
  congr 1; funext r
  simp only [Function.comp]; split
  · exact hf r
  · rfl

theorem handOver_run (r : Run) (b need : Nat) (p : Option ShortReason) (s : State) : RunStep s (handOver r b need p s) := by
  unfold handOver; dsimp only
  refine RunStep.trans ?_ (editRun_run _ _ ?_ _)
  · split
    · exact RunStep.refl s
    · split
      · exact RunStep.refl s
      · exact notify_run _ s
  · exact fun _ => rfl

theorem handRuns_run (served : List Served) (filled : List Int) (s : State) : RunStep s (handRuns served filled s) := by
  unfold handRuns
  refine RunStep.foldl _ (fun s r => ?_) _ s
  split
  · exact RunStep.refl s
  · exact handOver_run _ _ _ _ s

theorem editRecord_run (f : CallRecord → CallRecord) (s : State) : RunStep s (editRecord f s) := by
  unfold editRecord; split
  · exact RunStep.refl s
  · rename_i r rest h
    exact ⟨rfl, .of_fifo rfl, rfl, rfl, rfl, by simp [h], rfl, fun _ => rfl, fun _ => rfl⟩

theorem reserveShortfall_run (n : Int) (s : State) : RunStep s (reserveShortfall n s) := by
  unfold reserveShortfall; split
  · split
    · exact RunStep.refl s
    · exact (editRecord_run _ s).trans (notify_run _ _)
  · exact RunStep.refl s

theorem peakShortfall_run (n h : Int) (s : State) : RunStep s (peakShortfall n h s) := by
  unfold peakShortfall; split
  · rename_i i w hi _
    split
    · exact RunStep.refl s
    · refine RunStep.trans ?_ (notify_run _ _)
      exact ⟨rfl, .of_fifo rfl, rfl, rfl, rfl, rfl, by simp [hi, Interval.plain], fun _ => rfl, fun _ => rfl⟩
  · exact RunStep.refl s

theorem handShortfall_run (n : Int) (b : Budgets) (s : State) : RunStep s (handShortfall n b s) := by
  unfold handShortfall; split
  · exact RunStep.refl s
  · split
    · exact reserveShortfall_run _ s
    · exact peakShortfall_run _ _ s
    · exact RunStep.refl s

theorem berth_mapIdx (f : Nat → Berth → Berth) (s : State) (y : Nat) :
    ({ s with berths := s.berths.mapIdx f } : State).berth y =
      if y < s.berths.length then f y (s.berth y) else s.berth y := by
  simp only [State.berth, List.getD_eq_getElem?_getD, List.getElem?_mapIdx]
  by_cases h : y < s.berths.length
  · simp [h]
  · simp [h]

theorem writeGrants_run (g : List Int) (s : State) : RunStep s (writeGrants g s) := by
  refine ⟨rfl, .of_fifo rfl, by simp [writeGrants], rfl, rfl, rfl, rfl, fun y => ?_, fun _ => rfl⟩
  unfold writeGrants; rw [berth_mapIdx]; split <;> rfl

theorem writeProjections_run (l : List Nat) (s : State) : RunStep s (writeProjections l s) := by
  refine ⟨rfl, .of_fifo rfl, by simp [writeProjections], rfl, rfl, rfl, rfl, fun y => ?_, fun _ => rfl⟩
  unfold writeProjections; rw [berth_mapIdx]; split <;> rfl

theorem changeReserve_run (st : ReserveState) (s : State) : RunStep s (changeReserve st s) := by
  unfold changeReserve; split
  · exact RunStep.refl s
  · refine RunStep.trans (t := { s with reserve := { s.reserve with state := st } }) ?_ (notify_run _ _)
    exact ⟨rfl, .of_fifo rfl, rfl, rfl, rfl, rfl, rfl, fun _ => rfl, fun _ => rfl⟩

theorem storeCoverage_run (v : Int) (w : ReserveWindow) (s : State) : RunStep s (storeCoverage v w s) := by
  unfold storeCoverage; dsimp only
  have h : RunStep s { s with reserve := { s.reserve with coverage := some ⟨v, s.stampedSecond, w.reduction⟩ } } :=
    ⟨rfl, .of_fifo rfl, rfl, rfl, rfl, rfl, rfl, fun _ => rfl, fun _ => rfl⟩
  split
  · exact h.trans (changeReserve_run _ _)
  · exact h.trans (changeReserve_run _ _)
  · split
    · exact h.trans (changeReserve_run _ _)
    · exact h
  · exact h

theorem handCoverage_run (k : RunKind) (served : List Served) (g : List Int) (s : State) :
    RunStep s (handCoverage k served g s) := by
  unfold handCoverage; split
  · split
    · exact RunStep.refl s
    · exact storeCoverage_run _ _ s
  · exact RunStep.refl s

theorem editBus_run (b : Nat) (f : Bus → Bus) (s : State)
    (hf : ∀ r, f r = { r with protectedEnergy := (f r).protectedEnergy, availableEnergy := (f r).availableEnergy }) :
    RunStep s (s.editBus b f) := by
  have h := editBus_same s b f
  refine ⟨?_, .of_fifo (by rw [h.2.2.1]), by rw [h.2.2.2.2.2.1], by simp, by rw [h.2.2.2.2.2.2.2.1],
    by rw [h.2.2.2.2.2.2.2.2.2.2.2.1], by rw [h.2.2.2.2.2.2.2.2.2.2.1], fun y => by rw [berth_congr h.2.2.2.2.2.1], fun c => ?_⟩
  · rw [onlyRun_iff]; simp only [h, and_self]
  · rw [fleetBus_editBus]; split
    · rename_i e; rw [e.1]; exact hf _
    · rfl

theorem writeEnergies_run (s : State) : RunStep s (writeEnergies s) := by
  unfold writeEnergies
  refine RunStep.foldl _ (fun t b => ?_) _ s
  split
  · exact editBus_run _ _ t (fun _ => rfl)
  · exact RunStep.refl t

theorem totals_run (x : Totals) (s : State) : RunStep s { s with alloc := { s.alloc with totals := x } } :=
  ⟨rfl, .of_fifo rfl, rfl, rfl, rfl, rfl, rfl, fun _ => rfl, fun _ => rfl⟩

/-- The frame of an allocation run. -/
theorem allocationRun_run (k : RunKind) (s : State) : RunStep s (allocationRun k s) := by
  unfold allocationRun; dsimp only
  refine (writeEnergies_run s).trans ?_
  generalize writeEnergies s = w
  generalize List.map w.inputs w.servedBerths = served
  refine (RunStep.foldl _ (fun s v => alignDone_run v s) served w).trans ?_
  generalize List.foldl _ w served = a
  generalize a.budgets = b
  generalize a.passes b served = o
  generalize (List.map _ (List.filter _ served)) = short
  refine (handShortfall_run o.shortfall b a).trans ((writeGrants_run o.grants _).trans ((recomputeAll_step _).run.trans
    ((writeProjections_run short _).trans ((handRuns_run served o.filled _).trans (RunStep.trans ?_ (handCoverage_run k served o.grants _))))))
  exact totals_run _ _

theorem immediateRun_run (s : State) : RunStep s (immediateRun s) := by
  unfold immediateRun; split
  · exact allocationRun_run _ s
  · exact RunStep.refl s

theorem immediateIf_run (a : Bool) (s : State) : RunStep s (immediateIf a s) := by
  unfold immediateIf; split
  · exact immediateRun_run s
  · exact RunStep.refl s

end Sys2Proof.Machine
end

