-- ==== Sys2Proof/Laws/Modes.lean ====
section
/-! SUPPORT. Laws/Modes.lean: what the shared operations of Mode Control and of the Meter Port can do (Machine/Modes.lean,
Machine/MeterOps.lean). -/

namespace Sys2Proof.Machine

variable {s t u : State}

/-! ## The mode -/

theorem changeMode_only (m : Mode) (c : ModeCause) (s : State) : changeMode m c s = { s with
    ctl := { s.ctl with mode := m }
    link := { s.link with fifo := (changeMode m c s).link.fifo }
    faults := { s.faults with noticeLost := (changeMode m c s).faults.noticeLost } } :=
  notify_only _ _

theorem changeMode_queue (m : Mode) (c : ModeCause) (s : State) : QueueKept s (changeMode m c s) := by
  have h := notify_queue (.mode s.ctl.mode m c) { s with ctl := { s.ctl with mode := m } }
  exact h

/-- A Reserve Unit operation leaves the mode, the records and the timers. -/
theorem ReserveStep.same (h : ReserveStep s t) : t.ctl = s.ctl ∧ t.berths = s.berths ∧ t.alloc = s.alloc ∧
    t.runs = s.runs ∧ t.meter = s.meter ∧ t.fleet = s.fleet ∧ t.storage = s.storage ∧ t.bus = s.bus ∧ t.groups = s.groups ∧
    t.path = s.path := by
  have e := h.only
  rw [e]; exact ⟨rfl, rfl, rfl, rfl, rfl, rfl, rfl, rfl, rfl, rfl⟩

/-! ## Grants forced to 0 (R64) -/

theorem zeroGrants_run (xs : List Nat) (s : State) : RunStep s (zeroGrants xs s) := by
  unfold zeroGrants; dsimp only
  refine RunStep.trans (RunStep.foldl _ (fun s x => editBerth_run x (fun b => { b with grant := 0 }) s (fun _ => rfl)) xs s) ?_
  exact RunStep.foldl _ (fun s x => (pathGrantZeroed_step x s).run) xs _

theorem foldl_zero_grant (xs : List Nat) (s : State) (y : Nat) :
    ((xs.foldl (fun s x => s.editBerth x fun b => { b with grant := 0 }) s).berth y).grant =
      if y ∈ xs then 0 else (s.berth y).grant := by
  induction xs generalizing s with
  | nil => simp
  | cons x xs ih =>
    rw [List.foldl_cons, ih]
    by_cases h : y ∈ xs
    · simp [h]
    · simp only [h, if_false, List.mem_cons, or_false]
      by_cases hy : y = x
      · subst hy
        rw [berth_editBerth]
        by_cases hl : y < s.berths.length
        · simp [hl]
        · have hb : s.berth y = Berth.blank := by simp [State.berth, Nat.le_of_not_lt hl]
          simp [hl, hb, Berth.blank]
      · rw [berth_editBerth]; simp [hy]

/-- R64: the berths named have grant 0 and the other grants stand. -/
theorem zeroGrants_grant (xs : List Nat) (s : State) (y : Nat) :
    ((zeroGrants xs s).berth y).grant = if y ∈ xs then 0 else (s.berth y).grant := by
  rw [← foldl_zero_grant xs s y]
  unfold zeroGrants; dsimp only
  have h := (PathStep.foldl (fun s x => pathGrantZeroed x s) (fun s x => pathGrantZeroed_step x s) xs
    (xs.foldl (fun s x => s.editBerth x fun b => { b with grant := 0 }) s)).berth y
  rw [h]

/-! ## Entering and leaving RUN (R174, R175) -/

theorem reserveUnavailable_state (cause : CallCause) (s : State) :
    (reserveUnavailable cause s).reserve.state = .unavailable ∧ (reserveUnavailable cause s).reserve.call = none ∧
    (reserveUnavailable cause s).reserve.recoveryTarget = none ∧ (reserveUnavailable cause s).reserve.tripCount = 0 := by
  have h : ∀ v : State, v.reserve.call = none → v.reserve.recoveryTarget = none → v.reserve.tripCount = 0 →
      (changeReserve .unavailable v).reserve.state = .unavailable ∧ (changeReserve .unavailable v).reserve.call = none ∧
      (changeReserve .unavailable v).reserve.recoveryTarget = none ∧ (changeReserve .unavailable v).reserve.tripCount = 0 := by
    intro v h1 h2 h3
    unfold changeReserve; split
    · rename_i e; exact ⟨e, h1, h2, h3⟩
    · simp [h1, h2, h3]
  unfold reserveUnavailable; dsimp only
  refine h _ ?_ ?_ rfl
  · split
    · assumption
    · simp [closeCall]
  · split
    · rfl
    · simp [closeCall]

/-- R175: leaving RUN sets the mode, holds every grant at 0, drops every request, and makes the reserve unavailable. -/
theorem leaveRun_leaves (m : Mode) (c : ModeCause) (s : State) :
    (leaveRun m c s).ctl = { s.ctl with mode := m } ∧
    (∀ x, x < 36 → ((leaveRun m c s).berth x).grant = 0) ∧
    (∀ b ∈ (leaveRun m c s).berths, b.request = none) ∧
    (leaveRun m c s).alloc.periodRunning = false ∧
    (leaveRun m c s).reserve.state = .unavailable ∧ (leaveRun m c s).reserve.call = none := by
  unfold leaveRun; dsimp only
  generalize hv : ({ changeMode m c s with alloc := { (changeMode m c s).alloc with periodRunning := false } } : State) = v
  have hctl : v.ctl = { s.ctl with mode := m } := by rw [← hv, changeMode_only]
  have hper : v.alloc.periodRunning = false := by rw [← hv]
  have hz := onlyRun_iff.mp (zeroGrants_run berthNumbers v).only
  have hg := zeroGrants_grant berthNumbers v
  generalize zeroGrants berthNumbers v = z at hz hg
  have hs := (reserveUnavailable_step .mode { z with berths := z.berths.map fun b => { b with request := none } }).same
  have hu := reserveUnavailable_state .mode { z with berths := z.berths.map fun b => { b with request := none } }
  refine ⟨by rw [hs.1]; exact hz.2.1.trans hctl, fun x hx => ?_, fun b hb => ?_, ?_, hu.1, hu.2.1⟩
  · rw [berth_congr hs.2.1]
    have e := hg x
    rw [if_pos (by simpa [berthNumbers, Config.berths] using hx)] at e
    simp only [State.berth, List.getD_eq_getElem?_getD, List.getElem?_map] at e ⊢
    cases hq : z.berths[x]? with
    | none => rfl
    | some b => rw [hq] at e; exact e
  · rw [hs.2.1] at hb
    obtain ⟨q, _, rfl⟩ := List.mem_map.mp hb
    rfl
  · rw [hs.2.2.1]
    exact (by rw [hz.2.2.2.2.2.2.2.1]; exact hper)

/-- R174: entering RUN sets the mode, and the allocation period runs from then where the start-up stop has gone. -/
theorem enterRun_leaves (c : ModeCause) (s : State) :
    (enterRun c s).ctl = { s.ctl with mode := .run } ∧ (enterRun c s).alloc.periodRunning = s.bus.stopWhole ∧
    (enterRun c s).bus = s.bus ∧ (enterRun c s).meter = s.meter ∧ (enterRun c s).groups = s.groups := by
  unfold enterRun; dsimp only
  generalize hv : ({ changeMode .run c s with
    alloc := { (changeMode .run c s).alloc with periodRunning := (changeMode .run c s).bus.stopWhole } } : State) = v
  have hc : v.ctl = { s.ctl with mode := .run } ∧ v.alloc.periodRunning = s.bus.stopWhole ∧ v.bus = s.bus ∧
      v.meter = s.meter ∧ v.groups = s.groups := by
    rw [← hv, changeMode_only]; exact ⟨rfl, rfl, rfl, rfl, rfl⟩
  have hs := (reserveAvailable_step v).same
  have hr := onlyRun_iff.mp (immediateRun_run (reserveAvailable v)).only
  refine ⟨?_, ?_, ?_, ?_, ?_⟩
  · rw [hr.2.1, hs.1, hc.1]
  · rw [hr.2.2.2.2.2.2.2.1]; dsimp only; rw [hs.2.2.1, hc.2.1]
  · rw [hr.2.2.2.1, hs.2.2.2.2.2.2.2.1, hc.2.2.1]
  · rw [hr.2.2.2.2.1, hs.2.2.2.2.1, hc.2.2.2.1]
  · rw [hr.2.2.2.2.2.1, hs.2.2.2.2.2.2.2.2.1, hc.2.2.2.2]

/-! ## The Meter Port -/

theorem reportMeter_step (before : Bool) (s : State) : ReserveStep s (reportMeter before s).1 := by
  unfold reportMeter; split
  · exact .refl s
  · split
    · exact (notify_reserve _ s).trans (reserveAvailable_step _)
    · exact (notify_reserve _ s).trans (reserveUnavailable_step _ _)

/-- R143: entry into LOST keeps no sample behind it. -/
theorem missMove_lost (m : Meter) (h : (missMove m).state = .lost) (hm : m.state ≠ .lost) : missMove m = m.lose := by
  revert h
  unfold missMove; split
  · exact fun _ => rfl
  · exact fun h => by cases h
  · split
    · exact fun _ => rfl
    · exact fun h => absurd h hm
  · exact fun h => absurd h hm

/-- R143: an accepted sample never loses the meter. -/
theorem acceptMove_state (m : Meter) :
    (acceptMove m).state = .recovering ∨ (acceptMove m).state = .valid := by
  unfold acceptMove; split
  · exact .inl rfl
  · exact .inl rfl
  · rename_i h
    split
    · exact .inr rfl
    · exact .inl h
  · exact .inr ‹_›
  · exact .inr rfl

/-- R148: a sample in NORMAL writes the overrun state and its counts alone. -/
theorem normalSample_meter (power : Int) (s : State) : (normalSample power s).1.meter = { s.meter with
    overrun := (normalSample power s).1.meter.overrun, squeeze := (normalSample power s).1.meter.squeeze
    overCount := (normalSample power s).1.meter.overCount, overExcess := (normalSample power s).1.meter.overExcess
    underCount := (normalSample power s).1.meter.underCount, escalation := (normalSample power s).1.meter.escalation } := by
  unfold normalSample; dsimp only
  split
  · split
    · simp only [notify_same]
    · rfl
  · rfl

/-- R148: OVERRUN is entered exactly where the operation answers so. -/
theorem normalSample_enters (power : Int) (s : State) (h : s.meter.overrun = .normal) :
    (normalSample power s).2 = true ↔ (normalSample power s).1.meter.overrun = .overrun := by
  unfold normalSample; dsimp only
  split
  · split
    · simp only [notify_same]
    · simp [h]
  · simp [h]

end Sys2Proof.Machine
end

