-- ==== Sys2Proof/Laws/Bus.lean ====
section
/-! SUPPORT. Laws/Bus.lean: what the Berth Bus Master's shared operations and the operand forms can do
(Machine/BerthLine.lean, Machine/Operands.lean). -/

namespace Sys2Proof.Machine

variable {s t : State}

/-! ## Operand forms -/

/-- R166: an entry has a result of its own. -/
theorem takeEntries_length {α : Type} (take : α → State → State × ReplyCode) (l : List α) (s : State) :
    (takeEntries take l s).2.length = l.length := by
  induction l generalizing s with
  | nil => rfl
  | cons e l ih => simp [takeEntries, ih]

/-- R159, R162: a setting keeps the number of flags. -/
theorem setFlags_length {size : Nat} {target : Target} {value : Bool} {flags out : List Bool}
    (h : setFlags size target value flags = some out) : out.length = flags.length := by
  unfold setFlags at h; split at h
  · cases h; simp
  · split at h
    · cases h; simp
    · cases h

/-! ## The line -/

@[simp] theorem closeReceiver_rx (s : State) : (closeReceiver s).bus.rx = [] := rfl
@[simp] theorem closeReceiver_line (s : State) : (closeReceiver s).bus.line = s.bus.line := rfl
@[simp] theorem closeReceiver_berths (s : State) : (closeReceiver s).berths = s.berths := rfl
@[simp] theorem closeReceiver_path (s : State) : (closeReceiver s).path = s.path := rfl
@[simp] theorem setLine_line (l : Line) (s : State) : (setLine l s).bus.line = l := rfl
@[simp] theorem setLine_berths (l : Line) (s : State) : (setLine l s).berths = s.berths := rfl
@[simp] theorem setLine_path (l : Line) (s : State) : (setLine l s).path = s.path := rfl
@[simp] theorem sendFrame_line (l : Line) (f : List Byte) (s : State) : (sendFrame l f s).bus.line = l := rfl
@[simp] theorem sendFrame_busTx (l : Line) (f : List Byte) (s : State) : (sendFrame l f s).bus.busTx = f := rfl
@[simp] theorem sendFrame_berths (l : Line) (f : List Byte) (s : State) : (sendFrame l f s).berths = s.berths := rfl
@[simp] theorem sendFrame_path (l : Line) (f : List Byte) (s : State) : (sendFrame l f s).path = s.path := rfl

/-- R33, R35: after a slot the next one is open, or the CLOSE is being sent. -/
theorem nextSlot_line (k : SurveyKind) (c : Nat) (s : State) :
    (c < s.bus.cabinets.length ∧ (nextSlot k c s).bus.line = .surveySlot k (c + 1) false) ∨
    (s.bus.cabinets.length ≤ c ∧ ∃ next, (nextSlot k c s).bus.line = .surveyClose next ∧
      (nextSlot k c s).bus.quietCount = quietAfter k s.bus.quietCount ∧
      (next = .full ↔ 4 ≤ quietAfter k s.bus.quietCount ∨ s.bus.recheck = true)) := by
  unfold nextSlot; dsimp only; split
  · exact .inl ⟨‹_›, rfl⟩
  · rename_i h
    refine .inr ⟨Nat.le_of_not_lt h, _, rfl, rfl, ?_⟩
    split
    · rename_i hk; exact iff_of_true rfl hk
    · rename_i hk; exact iff_of_false (by simp) hk

/-- The line, the frame sent and the quiet count are all that the end of a slot writes. -/
theorem nextSlot_only (k : SurveyKind) (c : Nat) (s : State) : nextSlot k c s = { s with bus := { s.bus with
    line := (nextSlot k c s).bus.line, rx := [], busTx := (nextSlot k c s).bus.busTx
    quietCount := (nextSlot k c s).bus.quietCount } } := by
  unfold nextSlot; dsimp only; split <;> rfl

theorem discardFrame_only (s : State) : discardFrame s = { s with bus := { s.bus with
    line := (discardFrame s).bus.line, rx := [] } } := by
  unfold discardFrame; dsimp only; split <;> rfl

/-- R27: bytes that make no frame for an open slot or window reach the line's marks and the receiver alone. -/
theorem receiveBytes_only (bytes : List Byte) (s : State) : receiveBytes bytes s = { s with bus := { s.bus with
    line := (receiveBytes bytes s).bus.line, rx := busIncomplete bytes } } := by
  unfold receiveBytes; dsimp only; split
  · rfl
  · rw [discardFrame_only]

/-- R41: the combined result, by the entries. -/
theorem combinedResult_cases (l : List AckEntry) :
    (combinedResult l = .refused ↔ ∃ e ∈ l, e.result = 2) ∧
    (combinedResult l = .accepted ↔ ∀ e ∈ l, e.result ≠ 1 ∧ e.result ≠ 2) := by
  unfold combinedResult
  constructor
  · split
    · rename_i h; simpa using h
    · rename_i h
      have hn : ¬ ∃ e ∈ l, e.result = 2 := by simpa using h
      split <;> simp only [reduceCtorEq, false_iff] <;> exact hn
  · split
    · rename_i h
      obtain ⟨e, he, h2⟩ := List.any_eq_true.mp h
      simp only [reduceCtorEq, false_iff, not_forall]
      exact ⟨e, he, fun hn => hn.2 (of_decide_eq_true h2)⟩
    · split
      · rename_i h
        obtain ⟨e, he, h2⟩ := List.any_eq_true.mp h
        simp only [reduceCtorEq, false_iff, not_forall]
        exact ⟨e, he, fun hn => hn.1 (of_decide_eq_true h2)⟩
      · rename_i h2 h1
        simp only [List.any_eq_true, decide_eq_true_eq, not_exists, not_and] at h1 h2
        simp only [true_iff]
        exact fun e he => ⟨h1 e he, h2 e he⟩

/-! ## Enrollment -/

/-- An idle line stays idle, and the rest of the unit stands. -/
theorem SessionStep.idleBus (h : SessionStep s t) (hi : s.bus.line = .idle) : t.bus = s.bus := by
  have hl := h.line
  have hb := (onlySessions_iff.mp h.only).2.2.2.1
  rw [hi] at hl
  have : t.bus.line = .idle := by
    revert hl; generalize t.bus.line = l
    cases l <;> simp [lineKind]
  rw [hb, this, ← hi]

theorem autoMap_bus (s : State) (slot : (Nat × Nat × Outlet) × Nat) (hi : s.bus.line = .idle) :
    (autoMap s slot).bus = s.bus := by
  unfold autoMap; dsimp only
  exact (mapBerth_step slot.2 slot.1.1 slot.1.2.1 ((slot.1.1 - 1) % 6) .single none slot.1.2.2 s).idleBus hi

theorem foldl_autoMap_bus (l : List ((Nat × Nat × Outlet) × Nat)) (s : State) (hi : s.bus.line = .idle) :
    (l.foldl autoMap s).bus = s.bus := by
  induction l generalizing s with
  | nil => rfl
  | cons a l ih =>
    have h := autoMap_bus s a hi
    rw [List.foldl_cons, ih _ (by rw [h]; exact hi), h]

/-- R178: what follows an enrollment leaves the berth bus as it was. -/
theorem autorunEnd_bus (s : State) (hi : s.bus.line = .idle) : (autorunEnd s).bus = s.bus := by
  unfold autorunEnd; split
  · dsimp only; split
    · rfl
    · rw [(enterRun_leaves _ _).2.2.1]
      exact foldl_autoMap_bus _ _ hi
  · rfl

/-- R47: the pass-through requests of cabinets no longer listed leave the FIFO; the rest of the unit stands. -/
theorem dropStrayPasses_bus (s : State) : (dropStrayPasses s).bus = { s.bus with
    passFifo := (dropStrayPasses s).bus.passFifo } := by
  have h : ∀ (l : List PassFrame) (u : State), (l.foldl (fun s f => passReply f .badValue .none s) u).bus = u.bus := by
    intro l
    induction l with
    | nil => exact fun u => rfl
    | cons f l ih => exact fun u => (ih _).trans (answer_bus _ u)
  unfold dropStrayPasses; dsimp only
  rw [h]

/-- R29: the trims that go with their cabinets change the pending list alone. -/
theorem dropStrayTrims_step (s : State) : PathStep s (dropStrayTrims s) := by
  unfold dropStrayTrims; dsimp only
  refine PathStep.trans ?_ (PathStep.foldl (fun s (e : Entry) => releaseWork e.berth s) (fun s e => releaseWork_step e.berth s) _ _)
  exact .of_berths rfl (.of_fifo rfl) rfl

/-- R35, R47: an enrollment ends with the line free, the chain output inactive, and a FULL survey next. -/
theorem endEnrollment_leaves (s : State) :
    (endEnrollment s).bus.line = .idle ∧ (endEnrollment s).bus.nextKind = .full ∧
    (endEnrollment s).bus.quietCount = 0 ∧ (endEnrollment s).bus.recheck = true ∧
    (endEnrollment s).bus.chainOut = false ∧ (endEnrollment s).bus.cabinets = s.bus.cabinets := by
  unfold endEnrollment; dsimp only
  rw [ageByBerth_bus, autorunEnd_bus _ (by simp only [notify_same])]
  simp only [notify_same]
  rw [dropStrayPasses_bus, (onlyPath_iff.mp (dropStrayTrims_step _).only).2.2.2.1]
  dsimp only
  have h := (SessionStep.foldl (fun s x => alignBerth x s)
    (State.configuredBerths (closeReceiver { s with bus := { s.bus with chainOut := false } }))
    (fun x _ s => alignBerth_step x s) (closeReceiver { s with bus := { s.bus with chainOut := false } })).only
  have hb := (onlySessions_iff.mp h).2.2.2.1
  refine ⟨trivial, trivial, trivial, trivial, ?_, ?_⟩
  · rw [hb]; rfl
  · rw [hb]; rfl

end Sys2Proof.Machine
end

