-- ==== Sys2Proof/Laws/Passes.lean ====
section
/-! SUPPORT. Laws/Passes.lean: the four passes (R83 to R87) keep the granted sum within the hard budget, every group within its
limit, and discharge only eligible berths within what R87 gives. -/

namespace Sys2Proof.Machine

/-! ## Lists -/

theorem sumOf_nil {α : Type} (f : α → Int) : sumOf f [] = 0 := rfl
theorem sumOf_cons {α : Type} (f : α → Int) (a : α) (l : List α) : sumOf f (a :: l) = f a + sumOf f l := rfl

theorem sumOf_eq {α : Type} (f : α → Int) (l : List α) : sumOf f l = (l.map f).sum := by
  induction l with
  | nil => rfl
  | cons a l ih => rw [sumOf_cons, ih, List.map_cons, List.sum_cons]

theorem sumOf_congr {α : Type} {f g : α → Int} {l : List α} (h : ∀ a ∈ l, f a = g a) : sumOf f l = sumOf g l := by
  rw [sumOf_eq, sumOf_eq, List.map_congr_left h]

theorem sumOf_le {α : Type} {f g : α → Int} {l : List α} (h : ∀ a ∈ l, f a ≤ g a) : sumOf f l ≤ sumOf g l := by
  induction l with
  | nil => exact Int.le_refl _
  | cons a l ih =>
    rw [sumOf_cons, sumOf_cons]
    have := h a (by simp); have := ih (fun b hb => h b (by simp [hb])); omega

theorem sumOf_nonneg {α : Type} {f : α → Int} {l : List α} (h : ∀ a ∈ l, 0 ≤ f a) : 0 ≤ sumOf f l := by
  induction l with
  | nil => exact Int.le_refl _
  | cons a l ih =>
    rw [sumOf_cons]; have := h a (by simp); have := ih (fun b hb => h b (by simp [hb])); omega

theorem sumOf_set (f : Int → Int) (l : List Int) (i : Nat) (v : Int) (h : i < l.length) :
    sumOf f (l.set i v) = sumOf f l - f (l.getD i 0) + f v := by
  induction l generalizing i with
  | nil => simp at h
  | cons a l ih =>
    cases i with
    | zero => simp only [List.set_cons_zero, sumOf_cons, List.getD_cons_zero]; omega
    | succ i =>
      simp only [List.set_cons_succ, sumOf_cons, List.getD_cons_succ]
      rw [ih i (by simpa using h)]; omega

theorem grantOf_set (l : List Int) (x y : Nat) (v : Int) (h : x < l.length) :
    grantOf (l.set x v) y = if y = x then v else grantOf l y := by
  unfold grantOf
  simp only [List.getD_eq_getElem?_getD, List.getElem?_set]
  by_cases hy : x = y
  · subst hy; simp [h]
  · simp [hy, Ne.symm hy]

theorem insertBy_perm {α : Type} (before : α → α → Bool) (a : α) (l : List α) : (insertBy before a l).Perm (a :: l) := by
  induction l with
  | nil => exact List.Perm.refl _
  | cons b l ih =>
    unfold insertBy; split
    · exact List.Perm.refl _
    · exact (List.Perm.cons b ih).trans (List.Perm.swap a b l)

theorem sortBy_perm {α : Type} (before : α → α → Bool) (l : List α) : (sortBy before l).Perm l := by
  have h : ∀ (l acc : List α), (l.foldl (fun sorted a => insertBy before a sorted) acc).Perm (acc ++ l) := by
    intro l
    induction l with
    | nil => intro acc; simp
    | cons a l ih =>
      intro acc
      refine (ih _).trans ?_
      refine (List.Perm.append_right l (insertBy_perm before a acc)).trans ?_
      simpa using (List.perm_middle (a := a) (l₁ := acc) (l₂ := l)).symm
  simpa [sortBy] using h l []

/-! ## One change of a working grant -/

/-- The positive grants of the served berths of group `g`. -/
def groupSum (served : List Served) (grants : List Int) (g : Nat) : Int :=
  sumOf (fun v => max 0 (grantOf grants v.berth)) (served.filter fun v => decide (v.group = g))

theorem groupSum_set {served : List Served} (hd : (served.map (·.berth)).Nodup) {v : Served} (hv : v ∈ served)
    (grants : List Int) (n : Int) (h : v.berth < grants.length) (g : Nat) :
    groupSum served (grants.set v.berth n) g =
      groupSum served grants g + if v.group = g then max 0 n - max 0 (grantOf grants v.berth) else 0 := by
  unfold groupSum
  induction served with
  | nil => simp at hv
  | cons w l ih =>
    simp only [List.map_cons, List.nodup_cons] at hd
    have same : ∀ u ∈ l, v = w → u.berth ≠ v.berth := by
      intro u hu e he; subst e; exact hd.1 (by rw [← he]; exact List.mem_map_of_mem hu)
    rcases List.mem_cons.mp hv with e | hvl
    · have rest : sumOf (fun u => max 0 (grantOf (grants.set v.berth n) u.berth)) (l.filter fun u => decide (u.group = g)) =
          sumOf (fun u => max 0 (grantOf grants u.berth)) (l.filter fun u => decide (u.group = g)) := by
        refine sumOf_congr (fun u hu => ?_)
        rw [grantOf_set _ _ _ _ h, if_neg (same u (List.mem_of_mem_filter hu) e)]
      subst e
      by_cases hg : v.group = g
      · simp only [List.filter_cons, hg, decide_true, if_true, sumOf_cons]
        rw [rest, grantOf_set _ _ _ _ h, if_pos rfl]; omega
      · simp only [List.filter_cons, hg, decide_false, Bool.false_eq_true, if_false, rest]; omega
    · have hne : w.berth ≠ v.berth := fun e => hd.1 (by rw [e]; exact List.mem_map_of_mem hvl)
      have := ih hd.2 hvl
      by_cases hw : w.group = g
      · simp only [List.filter_cons, hw, decide_true, if_true, sumOf_cons]
        rw [this, grantOf_set _ _ _ _ h, if_neg hne]; omega
      · simp only [List.filter_cons, hw, decide_false, Bool.false_eq_true, if_false]
        exact this

/-! ## Passes 1 to 3 -/

/-- What the working grants keep through passes 1 to 3. -/
structure PassOk (s : State) (served : List Served) (total : Int) (p : Passing) : Prop where
  length : p.grants.length = 36
  rest : 0 ≤ p.rest
  sum : grantedSum p.grants + p.rest = total
  nonneg : ∀ x, 0 ≤ grantOf p.grants x
  group : ∀ g, groupSum served p.grants g ≤ max 0 (s.groupEntry g).limit
  enabled : ∀ v ∈ served, grantOf p.grants v.berth ≠ 0 → (s.groupEntry v.group).enable = true
  outside : ∀ x, (∀ v ∈ served, v.berth ≠ x) → grantOf p.grants x = 0

theorem groupRoom_nonneg (s : State) (served : List Served) (grants : List Int) (g : Nat) : 0 ≤ s.groupRoom served grants g := by
  unfold State.groupRoom; split <;> omega

/-- A gain within what is left and within the group's room. -/
theorem PassOk.gain {s : State} {served : List Served} {total : Int} {p : Passing} (h : PassOk s served total p)
    (hd : (served.map (·.berth)).Nodup) (hb : ∀ v ∈ served, v.berth < 36) {v : Served} (hv : v ∈ served) {n : Int}
    (h0 : 0 ≤ n) (h1 : n ≤ p.rest) (h2 : n ≤ s.groupRoom served p.grants v.group) :
    PassOk s served total ⟨p.grants.set v.berth (grantOf p.grants v.berth + n), p.rest - n⟩ := by
  have hl : v.berth < p.grants.length := by rw [h.length]; exact hb v hv
  have hn := h.nonneg v.berth
  have en : n ≠ 0 → (s.groupEntry v.group).enable = true := by
    intro hne
    unfold State.groupRoom at h2
    by_contra hc; simp [hc] at h2; omega
  refine ⟨by simp [h.length], by simp; omega, ?_, ?_, ?_, ?_, ?_⟩
  · have := h.sum
    unfold grantedSum at *
    rw [sumOf_set _ _ _ _ hl]
    change _ - max 0 (grantOf p.grants v.berth) + _ + _ = _
    simp only; omega
  · intro x; rw [grantOf_set _ _ _ _ hl]; split
    · omega
    · exact h.nonneg x
  · intro g
    simp only
    rw [groupSum_set hd hv _ _ hl]
    split
    · rename_i e; subst e
      by_cases hz : n = 0
      · have := h.group v.group; subst hz; simp; omega
      · unfold State.groupRoom at h2; rw [if_pos (en hz)] at h2
        change n ≤ max 0 (_ - groupSum served p.grants v.group) at h2
        omega
    · have := h.group g; omega
  · intro u hu hne
    simp only at hne
    rw [grantOf_set _ _ _ _ hl] at hne
    split at hne
    · rename_i e
      have : u = v := by
        by_contra hc
        exact hc ((List.inj_on_of_nodup_map hd) hu hv e)
      subst this
      by_cases hz : n = 0
      · exact h.enabled u hu (by omega)
      · exact en hz
    · exact h.enabled u hu hne
  · intro x hx
    simp only
    rw [grantOf_set _ _ _ _ hl, if_neg (fun e => hx v hv e.symm)]
    exact h.outside x hx

/-- A grant given to a berth that has none. -/
theorem PassOk.give {s : State} {served : List Served} {total : Int} {p : Passing} (h : PassOk s served total p)
    (hd : (served.map (·.berth)).Nodup) (hb : ∀ v ∈ served, v.berth < 36) {v : Served} (hv : v ∈ served)
    (hz : grantOf p.grants v.berth = 0) {n : Int}
    (h0 : 0 ≤ n) (h1 : n ≤ p.rest) (h2 : n ≤ s.groupRoom served p.grants v.group) :
    PassOk s served total ⟨p.grants.set v.berth n, p.rest - n⟩ := by
  have := h.gain hd hb hv h0 h1 h2
  rwa [hz, Int.zero_add] at this

theorem guardStep_other (s : State) (served : List Served) (p : Passing) (v : Served) {x : Nat} (hl : v.berth < p.grants.length)
    (hx : x ≠ v.berth ∨ v.guarded = false) : grantOf (guardStep s served p v).grants x = grantOf p.grants x := by
  unfold guardStep; split
  · rename_i hg
    simp only; rw [grantOf_set _ _ _ _ hl, if_neg]
    rcases hx with h | h
    · exact h
    · simp [hg] at h
  · rfl

theorem floorStep_other (s : State) (served : List Served) (soft : Int) (p : Passing) (v : Served) {x : Nat}
    (hl : v.berth < p.grants.length) (hx : x ≠ v.berth) :
    grantOf (floorStep s served soft p v).grants x = grantOf p.grants x := by
  unfold floorStep; split
  · rfl
  · simp only; rw [grantOf_set _ _ _ _ hl, if_neg hx]

/-- Pass 1. -/
theorem PassOk.guards {s : State} {served : List Served} {total : Int} (hd : (served.map (·.berth)).Nodup)
    (hb : ∀ v ∈ served, v.berth < 36) (order : List Served) (ho : ∀ v ∈ order, v ∈ served)
    (hn : (order.map (·.berth)).Nodup) (p : Passing) (h : PassOk s served total p)
    (hz : ∀ v ∈ order, grantOf p.grants v.berth = 0) :
    PassOk s served total (order.foldl (guardStep s served) p) ∧
      ∀ v ∈ order, v.guarded = false → grantOf (order.foldl (guardStep s served) p).grants v.berth = 0 := by
  induction order generalizing p with
  | nil => exact ⟨h, fun v hv => by simp at hv⟩
  | cons w l ih =>
    have hw := ho w (by simp)
    have hwl : w.berth < p.grants.length := by rw [h.length]; exact hb w hw
    simp only [List.map_cons, List.nodup_cons] at hn
    have step : PassOk s served total (guardStep s served p w) := by
      unfold guardStep; split
      · have := groupRoom_nonneg s served p.grants w.group
        have := h.rest
        exact h.give hd hb hw (hz w (by simp)) (by omega) (by omega) (by omega)
      · exact h
    have hz' : ∀ v ∈ l, grantOf (guardStep s served p w).grants v.berth = 0 := by
      intro v hv
      rw [guardStep_other s served p w hwl (Or.inl (fun e => hn.1 (by rw [← e]; exact List.mem_map_of_mem hv)))]
      exact hz v (by simp [hv])
    have next := ih (fun v hv => ho v (by simp [hv])) hn.2 _ step hz'
    refine ⟨next.1, fun v hv hg => ?_⟩
    rcases List.mem_cons.mp hv with e | hvl
    · subst e
      have stay : ∀ (l : List Served) (q : Passing), (∀ u ∈ l, u ∈ served ∧ u.berth ≠ v.berth) → q.grants.length = 36 →
          grantOf (l.foldl (guardStep s served) q).grants v.berth = grantOf q.grants v.berth := by
        intro l
        induction l with
        | nil => intro q _ _; rfl
        | cons u l ih2 =>
          intro q hq hlq
          rw [List.foldl_cons, ih2 _ (fun a ha => hq a (by simp [ha])) (by unfold guardStep; split <;> simp [hlq])]
          exact guardStep_other s served q u (by rw [hlq]; exact hb u (hq u (by simp)).1) (Or.inl (hq u (by simp)).2.symm)
      rw [List.foldl_cons, stay l _ (fun u hu => ⟨ho u (by simp [hu]), fun e => hn.1 (by rw [← e]; exact List.mem_map_of_mem hu)⟩)
        step.length, guardStep_other s served p v hwl (Or.inr hg)]
      exact hz v (by simp)
    · exact next.2 v hvl hg

/-- Pass 2. -/
theorem PassOk.floors {s : State} {served : List Served} {total soft : Int} (hd : (served.map (·.berth)).Nodup)
    (hb : ∀ v ∈ served, v.berth < 36) (order : List Served) (ho : ∀ v ∈ order, v ∈ served)
    (hn : (order.map (·.berth)).Nodup) (p : Passing) (h : PassOk s served total p)
    (hz : ∀ v ∈ order, v.guarded = false → grantOf p.grants v.berth = 0) :
    PassOk s served total (order.foldl (floorStep s served soft) p) := by
  induction order generalizing p with
  | nil => exact h
  | cons w l ih =>
    have hw := ho w (by simp)
    have hwl : w.berth < p.grants.length := by rw [h.length]; exact hb w hw
    simp only [List.map_cons, List.nodup_cons] at hn
    refine ih (fun v hv => ho v (by simp [hv])) hn.2 _ ?_ ?_
    · unfold floorStep; split
      · exact h
      · rename_i hg
        have := groupRoom_nonneg s served p.grants w.group
        have := h.rest
        exact h.give hd hb hw (hz w (by simp) (by simpa using hg)) (by omega) (by omega) (by omega)
    · intro v hv hg
      rw [floorStep_other s served soft p w hwl (fun e => hn.1 (by rw [← e]; exact List.mem_map_of_mem hv))]
      exact hz v (by simp [hv]) hg

/-- Pass 3. -/
theorem PassOk.fills {s : State} {served : List Served} {total : Int} (hd : (served.map (·.berth)).Nodup)
    (hb : ∀ v ∈ served, v.berth < 36) (order : List Served) (ho : ∀ v ∈ order, v ∈ served)
    (room : ∀ grants g, s.groupRoom order grants g = s.groupRoom served grants g) (n : Nat) (p : Passing)
    (h : PassOk s served total p) : PassOk s served total (fillRounds s order n p) := by
  induction n generalizing p with
  | zero => exact h
  | succ n ih =>
    unfold fillRounds; dsimp only; split
    · exact h
    · refine ih _ ?_
      have : ∀ (most : Int) (l : List Served) (q : Passing), (∀ v ∈ l, v ∈ served) → PassOk s served total q →
          PassOk s served total (l.foldl (fillStep s order most) q) := by
        intro most l
        induction l with
        | nil => intro q _ hq; exact hq
        | cons v l ih2 =>
          intro q hl hq
          refine ih2 _ (fun u hu => hl u (by simp [hu])) ?_
          have hr := hq.rest
          have hg := groupRoom_nonneg s served q.grants v.group
          unfold fillStep State.fillRoom
          rw [room]
          exact hq.gain hd hb (hl v (by simp)) (by omega) (by omega) (by omega)
      exact this _ _ _ (fun v hv => ho v (List.mem_of_mem_filter hv)) h

/-! ## Pass 4 and the outcome -/

/-- What R87 lets berth `x` discharge. -/
def DischargeFits (s : State) (served : List Served) (x : Nat) (g : Int) : Prop :=
  g < 0 → ∃ v ∈ served, v.berth = x ∧ v.eligible = true ∧ (s.groupEntry v.group).enable = true ∧
    -g ≤ v.dcap ∧ -g ≤ s.powerAvailable v

/-- What the working grants keep through pass 4, `filled` being those of pass 3. -/
structure DischargeOk (s : State) (served : List Served) (filled : List Int) (p : Passing) : Prop where
  length : p.grants.length = 36
  rest : 0 ≤ p.rest
  positive : ∀ x, max 0 (grantOf p.grants x) = max 0 (grantOf filled x)
  fits : ∀ x, DischargeFits s served x (grantOf p.grants x)

theorem DischargeOk.pass {s : State} {served : List Served} {filled : List Int} (hb : ∀ v ∈ served, v.berth < 36)
    (l : List Served) (hl : ∀ v ∈ l, v ∈ served ∧ v.eligible = true) (p : Passing) (h : DischargeOk s served filled p) :
    DischargeOk s served filled (l.foldl (dischargeStep s) p) := by
  induction l generalizing p with
  | nil => exact h
  | cons v l ih =>
    refine ih (fun u hu => hl u (by simp [hu])) _ ?_
    have hv := hl v (by simp)
    have hw : v.berth < p.grants.length := by rw [h.length]; exact hb v hv.1
    unfold dischargeStep; dsimp only; split
    · rename_i hc
      have hr := h.rest
      refine ⟨by simp [h.length], by simp only; omega, fun x => ?_, fun x => ?_⟩
      · simp only; rw [grantOf_set _ _ _ _ hw]; split
        · rename_i e; subst e
          have := h.positive v.berth; omega
        · exact h.positive x
      · simp only; rw [grantOf_set _ _ _ _ hw]; split
        · rename_i e; subst e
          exact fun _ => ⟨v, hv.1, rfl, hv.2, hc.2, by omega, by omega⟩
        · exact h.fits x
    · exact h

theorem sumOf_perm {α : Type} (f : α → Int) {l m : List α} (h : l.Perm m) : sumOf f l = sumOf f m := by
  rw [sumOf_eq, sumOf_eq]; exact (h.map f).sum_eq

theorem sumOf_grants (f : Int → Int) {a b : List Int} (hl : a.length = b.length)
    (h : ∀ x, f (grantOf a x) = f (grantOf b x)) : sumOf f a = sumOf f b := by
  rw [sumOf_eq, sumOf_eq]
  congr 1
  refine List.ext_getElem (by simp [hl]) (fun i h1 h2 => ?_)
  have := h i
  simp only [List.length_map] at h1 h2
  simpa [grantOf, h1, h2] using this

/-- The four passes together. -/
theorem passes_ok (s : State) (b : Budgets) (served : List Served) (hd : (served.map (·.berth)).Nodup)
    (hb : ∀ v ∈ served, v.berth < 36) :
    (s.passes b served).grants.length = 36 ∧ grantedSum (s.passes b served).grants ≤ max 0 b.hard ∧
    (∀ g, groupSum served (s.passes b served).grants g ≤ max 0 (s.groupEntry g).limit) ∧
    (∀ x, grantOf (s.passes b served).grants x ≠ 0 → ∃ v ∈ served, v.berth = x ∧ (s.groupEntry v.group).enable = true) ∧
    (∀ x, DischargeFits s served x (grantOf (s.passes b served).grants x)) := by
  have zero : ∀ x, grantOf (List.replicate Config.berths 0) x = 0 := by
    intro x; unfold grantOf; simp [List.getD_eq_getElem?_getD, List.getElem?_replicate]; split <;> rfl
  have perm : (passOrder served).Perm served := sortBy_perm _ _
  have ho : ∀ v ∈ passOrder served, v ∈ served := fun v hv => perm.mem_iff.mp hv
  have hn : ((passOrder served).map (·.berth)).Nodup := (perm.map _).nodup_iff.mpr hd
  have start : PassOk s served (max 0 b.hard) ⟨List.replicate Config.berths 0, max 0 b.hard⟩ := by
    refine ⟨by simp, by simp only; omega, ?_, fun x => by simp only [zero]; exact Int.le_refl 0, fun g => ?_, ?_, ?_⟩
    · have : grantedSum (List.replicate Config.berths 0) = 0 := by decide
      simp only [this]; omega
    · have : groupSum served (List.replicate Config.berths 0) g = 0 := by
        unfold groupSum; rw [sumOf_eq]
        simp only [zero]
        simp
      simp only [this]; omega
    · intro v _ h; exact absurd (zero _) h
    · intro x _; exact zero x
  have p1 := PassOk.guards hd hb (passOrder served) ho hn _ start (fun v _ => zero _)
  have p2 := PassOk.floors (soft := b.soft) hd hb (passOrder served) ho hn _ p1.1 p1.2
  unfold State.passes; dsimp only
  generalize List.foldl (floorStep s served b.soft) _ (passOrder served) = q2 at p2 ⊢
  have room : ∀ grants g, s.groupRoom (passOrder served) grants g = s.groupRoom served grants g := by
    intro grants g; unfold State.groupRoom
    rw [sumOf_perm _ (perm.filter fun v => decide (v.group = g))]
  have p3 := PassOk.fills (total := grantedSum q2.grants + max 0 (min b.soft b.hard - grantedSum q2.grants)) hd hb
    (passOrder served) ho room (2 * (passOrder served).length + 2)
    ⟨q2.grants, max 0 (min b.soft b.hard - grantedSum q2.grants)⟩
    ⟨p2.length, by simp only; omega, rfl, p2.nonneg, p2.group, p2.enabled, p2.outside⟩
  generalize fillRounds s (passOrder served) _ _ = q3 at p3 ⊢
  have sum3 : grantedSum q3.grants ≤ max 0 b.hard := by
    have := p2.sum; have := p2.rest; have := p3.sum; have := p3.rest; omega
  have ok : DischargeOk s served q3.grants
      (if 0 < max 0 (grantedSum q3.grants - b.soft) then
        (dischargeOrder served).foldl (dischargeStep s) ⟨q3.grants, max 0 (grantedSum q3.grants - b.soft)⟩
      else ⟨q3.grants, 0⟩) := by
    have none : ∀ x, DischargeFits s served x (grantOf q3.grants x) := fun x h => absurd h (by have := p3.nonneg x; omega)
    split
    · refine DischargeOk.pass hb _ (fun v hv => ?_) _ ⟨p3.length, by simp only; omega, fun _ => rfl, none⟩
      have := (sortBy_perm _ _).mem_iff.mp hv
      exact ⟨List.mem_of_mem_filter this, (List.mem_filter.mp this).2⟩
    · exact ⟨p3.length, by simp, fun _ => rfl, none⟩
  generalize (if 0 < max 0 (grantedSum q3.grants - b.soft) then _ else _) = q4 at ok ⊢
  refine ⟨ok.length, ?_, ?_, ?_, ok.fits⟩
  · unfold grantedSum at *
    rw [sumOf_grants (fun g => max 0 g) (ok.length.trans p3.length.symm) ok.positive]; exact sum3
  · intro g
    have : groupSum served q4.grants g = groupSum served q3.grants g := sumOf_congr (fun v _ => ok.positive v.berth)
    rw [this]; exact p3.group g
  · intro x hx
    by_cases hneg : grantOf q4.grants x < 0
    · obtain ⟨v, hv, e, _, he, _⟩ := ok.fits x hneg
      exact ⟨v, hv, e, he⟩
    · have hpos := ok.positive x
      have h3 : grantOf q3.grants x ≠ 0 := by have := p3.nonneg x; omega
      by_contra hc
      refine h3 (p3.outside x (fun v hv e => hc ⟨v, hv, e, p3.enabled v hv (by rw [e]; exact h3)⟩))

end Sys2Proof.Machine
end

