-- ==== Sys2Proof/Laws/Outcome.lean ====
section
/-! SUPPORT. Laws/Outcome.lean: what an allocation run leaves (R88 to R92): the grants of its passes, its totals, and the energies
of its stage 1. -/

namespace Sys2Proof.Machine

variable {s t : State}

/-! ## What the later stages leave alone -/

@[simp] theorem setDone_fleet (x : Nat) (s : State) : (setDone x s).fleet = s.fleet ∧ (setDone x s).reserve = s.reserve := by
  unfold setDone; split
  · exact ⟨rfl, rfl⟩
  · simp

theorem alignDone_same (v : Served) (s : State) : (alignDone v s).fleet = s.fleet ∧ (alignDone v s).reserve = s.reserve := by
  unfold alignDone; dsimp only
  generalize (if v.bus.isSome = true then decide (v.need = 0) else _) = a
  split
  · simp
  · split
    · exact ⟨rfl, rfl⟩
    · exact ⟨rfl, rfl⟩

theorem editRecord_same (f : CallRecord → CallRecord) (s : State) :
    (editRecord f s).fleet = s.fleet ∧ (editRecord f s).berths = s.berths ∧ (editRecord f s).alloc = s.alloc ∧
    (editRecord f s).reserve.state = s.reserve.state ∧ (editRecord f s).reserve.call = s.reserve.call ∧
    (editRecord f s).reserve.coverage = s.reserve.coverage := by
  unfold editRecord; split <;> exact ⟨rfl, rfl, rfl, rfl, rfl, rfl⟩

theorem handShortfall_same (n : Int) (b : Budgets) (s : State) :
    (handShortfall n b s).fleet = s.fleet ∧ (handShortfall n b s).berths = s.berths ∧
    (handShortfall n b s).reserve.state = s.reserve.state ∧ (handShortfall n b s).reserve.call = s.reserve.call ∧
    (handShortfall n b s).reserve.coverage = s.reserve.coverage := by
  unfold handShortfall; split
  · exact ⟨rfl, rfl, rfl, rfl, rfl⟩
  · split
    · unfold reserveShortfall; split
      · split
        · exact ⟨rfl, rfl, rfl, rfl, rfl⟩
        · simp [editRecord_same]
      · exact ⟨rfl, rfl, rfl, rfl, rfl⟩
    · unfold peakShortfall; split
      · split
        · exact ⟨rfl, rfl, rfl, rfl, rfl⟩
        · simp
      · exact ⟨rfl, rfl, rfl, rfl, rfl⟩
    · exact ⟨rfl, rfl, rfl, rfl, rfl⟩

theorem recomputeAll_same (s : State) : (recomputeAll s).fleet = s.fleet ∧ (recomputeAll s).reserve = s.reserve ∧
    ∀ x, ((recomputeAll s).berth x).grant = (s.berth x).grant := by
  have h := recomputeAll_step s
  have h2 := onlyPath_iff.mp h.only
  exact ⟨h2.2.2.2.2.2.2.1, h2.2.2.2.2.2.2.2.2.2.2.2.1, fun x => by rw [h.berth x]⟩

theorem handRuns_same (served : List Served) (filled : List Int) (s : State) :
    (handRuns served filled s).fleet = s.fleet ∧ (handRuns served filled s).berths = s.berths ∧
    (handRuns served filled s).reserve = s.reserve := by
  unfold handRuns
  have step : ∀ (u : State) (r : Run), let v := (match served.find? (fun v => decide ((v.run.map (·.runId)) = some r.runId)) with
      | none => u
      | some v => handOver r (v.bus.getD 0) v.need (v.projection (grantOf filled v.berth)) u)
      v.fleet = u.fleet ∧ v.berths = u.berths ∧ v.reserve = u.reserve := by
    intro u r; dsimp only; split
    · exact ⟨rfl, rfl, rfl⟩
    · unfold handOver editRun editActive; dsimp only; split
      · exact ⟨rfl, rfl, rfl⟩
      · split <;> simp
  exact ⟨foldl_keeps (·.fleet) _ (fun u r => (step u r).1) _ s, foldl_keeps (·.berths) _ (fun u r => (step u r).2.1) _ s,
    foldl_keeps (·.reserve) _ (fun u r => (step u r).2.2) _ s⟩

theorem changeReserve_same (st : ReserveState) (s : State) :
    (changeReserve st s).fleet = s.fleet ∧ (changeReserve st s).berths = s.berths ∧ (changeReserve st s).alloc = s.alloc ∧
    (changeReserve st s).reserve = { s.reserve with state := st } := by
  unfold changeReserve; split
  · rename_i h; exact ⟨rfl, rfl, rfl, by rw [← h]⟩
  · simp

theorem storeCoverage_same (v : Int) (w : ReserveWindow) (s : State) :
    (storeCoverage v w s).fleet = s.fleet ∧ (storeCoverage v w s).berths = s.berths ∧ (storeCoverage v w s).alloc = s.alloc ∧
    (storeCoverage v w s).reserve.call = s.reserve.call ∧
    ((storeCoverage v w s).reserve.state = .called ↔ s.reserve.state = .called) := by
  unfold storeCoverage; dsimp only
  split
  · rename_i h
    simp only [changeReserve_same]
    refine ⟨trivial, trivial, trivial, trivial, ?_⟩
    rw [h]; split <;> simp
  · rename_i h
    simp only [changeReserve_same]
    refine ⟨trivial, trivial, trivial, trivial, ?_⟩
    rw [h]; split <;> simp
  · rename_i h
    split
    · simp only [changeReserve_same]
      refine ⟨trivial, trivial, trivial, trivial, ?_⟩
      rw [h]; split <;> simp
    · exact ⟨rfl, rfl, rfl, rfl, Iff.rfl⟩
  · exact ⟨rfl, rfl, rfl, rfl, Iff.rfl⟩

theorem handCoverage_same (k : RunKind) (served : List Served) (g : List Int) (s : State) :
    (handCoverage k served g s).fleet = s.fleet ∧ (handCoverage k served g s).berths = s.berths ∧
    (handCoverage k served g s).alloc = s.alloc ∧ (handCoverage k served g s).reserve.call = s.reserve.call ∧
    ((handCoverage k served g s).reserve.state = .called ↔ s.reserve.state = .called) ∧
    (k ≠ .periodic → handCoverage k served g s = s) := by
  unfold handCoverage; split
  · rename_i w _
    split
    · exact ⟨rfl, rfl, rfl, rfl, Iff.rfl, fun h => absurd rfl h⟩
    · have := storeCoverage_same (coverageOf w served g) w s
      exact ⟨this.1, this.2.1, this.2.2.1, this.2.2.2.1, this.2.2.2.2, fun h => absurd rfl h⟩
  · exact ⟨rfl, rfl, rfl, rfl, Iff.rfl, fun _ => rfl⟩

/-! ## The energies of stage 1 -/

theorem fleetBus_writeEnergies (s : State) (b : Nat) : (writeEnergies s).fleetBus b =
    if 1 ≤ b ∧ b ≤ 64 ∧ b ≤ s.fleet.length ∧ (s.fleetBus b).used = true then
      { s.fleetBus b with protectedEnergy := some (s.protectedOf b), availableEnergy := some (s.availableOf b) }
    else s.fleetBus b := by
  have gen : ∀ (l : List Nat) (u : State), u.fleet.length = s.fleet.length →
      (∀ c, (u.fleetBus c) = s.fleetBus c ∨ u.fleetBus c = { s.fleetBus c with
        protectedEnergy := some (s.protectedOf c), availableEnergy := some (s.availableOf c) }) →
      (l.foldl (fun t b => if (s.fleetBus b).used then
        t.editBus b fun r => { r with protectedEnergy := some (s.protectedOf b), availableEnergy := some (s.availableOf b) }
        else t) u).fleetBus b =
      if b ∈ l ∧ 1 ≤ b ∧ b ≤ s.fleet.length ∧ (s.fleetBus b).used = true then
        { s.fleetBus b with protectedEnergy := some (s.protectedOf b), availableEnergy := some (s.availableOf b) }
      else u.fleetBus b := by
    intro l
    induction l with
    | nil => intro u _ _; simp
    | cons c l ih =>
      intro u hu hsame
      rw [List.foldl_cons]
      by_cases hc : (s.fleetBus c).used = true
      · simp only [hc, if_true]
        have h2 : ∀ d, (u.editBus c fun r => { r with protectedEnergy := some (s.protectedOf c), availableEnergy := some (s.availableOf c) }).fleetBus d =
            if d = c ∧ 1 ≤ c ∧ c ≤ s.fleet.length then { s.fleetBus c with protectedEnergy := some (s.protectedOf c), availableEnergy := some (s.availableOf c) } else u.fleetBus d := by
          intro d; rw [fleetBus_editBus, hu]; split
          · rcases hsame c with e | e <;> rw [e]
          · rfl
        rw [ih _ (by simp [hu]) (fun d => ?_), h2]
        · by_cases hb : b = c
          · subst hb; simp only [List.mem_cons, true_or, true_and, hc, and_true]
            by_cases hl : 1 ≤ b ∧ b ≤ s.fleet.length
            · simp [hl]
            · simp [hl]
          · simp [hb]
        · rw [h2]; split
          · rename_i e; rw [e.1]; exact Or.inr rfl
          · exact hsame d
      · rw [if_neg hc, ih u hu hsame]
        by_cases hb : b = c
        · subst hb; simp [hc]
        · simp [hb]
  have := gen busNumbers s rfl (fun _ => Or.inl rfl)
  unfold writeEnergies
  rw [this]
  have hm : b ∈ busNumbers ↔ 1 ≤ b ∧ b ≤ 64 := by
    simp only [busNumbers, List.mem_map, List.mem_range]
    constructor
    · rintro ⟨a, ha, rfl⟩; have : Config.buses = 64 := rfl; omega
    · rintro ⟨h1, h2⟩; exact ⟨b - 1, by have : Config.buses = 64 := rfl; omega, by omega⟩
  by_cases h1 : b ∈ busNumbers
  · have h2 := hm.mp h1
    simp only [h1, h2, true_and]
  · have h2 : ¬ (1 ≤ b ∧ b ≤ 64) := fun h => h1 (hm.mpr h)
    rw [if_neg (fun h => h1 h.1), if_neg (fun h => h2 ⟨h.1, h.2.1⟩)]

/-! ## The outcome of a run -/

/-- The state the passes work on: the energies written and DONE aligned. -/
def runInputs (s : State) : State × List Served :=
  let w := writeEnergies s
  let served := w.servedBerths.map w.inputs
  (served.foldl (fun s v => alignDone v s) w, served)

/-- What the passes of a run over `s` leave. -/
def runOutcome (s : State) : Outcomes := (runInputs s).1.passes (runInputs s).1.budgets (runInputs s).2

theorem runInputs_run (s : State) : RunStep s (runInputs s).1 :=
  (writeEnergies_run s).trans (RunStep.foldl _ (fun s v => alignDone_run v s) _ _)

theorem runInputs_fleet (s : State) : (runInputs s).1.fleet = (writeEnergies s).fleet :=
  foldl_keeps (·.fleet) _ (fun u v => (alignDone_same v u).1) _ _

theorem runInputs_reserve (s : State) : (runInputs s).1.reserve = s.reserve := by
  unfold runInputs; dsimp only
  rw [foldl_keeps (·.reserve) (fun s v => alignDone v s) (fun u v => (alignDone_same v u).2)]
  unfold writeEnergies
  refine foldl_keeps (·.reserve) _ (fun u b => ?_) _ s
  split
  · simp
  · rfl

/-- The stages of a run after its passes. -/
def runTail (k : RunKind) (a : State) (served : List Served) (o : Outcomes) : State :=
  let b := a.budgets
  let short := (served.filter fun v => (v.projection (grantOf o.filled v.berth)).isSome).map (·.berth)
  let totals := a.totalsOf k b served o short.length
  let u := recomputeAll (writeGrants o.grants (handShortfall o.shortfall b a))
  let u := handRuns served o.filled (writeProjections short u)
  handCoverage k served o.grants { u with alloc := { u.alloc with totals := totals } }

/-- What an allocation run leaves. -/
theorem allocationRun_leaves (k : RunKind) (s : State) :
    (∀ x, ((allocationRun k s).berth x).grant =
      if x < s.berths.length then grantOf (runOutcome s).grants x else (s.berth x).grant) ∧
    (∃ short, (allocationRun k s).alloc.totals =
      (runInputs s).1.totalsOf k (runInputs s).1.budgets (runInputs s).2 (runOutcome s) short) ∧
    (allocationRun k s).fleet = (writeEnergies s).fleet ∧
    (allocationRun k s).reserve.call = s.reserve.call ∧
    ((allocationRun k s).reserve.state = .called ↔ s.reserve.state = .called) ∧
    (k ≠ .periodic → (allocationRun k s).reserve.state = s.reserve.state ∧
      (allocationRun k s).reserve.coverage = s.reserve.coverage) := by
  have hw : ∀ x, ((runInputs s).1.berth x).grant = (s.berth x).grant := by
    have al : ∀ (v : Served) (u : State) (x : Nat), ((alignDone v u).berth x).grant = (u.berth x).grant := by
      intro v u x
      have g : ∀ (u : State) (f : Berth → Berth), (∀ r, (f r).grant = r.grant) →
          ((u.editBerth v.berth f).berth x).grant = (u.berth x).grant :=
        fun u f h => berth_editBerth_field (·.grant) u v.berth x f h
      unfold alignDone; dsimp only
      generalize (if v.bus.isSome = true then decide (v.need = 0) else _) = a
      split
      · unfold setDone; split
        · exact berth_editBerth_field (·.grant) u v.berth x _ (fun _ => rfl)
        · rw [berth_congr (notify_same _ _).2.2.2.2.1]
          rw [g, g]
          · exact fun _ => rfl
          · exact fun _ => rfl
      · split
        · exact berth_editBerth_field (·.grant) u v.berth x _ (fun _ => rfl)
        · rfl
    intro x
    unfold runInputs; dsimp only
    rw [foldl_keeps (fun u => (u.berth x).grant) (fun s v => alignDone v s) (fun u v => al v u x)]
    unfold writeEnergies
    refine foldl_keeps (fun u : State => (u.berth x).grant) _ (fun u b => ?_) _ s
    split
    · rw [berth_congr (editBus_same u b _).2.2.2.2.2.1]
    · rfl
  have hrun := runInputs_run s
  have hf := runInputs_fleet s
  have hr := runInputs_reserve s
  have hout : runOutcome s = (runInputs s).1.passes (runInputs s).1.budgets (runInputs s).2 := rfl
  have hrec : allocationRun k s = runTail k (runInputs s).1 (runInputs s).2 (runOutcome s) := by
    delta allocationRun runTail runOutcome runInputs; dsimp only
  rw [hrec]
  clear hrec hout
  generalize runOutcome s = o
  unfold runTail
  generalize hA : (runInputs s).1 = a at *
  generalize (runInputs s).2 = served
  dsimp only
  generalize hS : (served.filter fun v => (v.projection (grantOf o.filled v.berth)).isSome).map (·.berth) = short
  generalize hB : a.budgets = b
  have h1 := handShortfall_same o.shortfall b a
  generalize handShortfall o.shortfall b a = c at h1 ⊢
  have h2 := recomputeAll_same (writeGrants o.grants c)
  generalize recomputeAll (writeGrants o.grants c) = d at h2 ⊢
  have h3 := handRuns_same served o.filled (writeProjections short d)
  generalize handRuns served o.filled (writeProjections short d) = e at h3 ⊢
  have h4 := handCoverage_same k served o.grants
    { e with alloc := { e.alloc with totals := a.totalsOf k b served o short.length } }
  refine ⟨fun x => ?_, ⟨short.length, by rw [h4.2.2.1]⟩, ?_, ?_, ?_, ?_⟩
  · rw [berth_congr h4.2.1]
    change (e.berth x).grant = _
    rw [berth_congr h3.2.1]
    have : ((writeProjections short d).berth x).grant = (d.berth x).grant := by
      unfold writeProjections; rw [berth_mapIdx]; split <;> rfl
    rw [this, h2.2.2]
    have hl : c.berths.length = s.berths.length := by rw [h1.2.1, hrun.length]
    unfold writeGrants; rw [berth_mapIdx, hl]
    split
    · rfl
    · rw [berth_congr h1.2.1, hw]
  · rw [h4.1]; change e.fleet = _
    rw [h3.1]; change d.fleet = _
    rw [h2.1]; change c.fleet = _
    rw [h1.1, hf]
  · rw [h4.2.2.2.1]; change e.reserve.call = _
    rw [h3.2.2]; change d.reserve.call = _
    rw [h2.2.1]; change c.reserve.call = _
    rw [h1.2.2.2.1, hr]
  · rw [h4.2.2.2.2.1]; change e.reserve.state = _ ↔ _
    rw [h3.2.2]; change d.reserve.state = _ ↔ _
    rw [h2.2.1]; change c.reserve.state = _ ↔ _
    rw [h1.2.2.1, hr]
  · intro hk
    rw [h4.2.2.2.2.2 hk]; change e.reserve.state = _ ∧ e.reserve.coverage = _
    rw [h3.2.2]; change d.reserve.state = _ ∧ d.reserve.coverage = _
    rw [h2.2.1]; change c.reserve.state = _ ∧ c.reserve.coverage = _
    rw [h1.2.2.1, h1.2.2.2.2, hr]; exact ⟨rfl, rfl⟩

end Sys2Proof.Machine
end

