-- ==== Sys2Proof/Laws/Tables.lean ====
section
/-! SUPPORT. Laws/Tables.lean: what the Run Table's shared operations can do (Machine/RunTable.lean): of the active table they
change each run's bus, pin, state and short reason, and never its plan; and what applying the day set leaves. -/

namespace Sys2Proof.Machine

variable {s t u : State}

/-- A run without what its life changes: its id, departure, distance and the two permissions (R93). -/
def Run.timetable (r : Run) : Run := { r with bus := none, pinned := false, state := .opened, reason := none }

/-- What an operation of the Run Table may do to the part. -/
structure TableStep (s t : State) : Prop where
  only : t = { s with
    link := { s.link with fifo := t.link.fifo, answerLost := t.link.answerLost }
    runs := { s.runs with active := t.runs.active }
    faults := { s.faults with noticeLost := t.faults.noticeLost } }
  queue : QueueKept s t
  plan : t.runs.active.map Run.timetable = s.runs.active.map Run.timetable

theorem TableStep.refl (s : State) : TableStep s s := ⟨rfl, QueueKept.refl s, rfl⟩

theorem TableStep.trans (h : TableStep s t) (h' : TableStep t u) : TableStep s u := by
  refine ⟨?_, h.queue.trans h'.queue, h'.plan.trans h.plan⟩
  have e := h'.only; rw [h.only] at e; exact e

/-- The same with the last step first, from which the state between is read. -/
theorem TableStep.trans' (h' : TableStep t u) (h : TableStep s t) : TableStep s u := h.trans h'

theorem TableStep.foldl {α : Type} (f : State → α → State) (h : ∀ s a, TableStep s (f s a)) (l : List α) (s : State) :
    TableStep s (l.foldl f s) := by
  induction l generalizing s with
  | nil => exact .refl s
  | cons a l ih => exact (h s a).trans (ih _)

/-- The number of runs stands (R94). -/
theorem TableStep.length (h : TableStep s t) : t.runs.active.length = s.runs.active.length := by
  simpa using congrArg List.length h.plan

/-- The runs and their order stand (R94). -/
theorem TableStep.ids (h : TableStep s t) : t.runs.active.map (·.runId) = s.runs.active.map (·.runId) := by
  have e := congrArg (List.map (·.runId)) h.plan
  simp only [List.map_map] at e
  exact e

theorem notify_table (b : NoticeBody) (s : State) : TableStep s (notify b s) := by
  have hr : (notify b s).runs = s.runs := (notify_same b s).2.2.2.2.2.2.2.1
  refine ⟨?_, notify_queue b s, by rw [hr]⟩
  rw [hr]; exact notify_onlyQueue b s

theorem editActive_table (f : List Run → List Run) (s : State)
    (h : (f s.runs.active).map Run.timetable = s.runs.active.map Run.timetable) : TableStep s (editActive f s) :=
  ⟨rfl, .of_fifo rfl, h⟩

/-- Every run is changed by itself. -/
theorem editEach_table (f : Run → Run) (s : State) (h : ∀ r, (f r).timetable = r.timetable) :
    TableStep s (editActive (fun l => l.map f) s) := by
  refine editActive_table _ s ?_
  rw [List.map_map]; exact List.map_congr_left fun r _ => h r

theorem rederiveFrom_plan (b : Nat) (seen : Bool) (l : List Run) :
    (rederiveFrom b seen l).map Run.timetable = l.map Run.timetable := by
  induction l generalizing seen with
  | nil => rfl
  | cons r l ih =>
    unfold rederiveFrom; split
    · rw [List.map_cons, List.map_cons, ih]; congr 1
      repeat' split
      all_goals rfl
    · rw [List.map_cons, List.map_cons, ih]

/-! ## Rederiving, unplugs, resolution -/

theorem rederive_table (b : Nat) (s : State) : TableStep s (rederive b s) := editActive_table _ s (rederiveFrom_plan _ _ _)

theorem rederiveOpt_table (b : Option Nat) (s : State) : TableStep s (rederiveOpt b s) := by
  unfold rederiveOpt; split
  · exact .refl s
  · exact rederive_table _ s

theorem rederiveAll_table (s : State) : TableStep s (rederiveAll s) := .foldl _ (fun s b => rederive_table b s) _ s

theorem editRun_table (runId : Nat) (f : Run → Run) (s : State) (h : ∀ r, (f r).timetable = r.timetable) :
    TableStep s (editRun runId f s) := by
  refine editEach_table _ s fun r => ?_
  split
  · exact h r
  · rfl

theorem giveBus_table (runId b : Nat) (pin : Bool) (s : State) : TableStep s (giveBus runId b pin s) :=
  (rederive_table _ _).trans' (editRun_table _ _ s fun _ => rfl)

theorem finishRun_table (r : Run) (st : RunState) (s : State) : TableStep s (finishRun r st s) :=
  (rederiveOpt_table _ _).trans' (editRun_table _ _ s fun _ => rfl)

theorem runUnplug_table (b : Nat) (s : State) : TableStep s (runUnplug b s) := by
  unfold runUnplug; split
  · exact .refl s
  · split
    · exact (notify_table _ s).trans (finishRun_table _ _ _)
    · split
      · exact .refl s
      · exact editRun_table _ _ s fun _ => rfl

theorem resolveRun_table (s : State) (r : Run) : TableStep s (resolveRun s r) := by
  unfold resolveRun; split
  · exact (notify_table _ s).trans (finishRun_table _ _ _)
  · split
    · exact (notify_table _ s).trans (finishRun_table _ _ _)
    · exact (notify_table _ s).trans (finishRun_table _ _ _)

theorem resolveRuns_table (s : State) : TableStep s (resolveRuns s) := by
  refine .foldl _ (fun s runId => ?_) _ s
  split
  · exact .refl s
  · split
    · exact resolveRun_table s _
    · exact .refl s

/-! ## Assignment, swap and the supervisor's changes -/

theorem assignRun_table (s : State) (runId : Nat) : TableStep s (assignRun s runId) := by
  unfold assignRun; split
  · exact .refl s
  · split
    · split
      · exact .refl s
      · exact (notify_table _ s).trans (giveBus_table _ _ _ _)
    · exact .refl s

theorem assignRuns_table (s : State) : TableStep s (assignRuns s) := .foldl _ assignRun_table _ s

theorem swapRun_table (acc : State × List Nat) (runId : Nat) : TableStep acc.1 (swapRun acc runId).1 := by
  unfold swapRun; dsimp only; split
  · exact .refl _
  · split
    · split
      · exact .refl _
      · exact ((notify_table _ _).trans (giveBus_table _ _ _ _)).trans (rederiveOpt_table _ _)
    · exact .refl _

theorem swapRuns_table (s : State) : TableStep s (swapRuns s) := by
  have h : ∀ (l : List Nat) (acc : State × List Nat), TableStep acc.1 (l.foldl swapRun acc).1 := by
    intro l
    induction l with
    | nil => exact fun acc => .refl _
    | cons a l ih => exact fun acc => (swapRun_table acc a).trans (ih _)
  exact h _ (s, [])

theorem assignCommand_table (runId bus : Nat) (pin : Bool) (s : State) : TableStep s (assignCommand runId bus pin s).1 := by
  unfold assignCommand; split
  · exact .refl s
  · split
    · exact .refl s
    · split
      · exact (rederiveOpt_table _ _).trans' (editRun_table _ _ s fun _ => rfl)
      · split
        · exact editRun_table _ _ s fun _ => rfl
        · exact (giveBus_table _ _ _ _).trans' ((rederiveOpt_table _ _).trans' (editRun_table _ _ s fun _ => rfl))

theorem cancelCommand_table (runId : Nat) (s : State) : TableStep s (cancelCommand runId s).1 := by
  unfold cancelCommand; split
  · exact .refl s
  · split
    · exact .refl s
    · exact (rederiveOpt_table _ _).trans' (editRun_table _ _ s fun _ => rfl)

theorem runsLoseBus_table (b : Nat) (s : State) : TableStep s (runsLoseBus b s) :=
  editEach_table _ s fun r => by repeat' split
                                 all_goals rfl

/-! ## The day -/

theorem closeDay_table (s : State) : TableStep s (closeDay s) := editEach_table _ s fun r => by split <;> rfl

theorem renewRuns_table (s : State) : TableStep s (renewRuns s) :=
  (rederiveAll_table _).trans' (editEach_table _ s fun _ => rfl)

theorem restartRuns_table (s : State) : TableStep s (restartRuns s) := editEach_table _ s fun r => by split <;> rfl

/-- R109 step 1: after the day is closed every run is finished. -/
theorem closeDay_finished (s : State) (r : Run) (h : r ∈ (closeDay s).runs.active) : r.state.unfinished = false := by
  simp only [closeDay, editActive, List.mem_map] at h
  obtain ⟨q, _, rfl⟩ := h
  split
  · rfl
  · simpa using ‹¬ q.state.unfinished = true›

theorem clearPin_timetable (r : Run) : (clearPin r).timetable = r.timetable := by unfold clearPin; split <;> rfl

theorem mergedRun_timetable (bus : Option Nat) (rec : RunRecord) (old : Option Run) :
    (mergedRun bus rec old).timetable = ⟨{ rec with bus := none, pinned := false }, .opened, none⟩ := by
  unfold mergedRun; repeat' split
  all_goals rfl

/-- R107: the merge leaves one run for each pending record, in the pending table's order, with that record's plan. -/
theorem mergeRuns_plan (s : State) : (mergeRuns s).runs.active.map Run.timetable =
    s.runs.pending.runs.map fun rec =>
      (⟨{ rec with bus := none, pinned := false }, .opened, none⟩ : Run) := by
  unfold mergeRuns
  rw [(rederiveAll_table _).plan]
  simp only [editActive, List.map_map]
  exact List.map_congr_left fun rec _ => (clearPin_timetable _).trans (mergedRun_timetable _ _ _)

/-- R107, R108: what applying the day set leaves: a run for each pending record, the pending cold table and windows in use,
and an empty pending set. -/
theorem applyTables_leaves (s : State) :
    (applyTables s).runs.active.map Run.timetable =
      s.runs.pending.runs.map (fun rec => (⟨{ rec with bus := none, pinned := false }, .opened, none⟩ : Run)) ∧
    (applyTables s).runs.cold = s.runs.pending.cold ∧ (applyTables s).runs.pending = PendingSet.empty ∧
    (applyTables s).storage.windows = s.runs.pending.demand ∧ (applyTables s).reserve.windows = s.runs.pending.reserve ∧
    (applyTables s).berths = s.berths ∧ (applyTables s).fleet = s.fleet := by
  have hp : (mergeRuns s).runs.pending = s.runs.pending ∧ (mergeRuns s).berths = s.berths ∧ (mergeRuns s).fleet = s.fleet := by
    have e := (rederiveAll_table (editActive (fun _ =>
      s.runs.pending.runs.map fun rec => clearPin (mergedRun (s.recordBus rec) rec (s.run? rec.runId))) s)).only
    unfold mergeRuns; rw [e]; exact ⟨rfl, rfl, rfl⟩
  have hm := mergeRuns_plan s
  unfold applyTables; dsimp only
  simp only [notify_same]
  rw [hp.1]
  exact ⟨hm, rfl, trivial, rfl, rfl, hp.2.1, hp.2.2⟩

end Sys2Proof.Machine
end

