-- ==== Sys2Proof/WellFormed.lean ====
section
/-! DEFINITION. WellFormed.lean: which commands the lines can carry: every field within the width of its frame, a frame
with as many entries as its table allows, a refused frame really refused. The meanings are total all the same. -/

namespace Sys2Proof

/-- A number of `bits` bits. -/
def fits (bits n : Nat) : Bool := decide (n < 2 ^ bits)

/-- A signed number of `bits` bits. -/
def fitsSigned (bits : Nat) (v : Int) : Bool := decide (-(2 ^ (bits - 1) : Int) ≤ v ∧ v < 2 ^ (bits - 1))

/-- A body of at most 60 bytes (chapter 10). -/
def linkBody (body : List Byte) : Bool := decide (body.length ≤ 60)

/-- The body and cabinet field of a frame a cabinet sends (chapter 02): 0 to 40 bytes, a 5-bit field. -/
def busBody (cabinet : Nat) (body : List Byte) : Bool := fits 5 cabinet && decide (body.length ≤ 40)

/-- A frame of a TABLE holds as many entries as R166 gives. -/
def entryCount (least most : Nat) (n : Nat) : Bool := decide (least ≤ n ∧ n ≤ most)

/-- An entry stands in a frame of 1 to 4 entries (R165): at most 3 follow it, and at most 2 follow one that is not the first. -/
def EntryPos.wf (p : EntryPos) : Bool := fits 8 p.tag && decide (p.remaining ≤ if p.first then 3 else 2)

/-- A target byte is ALL (0xFE) or another byte. -/
def Target.wf : Target → Bool
  | .all => true
  | .one n => fits 8 n && decide (n ≠ 0xFE)

def MapEntry.wf (e : MapEntry) : Bool :=
  fits 8 e.berth && fits 8 e.cabinet && fits 8 e.outlet && fits 8 e.group && fits 8 e.coupling &&
    match e.partner with
    | none => true
    | some p => decide (p ≤ 35)

def GroupEntry.wf (e : GroupEntry) : Bool := fits 8 e.group && fitsSigned 16 e.limit

def FleetEntry.wf (e : FleetEntry) : Bool :=
  fits 8 e.bus && fits 32 e.capacity && fits 16 e.rate && fits 16 e.arrivalFloor && fits 16 e.maxCharge &&
    fits 8 e.permitted && fits 16 e.dischargeMax

def ParamEntry.wf (e : ParamEntry) : Bool := fits 8 e.id && fitsSigned 32 e.value

def RunEntry.wf (e : RunEntry) : Bool := fits 16 e.runId && fits 16 e.departure && fits 16 e.distance && fits 8 e.bus

def ColdPoint.wf (p : ColdPoint) : Bool := fitsSigned 8 p.temperature && fits 16 p.factor

def DemandEntry.wf (e : DemandEntry) : Bool := fits 16 e.start && fits 16 e.stop && fits 16 e.hold

def ReserveEntry.wf (e : ReserveEntry) : Bool :=
  fits 16 e.start && fits 16 e.stop && fits 16 e.reduction && fits 16 e.maxDuration && fits 8 e.frequency

def MeterSample.wf (m : MeterSample) : Bool :=
  fits 8 m.sequence && fitsSigned 16 m.power && fits 16 m.frequency && fitsSigned 8 m.ambient

/-- The command can arrive on the part's lines and pins. -/
def WellFormed : Instr → Bool
  | .fullReset limsel _ _ => fits 3 limsel
  | .linkFrameGapAbandon bytes => decide (1 ≤ bytes.length ∧ bytes.length ≤ 66)
  | .linkFrameDropped bytes => decide (5 ≤ bytes.length ∧ bytes.length ≤ 67)
  | .depotFrameRefused party kind tag body =>
    fits 8 tag && linkBody body && (Machine.depotRefusal party.toNat kind.toNat body).isSome
  | .setpointReq berth tag body => decide (berth ≤ 35) && fits 8 tag && linkBody body
  | .pass cabinet tag body =>
    fits 8 tag && linkBody body &&
      match cabinet with
      | none => true
      | some c => decide (1 ≤ c ∧ c ≤ 12)
  | .serviceFrameRefused tag body => fits 8 tag && linkBody body && (Machine.serviceRefusal body).isSome
  | .serviceNoop pos => pos.wf
  | .serviceUnknownCommand pos command => pos.wf && decide (command = 0 ∨ (25 ≤ command ∧ command ≤ 254))
  | .berthEnableSet pos target => pos.wf && target.wf
  | .berthEnableClear pos target => pos.wf && target.wf
  | .doneClear pos target => pos.wf && target.wf
  | .noticeEnableSet pos target => pos.wf && target.wf
  | .noticeEnableClear pos target => pos.wf && target.wf
  | .classEnableSet pos target => pos.wf && target.wf
  | .classEnableClear pos target => pos.wf && target.wf
  | .alertRouteSet pos target => pos.wf && target.wf
  | .alertRouteClear pos target => pos.wf && target.wf
  | .faultClear pos target => pos.wf && target.wf
  | .groupEnableSet pos target => pos.wf && target.wf
  | .groupEnableClear pos target => pos.wf && target.wf
  | .timeSet pos second => pos.wf && fits 24 second
  | .applyDay pos => pos.wf
  | .pendingClear pos => pos.wf
  | .runAssign pos runId bus _ => pos.wf && fits 16 runId && fits 7 bus
  | .runCancel pos runId => pos.wf && fits 16 runId
  | .fleetDelete pos target => pos.wf && target.wf
  | .enroll pos => pos.wf
  | .startRun pos => pos.wf
  | .enterCommission pos => pos.wf
  | .safeHold pos => pos.wf
  | .resume pos => pos.wf
  | .restart pos => pos.wf
  | .tableFrameRefused tag body => fits 8 tag && linkBody body && (Machine.tableRefusal body).isSome
  | .berthMap tag entries => fits 8 tag && entryCount 1 6 entries.length && entries.all (·.wf)
  | .group tag entries => fits 8 tag && entryCount 1 6 entries.length && entries.all (·.wf)
  | .fleet tag entry => fits 8 tag && entry.wf
  | .params tag entries => fits 8 tag && entryCount 1 8 entries.length && entries.all (·.wf)
  | .runPending tag entries => fits 8 tag && entryCount 1 4 entries.length && entries.all (·.wf)
  | .coldPending tag points => fits 8 tag && entryCount 0 19 points.length && points.all (·.wf)
  | .demandPending tag entries => fits 8 tag && entryCount 1 8 entries.length && entries.all (·.wf)
  | .reservePending tag entries => fits 8 tag && entryCount 1 6 entries.length && entries.all (·.wf)
  | .queryStatus tag index => fits 8 tag && fits 16 index
  | .queryBerth tag index => fits 8 tag && fits 16 index
  | .queryBus tag index => fits 8 tag && fits 16 index
  | .queryRun tag index => fits 8 tag && fits 16 index
  | .queryGroups tag index => fits 8 tag && fits 16 index
  | .queryCalls tag index => fits 8 tag && fits 16 index
  | .queryDemand tag index => fits 8 tag && fits 16 index
  | .reserveCall tag callId reduction duration => fits 8 tag && fits 16 callId && fits 16 reduction && fits 16 duration
  | .reserveEnd tag callId => fits 8 tag && fits 16 callId
  | .upstreamTransmit => true
  | .clockAdvance => true
  | .oneSecondTick => true
  | .requestLifetimeExpiry berth => decide (berth ≤ 35)
  | .callDurationExpiry => true
  | .periodicRun => true
  | .startSlotExpiry => true
  | .surveyTimerExpiry => true
  | .surveyStart => true
  | .surveyOpenSent => true
  | .slotTimerExpiry => true
  | .closeSent => true
  | .status cabinet body => busBody cabinet body
  | .berthBusFrameDiscarded bytes => decide (1 ≤ bytes.length)
  | .setpointDequeue => true
  | .setpointSent => true
  | .ack cabinet body => busBody cabinet body
  | .ackWindowExpiry => true
  | .echoMismatch => true
  | .passDequeue => true
  | .passSent => true
  | .passAnswer cabinet body => busBody cabinet body
  | .passAckWindowExpiry => true
  | .enrollLineTaken => true
  | .enrollForgetSent => true
  | .enrollAssignSent => true
  | .enrollReport cabinet body => busBody cabinet body
  | .enrollReplyWindowExpiry => true
  | .stopSent => true
  | .meterFrameGapAbandon bytes => decide (1 ≤ bytes.length ∧ bytes.length ≤ 9)
  | .meterFrameCrcFail bytes => decide (bytes.length = 10)
  | .meterSampleInvalidFlag => true
  | .meterSampleDuplicate => true
  | .meterSampleAccepted sample => sample.wf
  | .sampleTimerExpiry => true
  | .resetPinAsserted => true

end Sys2Proof
end

