-- ==== Sys2Proof/Tests/Slice0.lean ====
section
/-! SUPPORT. Tests/Slice0.lean: an ill-formed command for each check of WellFormed, decodings of bytes written out from the
spec's layouts, the spec's worked figures, one-step tests, and a witness for the hypotheses of each statement. -/

namespace Sys2Proof.Tests

open Sys2Proof Sys2Proof.Machine

set_option maxRecDepth 20000

/-! ## WellFormed -/

def pos0 : EntryPos := ⟨5, true, 0⟩

theorem test_wf_fits : WellFormed (.queryBerth 5 65535) = true ∧ WellFormed (.queryBerth 5 65536) = false ∧
    WellFormed (.queryStatus 256 0) = false ∧ WellFormed (.fullReset 8 false false) = false ∧
    WellFormed (.timeSet pos0 16777216) = false ∧ WellFormed (.runAssign pos0 1 128 false) = false := by decide
theorem test_wf_signed : WellFormed (.group 5 [⟨0, 32768⟩]) = false ∧ WellFormed (.group 5 [⟨0, -32768⟩]) = true ∧
    WellFormed (.params 5 [⟨1, 2147483648⟩]) = false ∧ WellFormed (.coldPending 5 [⟨128, 1000⟩]) = false ∧
    WellFormed (.meterSampleAccepted ⟨0, 0, 50000, -129⟩) = false := by decide
theorem test_wf_linkBody : WellFormed (.setpointReq 0 5 (List.replicate 61 0)) = false ∧
    WellFormed (.setpointReq 36 5 [0, 0]) = false := by decide
theorem test_wf_busBody : WellFormed (.status 32 []) = false ∧ WellFormed (.ack 1 (List.replicate 41 0)) = false := by decide
theorem test_wf_entryCount : WellFormed (.group 5 []) = false ∧ WellFormed (.group 5 (List.replicate 7 ⟨0, 1⟩)) = false := by decide
theorem test_wf_entryPos : WellFormed (.applyDay ⟨5, true, 3⟩) = true ∧ WellFormed (.applyDay ⟨5, false, 3⟩) = false ∧
    WellFormed (.applyDay ⟨5, true, 4⟩) = false := by decide
theorem test_wf_target : WellFormed (.doneClear pos0 (.one 254)) = false ∧ WellFormed (.doneClear pos0 .all) = true := by decide
theorem test_wf_entries : WellFormed (.berthMap 5 [⟨0, 1, 0, 0, 0, some 36⟩]) = false ∧
    WellFormed (.fleet 5 ⟨1, 1, 4294967296, 1000, 0, 900, 0, 0⟩) = false ∧ WellFormed (.params 5 [⟨256, 0⟩]) = false ∧
    WellFormed (.runPending 5 [⟨65536, 0, 1, 0, false, false, false⟩]) = false ∧
    WellFormed (.demandPending 5 [⟨0, 1, 65536⟩]) = false ∧ WellFormed (.reservePending 5 [⟨0, 1, 1, 60, 256⟩]) = false := by decide
theorem test_wf_frames : WellFormed (.depotFrameRefused 0 4 5 []) = false ∧ WellFormed (.serviceFrameRefused 5 [1, 2, 3, 4]) = false ∧
    WellFormed (.tableFrameRefused 5 [2, 0, 0, 1]) = false ∧ WellFormed (.linkFrameGapAbandon []) = false ∧
    WellFormed (.linkFrameDropped [0xC9, 1]) = false ∧ WellFormed (.berthBusFrameDiscarded []) = false ∧
    WellFormed (.meterFrameGapAbandon (List.replicate 10 0)) = false ∧ WellFormed (.meterFrameCrcFail [0xB4]) = false := by decide
theorem test_wf_ranges : WellFormed (.pass (some 13) 5 []) = false ∧ WellFormed (.serviceUnknownCommand pos0 24) = false ∧
    WellFormed (.requestLifetimeExpiry 36) = false := by decide

/-! ## Bytes of the three lines (chapters 02, 08, 10), written out from their layouts -/

/-- The published check value of this CRC for the ASCII digits 1 to 9. -/
theorem test_crc_check : crc16 [0x31, 0x32, 0x33, 0x34, 0x35, 0x36, 0x37, 0x38, 0x39] = 0x29B1#16 := by decide
theorem test_no_word_bits : decodeTableWord 16 0xC901 = none := by decide
/-- 15.0 kW for berth 3, tag 9: party 0x04, kind 1, body 0x0096. -/
theorem test_link_setpointReq : linkCommands 0x04 1 9 [0x00, 0x96] = [.setpointReq 3 9 [0x00, 0x96]] ∧ steps16 0x00 0x96 = 150 := by
  decide
theorem test_link_pass : linkCommands 0x42 2 7 [1] = [.pass (some 2) 7 [1]] ∧ linkCommands 0x5F 2 7 [1] = [.pass none 7 [1]] := by
  decide
/-- BERTH_ENABLE_SET ALL, TIME_SET 72,000 (0x011940) and RUN_ASSIGN of run 300 to bus 12 with the pin bit, in one frame. -/
theorem test_link_service : linkCommands 0 3 8 [1, 0xFE, 0, 0, 13, 0x01, 0x19, 0x40, 16, 0x01, 0x2C, 0x8C] =
    [.berthEnableSet ⟨8, true, 2⟩ .all, .timeSet ⟨8, false, 1⟩ 72000, .runAssign ⟨8, false, 0⟩ 300 12 true] := by decide
theorem test_link_service_restart : linkCommands 0 3 8 [24, 0, 0, 0, 1, 2, 0, 0] = [.restart ⟨8, true, 1⟩] ∧
    linkCommands 0 3 8 [0xFF, 0, 0, 0, 25, 0, 0, 0] = [.serviceNoop ⟨8, true, 1⟩, .serviceUnknownCommand ⟨8, false, 0⟩ 25] := by decide
/-- A GROUP entry of 400.0 kW (0x0FA0) for group 2 and a PARAMS entry of −30 for parameter 19. -/
theorem test_link_table : linkCommands 0 4 6 [2, 2, 0x0F, 0xA0] = [.group 6 [⟨2, 4000⟩]] ∧
    linkCommands 0 4 6 [4, 19, 0xFF, 0xFF, 0xFF, 0xE2] = [.params 6 [⟨19, -30⟩]] ∧
    linkCommands 0 4 6 [1, 3, 1, 0, 2, 0, 0xFF] = [.berthMap 6 [⟨3, 1, 0, 2, 0, none⟩]] ∧
    linkCommands 0 4 6 [9] = [.tableFrameRefused 6 [9]] := by decide
/-- Run 415 at minute 420 (0x01A4), 426 units, bus 12, flags swap allowed. -/
theorem test_link_runs : linkCommands 0 4 6 [5, 0x01, 0x9F, 0x01, 0xA4, 0x01, 0xAA, 12, 0x02] =
    [.runPending 6 [⟨415, 420, 426, 12, false, true, false⟩]] := by decide
theorem test_link_query : linkCommands 0 5 3 [4, 0x80, 0x05] = [.queryRun 3 32773] := by decide
theorem test_link_reserve : linkCommands 0 6 4 [1, 0, 9, 0x0B, 0xB8, 0x0E, 0x10] = [.reserveCall 4 9 3000 3600] ∧
    linkCommands 0 6 4 [2, 0, 9] = [.reserveEnd 4 9] ∧ linkCommands 0 6 4 [3] = [.depotFrameRefused 0 6 4 [3]] := by decide
/-- A whole frame in the stream, then the start of another. -/
theorem test_link_stream : linkStream 20 (linkFrame 0 5 3 [2, 0, 1] ++ [0xC9, 0]) = ([.queryBerth 3 1], [0xC9, 0]) := by decide
/-- ACK (kind 3) of cabinet 2: address byte 3 × 32 + 2 = 0x62. -/
theorem test_bus_ack : (busFrame 3 2 [0, 0, 0x00, 0x96]).take 3 = [0xD2, 0x62, 4] ∧
    busCommand (busFrame 3 2 [0, 0, 0x00, 0x96]) = .ack 2 [0, 0, 0x00, 0x96] ∧
    busCommand [0xD2, 0x62, 0, 0, 0] = .berthBusFrameDiscarded [0xD2, 0x62, 0, 0, 0] := by decide
/-- Sequence 7, −25.0 kW, 50.010 Hz, −12 °C, valid flag set; the CRC over the seven bytes after the lead. -/
theorem test_meter_frame : meterCommand none ([0xB4, 7, 0xFF, 0x06, 0xC3, 0x5A, 0xF4, 1] ++ crcBytes [7, 0xFF, 0x06, 0xC3, 0x5A, 0xF4, 1]) =
    .meterSampleAccepted ⟨7, -250, 50010, -12⟩ ∧
    meterCommand (some 7) ([0xB4, 7, 0xFF, 0x06, 0xC3, 0x5A, 0xF4, 1] ++ crcBytes [7, 0xFF, 0x06, 0xC3, 0x5A, 0xF4, 1]) =
    .meterSampleDuplicate := by decide
/-- A STATUS entry: outlet 1, COMPLETE, contactor closed, tag 0xA1, 50.0 %, −24.8 kW, 150.0 kW. -/
theorem test_status_entry : statusEntries [0x13, 4, 0, 0, 0, 0xA1, 0x01, 0xF4, 0xFF, 0x08, 0x05, 0xDC] =
    [⟨1, 3, false, false, true, 0xA1, 500, -248, 1500⟩] := by decide

/-! ## The spec's worked figures -/

def coldTable : List ColdPoint := [⟨-20, 1345⟩, ⟨-10, 1220⟩, ⟨0, 1100⟩, ⟨10, 1000⟩]

/-- Chapter 05, "Worked cold factors". -/
theorem test_cold_factors : [some (-25), some (-17), some (-10), some (-3), some 15, none].map (coldFactor coldTable) =
    [1345, 1308, 1220, 1136, 1000, 1345] := by decide
/-- Chapter 05, "Worked energy target", of run 415 on buses 12 and 9. -/
theorem test_energy_targets :
    energyFor 426 { Bus.unused with capacity := 420000, rate := 1150, arrivalFloor := 150 } 1308 = 127079 ∧
    energyFor 426 { Bus.unused with capacity := 150000, rate := 1150, arrivalFloor := 400 } 1308 = 124079 ∧
    energyFor 850 { Bus.unused with capacity := 150000, rate := 1150, arrivalFloor := 400 } 1308 = 187857 := by decide

def setParam (id : Nat) (v : Int) (s : State) : State := { s with link := { s.link with params := s.link.params.set (id - 1) v } }

def morning : State := setParam 1 6000 (setParam 2 200 (setParam 4 930 State.reset))

/-- Chapter 06, "Worked protected and available energy": the credits at T = 10,800, 6,000 and 5,400. -/
theorem test_credits : [10800, 6000, 5400].map morning.credit = [27900, 3100, 0] := by decide
/-- Chapter 06, "the end of an interval under hold". -/
theorem test_hold_targets : [holdTargetOf 4500 0 0 0 5800, holdTargetOf 4500 28800000 6000 0 5800,
    holdTargetOf 4500 40460000 8990 0 5800, holdTargetOf 4500 40520000 8999 0 5800, holdTargetOf 4500 40460000 9000 0 5800] =
    [4500, 3900, 4000, 0, 5800] := by decide
theorem test_interval_record : closedRecord ⟨27000, 40524000, 9000, false, true⟩ = ⟨27000, some 4502, true, true⟩ ∧
    peakAfter ⟨27000, some 4502, true, true⟩ (some ⟨4480, 26100⟩) = some ⟨4502, 27000⟩ := by decide
/-- Chapter 04, the worked budgets. -/
theorem test_least_term : leastTerm 5800 (some 3900) (some 2700) = (2700, .reserve) ∧ leastTerm 5800 none none = (5800, .feeder) := by
  decide

def served (berth group cap need : Nat) (time : Option Int) : Served :=
  { berth := berth, group := group, cap := cap, dcap := 0, need := need, wants := true, bus := some 1, run := none, time := time,
    precondition := false, guarded := false, energyFloor := 0,
    floor := min cap (floorOf time need cap (match time with
      | none => 0
      | some t => morning.needOver need t.toNat) 0),
    slack := morning.slackOf time need cap, capacityLimited := false, eligible := false, available := 0 }

def ordinary : List Served :=
  [{ served 0 0 1500 60000 (some 3600) with guarded := true }, served 1 0 1200 150000 (some 10800),
    served 2 1 900 40000 (some 7200), served 3 1 1500 30000 none]

/-- Chapter 04, "an ordinary morning": floors, slacks, the pass order, the grants and what is left unallocated. -/
theorem test_ordinary_inputs : ordinary.map (·.floor) = [646, 538, 216, 0] ∧
    ordinary.map (·.slack) = [.time 2051, .time 5961, .time 5479, .absent] ∧ (passOrder ordinary).map (·.berth) = [0, 2, 1, 3] := by
  decide
theorem test_ordinary_morning :
    let o := { morning with groups := [⟨2000, true⟩, ⟨1800, true⟩] }.passes ⟨4950, 5800, 4950, .feeder⟩ ordinary
    (o.grants.take 5, o.unallocated, o.demand) = ([1462, 538, 900, 900, 0], 1150, 0) := by decide

def callServed : List Served :=
  [{ served 0 0 1500 60000 (some 1800) with guarded := true }, served 2 0 900 40000 (some 7200),
    { served 3 0 1500 2000 none with dcap := 1000, eligible := true, available := 124000 },
    { served 5 0 1200 50000 (some 2400) with guarded := true },
    { served 7 0 1200 5000 none with dcap := 600, eligible := true, available := 20000 }]

def calling : State := { morning with reserve := { morning.reserve with
  state := .called, call := some ⟨1, .frame, 2500, 5200, 3600, 0, 0⟩ } }

/-- Chapter 04, "a reserve call against guarded floors", and the same without the bus of berth 3. -/
theorem test_reserve_call_allocation :
    let o := calling.passes ⟨4950, 2700, 1850, .reserve⟩ callServed
    (o.grants.take 8, o.demand, o.shortfall) = ([1291, 0, 0, -248, 0, 807, 0, 0], 248, 0) := by decide
theorem test_reserve_call_shortfall :
    let o := calling.passes ⟨4950, 2700, 1850, .reserve⟩ (callServed.map fun v => { v with eligible := decide (v.berth = 7) })
    (grantOf o.grants 7, o.shortfall) = (-200, 48) := by decide
/-- Chapter 07, "Worked coverage", for the berths of the ordinary morning and berth 7. -/
theorem test_coverage : coverageOf ⟨0, 1440, 3000, 3600, false⟩
    [{ served 0 0 0 0 none with guarded := true }, served 1 0 0 0 none, served 2 0 0 0 none,
      { served 3 0 0 0 none with eligible := true, dcap := 1000, available := 124000 },
      { served 7 0 0 0 none with eligible := true, dcap := 600, available := 20000 }] [1462, 538, 900, 900] = 3538 := by decide
theorem test_half_away : [halfAway 1463, halfAway (-1463), halfAway 4] = [732, -732, 2] := by decide

/-! ## A state to witness hypotheses -/

def two : List Outlet := [⟨1500, 1000⟩, ⟨1500, 1000⟩]

/-- A berth at work: SERVING, single, in group 0, ACTIVE at its grant. -/
def busy : Berth := { Berth.blank with
  configured := true, cabinet := some 1, outlet := some 0, group := some 0, enable := true, session := .serving
  hwCharge := 1500, hwDischarge := 1000, plug := .ready, tag := 0xA1, soc := some 500, acceptMax := 1500, grant := 400
  request := some ⟨300, 1000, 60⟩, setpoint := .active, commanded := 400, confirmed := 400, confirmAge := some 3 }

def at1 : Berth := { busy with outlet := some 1, group := some 1, session := .empty, plug := .none, tag := 0, grant := 0, request := none, setpoint := .idle, commanded := 0, confirmed := 0 }

def base : State := { State.reset with
  ctl := { State.reset.ctl with mode := .run }
  link := { State.reset.link with second := 1000, clockSet := true }
  bus := { State.reset.bus with line := .idle, stopWhole := true, surveyRunning := true, cabinets := [⟨7, two⟩, ⟨8, two⟩, ⟨9, two⟩] }
  meter := { State.reset.meter with state := .valid, power := some 500, lastSequence := some 9, lastSecond := some 999, timerRunning := true, ring := [500] }
  berths := [busy, at1, { busy with cabinet := some 2, coupling := .leader, partner := some 3, tag := 0 },
    { at1 with cabinet := some 2, group := some 0, coupling := .follower, partner := some 2, session := .follower },
    { at1 with cabinet := some 3, outlet := some 0, enable := false, session := .disabled },
    { at1 with cabinet := some 3, session := .faulted, flags := ⟨false, false, false, false, true⟩ }] ++ List.replicate 30 Berth.blank
  fleet := { Bus.unused with used := true, tag := 0xA1, capacity := 300000, rate := 1000, arrivalFloor := 200, maxCharge := 900, permitted := true, dischargeMax := 1000, stored := some 150000, stamp := some 990 } ::
    List.replicate 63 Bus.unused
  alloc := { totals := Totals.zero, periodRunning := true }
  path := { State.reset.path with slotRunning := true } }

/-- The part at work: bus 1 at berth 0, a pair at berths 2 and 3, a DISABLED and a FAULTED berth. -/
def work : State := associate 1 0 base

/-- `work` with the record of berth 0 changed. -/
def at0 (f : Berth → Berth) : State := work.editBerth 0 f

/-- `work` with another holder of the berth bus. -/
def onLine (l : Line) : State := { work with bus := { work.bus with line := l } }

/-- `work` in another mode. -/
def inMode (m : Mode) : State := { work with ctl := { work.ctl with mode := m } }

/-- The state after a command, and the notices in its upstream FIFO. -/
def after (c : Instr) (s : State) : State :=
  match exec c s with
  | .next t => t
  | _ => State.reset
def bodies (s : State) : List NoticeBody := s.link.fifo.filterMap fun f : UpFrame =>
  match f with
  | .notice n => some n.body
  | _ => none

def answerFrame : UpFrame := .reply 0 1 .ok .none
def noticeFrame : UpFrame := .notice ⟨.enrolled 1, 0, false⟩

/-- `work` with frames in the upstream FIFO. -/
def queued (answers notices : Nat) : State := { work with link := { work.link with
  fifo := List.replicate answers answerFrame ++ List.replicate notices noticeFrame } }

theorem base_no_bus (x : Nat) : (base.berth x).bus = none := by
  by_cases h : x < 36
  · interval_cases x <;> rfl
  · rw [berth_out x (by have : base.berths.length = 36 := rfl; omega)]; rfl

theorem base_no_berth (b : Nat) : (base.fleetBus b).berth = none := by
  by_cases h : 1 ≤ b ∧ b ≤ 64
  · obtain ⟨h1, h2⟩ := h; interval_cases b <;> rfl
  · rw [fleetBus_out b (by have : base.fleet.length = 64 := rfl; omega)]; rfl

theorem work_associated : work.Associated := by
  refine associated_associate ⟨rfl, rfl, fun b x => ?_, fun b _ => base_no_berth b⟩ (by decide) (by decide) ?_ ?_ ?_
  · rw [base_no_bus, base_no_berth]; simp
  all_goals rfl

theorem work_bounds : work.Bounds := by
  constructor
  case assign => rintro k n ⟨⟩
  case window => rintro k ⟨⟩
  case forget => rintro n ⟨⟩
  all_goals decide

/-- `Granted` from its content at berths 0 to 35. -/
theorem granted_of (s : State) (hl : s.berths.length = 36) (h : ∀ x, x < 36 →
    ((s.berth x).grant ≠ 0 → s.ctl.mode = .run ∧ (s.berth x).session = .serving ∧ (s.berth x).coupling ≠ .follower ∧
      ∃ g, g < 6 ∧ (s.berth x).group = some g ∧ (s.groupEntry g).enable = true) ∧
    (s.berth x).group.isSome = (s.berth x).configured ∧
    ((s.berth x).session = .unconfigured ↔ (s.berth x).configured = false) ∧
    ((s.berth x).session = .follower ↔ (s.berth x).configured = true ∧ (s.berth x).coupling = .follower)) : s.Granted := by
  have out : ∀ x, ¬ x < 36 → s.berth x = Berth.blank := fun x hx => berth_out x (by omega)
  refine ⟨hl, fun x hg => ?_, fun x => ?_, fun x => ?_, fun x => ?_⟩ <;> by_cases hx : x < 36
  · obtain ⟨hm, hs, hc, g, -, hb⟩ := (h x hx).1 hg; exact ⟨hm, hs, hc, g, hb⟩
  · rw [out x hx] at hg; exact absurd rfl hg
  · exact (h x hx).2.1
  · rw [out x hx]; rfl
  · exact (h x hx).2.2.1
  · rw [out x hx]; decide
  · exact (h x hx).2.2.2
  · rw [out x hx]; decide

/-- `PathOrdered` of a state with no work waiting and the line free, from its content at berths 0 to 35. -/
theorem pathOrdered_of (s : State) (hl : s.berths.length = 36) (hw : s.path.waiting = []) (hf : s.bus.line = .idle)
    (list : (s.path.list.Pairwise fun a b => a.age < b.age) ∧ (s.path.list.map (·.berth)).Nodup ∧ ∀ e ∈ s.path.list,
      e.age < s.path.nextAge ∧ e.berth < 36 ∧ (e.old = none → (s.berth e.berth).configured = true ∧ (s.berth e.berth).coupling ≠ .follower))
    (once : (s.path.queue.map (·.berth)).Nodup)
    (queue : ∀ q ∈ s.path.queue, (∀ e ∈ s.path.list, e.berth ≠ q.berth) ∧
      q.berth < 36 ∧ (s.berth q.berth).session = .serving ∧ (s.berth q.berth).commanded = 0)
    (marked : ∀ x, x < 36 → ((s.berth x).setpoint = .startQueued ↔ ∃ q ∈ s.path.queue, q.berth = x)) : s.PathOrdered := by
  have free : ∀ tx, ¬ (s.bus.line = .setpointSending tx ∨ s.bus.line = .setpointAck tx) := fun tx h => by simp [hf] at h
  obtain ⟨rising, nodup, each⟩ := list
  exact {
    rising := rising
    newest := fun e h => (each e h).1
    once := nodup
    berth := fun e h => (each e h).2.1
    waitingOnce := by simp [hw]
    waits := fun e h => by simp [hw] at h
    own := fun e h => by rw [hw, List.append_nil] at h; exact (each e h).2.2
    queuedOnce := once
    queued := fun x => by
      by_cases hx : x < 36
      · exact marked x hx
      · rw [berth_out x (by omega)]
        exact ⟨fun h => absurd h (by decide), fun ⟨q, hq, hb⟩ => absurd (queue q hq).2.1 (by omega)⟩
    serving := fun q h => (queue q h).2.2.1
    commanded := fun q h _ => (queue q h).2.2.2
    apart := fun q h e he => by rw [hw, List.append_nil] at he; exact (queue q h).1 e he
    age := fun tx h => absurd (Or.inl h) (free tx)
    sender := fun tx h => absurd h (free tx)
    share := fun tx h => absurd (Or.inl h) (free tx) }

theorem work_granted : work.Granted := granted_of work rfl (by decide)
theorem work_pathOrdered : work.PathOrdered := pathOrdered_of work rfl rfl rfl (by decide) (by decide) (by decide) (by decide)

/-! ## Witnesses: for each statement with hypotheses, operands and a state that meet them, at the ends of each range -/

theorem witness_StepTakesTheOldestCommand : { work with pending := [.clockAdvance] }.pending = [.clockAdvance] ∧ work.pending = [] := by
  decide

theorem witness_HeldResetTakesNothing : { work with ctl := { work.ctl with resetHeld := true } }.ctl.resetHeld = true ∧
    (Instr.clockAdvance ≠ .resetPinAsserted ∧ ∀ l k a, Instr.clockAdvance ≠ .fullReset l k a) :=
  ⟨rfl, by decide, by rintro _ _ _ ⟨⟩⟩

theorem witness_FullResetValues : (0 < 8 ∧ 7 < 8) ∧ ([0, 7].map fun l => (State.afterFullReset ⟨l, false, false⟩).feederLimit) = [1500, 8000] := by
  decide

theorem witness_BoundsAndOrderAreKept : work.Bounds ∧ step work = .next work := ⟨work_bounds, rfl⟩
/-- Every table filled, windows that touch and runs of one minute among what it holds. -/
def ordered : State := { work with
  runs := { work.runs with
    active := [⟨⟨415, 420, 426, some 1, false, true, false⟩, .ready, none⟩, ⟨⟨416, 420, 300, some 1, false, true, false⟩, .waiting, none⟩]
    cold := coldTable
    pending := ⟨[⟨415, 420, 426, none, false, true, false⟩, ⟨414, 421, 300, none, false, true, false⟩], coldTable,
      [⟨0, 60, 100⟩, ⟨60, 1440, 200⟩], [⟨0, 1, 100, 60, true⟩, ⟨1, 2, 100, 60, true⟩], false⟩ }
  storage := { work.storage with windows := [⟨0, 60, 100⟩, ⟨60, 1440, 200⟩] }
  reserve := { work.reserve with windows := [⟨0, 1, 100, 60, true⟩, ⟨1, 2, 100, 60, true⟩] } }
theorem witness_BoundsAndOrderAreKept_order : ordered.TablesInOrder ∧ step ordered = .next ordered := by
  refine ⟨?_, rfl⟩; constructor <;> decide
theorem witness_AssociationAndGrantsAreKept : work.Associated ∧ work.Granted ∧ step work = .next work :=
  ⟨work_associated, work_granted, rfl⟩

/-- Berth 0 commanded 0 with a SETPOINT_REQ of 100 steps waiting, and berth 0 in the start queue. -/
def joining : State := { at0 (fun b => { b with setpoint := .idle, commanded := 0 }) with pending := [.setpointReq 0 5 [0, 100]] }
def inQueue : State := { at0 (fun b => { b with setpoint := .startQueued, commanded := 0 }) with
  path := { work.path with queue := [⟨0, 7⟩] } }
theorem joining_step : ∃ t, step joining = .next t ∧ joining.queuedOf 0 = none ∧ (t.queuedOf 0).isSome = true :=
  ⟨_, rfl, by decide⟩
theorem witness_SetpointPathStaysOrdered : (joining.Granted ∧ joining.PathOrdered) ∧ (inQueue.Granted ∧ inQueue.PathOrdered) ∧
    inQueue.path.queue.length = 1 :=
  ⟨⟨granted_of _ rfl (by decide), pathOrdered_of _ rfl rfl rfl (by decide) (by decide) (by decide) (by decide)⟩,
    ⟨granted_of _ rfl (by decide), pathOrdered_of _ rfl rfl rfl (by decide) (by decide) (by decide) (by decide)⟩, rfl⟩

theorem witness_LinkFramesAreHuntedAndRefused_hunted : work.Live ∧ (∀ b ∈ ([0xC9, 1, 2] : List Byte).tail, b ≠ 0xC9) ∧
    (∀ b ∈ ([1] : List Byte), b ≠ 0xC9) ∧ (∀ b ∈ ([2, 3, 4] : List Byte), b ≠ 0xC9) ∧ ([2, 3, 4] : List Byte).length < 4 ∧
    work.link.rx = [] ∧ ¬ ([0xC9] : List Byte) <+: work.link.rx ∧ ([0xC9] : List Byte) <+: [0xC9, 1] := ⟨rfl, by decide⟩
/-- A frame found inside a dropped one, with the lead of another behind it (R163): that lead is kept. -/
theorem test_link_after : linkAfter ([1] ++ linkFrame 0 5 3 [2, 0, 1] ++ [4, 0xC9, 0]) = [0xC9, 0] ∧
    linkAfter (linkFrame 0 5 3 [2, 0, 1]) = [] := by decide
/-- Parties, kinds and lengths on both sides of every bound. -/
theorem witness_LinkFramesAreHuntedAndRefused : work.Live ∧
    [depotRefusal 0 0 [], depotRefusal 0 7 [], depotRefusal 0 1 [], depotRefusal 37 1 [], depotRefusal 0x40 2 [],
      depotRefusal 0x4D 2 [], depotRefusal 1 3 [], depotRefusal 1 6 [], depotRefusal 0 6 [], depotRefusal 0 6 [1, 0, 0, 0, 0, 0],
      depotRefusal 0 6 [2, 0], depotRefusal 0 6 [3], depotRefusal 0 5 [1, 0], depotRefusal 0 5 [0, 0, 0], depotRefusal 0 5 [8, 0, 0]] =
      [some .unknownKind, some .unknownKind, some .badValue, some .badValue, some .badValue, some .badValue, some .badValue,
        some .badValue, some .badLength, some .badLength, some .badLength, some .badValue, some .badLength, some .badValue,
        some .badValue] ∧
    [depotRefusal 1 1 [], depotRefusal 36 1 [], depotRefusal 0x41 2 [], depotRefusal 0x4C 2 [], depotRefusal 0x5F 2 [],
      depotRefusal 0 5 [1, 0, 0], depotRefusal 0 5 [7, 0, 0], depotRefusal 0 6 [2, 0, 0]] = List.replicate 8 none ∧
    [serviceRefusal [], serviceRefusal (List.replicate 17 0), serviceRefusal [1, 2], tableRefusal [], tableRefusal [0],
      tableRefusal [9], tableRefusal [6, 1], tableRefusal [2], tableRefusal (2 :: List.replicate 21 0), tableRefusal [2, 0]] =
      [some .badLength, some .badLength, some .badLength, some .badLength, some .badValue, some .badValue, some .badLength,
        some .badLength, some .badLength, some .badLength] := ⟨rfl, by decide⟩

theorem witness_UpstreamFramesArePlacedAndSent : work.Live ∧ (queued 31 0).link.fifo.length = 31 ∧ (queued 32 0).link.fifo.length = 32 ∧
    (queued 8 23).noticeCount = 23 ∧ (queued 7 24).noticeCount = 24 ∧ (queued 1 0).link.fifo = [answerFrame] ∧
    work.faults.classEnables[NoticeBody.noticeClass (.tagUnknown 0 1)]? = some true ∧
    (let deaf := { work with faults := { work.faults with classEnables := [false, true, true, true, true] } };
      deaf.faults.classEnables[NoticeBody.noticeClass (.tagUnknown 0 1)]? ≠ some true) ∧
    ((at0 fun b => { b with noticeEnable := false }).berth 0).noticeEnable = false ∧ work.link.fifo = [] ∧
    (∀ c ∈ List.range 12, (work.slot (c + 1)).filled = false) := ⟨rfl, by decide⟩
/-- SET_ACK of −1.0 kW (0xFFF6) with result 1 for berth 2, tag 9; the party, kind and tag of a TELEMETRY of cabinet 12. -/
theorem test_upstream_bytes : (UpFrame.setAck 3 9 (-10) .limited).bytes = some (linkFrame 0x03 0x84 9 [0xFF, 0xF6, 1]) ∧
    (UpFrame.reply 0 8 .ok (.results [.clamped, .clockUnset])).bytes = some (linkFrame 0 0x81 8 [0, 1, 19]) ∧
    (UpFrame.telemetry 12 [1]).bytes = some (linkFrame 0x4C 0x83 0 [1]) := by decide
/-- With cabinet 12 sent last, cabinet 1 is looked at first and cabinet 12 last. -/
theorem witness_UpstreamTelemetry : let s (c : Nat) : State := { work with link := { work.link with slots := work.link.slots.set (c - 1) ⟨[1], true⟩ } }
    ((s 1).slot ((12 + 0) % 12 + 1)).filled = true ∧ ((s 12).slot ((12 + 11) % 12 + 1)).filled = true ∧
    (∀ i, i < 11 → ((s 12).slot ((12 + i) % 12 + 1)).filled = false) := by decide

theorem witness_TargetFollowsGrantAndRequest : (work.berth 1).session ≠ .serving ∧ (work.berth 3).coupling = .follower ∧
    (work.berth 0).session = .serving ∧ (work.berth 0).coupling ≠ .follower ∧ 0 ≤ (work.berth 0).grant ∧
    (work.berth 0).request = some ⟨300, 1000, 60⟩ ∧ (∀ r, (work.berth 0).request = some r → 0 ≤ r.value) ∧
    ((at0 fun b => { b with grant := -1 }).berth 0).grant < 0 ∧ ((at0 fun b => { b with request := none }).berth 0).request = none :=
  ⟨by decide, by decide, by decide, by decide, by decide, by decide, fun r h => by cases h; decide, by decide, by decide⟩

/-- `work` with the trim of a map change of berth 0 on the list. -/
def trimmed : State := { work with path := { work.path with list := [⟨0, 0, 0, some ⟨3, [0]⟩⟩], nextAge := 1 } }
theorem witness_SetpointReqIsCarried_refused : work.Live ∧ ([0] : List Byte).length ≠ 2 ∧ ([0, 0] : List Byte).length = 2 ∧
    (inMode .safeHold).ctl.mode ≠ .run ∧ (work.berth 3).coupling = .follower ∧ (work.berth 1).session ≠ .serving := ⟨rfl, by decide⟩
theorem witness_SetpointReqIsCarried : work.Live ∧ work.berths.length = 36 ∧ work.ctl.mode = .run ∧ (work.berth 0).session = .serving ∧
    (work.berth 0).coupling ≠ .follower ∧ (work.berth 0).setpoint = .active ∧
    (let idle := at0 fun b => { b with setpoint := .idle, commanded := 0 };
      (idle.berth 0).setpoint = .idle ∧ idle.target 0 ≠ 0 ∧ idle.pairCommanded 0 = 0 ∧ idle.queuedOf 0 = none) ∧
    (let waits := { at0 (fun b => { b with setpoint := .startQueued }) with path := { work.path with queue := [⟨0, 7⟩] } };
      (waits.berth 0).setpoint = .startQueued ∧ waits.queuedOf 0 = some ⟨0, 7⟩ ∧ waits.entryOf 0 = none ∧ waits.target 0 ≠ 0) ∧
    work.trimWaits 0 = false ∧ trimmed.trimWaits 0 = true ∧ trimmed.queuedOf 0 = none :=
  ⟨rfl, by decide⟩
/-- R3, R54: while the trim stands on the list a request neither joins the queue nor the list; with the trim gone it makes its entry. -/
theorem test_work_waits_for_trim :
    (let s := after (.setpointReq 0 5 [0, 100]) (trimmed.editBerth 0 fun b => { b with setpoint := .idle, commanded := 0 });
      (s.path.list, s.path.waiting, s.path.queue) = ([⟨0, 0, 0, some ⟨3, [0]⟩⟩], [⟨0, 5, 1, none⟩], [])) ∧
    (let s := after .setpointSent (after .setpointDequeue { trimmed with path := { trimmed.path with waiting := [⟨0, 5, 1, none⟩] } });
      (s.path.list, s.path.waiting) = ([⟨0, 5, 1, none⟩], [])) := by decide


def window : ReserveWindow := ⟨0, 1440, 3000, 3600, true⟩
def theCall : Call := ⟨9, .frame, 2000, 500, 60, 0, 0⟩
def theRecord : CallRecord := ⟨9, .frame, 990, none, 500, 2000, -1500, none, false, false, none⟩
/-- `work` with a reserve window active and the reserve in a state. -/
def reserved (st : ReserveState) : State := { work with reserve := { work.reserve with windows := [window], judged := some window, state := st } }
/-- A call in progress. -/
def called : State := { reserved .called with reserve := { (reserved .called).reserve with call := some theCall, records := [theRecord] } }

theorem witness_ReserveCallIsRefusedOrUpdates : called.Live ∧ called.reserve.judged = some window ∧ called.reserve.state = .called ∧
    called.reserve.call = some theCall ∧ theCall.callId ≠ 0 ∧ called.reserve.records = [theRecord] ∧ (1 ≤ 1 ∧ 32767 ≤ 32767) ∧
    theCall.callId ≠ 10 ∧ (reserved .unavailable).reserve.state = .unavailable ∧ (reserved .idle).reserve.state = .idle ∧
    { work with reserve := { work.reserve with state := .recovery } }.reserve.judged = none := ⟨rfl, by decide⟩
/-- A target below, above and within, and one between the ends where they cross (free, Log 12). -/
theorem witness_clampTarget : (work.exportLimit = 0 ∧ work.feederLimit - work.margin = 1350) ∧
    [-1, 0, 1350, 1351].map work.clampTarget = [0, 0, 1350, 1350] ∧
    (let crossed := setParam 2 1000 (setParam 1 500 work);
      crossed.feederLimit - crossed.margin = -500 ∧ crossed.clampTarget (-501) = 0 ∧ crossed.clampTarget 1 = -500) := by decide
theorem witness_ReserveCallsBeginAndEnd : (reserved .armed).Live ∧ (∀ c, work.reserve.call = some c → c.callId ≠ 9) ∧
    (reserved .armed).reserve.judged = some window ∧ (reserved .armed).reserve.state = .armed ∧
    (reserved .undercovered).reserve.state = .undercovered ∧ (reserved .recovery).reserve.state = .recovery ∧
    (1 ≤ 1 ∧ 32767 ≤ 32767) ∧ called.reserve.call = some theCall ∧ called.reserve.state = .called ∧ theCall.callId ≠ 10 ∧
    called.reserve.records = [theRecord] := ⟨rfl, by rintro _ ⟨⟩, by decide⟩

theorem witness_ServiceEntriesMakeOneReply : work.Live ∧ (⟨5, true, 3⟩ : EntryPos).remaining ≠ 0 ∧
    (⟨5, false, 0⟩ : EntryPos).remaining = 0 :=
  ⟨rfl, by decide⟩

/-- Berth 36 is no target; berth 0, and FOLLOWER 3 through its leader 2, are. -/
theorem witness_targets : work.Live ∧ work.berths.length = 36 ∧ (¬ ∃ x, work.ActsOn 36 x) ∧ work.ActsOn 0 0 ∧ work.ActsOn 3 2 ∧
    work.ActsOn 4 4 := by
  refine ⟨rfl, rfl, fun h => ?_, ?_⟩
  · obtain ⟨x, hx⟩ := h; exact absurd hx.1 (by decide)
  · unfold State.ActsOn; decide
theorem witness_EnablesDoneAndFaultsAreChanged_enable : work.ActsOn 4 4 ∧ (work.berth 4).session = .disabled ∧ (work.berth 0).session ≠ .disabled ∧
    (let s := work.editBerth 4 fun b => { b with flags := ⟨true, false, false, false, false⟩ };
      s.FaultOn 4 ∧ (s.berth 4).session = .disabled) :=
  ⟨by unfold State.ActsOn; decide, by decide, by decide, Or.inl (by decide), by decide⟩
theorem witness_DisableEndsTheSession : work.Live ∧ work.Associated ∧ work.ActsOn 0 0 ∧ work.ActsOn 3 2 ∧
    ((work.berth 0).session = .serving ∧ work.commandedNonzero 0 = true) ∧ work.ActsOn 1 1 ∧ (work.berth 1).session = .empty ∧
    work.ActsOn 4 4 ∧ (work.berth 4).session = .disabled ∧ (work.berth 0).bus = some 1 := by
  refine ⟨rfl, work_associated, ?_⟩; unfold State.ActsOn; decide
theorem witness_EnablesDoneAndFaultsAreChanged : work.Live ∧ work.ActsOn 5 5 ∧ (work.berth 5).session = .faulted ∧ work.PairedWith 2 3 :=
  ⟨rfl, by unfold State.ActsOn; decide, by decide, by unfold State.PairedWith; decide⟩
theorem witness_NoticeClassAndRouteSettings_notice : work.Live ∧ work.berths.length = 36 ∧ 35 < 36 ∧ 35 ≤ 35 ∧
    (NoticeBody.tagUnknown 0 1).subjectBerth = some 0 ∧ ((at0 fun b => { b with noticeEnable := false }).berth 0).noticeEnable = false :=
  ⟨rfl, by decide⟩
theorem witness_NoticeClassAndRouteSettings : work.Live ∧ work.faults.classEnables.length = 5 ∧ work.faults.routing.length = 6 ∧
    (4 < 5 ∧ 5 < 6) ∧ work.faults.routing = [true, true, true, true, false, false] ∧ work.alertLow = true ∧
    State.reset.alertLow = true ∧ (work.editBerth 5 fun b => { b with flags := FaultFlags.clear }).alertLow = false :=
  ⟨rfl, by decide⟩

theorem witness_GroupEnablesAreSet : work.Live ∧ work.berths.length = 36 ∧ work.groups.length = 6 ∧ 5 ≤ 5 ∧ 5 < 6 ∧
    (work.groupEntry 0).enable ≠ false ∧ (work.groupEntry 0).enable = true ∧ (work.berth 0).group = some 0 ∧
    (work.berth 0).configured = true ∧ (work.berth 0).setpoint = .active ∧ work.pairCommanded 0 ≠ 0 := ⟨rfl, by decide⟩
/-- R54, R70: the trim that clearing group 1 makes of berth 1 stands between those that the run in the same event makes. -/
theorem test_group_trims_aged_by_berth : ((after (.groupEnableClear ⟨5, true, 0⟩ (.one 1))
    (work.editBerth 1 fun _ => { busy with group := some 1, tag := 0 })).path.list.map fun e => (e.berth, e.age)) =
      [(0, 0), (1, 1), (2, 2)] := by decide

def atSecond (n : Nat) (s : State) : State := { s with link := { s.link with second := n } }
def lateWindow : State := { work with reserve := { work.reserve with windows := [window], judged := none } }
theorem witness_TimeSetMovesTheClock : work.Live ∧ 86399 < 86400 ∧ 86399 ≤ 86399 ∧
    { work with link := { work.link with second := 86399 } }.windowNow = work.reserve.judged ∧
    (lateWindow.windowNow = some window ∧ (atSecond 86399 lateWindow).windowNow = some window) ∧ State.reset.link.clockSet = false ∧
    work.link.clockSet = true ∧
    { work with storage := { work.storage with windows := [⟨0, 1440, 4500⟩] } }.holdWindow = some ⟨0, 1440, 4500⟩ := ⟨rfl, by decide⟩
/-- A window that was judged active and no longer is; another is where `next` lists one. -/
def pastWindow (next : List ReserveWindow) (s : State) : State := { s with reserve := { s.reserve with
  windows := next, judged := some { window with stop := 1 } } }
/-- Closings, openings and both at once, in each reserve state; a window at its first and last second. -/
theorem witness_TimeSetMovesTheClock_windows :
    (∀ st, (pastWindow [] (reserved st)).windowNow = none ∧ (pastWindow [] (reserved st)).reserve.judged ≠ none ∧
      (pastWindow [] (reserved st)).reserve.state = st ∧ (pastWindow [window] (reserved st)).windowNow = some window ∧
      (pastWindow [window] (reserved st)).reserve.judged ≠ some window ∧
      ({ lateWindow with reserve := { lateWindow.reserve with state := st } }.windowNow = some window)) ∧
    (lateWindow.reserve.judged = none ∧ work.windowNow = none ∧ work.reserve.judged = none) ∧
    (called.reserve.state = .called ∧ (pastWindow [] called).reserve.call = some theCall ∧ (pastWindow [] called).reserve.records = [theRecord] ∧
      called.windowNow = called.reserve.judged) ∧
    [0, 59, 60].map (fun n => (atSecond n { work with reserve := { work.reserve with windows := [{ window with stop := 1 }] } }).windowNow.isSome) =
      [true, true, false] := by
  refine ⟨fun st => ?_, by decide⟩
  cases st <;> decide
/-- R128, R136: a call at its window's end leaves RECOVERY under the next window, which needs a call of its own. -/
theorem test_window_end : let t := (judgeWindows (pastWindow [window] called)).1
    (t.reserve.state, t.reserve.judged, t.reserve.call) = (.recovery, some window, none) ∧
      (t.reserve.records.map fun r => (r.finish, r.cause)) = [(some 1000, some .windowEnd)] := by decide
theorem witness_DaySetIsArmedAppliedOrCleared : work.Live ∧ work.ctl.mode = .run ∧ (inMode .commission).Live ∧
    (inMode .commission).ctl.mode ≠ .run := ⟨rfl, by decide, rfl, by decide⟩
/-- A call in progress with a pending set whose reserve table is this one. -/
def applying (windows : List ReserveWindow) : State := { called with runs := { called.runs with pending := { PendingSet.empty with
  reserve := windows, armed := true } } }
theorem witness_DaySet_application : ((applying [window]).reserve.call = some theCall ∧ (applying [window]).reserve.state = .called ∧
      (applying [window]).reserve.records = [theRecord] ∧ (applying [window]).reserve.judged ≠ none) ∧
    ((applyDaySet (applying [window])).1.windowNow = some window ∧ (applyDaySet (applying [])).1.windowNow = none) ∧
    (work.reserve.call = none ∧ work.reserve.state = .unavailable) := by decide
/-- R126, R108: the window of the new table bounds a call of 200.0 kW and 60 s, at it and below it; DAY_APPLIED carries the counts. -/
theorem test_application : let cut (c m : Nat) := (applyDaySet (applying [{ window with reduction := c, maxDuration := m }])).1
    ([(2000, 60), (1999, 59)].map fun p => (cut p.1 p.2).reserve.call.map fun c => (c.reduction, c.left)) =
      [some (2000, 60), some (1999, 59)] ∧
    ((cut 1999 59).reserve.records.map fun r => (r.reduction, r.target)) = [(1999, 0)] ∧
    bodies (cut 1999 59) = [.dayApplied 0 0 0 1] := by decide
/-- R107: run 415 keeps its bus but waits behind the new run 414, which takes the same bus; run 417 names an unused slot, and without
a bus its pin goes. -/
theorem test_merge : let rec' (n departure : Nat) (bus : Option Nat) : RunRecord := ⟨n, departure, 300, bus, true, true, false⟩
    let s : State := { inMode .commission with runs := { work.runs with
      active := [⟨rec' 415 420 (some 1), .charging, none⟩, ⟨rec' 417 440 none, .opened, none⟩]
      pending := { work.runs.pending with runs := [rec' 414 410 (some 1), rec' 415 421 none, rec' 417 440 (some 9)] } } }
    (mergeRuns s).runs.active = [⟨rec' 414 410 (some 1), .assigned, none⟩, ⟨rec' 415 421 (some 1), .waiting, none⟩,
      ⟨{ rec' 417 440 none with pinned := false }, .opened, none⟩] := by decide

def run415 : Run := ⟨⟨415, 420, 426, some 1, false, true, false⟩, .charging, none⟩
def run416 : Run := ⟨⟨416, 430, 300, some 1, false, true, false⟩, .waiting, none⟩
def run417 : Run := ⟨⟨417, 440, 300, none, false, true, false⟩, .departed, none⟩
/-- `work` with bus 1 on run 415 and then on run 416. -/
def withRuns : State := { work with runs := { work.runs with active := [run415, run416, run417] } }

theorem witness_RunCommandsMoveRuns : withRuns.Live ∧ run417.unfinishedOf 1 = false ∧ run415.unfinishedOf 1 = true ∧
    (∀ r ∈ withRuns.runs.active, r.runId ≠ 9) ∧
    withRuns.runs.active.find? (fun q => decide (q.runId = 415)) = some run415 ∧
    withRuns.runs.active.find? (fun q => decide (q.runId = 417)) = some run417 ∧ run417.state = .departed ∧
    ¬ (run415.state = .departed ∨ run415.state = .missed ∨ run415.state = .cancelled) ∧ 64 < 65 ∧
    (withRuns.fleetBus 64).used = false ∧ (withRuns.fleetBus 1).used = true ∧ run415.bus = some 1 ∧
    ({ withRuns with fleet := withRuns.fleet.set 63 { withRuns.fleetBus 1 with berth := none } }.fleetBus 64).used = true := ⟨rfl, by decide⟩
theorem witness_FleetDeleteFreesTheSlot : work.Live ∧ work.Associated ∧ (work.fleetBus 64).used = false ∧ (1 ≤ 1 ∧ 1 ≤ 64) ∧
    (work.fleetBus 1).used = true := ⟨rfl, work_associated, by decide⟩

/-! ### Modes and loads -/

theorem not_enrolling (m : Mode) : ¬ (inMode m).Enrolling := by
  rintro (h | ⟨_, _, h | h | h⟩)
  · cases h
  all_goals cases h

theorem witness_RunIsEnteredAndLeft_entered : (inMode .commission).Live ∧ (inMode .commission).ctl.mode = .commission ∧
    ¬ (inMode .commission).Enrolling ∧ (inMode .commission).bus.cabinets ≠ [] ∧ (inMode .commission).mapConsistent = true ∧
    (inMode .commission).configuredBerths ≠ [] ∧ (inMode .safeHold).ctl.mode = .safeHold ∧ (inMode .safeHold).MeterValid ∧
    (inMode .safeHold).meter.power = some 500 ∧ 500 ≤ (inMode .safeHold).feederLimit ∧
    ¬ (setParam 1 499 (inMode .safeHold)).feederLimit ≥ 500 ∧ (inMode .commission).reserve.state = .unavailable :=
  ⟨rfl, by decide, not_enrolling _, by decide, by decide, by decide, by decide, Or.inl rfl, by decide⟩
theorem witness_RunIsEnteredAndLeft : work.Live ∧ work.ctl.mode = .run ∧ work.berths.length = 36 ∧
    (inMode .commission).ctl.mode = .commission ∧ (inMode .safeHold).ctl.mode = .safeHold ∧ (work.berth 0).setpoint = .active ∧
    work.pairCommanded 0 ≠ 0 ∧ called.reserve.call = some theCall ∧ called.reserve.records = [theRecord] := ⟨rfl, by decide⟩
theorem witness_RestartClearsTheLiveWork : called.Live ∧ called.reserve.call = some theCall ∧ called.reserve.records = [theRecord] ∧
    work.reserve.call = none := ⟨rfl, by decide⟩

theorem witness_BerthMapEntries : (inMode .commission).Live ∧ (inMode .commission).ctl.mode = .commission ∧ work.ctl.mode ≠ .commission ∧
    ¬ (inMode .commission).Enrolling ∧ { inMode .commission with bus := { work.bus with enrollWaiting := true } }.Enrolling ∧
    35 < 36 ∧ 35 < 36 ∧ work.berths.length = 36 ∧ work.outletRecord 1 1 = some ⟨1500, 1000⟩ ∧ work.outletRecord 1 2 = none ∧
    (work.berth 0).configured = true ∧ (work.berth 35).configured = false ∧ work.commandedNonzero 0 = true ∧
    work.trimWaits 0 = false ∧ work.oldAddress 0 = some ⟨1, [0]⟩ ∧ work.oldAddress 2 = some ⟨2, [0, 1]⟩ ∧
    ({ work with bus := { work.bus with cabinets := [] } }).oldAddress 0 = none :=
  ⟨rfl, by decide, by decide, not_enrolling _, Or.inl rfl, by decide⟩
theorem witness_GroupAndParameterValuesAreClamped : work.Live ∧ work.groups.length = 6 ∧
    (∀ e ∈ [(⟨5, 30000⟩ : GroupEntry)], e.group ≤ 5 → (work.groupEntry e.group).limit = max 0 (min e.limit 30000)) ∧
    (work.groupEntry 5).limit ≠ max 0 (min 29999 30000) ∧ 5 < 6 ∧ 27 < 28 := ⟨rfl, by decide⟩
def goodBus : FleetEntry := ⟨64, 0xB2, 50000, 300, 500, 1000, 1, 3000⟩
theorem witness_FleetRecordsAreReplaced : work.Live ∧ work.Associated ∧ fleetInRange goodBus = true ∧
    fleetInRange { goodBus with bus := 1, capacity := 1000000, rate := 3000, arrivalFloor := 0, maxCharge := 500 } = true ∧
    fleetInRange { goodBus with bus := 65 } = false ∧ (work.fleetBus 64).used = false ∧ (work.fleetBus 1).used = true ∧
    (work.fleetBus 1).tag ≠ 0xB2 ∧ work.tagElsewhere goodBus = false ∧ work.tagElsewhere { goodBus with tag := 0xA1 } = true ∧
    (work.fleetBus 1).berth = some 0 := ⟨rfl, work_associated, by decide⟩

def pend (runs : Nat) : State := { work with runs := { work.runs with pending := { PendingSet.empty with
  runs := (List.range runs).map fun i => ⟨i + 1, i, 100, none, false, false, false⟩ } } }
theorem witness_PendingTablesAreLoaded : work.Live ∧ (pend 47).runs.pending.armed = false ∧ (pend 47).runs.pending.runs.length < 48 ∧
    48 ≤ (pend 48).runs.pending.runs.length ∧ (¬ ∃ r ∈ (pend 48).runs.pending.runs, r.runId = 9999) ∧
    (pend 2).runs.pending.runs.Pairwise (fun r q => r.departure < q.departure ∨ (r.departure = q.departure ∧ r.runId < q.runId)) ∧
    runInRange ⟨9999, 1439, 3000, 64, false, false, false⟩ = true ∧ runInRange ⟨1, 0, 1, 0, false, false, false⟩ = true ∧
    runInRange ⟨10000, 0, 1, 0, false, false, false⟩ = false ∧ coldTableValid [⟨-40, 800⟩, ⟨50, 2000⟩] = true ∧
    coldTableValid [⟨0, 1000⟩] = false ∧ coldTableValid [⟨0, 1000⟩, ⟨0, 1000⟩] = false ∧
    { work.runs.pending with armed := true }.armed = true := ⟨rfl, by decide⟩
def pendWindows (demand reserve : Nat) : PendingSet := { PendingSet.empty with
  demand := (List.range demand).map fun i => ⟨i * 60, i * 60 + 60, 4000⟩
  reserve := (List.range reserve).map fun i => ⟨i * 60, i * 60 + 60, 1, 60, false⟩ }
theorem witness_PendingTablesAreLoaded_windows : work.Live ∧ (pendWindows 7 11).armed = false ∧ (pendWindows 7 11).demand.length < 8 ∧
    8 ≤ (pendWindows 8 12).demand.length ∧ (pendWindows 7 11).reserve.length < 12 ∧ 12 ≤ (pendWindows 8 12).reserve.length ∧
    (∀ w ∈ (pendWindows 7 11).demand, w.start < w.stop) ∧ (∀ w ∈ (pendWindows 7 11).reserve, w.start < w.stop) ∧
    (pendWindows 7 11).demand.Pairwise (fun a b => a.start < b.start) ∧
    (pendWindows 7 11).reserve.Pairwise (fun a b => a.start < b.start) ∧
    (¬ ∃ w ∈ (pendWindows 8 12).demand, 1439 < w.stop ∧ w.start < 1440) ∧ (∃ w ∈ (pendWindows 7 11).demand, 59 < w.stop ∧ w.start < 61) ∧
    (¬ ∃ w ∈ (pendWindows 8 12).reserve, 1439 < w.stop ∧ w.start < 1440) ∧ windowMinutes 1439 1440 = true ∧
    windowMinutes 1440 1441 = false ∧
    reserveInRange ⟨0, 1, 30000, 14400, 1⟩ = true ∧ reserveInRange ⟨0, 1, 1, 59, 0⟩ = false := ⟨rfl, by decide⟩

theorem witness_QueriesAnswerAsTheStateStands : withRuns.Live ∧ 2 < 3 ∧ 35 ≤ 35 ∧ 35 < 36 ∧ (1 ≤ 64 ∧ 64 ≤ 64) ∧ 64 < 65 ∧
    withRuns.runs.active.find? (fun q => decide (q.runId = 415)) = some run415 ∧ (∀ r ∈ withRuns.runs.active, r.runId ≠ 32767) ∧
    (pend 48).runs.pending.runs.find? (fun q => decide (q.runId = 48)) = some ⟨48, 47, 100, none, false, false, false⟩ ∧
    (∀ r ∈ (pend 48).runs.pending.runs, r.runId ≠ 16383) ∧ called.reserve.records[0]? = some theRecord ∧
    called.reserve.records.length ≤ 1 := ⟨rfl, by decide⟩

/-! ### The clock and the durations -/

/-- `work` at a second, with runs 415 to 417 and a demand interval in progress. -/
def day (n : Nat) : State := atSecond n { withRuns with storage := { withRuns.storage with interval := some ⟨0, 4000, 1, false, false⟩ } }

theorem witness_ClockAdvanceMovesTheDay : State.reset.Live ∧ State.reset.link.clockSet = false ∧ (day 86399).link.clockSet = true ∧
    (day 86399).link.second = 86399 ∧ (day 86399).runs.pending.armed = false ∧ (899 + 1) % 900 = 0 ∧ (900 + 1) % 900 ≠ 0 ∧
    (∀ r ∈ (day 899).runs.active, ¬ (r.state.unfinished = true ∧ r.departure * 60 + 900 ≤ 900)) ∧
    (∃ r ∈ (day 26400).runs.active, r.state.unfinished = true ∧ r.departure * 60 + 900 ≤ 26401 ∧ r.bus = some 1) ∧ 26401 % 900 ≠ 0 ∧
    ((day 26400).runs.active.map (·.runId)).Nodup ∧ (day 900).windowNow = (day 899).reserve.judged ∧
    (day 899).storage.interval = some ⟨0, 4000, 1, false, false⟩ ∧ (day 899).storage.dayPeak = none ∧
    (let i : Interval := ⟨85500, 9000000, 9000, false, false⟩; 9000 ≤ i.count ∧ i.incomplete = false) := ⟨rfl, by decide⟩
/-- R100: runs 415 and 418 of minute 420 reach their resolution second, a multiple of 900, in table order: bus 1 stands at berth 0 and is
late, bus 2 has left. -/
theorem test_resolution : let s : State := atSecond 26099 { work with runs := { work.runs with
      active := [run415, ⟨⟨418, 420, 300, some 2, false, true, false⟩, .assigned, none⟩, ⟨⟨419, 420, 300, none, false, true, false⟩, .opened, none⟩, run416] } }
    let t := after .clockAdvance s
    t.runs.active.map (·.state) = [.missed, .departed, .missed, .assigned] ∧ t.storage.interval = some ⟨26100, 0, 0, false, false⟩ ∧
      bodies t = [.runMissed 415 (some 1), .runDeparted 418 2 26100, .runMissed 419 none] := by decide
/-- R109: at the wrap an armed set is applied before the runs are renewed and counted. -/
theorem test_day_end : let s : State := atSecond 86399 { withRuns with runs := { withRuns.runs with pending := { PendingSet.empty with
      runs := [⟨415, 421, 426, none, false, true, false⟩, ⟨420, 430, 300, none, false, true, false⟩], armed := true } } }
    let t := after .clockAdvance s
    (t.runs.active.map fun r => (r.runId, r.bus, r.state)) = [(415, some 1, .assigned), (420, none, .opened)] ∧
      bodies t = [.dayApplied 2 0 0 0, .dayEnd 2 true] := by decide
theorem witness_TicksAndDurations : work.Live ∧ (work.berth 0).request = some ⟨300, 1000, 60⟩ ∧
    ((at0 fun b => { b with request := some ⟨300, 1000, 0⟩ }).berth 0).request = some ⟨300, 1000, 0⟩ ∧
    called.reserve.call = some theCall ∧ theCall.left ≠ 0 ∧ called.reserve.state = .called ∧ called.reserve.records = [theRecord] ∧
    (let ended := { called with reserve := { called.reserve with call := some { theCall with left := 0 } } };
      ended.reserve.call = some { theCall with left := 0 }) := ⟨rfl, by decide⟩

/-! ### Allocation and the start gate -/

theorem groups_nonneg (g : Nat) : 0 ≤ (work.groupEntry g).limit := by
  by_cases h : g < 6
  · interval_cases g <;> decide
  · unfold State.groupEntry
    rw [List.getD_eq_getElem?_getD, List.getElem?_eq_none (by have : work.groups.length = 6 := rfl; omega)]
    decide
theorem witness_AllocationRunsKeepTheLaws : work.Live ∧ work.alloc.periodRunning = true ∧ work.ctl.mode = .run ∧
    work.berths.length = 36 ∧ (∀ g, 0 ≤ (work.groupEntry g).limit) ∧ State.reset.alloc.periodRunning = false ∧
    (inMode .safeHold).ctl.mode ≠ .run := ⟨rfl, rfl, rfl, rfl, groups_nonneg, rfl, by decide⟩
/-- A berth discharges in a run: the second half of the laws is not empty. -/
theorem witness_discharge : ((immediateRun { at0 (fun b => { b with soc := some 900, measured := 0 }) with
      link := { work.link with params := (work.link.params.set 0 500).set 19 10000 }
      meter := { work.meter with power := some 2000 }
      fleet := work.fleet.set 0 { work.fleetBus 1 with stored := some 270000 } }).berth 0).grant < 0 := by decide
theorem witness_ImmediateRunsWriteOnlyTheirOutcome : (inMode .safeHold).ctl.mode ≠ .run ∧ work.ctl.mode = .run ∧
    (immediateRun work).alloc.totals.count = 1 := by decide
/-- Berth 0 with a request, a commanded value and a setpoint state, and with these entries and queue entries. -/
def asked (request commanded : Int) (st : SetpointState) (l : List Entry) (q : List Queued) : State := {
  at0 fun b => { b with request := some ⟨request, 1000, 60⟩, commanded := commanded, setpoint := st } with
    path := { work.path with list := l, queue := q, nextAge := 5 } }
/-- What the clause on the recompute asks of a state. -/
def recomputed (s : State) : Prop := s.Granted ∧ s.PathOrdered ∧ RunLeaves .immediate s (immediateRun s)
/-- ACTIVE at 30.0 kW against the commanded values around it, at 0 and at the other sign, with an entry and without; IDLE with a tagged
entry, without, with 0 kW and while a trim stands; IDLE with a commanded value; START_QUEUED with a target, and tagged and untagged without. -/
theorem witness_ImmediateRuns_recompute :
    (recomputed (asked 300 290 .active [] []) ∧ recomputed (asked 300 291 .active [] []) ∧ recomputed (asked 300 301 .active [⟨0, 7, 3, none⟩] []) ∧
      recomputed (asked 0 400 .active [] []) ∧ recomputed (asked (-50) 400 .active [] [])) ∧
    (recomputed (asked 300 0 .idle [⟨0, 7, 3, none⟩] []) ∧ recomputed (asked 300 0 .idle [⟨0, 0, 3, some ⟨3, [0]⟩⟩] []) ∧
      recomputed (asked 0 0 .idle [] []) ∧ recomputed (asked 300 400 .idle [] [])) ∧
    (recomputed (asked 300 0 .startQueued [] [⟨0, 7⟩]) ∧ recomputed (asked 0 0 .startQueued [] [⟨0, 7⟩]) ∧
      recomputed (asked 0 0 .startQueued [] [⟨0, 0⟩])) ∧
    (work.raiseDeadband = 10 ∧ [300, 0, -50].map (fun v => (immediateRun (asked v 400 .active [] [])).target 0) = [300, 0, -50] ∧
      (work.berth 1).session ≠ .serving ∧ (work.berth 3).coupling = .follower) := by
  have of : ∀ request commanded st l q, (asked request commanded st l q).Granted → (asked request commanded st l q).PathOrdered →
      recomputed (asked request commanded st l q) := fun _ _ _ _ _ g p => ⟨g, p, .inl ⟨rfl, rfl, rfl⟩⟩
  refine ⟨⟨?_, ?_, ?_, ?_, ?_⟩, ⟨?_, ?_, ?_, ?_⟩, ⟨?_, ?_, ?_⟩, by decide⟩ <;>
    exact of _ _ _ _ _ (granted_of _ rfl (by decide)) (pathOrdered_of _ rfl rfl rfl (by decide) (by decide) (by decide) (by decide))
/-- R62: 1.0 kW above the commanded value is a raise, 0.9 kW is none; a fall of 0.1 kW keeps the tag of the entry that stands. R59, R63:
an IDLE berth joins the queue with its entry's tag. R61: without a target it leaves the queue for the list. -/
theorem test_recompute : let run (s : State) := (immediateRun s).path
    ((run (asked 300 290 .active [] [])).list.map (fun e => (e.berth, e.tag)) = [(0, 0), (2, 0)] ∧
      (run (asked 300 291 .active [] [])).list.map (fun e => (e.berth, e.tag)) = [(2, 0)] ∧
      (run (asked 300 301 .active [⟨0, 7, 3, none⟩] [])).list.map (fun e => (e.berth, e.tag)) = [(0, 7), (2, 0)]) ∧
    (run (asked 300 0 .idle [⟨0, 7, 3, none⟩] [])).queue = [⟨0, 7⟩] ∧
    ((run (asked 0 0 .startQueued [] [⟨0, 7⟩])).queue = [] ∧
      (run (asked 0 0 .startQueued [] [⟨0, 7⟩])).list.map (fun e => (e.berth, e.tag)) = [(0, 7), (2, 0)]) := by decide

/-- Run 418, OPEN and of minute 420, and run 419, SHORT on bus 2 that no berth holds; bus 1 alone is a candidate. -/
def run418 : Run := ⟨⟨418, 420, 300, none, false, true, false⟩, .opened, none⟩
def run419 : Run := ⟨⟨419, 421, 300, some 2, false, true, false⟩, .short, none⟩
def night : State := atSecond 11000 { work with runs := { work.runs with active := [run418, run419] } }
theorem bus_1_alone (b : Nat) (h : 1 ≤ b ∧ b ≤ 64 ∧ (night.fleetBus b).used = true) : b = 1 := by
  obtain ⟨h1, h2, h3⟩ := h
  interval_cases b <;> first | rfl | exact absurd h3 (by decide)
theorem witness_PeriodicRunsAssignSwapAndCover : night.Live ∧ night.alloc.periodRunning = true ∧ night.ctl.mode = .run ∧
    night.berths.length = 36 ∧ night.runs.active.find? (fun q => decide (q.runId = 418)) = some run418 ∧
    night.runs.active.find? (fun q => decide (q.runId = 419)) = some run419 ∧
    ((run418.departure : Int) * 60 - night.link.second ≤ night.assignmentHorizon ∧ night.link.second < run418.departure * 60 + 900) ∧
    ((night.fleetBus 1).used = true ∧ (night.fleetBus 1).berth = some 0 ∧ (night.berth 0).session = .serving) ∧
    (∀ q ∈ night.runs.active, q.bus ≠ some 1) ∧
    night.energyTarget run418.toRunRecord 1 ≤ (night.fleetBus 1).capacity * (night.fleetBus 1).maxCharge / 1000 ∧
    night.energyTarget run419.toRunRecord 1 ≤ ((night.fleetBus 1).stored.getD 0 : Nat) ∧
    night.swapCutoff ≤ (run419.departure : Int) * 60 - night.link.second ∧
    ¬ ((atSecond 10799 night).link.second + night.assignmentHorizon ≥ (run418.departure : Int) * 60) := ⟨rfl, by decide⟩
/-- A recovery just below, and at, the ceiling of 135.0 kW; and one that ends with a window active and without. -/
theorem witness_PeriodicRuns_recovery : (let s (target : Int) := { reserved .recovery with
      reserve := { (reserved .recovery).reserve with recoveryTarget := some target } };
    (s 1099).reserve.recoveryTarget = some 1099 ∧ 1099 + (s 1099).reboundStep < (s 1099).feederLimit - (s 1099).margin ∧
      (s 1100).feederLimit - (s 1100).margin ≤ 1100 + (s 1100).reboundStep) ∧
    (reserved .recovery).reserve.judged = some window ∧ work.reserve.judged = none ∧ work.reserve.state = .unavailable ∧
    (reserved .armed).reserve.judged = some window ∧ (reserved .armed).reserve.state ≠ .unavailable := by decide

/-! ### What a run reads, and what it makes of it -/

/-- Run 415 lives on bus 1 at berth 0, with 8,640 s to its deadline or at the horizon's end; berth 2 serves a guest. -/
def charging (n : Nat) : State := atSecond n { withRuns with runs := { withRuns.runs with cold := coldTable } }
theorem periodic_leaves : ∃ t, RunLeaves .periodic (reboundStep (stageZero work)) t :=
  ⟨_, .inr ⟨rfl, work, rfl, rfl, rfl, rfl, rfl⟩⟩
theorem immediate_leaves (s : State) (h : s.ctl.mode = .run) : RunLeaves .immediate s (immediateRun s) := .inl ⟨rfl, h, rfl⟩
theorem witness_EnergiesFollowRunAndWeather : coldTable ≠ [] ∧ (∀ n, RunLeaves .immediate (charging n) (immediateRun (charging n))) ∧
    coldTable.Pairwise (fun p q => p.temperature < q.temperature) ∧
    ((-20 : Int) ≤ -20 ∧ (-20 : Int) < -10 ∧ (-11 : Int) < -10 ∧ (10 : Int) ≤ 10) ∧
    ((charging 1).runs.active.find? fun q => decide (q.bus = some 1) && q.state.unfinished) = some run415 ∧ run415.state.live = true ∧
    ((charging 1).runs.active.find? fun q => decide (q.bus = some 2) && q.state.unfinished) = none ∧
    ((420 : Int) * 60 - (charging 1).readyLead - 19200 - (charging 1).guardHorizon = 0 ∧ (charging 19199).link.clockSet = true) ∧
    (work.fleetBus 1).stored = some 150000 ∧ (work.fleetBus 2).stored = none :=
  ⟨by decide, fun n => immediate_leaves _ rfl, by decide⟩
theorem witness_InputsFollowTheVehicle : work.PairedWith 2 3 ∧ (work.berth 0).bus = some 1 ∧ (work.berth 2).bus = none ∧
    (work.inputs 2).wants = true ∧ ((charging 24600).inputs 0).time = some 0 ∧ ((charging 24599).inputs 0).time = some 1 ∧
    (work.inputs 0).time = none ∧ (work.inputs 0).need = 30000 ∧
    (let full := { charging 24600 with fleet := work.fleet.set 0 { work.fleetBus 1 with stored := some 270000 } };
      (full.inputs 0).need = 0 ∧ (full.berth 0).done = false ∧ (0 : Nat) < full.berths.length) ∧
    (at0 fun b => { b with plug := .complete }).berths.length = 36 ∧ work.berths.length = 36 :=
  ⟨by unfold State.PairedWith; decide, by decide⟩
def holding (count : Nat) : State := { atSecond 60 (reserved .called) with
  storage := { work.storage with windows := [⟨1, 2, 500⟩], interval := some ⟨0, 4000, count, false, false⟩ }
  reserve := called.reserve }
def metered (st : MeterState) : State := { work with meter := { work.meter with state := st } }
theorem witness_BudgetsFollowTheTerms : work.MeterValid ∧ work.meter.power = some 500 ∧ ¬ State.reset.MeterValid ∧
    ((holding 8999).storage.windows.find? fun w => decide (w.start * 60 ≤ 60 ∧ 60 < w.stop * 60)) = some ⟨1, 2, 500⟩ ∧
    ((holding 8999).link.second = 60 ∧ (holding 8999).link.clockSet = true) ∧ (holding 9000).MeterValid ∧
    -(holding 9000).exportLimit ≤ (holding 9000).feederLimit - (holding 9000).margin ∧ (holding 9000).reserve.call = some theCall ∧
    RunLeaves .immediate (holding 9000) (immediateRun (holding 9000)) ∧ ¬ (metered .lost).MeterValid ∧
    RunLeaves .immediate (metered .lost) (immediateRun (metered .lost)) :=
  ⟨.inl rfl, rfl, by unfold State.MeterValid; decide, by decide, by decide, .inl rfl, by decide, rfl, immediate_leaves _ rfl,
    by unfold State.MeterValid; decide, immediate_leaves _ rfl⟩
/-- R147 with F = 50.0 kW and M = 100.0 kW: the feeder term of −50.0 kW is the soft limit of an invalid meter; E_x = 0 bounds a valid one's. -/
theorem test_budget_without_meter : let s (st : MeterState) := setParam 1 500 (setParam 2 1000 (metered st))
    ((s .lost).budgets.softLimit, decide ((s .lost).budgets.soft = (s .lost).budgets.hard)) = (-500, true) ∧
      (s .valid).budgets.softLimit = 0 := by decide
/-- Chapter 08, the worked S_base. -/
theorem test_site_load : let at' (m : Int) (st : Session) : Berth := { Berth.blank with session := st, measured := m }
    { work with meter := { work.meter with power := some 4427 }, berths := [at' 1462 .serving, Berth.blank, at' 900 .serving, at' (-248) .serving,
      at' 15 .faulted, at' 732 .serving, at' 731 .follower] }.siteLoad = 850 := by decide
theorem witness_PassesShareThePower : callServed.Pairwise (fun v w => v.berth < w.berth) ∧ (∀ v ∈ callServed, v.berth < 36) ∧
    (∃ t, RunLeaves .periodic (reboundStep (stageZero work)) t) ∧ called.reserve.state = .called ∧ called.reserve.call = some theCall :=
  ⟨by decide, by decide, periodic_leaves, rfl, rfl⟩
def overdue : State := { charging 24600 with fleet := work.fleet.set 0 { work.fleetBus 1 with stored := some 100000 } }
theorem witness_RunsAreHandedOver : (let v := overdue.inputs 0; v.run = some run415 ∧ v.capacityLimited = false ∧ 0 < v.need) ∧
    overdue.runs.active.length = 3 ∧ (overdue.runs.active.map (·.runId)).Nodup ∧ called.reserve.records = [theRecord] ∧
    (holding 1).holdWindow = some ⟨1, 2, 500⟩ ∧ RunLeaves .immediate overdue (immediateRun overdue) ∧
    (immediateRun overdue).runs.active.map (·.state) = [.short, .waiting, .departed] :=
  ⟨by decide, rfl, by decide, rfl, by decide, immediate_leaves _ rfl, by decide⟩

def stopping : State := onLine .stopSending
def starting (tag : Nat) (f : Berth → Berth) : State := { at0 f with path := { work.path with queue := [⟨0, tag⟩] } }
theorem witness_StopAndStartGate : stopping.Live ∧ stopping.bus.line = .stopSending ∧ work.bus.line ≠ .stopSending ∧
    State.reset.path.slotRunning = false ∧ work.path.slotRunning = true ∧ work.path.queue = [] ∧
    (starting 7 id).path.queue = [⟨0, 7⟩] ∧ (starting 7 id).target 0 ≠ 0 ∧ (starting 0 fun b => { b with grant := 0 }).target 0 = 0 :=
  ⟨rfl, by decide⟩

/-! ### The berth bus -/

theorem not_surveying : ¬ ∃ k c b, work.bus.line = .surveyOpen k ∨ work.bus.line = .surveySlot k c b ∨ work.bus.line = .surveyClose k := by
  rintro ⟨_, _, _, h | h | h⟩ <;> cases h
def due : State := { work with bus := { work.bus with surveyDue := true } }
theorem witness_SurveysTakeTheLine : work.Live ∧ ¬ (inMode .run).Enrolling ∧
    (¬ ∃ k c b, work.bus.line = .surveyOpen k ∨ work.bus.line = .surveySlot k c b ∨ work.bus.line = .surveyClose k) ∧
    (∀ k, work.bus.line ≠ .surveyOpen k) ∧ (∀ k, work.bus.line ≠ .surveyClose k) ∧
    work.bus.surveyRunning = true ∧ State.reset.bus.surveyRunning = false ∧ (onLine .stopHeld).bus.line = .stopHeld ∧
    work.bus.line ≠ .stopHeld ∧ work.bus.stopWhole = true ∧ work.bus.cabinets ≠ [] ∧ State.reset.bus.stopWhole = false ∧
    (due.bus.line = .idle ∧ due.bus.enrollWaiting = false ∧ due.bus.surveyDue = true) ∧
    (onLine (.surveyOpen .full)).bus.line = .surveyOpen .full ∧ (onLine (.surveyClose .quiet)).bus.line = .surveyClose .quiet :=
  ⟨rfl, not_enrolling _, not_surveying, by rintro _ ⟨⟩, by rintro _ ⟨⟩, by decide⟩
/-- A FULL survey at cabinet 1, its miss count given. -/
def slotAt (kind : SurveyKind) (cabinet misses : Nat) : State := { work with bus := { work.bus with
  line := .surveySlot kind cabinet false, missCounts := work.bus.missCounts.set (cabinet - 1) misses } }
theorem witness_ExpiredSlotsAreCounted : (slotAt .full 1 2).Live ∧ (∀ k c b, work.bus.line ≠ .surveySlot k c b) ∧
    (slotAt .full 1 2).bus.line = .surveySlot .full 1 false ∧ (slotAt .quiet 3 2).bus.line = .surveySlot .quiet 3 false ∧
    1 < work.bus.cabinets.length ∧ work.bus.cabinets.length ≤ 3 ∧ 3 ≤ (slotAt .full 1 2).bus.missCounts.length ∧
    (slotAt .full 1 2).berths.length = 36 ∧ min 3 ((slotAt .full 1 2).missCount 1 + 1) = 3 ∧
    min 3 ((slotAt .full 1 1).missCount 1 + 1) < 3 ∧ (work.berth 0).configured = true ∧ (work.berth 0).cabinet = some 1 ∧
    (work.berth 0).coupling = .single ∧ (work.berth 0).session.watched = true ∧ (work.berth 0).flags.commMiss = false :=
  ⟨rfl, by rintro _ _ _ ⟨⟩, by decide⟩
/-- The pair of cabinet 2 with the LEADER at berth 3 and its FOLLOWER at berth 2, before it in number. -/
def crossPair (s : State) : State := { s with berths :=
  (s.berths.set 2 { s.berth 3 with partner := some 3 }).set 3 { s.berth 2 with partner := some 2 } }
theorem witness_ExpiredSlotsAreCounted_leader : (let s := slotAt .full 2 2;
      (s.berth 2).coupling = .leader ∧ (s.berth 2).session = .serving ∧ (s.berth 2).cabinet = some 2 ∧ (s.berth 2).configured = true ∧
      (s.berth 2).flags.commMiss = false ∧ (s.berth 2).session.watched = true ∧ s.PairedWith 2 3 ∧ ¬ (3 < 2)) ∧
    (let s := crossPair (slotAt .full 2 2);
      s.Live ∧ s.berths.length = 36 ∧ (s.berth 3).coupling = .leader ∧ (s.berth 3).session = .serving ∧ s.PairedWith 3 2 ∧ 2 < 3 ∧
      (s.berth 2).cabinet = some 2 ∧ (s.berth 2).session.watched = true ∧ (s.berth 2).flags.commMiss = false) := by
  unfold State.PairedWith State.Live; decide
/-- R154, R10: the LEADER latches and is FAULTED; one that its FOLLOWER's latch has taken to FAULTED takes none of its own (Log 18). -/
theorem test_leader_comm_miss : let t := after .slotTimerExpiry (slotAt .full 2 2)
    let u := after .slotTimerExpiry (crossPair (slotAt .full 2 2))
    ((t.berth 2).flags.commMiss, (t.berth 2).session, (t.berth 3).flags.commMiss) = (true, .faulted, true) ∧
      ((u.berth 3).flags.commMiss, (u.berth 3).session, (u.berth 2).flags.commMiss) = (false, .faulted, true) := by decide
/-- A STATUS of cabinet 1: outlet 0 READY with the tag of bus 1, outlet 1 with nothing plugged in. -/
def report : List Byte := [0x02, 4, 0, 0, 0, 0xA1, 0x01, 0xF4, 0x00, 0x14, 0x05, 0xDC, 0x10, 0, 0, 0, 0, 0, 0xFF, 0xFF, 0, 0, 0x05, 0xDC]
theorem witness_StatusIsReported : (slotAt .full 1 0).Live ∧ (slotAt .full 1 0).bus.line = .surveySlot .full 1 false ∧ (1 ≤ 1 ∧ 1 ≤ 12) ∧
    (slotAt .full 1 0).bus.missCounts.length = 12 ∧ (slotAt .full 1 0).link.slots.length = 12 ∧ (slotAt .full 1 0).berths.length = 36 ∧
    (slotAt .full 1 0).cabinet? 1 = some ⟨7, two⟩ ∧ statusValid two.length report = true ∧
    (statusEntries report).map (·.outlet) = [0, 1] ∧ (work.berth 0).outlet = some 0 ∧ (work.berth 4).cabinet ≠ some 1 := ⟨rfl, by decide⟩
/-- R36: bodies that fail, one for each condition: the length, the number of entries, an outlet number, an outlet twice, a plug state. -/
theorem witness_StatusIsReported_invalid : (slotAt .full 1 0).cabinet? 1 = some ⟨7, two⟩ ∧
    let entry (place : Byte) : List Byte := [place, 4, 0, 0, 0, 0xA1, 0x01, 0xF4, 0x00, 0x14, 0x05, 0xDC]
    statusValid 2 (entry 0x02 ++ entry 0x10) = true ∧ statusValid 2 (entry 0x02 ++ entry 0x13) = true ∧
    statusValid 2 (entry 0x02 ++ [0x10]) = false ∧ statusValid 2 (entry 0x02) = false ∧ statusValid 2 (entry 0x02 ++ entry 0x20) = false ∧
    statusValid 2 (entry 0x02 ++ entry 0x00) = false ∧ statusValid 2 (entry 0x02 ++ entry 0x14) = false := by decide
def plugEntry : StatusEntry := ⟨0, 2, false, false, true, 0xA1, 500, 20, 1500⟩
/-- What `SessionsFollowThePlug` asks of the detectors of berth `y` for its entry `f`, in the session states they watch. -/
def latchesNothing (s : State) (y : Nat) (f : StatusEntry) : Prop :=
  let b := s.berth y
  f.trip = false ∧ f.isolation = false ∧
    (f.measured.natAbs ≤ b.commanded.natAbs + max 20 (b.commanded.natAbs / 10) ∨ b.counters.overcurrent = 0) ∧
    (b.counters.openPath < 4 ∨ b.commanded.natAbs < 50 ∨ b.confirmed.natAbs < 50 ∨ f.contactor = false ∨
      s.inFlightFor y = true ∨ (∀ n, b.confirmAge = some n → n < 10) ∨ 5 ≤ f.measured.natAbs)
/-- A SINGLE berth at cabinet 1 and a LEADER at cabinet 2, whose FOLLOWER reports without power too. -/
theorem witness_SessionsFollowThePlug : (∃ t, exec (.status 1 report) (slotAt .full 1 0) = .next t) ∧ (slotAt .full 1 0).Live ∧
    (∃ t, exec (.status 2 report) (slotAt .full 2 0) = .next t) ∧
    (∀ y f, f ∈ statusEntries report → latchesNothing work y f) ∧
    (slotAt .full 1 0).cabinet? 1 = some ⟨7, two⟩ ∧ (slotAt .full 2 0).cabinet? 2 = some ⟨8, two⟩ ∧
    statusValid two.length report = true ∧ 0 < 36 ∧ ((work.berth 0).configured = true ∧ (work.berth 2).configured = true) ∧
    ((work.berth 0).cabinet = some 1 ∧ (work.berth 2).cabinet = some 2) ∧
    ((work.berth 0).coupling = .single ∧ (work.berth 2).coupling = .leader) ∧ plugEntry ∈ statusEntries report ∧
    ((work.berth 0).outlet = some plugEntry.outlet ∧ (work.berth 2).outlet = some plugEntry.outlet) ∧
    ((work.berth 0).session = .serving ∧ (work.berth 1).session = .empty) := by
  refine ⟨⟨_, rfl⟩, rfl, ⟨_, rfl⟩, fun y f hf => ?_, by decide⟩
  have all : ∀ e ∈ statusEntries report, e.trip = false ∧ e.isolation = false ∧ e.measured.natAbs ≤ 20 := by decide
  have few : (work.berth y).counters.openPath < 4 := by
    by_cases h : y < 36
    · interval_cases y <;> decide
    · rw [berth_out (s := work) y (by rw [show work.berths.length = 36 from rfl]; omega)]; decide
  exact ⟨(all f hf).1, (all f hf).2.1, Or.inl ((all f hf).2.2.trans (by omega)), Or.inl few⟩
/-- Berth 0 commanded and confirmed 40.0 kW for 10 s, with these counts. -/
def at400 (excess path : Nat) : State := at0 fun b => { b with
  commanded := 400, confirmed := 400, confirmAge := some 10
  counters := { b.counters with overcurrent := excess, openPath := path } }
/-- R152, R153: 44.0 kW at a berth commanded 40.0 kW, where a step more is the excess condition; a first excess alone; and 0.5 kW at
a berth whose open path count stands at 4. -/
theorem witness_SessionsFollowThePlug_power : let drawing (p : Int) : StatusEntry := { plugEntry with measured := p }
    latchesNothing (at400 1 0) 0 (drawing 440) ∧ ¬ latchesNothing (at400 1 0) 0 (drawing 441) ∧ latchesNothing (at400 0 0) 0 (drawing 441) ∧
    latchesNothing (at400 0 4) 0 (drawing 5) ∧ ¬ latchesNothing (at400 0 4) 0 (drawing 4) := by
  have age : ∀ a b, ¬ ∀ n, ((at400 a b).berth 0).confirmAge = some n → n < 10 := fun _ _ h => absurd (h 10 rfl) (by decide)
  simp only [latchesNothing, age, false_or]
  decide
/-- R99: the bus of berth 0 is unplugged with a live run, in its departure window and an hour before it. -/
theorem witness_SessionsFollowThePlug_runs : let gone (n : Nat) := atSecond n (withRuns.editBerth 0 fun b => { b with plug := .none })
    (gone 24900).Associated ∧ ((gone 24900).berth 0).bus = some 1 ∧ ((gone 24900).berth 0).plug = .none ∧
    ((gone 24900).berth 0).session = .serving ∧ (gone 24900).runs.active.find? (·.unfinishedOf 1) = some run415 ∧
    run415.state.live = true ∧ 420 * 60 ≤ 24900 + 2700 ∧ ¬ 420 * 60 ≤ 21600 + 2700 := by
  refine ⟨associated_congr work_associated (by simp [atSecond, withRuns]) rfl (fun x => ?_) (fun _ => ⟨rfl, rfl⟩), by decide⟩
  exact berth_editBerth_field (·.bus) withRuns 0 x (fun b => { b with plug := .none }) fun _ => rfl
/-- R99: in the window it becomes DEPARTED and the run behind it ASSIGNED; an hour before it ASSIGNED. -/
theorem test_unplug_moves_run : let left (n : Nat) := (plugRule 0 (atSecond n (withRuns.editBerth 0 fun b =>
      { b with plug := .none }))).runs.active.map (·.state)
    left 24900 = [.departed, .assigned, .departed] ∧ left 21600 = [.assigned, .waiting, .departed] := by decide

/-- Berth 1 in CONNECTED, without a bus or with a tag that bus 1 has at berth 0. -/
def plugged (tag : Ident) : State := work.editBerth 1 fun b => { b with session := .connected, plug := .connected, tag := tag }
theorem witness_StatusResolvesTagsAndEnergy : work.Associated ∧ (1 < work.berths.length ∧ 1 ≤ 64 ∧ 64 ≤ work.fleet.length) ∧
    (plugged 0xA1).tagElsewhere ⟨2, 0xA1, 0, 0, 0, 0, 0, 0⟩ = true ∧
    ((plugged 0xA1).busWithTag ((plugged 0xA1).berth 1).tag = some 1 ∧ (plugged 0xA2).busWithTag ((plugged 0xA2).berth 1).tag = none ∧
      (plugged 0).busWithTag ((plugged 0).berth 1).tag = none) ∧
    (work.fleetBus 1).berth = some 0 ∧ (base.fleetBus 1).berth = none ∧ (work.berth 0).bus = some 1 ∧ (work.berth 1).bus = none ∧
    (plugged 0xA1).berth 1 ≠ work.berth 1 ∧ (work.berth 1).session = .empty ∧
    ((work.berth 0).soc = some 500 ∧ (work.berth 0).coupling ≠ .follower ∧ (work.berth 0).session = .serving) ∧
    ((work.berth 0).plug ≠ .complete ∧ (work.berth 0).done = false ∧ (work.berth 0).doneByComplete = false) ∧
    ((at0 fun b => { b with plug := .complete }).berth 0).plug = .complete := ⟨work_associated, by decide⟩
/-- R7, R17, R18: a berth that turns CONNECTED with a changed tag that no bus has resolves it on entry and again as changed. -/
theorem test_tag_resolved_twice : bodies (after (.status 1 [0x02, 4, 0, 0, 0, 0xA1, 0x01, 0xF4, 0x00, 0x14, 0x05, 0xDC,
    0x11, 0, 0, 0, 0, 0xB7, 0xFF, 0xFF, 0, 0, 0x05, 0xDC]) (slotAt .full 1 0)) = [.tagUnknown 1 0xB7, .tagUnknown 1 0xB7] := by decide
/-- Cabinet 1 with berth 1 at outlet 0 and berth 0 at outlet 1, both SERVING. -/
def crossed : State := ((slotAt .full 1 0).editBerth 0 fun b => { b with outlet := some 1 }).editBerth 1 fun _ => busy
/-- R54: both are unplugged in one STATUS, outlet 0 first; their trims are aged by berth. -/
theorem test_trims_aged_by_berth : (after (.status 1 [0x02, 1, 0, 0, 0, 0, 0xFF, 0xFF, 0, 0, 0x05, 0xDC,
    0x11, 0, 0, 0, 0, 0, 0xFF, 0xFF, 0, 0, 0x05, 0xDC]) crossed).path.list.map (fun e => (e.berth, e.age)) =
      [(0, crossed.path.nextAge), (1, crossed.path.nextAge + 1)] := by decide

/-- Berth 0 at these powers, its last confirmation `age` seconds old. -/
def powers (commanded confirmed measured : Int) (age : Nat) : State := at0 fun b => { b with
  commanded := commanded, confirmed := confirmed, measured := measured, confirmAge := some age }
theorem witness_DetectorsLatchFaults : work.berths.length = 36 ∧ (2 < 36 ∧ 3 < 36) ∧ work.PairedWith 2 3 ∧
    (work.berth 2).coupling ≠ .follower ∧ (work.berth 2).configured = true ∧ (work.berth 2).session = .serving ∧
    ((work.berth 1).session = .empty ∧ (work.berth 3).session = .follower ∧ (work.berth 4).session = .disabled) ∧
    (let excess (m : Int) := decide (((powers 400 400 m 3).berth 0).commanded.natAbs + max 20 (((powers 400 400 m 3).berth 0).commanded.natAbs / 10) <
        ((powers 400 400 m 3).berth 0).measured.natAbs); [excess 440, excess 441, excess (-441)] = [false, true, true]) ∧
    (let s := powers 50 (-50) 4 10; (50 ≤ (s.berth 0).commanded.natAbs ∧ 50 ≤ (s.berth 0).confirmed.natAbs ∧ s.inFlightFor 0 = false ∧
      (s.berth 0).confirmAge = some 10 ∧ (s.berth 0).measured.natAbs < 5)) ∧
    ((work.berth 0).flags = FaultFlags.clear ∧ (work.berth 0).counters = FaultCounters.zero ∧ work.commandedNonzero 0 = true) := by
  refine ⟨rfl, by decide, ?_⟩; unfold State.PairedWith; decide
/-- A leader already FAULTED and one DISABLED; a FOLLOWER whose leader is no LEADER of its own. -/
theorem witness_DetectorsLatchFaults_followers :
    (let s (st : Session) := work.editBerth 2 fun b => { b with session := st, grant := 0, setpoint := .idle };
      (s .faulted).berths.length = 36 ∧ (s .faulted).PairedWith 2 3 ∧ ((s .faulted).berth 2).configured = true ∧
      ((s .faulted).berth 2).session = .faulted ∧ (s .disabled).PairedWith 2 3 ∧ ((s .disabled).berth 2).session = .disabled) ∧
    (let alone := work.editBerth 3 fun b => { b with partner := none }; (alone.berth 3).coupling = .follower ∧ (alone.berth 3).configured = true ∧
      ∀ l, (alone.berth l).configured = true → ¬ alone.PairedWith l 3) ∧ ((work.berth 5).session = .faulted ∧ (work.berth 5).coupling ≠ .follower) := by
  refine ⟨?_, ⟨by decide, by decide, fun l _ h => ?_⟩, by decide⟩
  · unfold State.PairedWith; decide
  · exact absurd h.2.2.2.2 (by rw [show (work.editBerth 3 fun b => { b with partner := none }).berth 3 =
      { work.berth 3 with partner := none } from rfl]; simp)
theorem witness_DiscardedFramesEndNothing : (slotAt .full 1 0).Live ∧ (∀ k c b, work.bus.line ≠ .surveySlot k c b) ∧
    (∀ tx, work.bus.line ≠ .setpointAck tx) ∧ (∀ f, work.bus.line = .passAck f → f.cabinet ≠ some 1) ∧
    (∀ b ∈ ([0xB4, 1] : List Byte).tail, b ≠ 0xB4) ∧ (∀ b ∈ ([1, 2] : List Byte), b ≠ 0xD2) ∧
    work.bus.line ≠ .enrollReply 1 ∧ ([] : List Byte).length ≤ 40 ∧ 7 < 8 ∧ 31 < 32 ∧ 2 ≠ 1 ∧ (0xD2 : Byte) ≠ 0xD3 ∧
    40 < (41#8 : Byte).toNat ∧ busFrameFields (busFrame 2 1 []) = some (2, 1, []) ∧
    busFrameFields (busFrame 1 1 [7]) = some (1, 1, [7]) ∧ (slotAt .full 1 0).cabinet? 1 = some ⟨7, two⟩ ∧ statusValid 2 [7] = false ∧
    ([0xB4, 1, 2, 3, 4, 5, 6, 7] : List Byte).length < 9 ∧ work.meter.lastSequence = some 9 :=
  ⟨rfl, by rintro _ _ _ ⟨⟩, by rintro _ ⟨⟩, by rintro _ ⟨⟩, by decide⟩
/-- Noise, then a whole frame of 6 bytes, then the start of another (R27). -/
theorem test_bus_hunt : (busComplete ([1, 2] ++ busFrame 1 3 [7] ++ [0xD2, 0x23]), busIncomplete ([1, 2] ++ busFrame 1 3 [7] ++ [0xD2, 0x23])) =
    ([busFrame 1 3 [7]], [0xD2, 0x23]) ∧ busComplete [0xD2, 0x23, 1, 7, 0] = [] := by decide
/-! ### Setpoints on the line -/

def listed : State := { work with path := { work.path with list := [⟨2, 0, 1, none⟩, ⟨0, 7, 2, none⟩], nextAge := 3 } }
theorem witness_SetpointsAreChosenAndValued : listed.Live ∧ listed.bus.line = .idle ∧ listed.bus.enrollWaiting = false ∧
    listed.bus.surveyDue = false ∧ listed.path.list ≠ [] ∧ work.path.list = [] ∧ due.bus.surveyDue = true ∧
    (work.berth 0).session = .serving ∧ (work.berth 0).setpoint = .active ∧ 0 ≤ work.target 0 * work.pairCommanded 0 ∧
    (let s := at0 fun b => { b with grant := -100 }; s.target 0 * s.pairCommanded 0 < 0) ∧ (work.berth 1).session ≠ .serving ∧
    work.followerOf 0 = none ∧ work.followerOf 2 = some 3 := ⟨rfl, by decide⟩

def one (tag : Nat) (v : Int) : SetpointTx := ⟨0, tag, 1, v, 1, [⟨0, v, some 0⟩], false, false, false⟩
def pair (v w : Int) : SetpointTx := ⟨2, 7, 1, v + w, 2, [⟨0, v, some 2⟩, ⟨1, w, some 3⟩], false, false, false⟩
def trim : SetpointTx := ⟨0, 0, 1, 0, 3, [⟨0, 0, none⟩], true, true, false⟩
theorem witness_SentSetpointsAreCommanded : (onLine (.setpointSending (one 7 300))).Live ∧ (∀ tx, work.bus.line ≠ .setpointSending tx) ∧
    0 < work.berths.length ∧ (one 7 300).trim = false ∧ (one 7 300).detached = false ∧ (one 7 300).berth = 0 ∧
    (one 7 300).shares = [⟨0, (one 7 300).value, some 0⟩] ∧ (one 7 300).value ≠ 0 ∧ (one 7 0).value = 0 ∧
    (work.berth 0).session = .serving ∧ work.target 0 ≠ 0 ∧ work.followerOf 0 = none ∧ work.queuedOf 0 = none ∧
    (at0 fun b => { b with grant := 0 }).target 0 = 0 ∧ (pair 732 731).shares = [⟨0, 732, some 2⟩, ⟨1, 731, some 3⟩] ∧
    (pair 732 731).value ≠ 0 ∧ 2 ≠ 3 ∧ trim.trim = true ∧ (∀ h ∈ trim.shares, h.berth = none) := ⟨rfl, by rintro _ ⟨⟩, by decide⟩
/-- A SETPOINT whose berth has left SERVING, one whose berth has changed on the map, and a pair sent to 0. -/
theorem witness_SentSetpoints_after : (let gone := { one 7 300 with left := true };
      gone.left = true ∧ (work.berth 1).session ≠ .serving ∧ work.entryOf 1 = none) ∧
    (let moved := { one 7 300 with left := true, detached := true, shares := [⟨0, 300, none⟩] };
      moved.trim = false ∧ moved.detached = true ∧ moved.value ≠ 0 ∧ ∀ h ∈ moved.shares, h.berth = none) ∧
    (work.trimWaits 0 = false ∧ trimmed.trimWaits 0 = true ∧ work.path.waiting.find? (·.ownOf 0) = none) ∧
    ((pair 0 0).value = 0 ∧ (pair 0 0).shares = [⟨0, 0, some 2⟩, ⟨1, 0, some 3⟩]) ∧
    ((work.berth 2).session = .serving ∧ work.target 2 ≠ 0 ∧ work.followerOf 2 = some 3 ∧ work.queuedOf 2 = none) := by decide
/-- R64: the berth leaves SERVING while its SETPOINT of 30.0 kW is being sent: a zero trim follows it. -/
theorem test_trim_follows : let left := { work.editBerth 0 fun b => { b with session := .empty, setpoint := .idle } with
      bus := { work.bus with line := .setpointSending { one 7 300 with left := true } } }
    ((after .setpointSent left).berth 0).commanded = 300 ∧
      (after .setpointSent left).path.list = [⟨0, 0, work.path.nextAge, none⟩] := by decide
/-- R64: the same for a pair. -/
def pairLeft : State := { work.editBerth 2 fun b => { b with session := .empty, setpoint := .idle } with
  bus := { work.bus with line := .setpointSending { pair 732 731 with left := true } } }
theorem witness_SentSetpoints_pairLeft : pairLeft.Live ∧ (pairLeft.berth 2).session ≠ .serving ∧ pairLeft.entryOf 2 = none ∧
    pairLeft.trimWaits 2 = false ∧ pairLeft.followerOf 2 = some 3 ∧ (732 : Int) ≠ 0 ∧ ({ pair 732 731 with left := true } : SetpointTx).value ≠ 0 ∧
    (work.berth 2).session = .serving := ⟨rfl, by decide⟩
theorem test_trim_follows_pair : (after .setpointSent pairLeft).path.list = [⟨2, 0, pairLeft.path.nextAge, none⟩] ∧
    ((after .setpointSent pairLeft).berth 3).commanded = 731 := by decide
theorem witness_AcknowledgementsConfirm : (onLine (.setpointAck (one 7 300))).Live ∧
    (onLine (.setpointAck (one 7 300))).bus.line = .setpointAck (one 7 300) ∧ 2 ≠ (one 7 300).cabinet ∧
    ([0, 0, 1] : List Byte).length ≠ 4 * (one 7 300).shares.length ∧ (∃ e ∈ ackEntries [0, 3, 1, 44], 2 < e.result) ∧
    (∃ h ∈ (one 7 300).shares, ∀ e ∈ ackEntries [1, 0, 1, 44], e.outlet ≠ h.outlet) ∧
    (one 7 300).shares = [⟨(0#8 : Byte).toNat, 300, some (one 7 300).berth⟩] ∧ (2#8 : Byte).toNat ≤ 2 ∧ 0 < work.berths.length ∧
    (pair 732 731).shares = [⟨(0#8 : Byte).toNat, 732, some (pair 732 731).berth⟩, ⟨(1#8 : Byte).toNat, 731, some 3⟩] ∧
    (0#8 : Byte) ≠ 1#8 ∧ 3 < work.berths.length ∧ trim.shares = [⟨(0#8 : Byte).toNat, 0, none⟩] ∧ (-32768 ≤ (32767 : Int) ∧ ackValue 32767 = 32767 ∧ ackValue (-32768) = -32768) :=
  ⟨rfl, by decide⟩
/-- An ack window of berth 0 with this many expiries behind it. -/
def unanswered (n : Nat) : State := { at0 (fun b => { b with counters := { b.counters with noConfirm := n } }) with
  bus := { work.bus with line := .setpointAck (one 7 300) } }
theorem witness_MissingAcknowledgementsAreCounted : (unanswered 1).Live ∧ (∀ tx, work.bus.line ≠ .setpointAck tx) ∧
    (unanswered 1).bus.line = .setpointAck (one 7 300) ∧ (one 7 300).berth < (unanswered 1).berths.length ∧
    ((unanswered 1).berth 0).counters.noConfirm + 1 < 3 ∧ 3 ≤ ((unanswered 2).berth 0).counters.noConfirm + 1 ∧
    (∀ e ∈ (unanswered 1).path.list, e.berth ≠ 0) ∧ (unanswered 1).entryOf 0 = none ∧ (unanswered 1).queuedOf 0 = none ∧ ((unanswered 1).berth 0).configured = true ∧
    ((unanswered 2).berth 0).coupling ≠ .follower ∧ ((unanswered 2).berth 0).flags.noConfirm = false ∧
    ((unanswered 2).berth 0).session = .serving := ⟨rfl, by rintro _ ⟨⟩, by decide⟩
/-- The counter at 3 already, and the trim at the old address of berth 3, by now the FOLLOWER of berth 2, after two expiries. -/
def followed (l : SetpointTx → Line) : State := { work.editBerth 3 (fun b => { b with counters := { b.counters with noConfirm := 2 } }) with
  bus := { work.bus with line := l { trim with berth := 3 } } }
theorem witness_MissingAcknowledgementsAreCounted_quiet :
    (let s := { at0 (fun b => { b with flags := { b.flags with noConfirm := true }, counters := { b.counters with noConfirm := 3 } }) with
        bus := { work.bus with line := .setpointAck (one 7 300) } };
      3 ≤ (s.berth 0).counters.noConfirm + 1 ∧ (s.berth 0).flags.noConfirm = true ∧ (one 7 300).berth < s.berths.length) ∧
    (let s := followed .setpointAck;
      3 ≤ (s.berth 3).counters.noConfirm + 1 ∧ (s.berth 3).session ≠ .empty ∧ (s.berth 3).session ≠ .connected ∧
        (s.berth 3).session ≠ .serving ∧ 3 < s.berths.length) := by decide
/-- The model's choice for a FOLLOWER (Log 65): it is counted, and neither berth of its pair latches. -/
theorem test_follower_is_counted : let t := after .ackWindowExpiry (followed .setpointAck)
    (t.berth 3).counters.noConfirm = 3 ∧ (t.berth 2).counters.noConfirm = 0 ∧ (t.berth 3).flags.any = false ∧
      (t.berth 2).flags.any = false ∧ t.path.list = [] := by decide
/-- A SETPOINT of berth 0 being sent, with a list of entries. -/
def sending (tx : SetpointTx) (l : List Entry) (q : List Queued) : State := { work with
  bus := { work.bus with line := .setpointSending tx }, path := { work.path with list := l, queue := q, nextAge := 9 } }
theorem witness_AbandonedFramesAreReturned : (sending (one 7 300) [] []).Live ∧ (one 7 300).trim = false ∧
    (work.berth 0).counters.noConfirm < 2 ∧ ({ one 7 300 with left := true } : SetpointTx).left = true ∧ (one 7 300).left = false ∧
    (let s := sending (one 7 300) [⟨2, 0, 1, none⟩, ⟨1, 0, 2, none⟩] [];
      s.entryOf 0 = none ∧ s.queuedOf 0 = none ∧ s.path.list = [⟨2, 0, 1, none⟩] ++ [⟨1, 0, 2, none⟩] ∧
      (∀ e ∈ [(⟨2, 0, 1, none⟩ : Entry)], e.age ≤ (one 7 300).age) ∧ (∀ e ∈ [(⟨1, 0, 2, none⟩ : Entry)], (one 7 300).age < e.age)) ∧
    (sending (one 7 300) [] [⟨0, 8⟩]).queuedOf 0 = some ⟨0, 8⟩ ∧ (sending (one 7 300) [] [⟨0, 0⟩]).queuedOf 0 = some ⟨0, 0⟩ ∧
    (sending (one 7 300) [⟨0, 8, 3, none⟩] []).entryOf 0 = some ⟨0, 8, 3, none⟩ ∧ 1 < 2 ∧
    (onLine (.enrollForget 1)).bus.line = .enrollForget 1 ∧ (onLine (.enrollAssign 12 1)).bus.line = .enrollAssign 12 1 ∧
    (onLine (.passSending ⟨some 1, 5, []⟩)).bus.line = .passSending ⟨some 1, 5, []⟩ ∧
    (let s := { at0 (fun b => { b with counters := { b.counters with noConfirm := 2 } }) with path := { work.path with nextAge := 9 } };
      (one 7 300).age < s.path.nextAge ∧ 2 ≤ (s.berth 0).counters.noConfirm ∧ (s.berth 0).flags.noConfirm = false) ∧
    (let s := followed .setpointSending; s.bus.line = .setpointSending { trim with berth := 3 } ∧ s.trimWaits 3 = false ∧
      (s.berth 3).session ≠ .empty ∧ (s.berth 3).session ≠ .connected ∧ (s.berth 3).session ≠ .serving ∧ 3 < s.berths.length) ∧
    trim.trim = true ∧ (sending trim [⟨0, 0, 3, some ⟨3, [0]⟩⟩] []).trimWaits 0 = true ∧
    (let s := sending trim [⟨0, 5, 2, none⟩, ⟨2, 0, 3, none⟩] []; s.trimWaits 0 = false ∧
      (s.path.list.filter fun e => !e.ownOf 0) = [] ++ [⟨2, 0, 3, none⟩] ∧ trim.age < 3) := ⟨rfl, by decide⟩
/-- The trim at an old address of berth 0, in SERVING, abandoned for the third time in a row. -/
def thirdTrim (l : List Entry) : State := { sending trim l [] with
  berths := (at0 fun b => { b with counters := { b.counters with noConfirm := 2 } }).berths }
theorem witness_AbandonedFramesAreReturned_trim : (thirdTrim []).Live ∧ (thirdTrim []).bus.line = .setpointSending trim ∧
    trim.trim = true ∧ trim.berth < (thirdTrim []).berths.length ∧ 2 ≤ ((thirdTrim []).berth 0).counters.noConfirm ∧
    ((thirdTrim []).berth 0).coupling ≠ .follower ∧ ((thirdTrim []).berth 0).flags.noConfirm = false ∧
    ((thirdTrim []).berth 0).session = .serving ∧ (thirdTrim []).commandedNonzero 0 = true ∧
    (thirdTrim [⟨0, 0, 3, some ⟨3, [0]⟩⟩]).trimWaits 0 = true ∧ (let s := thirdTrim [⟨0, 5, 2, none⟩, ⟨2, 0, 3, none⟩];
      s.trimWaits 0 = false ∧ (s.path.list.filter fun e => !e.ownOf 0) = [] ++ [⟨2, 0, 3, none⟩] ∧ trim.age < 3) := ⟨rfl, by decide⟩
/-- R30, R67: the trim goes back to its place, and the zero trim of the latch waits for it (Log 15). -/
theorem test_third_trim : let t := after .echoMismatch (thirdTrim [⟨0, 5, 2, none⟩, ⟨2, 0, 3, none⟩])
    t.path.list = [⟨0, 0, 1, some ⟨3, [0]⟩⟩, ⟨2, 0, 3, none⟩] ∧ t.path.waiting = [⟨0, 0, 9, none⟩] ∧
      (t.berth 0).session = .faulted := by decide
/-- R66 step 3: the trim on the list stands in for the fresh entry of an expiry. -/
theorem test_no_fresh_beside_trim : (after .ackWindowExpiry { trimmed with
    bus := { work.bus with line := .setpointAck { one 7 300 with left := true, detached := true } } }).path.list =
      trimmed.path.list := by decide

/-! ### Pass-through and enrollment -/

def passing : State := { work with bus := { work.bus with passFifo := [⟨some 1, 5, [1]⟩] } }
theorem witness_PassThroughIsCarried : passing.Live ∧ (∀ f, work.bus.line ≠ .passSending f) ∧ (∀ f, work.bus.line ≠ .passAck f) ∧
    passing.bus.line = .idle ∧ passing.bus.enrollWaiting = false ∧
    passing.bus.surveyDue = false ∧ passing.path.list = [] ∧ passing.bus.passFifo = [⟨some 1, 5, [1]⟩] ∧ work.bus.passFifo = [] ∧
    (onLine (.passSending ⟨some 1, 5, []⟩)).bus.line = .passSending ⟨some 1, 5, []⟩ ∧
    (onLine (.passAck ⟨some 1, 5, []⟩)).bus.line = .passAck ⟨some 1, 5, []⟩ ∧
    40 < (List.replicate 41 (0 : Byte)).length ∧ (List.replicate 40 (0 : Byte)).length ≤ 40 ∧
    (1 ≤ work.bus.cabinets.length ∧ 3 ≤ work.bus.cabinets.length ∧ ¬ 4 ≤ work.bus.cabinets.length) ∧
    (let full (n : Nat) := { work with bus := { work.bus with passFifo := List.replicate n ⟨none, 0, []⟩ } };
      (full 16).bus.passFifo.length = 16 ∧ (full 15).bus.passFifo.length < 16) := ⟨rfl, by rintro _ ⟨⟩, by rintro _ ⟨⟩, by decide⟩
/-- The REPORT of a cabinet with serial 1 and one outlet. -/
def newCabinet : List Byte := [3, 0, 0, 0, 1, 1, 0x05, 0xDC, 0x03, 0xE8]
def replying (k : Nat) (cabinets : List Cabinet) : State := { inMode .commission with bus := { work.bus with
  line := .enrollReply k, cabinets := cabinets, chainOut := true } }
theorem witness_EnrollmentBuildsTheList : (inMode .commission).Live ∧ work.ctl.mode ≠ .commission ∧ (replying 1 []).Enrolling ∧
    ¬ (inMode .commission).Enrolling ∧ { work with bus := { work.bus with enrollWaiting := true } }.bus.enrollWaiting = true ∧
    (onLine (.enrollForget 0)).bus.line = .enrollForget 0 ∧ (onLine (.enrollAssign 1 0)).bus.line = .enrollAssign 1 0 ∧
    (replying 11 []).bus.line = .enrollReply 11 ∧ reportRecord [2] = none ∧ reportRecord newCabinet = some ⟨1, [⟨1500, 1000⟩]⟩ ∧
    11 < 12 ∧ (∀ r ∈ (replying 11 [⟨7, two⟩]).bus.cabinets, r.serial ≠ 1) := by
  refine ⟨rfl, by decide, Or.inr ⟨1, 0, Or.inr (Or.inr rfl)⟩, not_enrolling _, ?_⟩; decide
theorem witness_EnrollmentEnds : (replying 12 [⟨7, two⟩]).Live ∧ (replying 12 [⟨7, two⟩]).ctl.autorun = false ∧
    (replying 12 [⟨7, two⟩]).berths.length = 36 ∧ (replying 12 [⟨7, two⟩]).bus.line = .enrollReply 12 ∧
    reportRecord newCabinet = some ⟨1, [⟨1500, 1000⟩]⟩ ∧ (∃ r ∈ (replying 2 [⟨1, two⟩]).bus.cabinets, r.serial = 1) ∧
    (∀ r ∈ (replying 12 [⟨7, two⟩]).bus.cabinets, r.serial ≠ 1) ∧ 12 ≤ 12 ∧ (onLine (.enrollForget 2)).bus.line = .enrollForget 2 ∧
    (replying 12 [⟨7, two⟩]).outletRecord 1 0 = some ⟨1500, 1000⟩ ∧ (replying 12 [⟨7, two⟩]).outletRecord 3 0 = none ∧
    (work.berth 4).cabinet = some 3 ∧ (work.berth 0).configured = true := ⟨rfl, by decide⟩
def autoStart : State := { State.afterFullReset ⟨0, false, true⟩ with bus := { work.bus with line := .enrollReply 2, cabinets := [⟨7, two⟩] } }
theorem witness_AutorunMapsAndStarts : autoStart.Live ∧ autoStart.ctl.autorun = true ∧ autoStart.bus.line = .enrollReply 2 ∧
    autoStart.berths.length = 36 ∧ autoStart.groups.length = 6 ∧ (∀ x, (autoStart.berth x).configured = false) ∧
    autoStart.bus.cabinets ≠ [] ∧ autoStart.outletOrder.length = 2 := by
  refine ⟨rfl, rfl, rfl, rfl, rfl, fun x => ?_, by decide, by decide⟩
  by_cases h : x < 36
  · interval_cases x <;> rfl
  · rw [berth_out x (by have : autoStart.berths.length = 36 := rfl; omega)]; rfl
/-- The AUTORUN start-up at its other ends: a serial on the list already, cabinet 12, an abandoned ASSIGN; and with nothing found. -/
theorem witness_AutorunMapsAndStarts_ends : let ending (l : Line) (cabinets : List Cabinet) : State :=
      { autoStart with bus := { autoStart.bus with line := l, cabinets := cabinets } }
    reportRecord newCabinet = some ⟨1, [⟨1500, 1000⟩]⟩ ∧ (∃ r ∈ (ending (.enrollReply 2) [⟨1, two⟩]).bus.cabinets, r.serial = 1) ∧
    ((ending (.enrollReply 12) [⟨7, two⟩]).bus.line = .enrollReply 12 ∧
      ∀ r ∈ (ending (.enrollReply 12) [⟨7, two⟩]).bus.cabinets, r.serial ≠ 1) ∧
    (ending (.enrollAssign 1 2) []).bus.line = .enrollAssign 1 2 ∧ (ending (.enrollForget 2) []).bus.cabinets = [] ∧
    autoStart.path.list = [] ∧ autoStart.reserve.state = .unavailable ∧ autoStart.meterValid = false := by decide
/-- R178: the third abandonment of an ASSIGN with one cabinet found, the ENROLLED notice and behind it the MODE notice. -/
theorem test_autorun_notices : bodies (after .echoMismatch { autoStart with bus := { autoStart.bus with line := .enrollAssign 2 2 } }) =
    [.enrolled 1, .mode .commission .run .autorun] := by decide

/-! ### The meter -/

def meterIn (st : MeterState) (misses recovered : Nat) : State := { work with meter := { work.meter with
  state := st, missCount := misses, recoverCount := recovered } }
theorem witness_SamplesMoveTheMeter : work.Live ∧ work.meter.lastSequence ≠ some 10 ∧ State.reset.meter.state = .noSignal ∧
    (meterIn .recovering 0 18).meter.recoverCount + 1 < 20 ∧ 20 ≤ (meterIn .recovering 0 19).meter.recoverCount + 1 ∧
    work.meter.state = .valid ∧ (meterIn .holding 8 0).meter.missCount + 1 < 10 ∧ 10 ≤ (meterIn .holding 9 0).meter.missCount + 1 ∧
    work.meter.timerRunning = true ∧ State.reset.meter.timerRunning = false ∧ called.reserve.state = .called ∧
    (reserved .armed).reserve.call = none ∧ (reserved .armed).reserve.state ≠ .unavailable ∧
    (day 0).storage.interval = some ⟨0, 4000, 1, false, false⟩ := ⟨rfl, by decide⟩
/-- A meter lost out of RUN, with the reserve UNAVAILABLE. -/
theorem witness_SamplesMoveTheMeter_lost : (let s : State := { inMode .safeHold with meter := (meterIn .holding 9 0).meter };
    s.ctl.mode ≠ .run ∧ s.meter.state = .holding ∧ 10 ≤ s.meter.missCount + 1 ∧ s.meter.timerRunning = true ∧ s.reserve.call = none ∧
      s.reserve.state = .unavailable) := by decide
/-- The sample that makes the meter valid, at the overrun threshold, with and without a window that trips. -/
theorem witness_SamplesMoveTheMeter_valid : (meterIn .recovering 0 19).Live ∧ (meterIn .recovering 0 19).meter.overrun = .normal ∧
    1600 ≤ (meterIn .recovering 0 19).feederLimit + work.overrunMargin ∧ work.reserve.state = .unavailable ∧ work.reserve.call = none ∧
    work.reserve.judged = none ∧ (reserved .unavailable).reserve.judged.any (·.frequency) = true ∧ 1 < work.tripCount := by
  unfold State.Live; decide
def overrunAt (st : OverrunState) (above under escalation : Nat) : State := { work with meter := { work.meter with
  overrun := st, overCount := above, underCount := under, escalation := escalation } }
theorem witness_OverrunsAreSqueezedAndEscalated : (∃ t, exec (.meterSampleAccepted ⟨10, 1601, 50000, 10⟩) work = .next t) ∧ work.Live ∧
    work.meter.lastSequence ≠ some 10 ∧ work.meter.state = .valid ∧
    work.meter.overrun = .normal ∧ 1600 - work.feederLimit ≤ work.overrunMargin ∧ work.overrunMargin < 1601 - work.feederLimit ∧
    (overrunAt .normal 28 0 0).meter.overCount + 1 < 30 ∧ 30 ≤ (overrunAt .normal 29 0 0).meter.overCount + 1 ∧
    (overrunAt .overrun 0 19 0).meter.overrun = .overrun ∧ 20 ≤ (overrunAt .overrun 0 19 0).meter.underCount + 1 ∧
    1500 - work.feederLimit ≤ 0 ∧ (overrunAt .overrun 0 0 98).meter.escalation + 1 < 100 ∧
    100 ≤ (overrunAt .overrun 0 0 99).meter.escalation + 1 ∧ work.ctl.mode = .run ∧ (inMode .safeHold).ctl.mode ≠ .run ∧
    20 ≤ (meterIn .recovering 0 19).meter.recoverCount + 1 ∧ work.reserve.call = none ∧ work.reserve.judged = none :=
  ⟨⟨_, rfl⟩, rfl, by decide⟩
/-- R173: on the sample that escalates, MODE stands before what the Reserve Unit says of the call it ends. -/
theorem test_mode_before_reserve : (bodies (after (.meterSampleAccepted ⟨10, 1601, 50000, 10⟩)
    { called with meter := (overrunAt .overrun 0 0 99).meter })).map (fun b : NoticeBody => match b with
      | .mode .. => 1
      | .callEnd .. => 2
      | .reserveState .. => 3
      | _ => 0) = [1, 2, 3] := by decide

/-- A call begun by the frequency trigger, with this many recovered samples counted. -/
def lowered (recovered : Nat) : State := { called with reserve := { called.reserve with
  call := some { theCall with source := .frequency }, recoverCount := recovered } }
def tripping (n : Nat) (s : State) : State := { s with reserve := { s.reserve with tripCount := n } }
theorem witness_FrequencyCallsAreCounted : (∃ t, exec (.meterSampleAccepted ⟨10, 500, 49800, 10⟩) (tripping 4 (reserved .armed)) = .next t) ∧
    (tripping 4 (reserved .armed)).Live ∧ work.meter.lastSequence ≠ some 10 ∧ work.meter.state = .valid ∧ work.meter.overrun = .normal ∧
    work.nominalFrequency - work.tripOffset = 49800 ∧ work.hysteresis = 50 ∧ (reserved .armed).reserve.judged = some window ∧
    window.frequency = true ∧ ((3 : Nat) + 1 < work.tripCount ∧ work.tripCount ≤ (4 : Nat) + 1) ∧
    (reserved .armed).reserve.state = .armed ∧
    (called.reserve.state = .called ∧ called.reserve.call = some theCall ∧ theCall.source = .frame ∧
    called.reserve.records = [theRecord]) ∧
    (lowered 0).reserve.call = some { theCall with source := .frequency } ∧ 0 < work.recoveryCount ∧
    ((18 : Nat) + 1 < work.recoveryCount ∧ work.recoveryCount ≤ (19 : Nat) + 1) ∧ work.reserve.judged = none := ⟨⟨_, rfl⟩, rfl, by decide⟩
/-- The overrun's last sample before SAFE_HOLD and the one that enters it, in a frame call with the trip count one short. -/
def overrunCall (escalation : Nat) : State := { tripping 4 called with meter := (overrunAt .overrun 0 0 escalation).meter }
theorem witness_FrequencyCallsAreCounted_overrun :
    (∃ t, exec (.meterSampleAccepted ⟨10, 1501, 49800, 10⟩) (overrunCall 98) = .next t) ∧ (overrunCall 98).Live ∧
    ((overrunCall 98).meter.overrun = .overrun ∧ (overrunCall 98).ctl.mode = .run ∧ ¬ 100 ≤ (overrunCall 98).meter.escalation + 1 ∧
      100 ≤ (overrunCall 99).meter.escalation + 1 ∧ ¬ 1501 ≤ work.feederLimit ∧ 1500 ≤ work.feederLimit ∧
      (overrunCall 98).meter.lastSequence ≠ some 10 ∧ (overrunCall 98).meter.state = .valid) ∧
    (overrunCall 98).reserve.call = some theCall ∧ (overrunCall 98).reserve.records = [theRecord] ∧
    (overrunCall 98).reserve.judged = some window ∧ (overrunCall 98).tripCount ≤ 4 + 1 := ⟨⟨_, rfl⟩, rfl, by decide⟩
/-- R134 during an overrun: the fifth low sample marks the record; that of the escalation ends the call with MODE (R149, R175). -/
theorem test_frequency_in_overrun : let reserve (n : Nat) := (after (.meterSampleAccepted ⟨10, 1501, 49800, 10⟩) (overrunCall n)).reserve
    ((reserve 98).state, (reserve 98).records.map (·.frequencyDuring)) = (.called, [true]) ∧
      ((reserve 99).state, (reserve 99).records.map (·.frequencyDuring), (reserve 99).records.map (·.cause)) =
        (.unavailable, [false], [some .mode]) := by decide
/-- R134, R135: the fifth sample at 49.800 Hz begins the autonomous call; the twentieth at 49.850 Hz ends it. -/
theorem test_frequency_call :
    ((after (.meterSampleAccepted ⟨10, 500, 49800, 10⟩) (tripping 4 (reserved .armed))).reserve.call.map fun c =>
      (c.callId, c.source, c.reduction, c.left)) = some (0, .frequency, 3000, 3600) ∧
    (let ended := after (.meterSampleAccepted ⟨10, 500, 49850, 10⟩) (lowered 19);
      ended.reserve.state = .recovery ∧ ended.reserve.call = none) := by decide
/-- R134: after the end of a frame call with 4 low samples counted, a fifth begins no autonomous call. -/
theorem test_trip_counts_anew : let low (k : Nat) := after (.meterSampleAccepted ⟨k, 500, 49800, 10⟩)
    let ended := after (.reserveEnd 3 9) (tripping 4 called)
    (ended.reserve.state, ended.reserve.tripCount) = (.recovery, 0) ∧
      ((low 10 ended).reserve.state, (low 10 ended).reserve.tripCount) = (.recovery, 1) := by decide
end Sys2Proof.Tests
end

