-- ==== Sys2Proof/Proofs/BusRules.lean ====
section
/-! Proofs/BusRules.lean: each event of the berth bus with the RESET pin released, and what the shared operations of the bus
master make of each field of the state. -/

namespace Sys2Proof.Machine.BerthBus

variable {s t : State}

/-! ## The events, with the RESET pin released -/

theorem exec_stopSent (live : s.Live) : exec .stopSent s = .next (finishStop s) := whileRunning_live _ live
theorem exec_startSlotExpiry (live : s.Live) : exec .startSlotExpiry s = .next (expireStartSlot s) := whileRunning_live _ live
theorem exec_surveyTimerExpiry (live : s.Live) : exec .surveyTimerExpiry s = .next (expireSurveyTimer s) := whileRunning_live _ live
theorem exec_surveyStart (live : s.Live) : exec .surveyStart s = .next (beginSurvey s) := whileRunning_live _ live
theorem exec_surveyOpenSent (live : s.Live) : exec .surveyOpenSent s = .next (openSurvey s) := whileRunning_live _ live
theorem exec_slotTimerExpiry (live : s.Live) : exec .slotTimerExpiry s = .next (expireSlotTimer s) := whileRunning_live _ live
theorem exec_closeSent (live : s.Live) : exec .closeSent s = .next (closeSurvey s) := whileRunning_live _ live
theorem exec_status (live : s.Live) (cabinet : Nat) (body : List Byte) : exec (.status cabinet body) s =
    .next (if s.statusTaken cabinet body then answerSlot body s else discardFrame s) :=
  whileRunning_live (fun s => if s.statusTaken cabinet body then answerSlot body s else discardFrame s) live
theorem exec_berthBusFrameDiscarded (live : s.Live) (bytes : List Byte) : exec (.berthBusFrameDiscarded bytes) s =
    .next (if s.frameTaken bytes then s else receiveBytes bytes s) :=
  whileRunning_live (fun s => if s.frameTaken bytes then s else receiveBytes bytes s) live
theorem exec_ack (live : s.Live) (cabinet : Nat) (body : List Byte) : exec (.ack cabinet body) s =
    .next (if s.ackTaken cabinet body then acceptAck body s else discardFrame s) :=
  whileRunning_live (fun s => if s.ackTaken cabinet body then acceptAck body s else discardFrame s) live
theorem exec_echoMismatch (live : s.Live) : exec .echoMismatch s = .next (abandonFrame s) := whileRunning_live _ live
theorem exec_pass (live : s.Live) (cabinet : Option Nat) (tag : Nat) (body : List Byte) : exec (.pass cabinet tag body) s =
    .next (takePass ⟨cabinet, tag, body⟩ (linkTaken s)) :=
  whileRunning_live (fun s => takePass ⟨cabinet, tag, body⟩ (linkTaken s)) live
theorem exec_passDequeue (live : s.Live) : exec .passDequeue s = .next (dequeuePass s) := whileRunning_live _ live
theorem exec_passSent (live : s.Live) : exec .passSent s = .next (finishPass s) := whileRunning_live _ live
theorem exec_passAnswer (live : s.Live) (cabinet : Nat) (body : List Byte) : exec (.passAnswer cabinet body) s =
    .next (if s.passTaken cabinet then answerPass body s else discardFrame s) :=
  whileRunning_live (fun s => if s.passTaken cabinet then answerPass body s else discardFrame s) live
theorem exec_passAckWindowExpiry (live : s.Live) : exec .passAckWindowExpiry s = .next (expirePass s) := whileRunning_live _ live
theorem exec_enrollLineTaken (live : s.Live) : exec .enrollLineTaken s = .next (beginEnrollment s) := whileRunning_live _ live
theorem exec_enrollForgetSent (live : s.Live) : exec .enrollForgetSent s = .next (finishForget s) := whileRunning_live _ live
theorem exec_enrollAssignSent (live : s.Live) : exec .enrollAssignSent s = .next (finishAssign s) := whileRunning_live _ live
theorem exec_enrollReport (live : s.Live) (cabinet : Nat) (body : List Byte) : exec (.enrollReport cabinet body) s =
    .next (acceptReport cabinet body s) := whileRunning_live _ live
theorem exec_enrollReplyWindowExpiry (live : s.Live) : exec .enrollReplyWindowExpiry s = .next (expireReply s) :=
  whileRunning_live _ live

/-! ## The line -/

theorem lineOpen_iff : s.lineOpen = true ↔ s.bus.line = .idle ∧ s.bus.enrollWaiting = false := by simp [State.lineOpen]

/-- R45: an enrollment in progress, as the model computes it. -/
theorem enrollInProgress_iff : s.enrollInProgress = true ↔ s.Enrolling := by
  unfold State.enrollInProgress State.Enrolling
  cases s.bus.line <;> simp [Line.enrolling]

theorem surveying_iff (l : Line) : l.surveying = true ↔
    ∃ k c b, l = .surveyOpen k ∨ l = .surveySlot k c b ∨ l = .surveyClose k := by
  cases l <;> simp [Line.surveying]

end Sys2Proof.Machine.BerthBus
end

