-- ==== Sys2Proof/Proofs/StopAndSurveys.lean ====
section
/-! Proofs/StopAndSurveys.lean: the start-up stop, the start gate, and how a survey takes the line and gives it back. -/

namespace Sys2Proof.Machine.BerthBus

variable {s t : State}

/-! ## The start-up stop and the start gate -/

theorem finishStop_sent (line : s.bus.line = .stopSending) : finishStop s = { s with
    bus := { s.bus with line := .idle, stopWhole := true, surveyRunning := true }
    path := { s.path with slotRunning := true, slotSpacing := s.startSpacing }
    alloc := { s.alloc with periodRunning := s.inRun }
    berths := s.berths.map fun b => { b with commanded := 0, confirmed := 0 } } := by
  unfold finishStop; rw [line]

theorem finishStop_other (line : s.bus.line ≠ .stopSending) : finishStop s = s := by
  unfold finishStop; split
  · contradiction
  · rfl

/-- A queue head that has left the queue and been given this setpoint state. -/
def unqueued (q : Queued) (rest : List Queued) (setpoint : SetpointState) (s : State) : State :=
  setSetpointState q.berth setpoint { s with path := { s.path with queue := rest } }

theorem addEntry_open (x tag : Nat) (h : s.trimWaits x = false) : addEntry x tag s = { s with path := { s.path with
    list := s.path.list ++ [⟨x, tag, s.path.nextAge, none⟩], nextAge := s.path.nextAge + 1 } } := by
  simp [addEntry, h]

theorem addEntry_unqueued {q : Queued} (rest : List Queued) (p : SetpointState) (h : s.trimWaits q.berth = false) :
    addEntry q.berth q.tag (unqueued q rest p s) = { unqueued q rest p s with path := { s.path with
      list := s.path.list ++ [⟨q.berth, q.tag, s.path.nextAge, none⟩], queue := rest, nextAge := s.path.nextAge + 1 } } :=
  addEntry_open (s := unqueued q rest p s) q.berth q.tag h

/-- R60: the head of the queue is released. -/
theorem releaseStart_cons {q : Queued} {rest : List Queued} (queue : s.path.queue = q :: rest) : releaseStart s =
    if s.target q.berth ≠ 0 then addEntry q.berth q.tag (unqueued q rest .active s)
    else if q.tag = 0 then unqueued q rest .idle s else addEntry q.berth q.tag (unqueued q rest .idle s) := by
  unfold releaseStart; rw [queue]; rfl

theorem expireStartSlot_running (running : s.path.slotRunning = true) :
    expireStartSlot s = { releaseStart s with path := { (releaseStart s).path with slotSpacing := (releaseStart s).startSpacing } } := by
  unfold expireStartSlot; rw [if_pos running]

/-- Settles O41: the queue head is the only berth a start slot releases, and with no trim of its map change on the list its entry
goes straight to the list. -/
theorem stopAndStartGate : Obligations.StopAndStartGate := by
  refine ⟨fun s live line => ?_, fun s live line => ?_, fun s live stopped => ?_, fun s live running => ⟨fun queue => ?_,
    fun q rest queue trim => ⟨fun target => ?_, fun target => ?_⟩⟩⟩
  · rw [exec_stopSent live, finishStop_sent line]; rfl
  · rw [exec_stopSent live, finishStop_other line]
  · rw [exec_startSlotExpiry live]; simp [expireStartSlot, stopped]
  · rw [exec_startSlotExpiry live, expireStartSlot_running running]
    have none_released : releaseStart s = s := by unfold releaseStart; rw [queue]
    rw [none_released]
  · rw [exec_startSlotExpiry live, expireStartSlot_running running, releaseStart_cons queue, if_pos target, addEntry_unqueued rest _ trim]
    rfl
  · rw [exec_startSlotExpiry live, expireStartSlot_running running, releaseStart_cons queue, if_neg (not_not_intro target)]
    by_cases untagged : q.tag = 0
    · simp only [untagged, if_true, ne_eq, not_true_eq_false, decide_false, Bool.false_eq_true, if_false]; rfl
    · rw [if_neg untagged, addEntry_unqueued rest _ trim]
      simp only [untagged, ne_eq, not_false_eq_true, decide_true, if_true]; rfl

end Sys2Proof.Machine.BerthBus
end

