-- ==== Sys2Proof/Proofs/Surveys.lean ====
section
/-! Proofs/Surveys.lean: how a survey becomes due, takes the line, opens its slots and gives the line back (R31 to R35, R48). -/

namespace Sys2Proof.Machine.BerthBus
variable {s t : State}

/-! ## Surveys -/

/-- R48: the bytes of the start-up stop. -/
theorem stopFrame_bytes : stopFrame = [0xD2, 0x5F, 0x00, 0x03, 0x8E] := by
  simp [stopFrame, busFrame, crcBytes, crc16, crcByte, crcShift, bytesOf, BitVec.msb_eq_decide]

theorem bytesOf_three (n : Nat) : bytesOf 3 n = [BitVec.ofNat 8 (n / 65536), BitVec.ofNat 8 (n / 256), BitVec.ofNat 8 n] := by
  simp [bytesOf, Nat.div_div_eq_div_mul]

/-- R32: the body of SURVEY_OPEN. -/
theorem surveyOpenFrame_bytes (k : SurveyKind) : s.surveyOpenFrame k = busFrame 0 31 [if k = .full then 0 else 1,
    if s.link.clockSet = true then 1 else 0, BitVec.ofNat 8 (s.stampedSecond / 65536),
    BitVec.ofNat 8 (s.stampedSecond / 256), BitVec.ofNat 8 s.stampedSecond] := by
  unfold State.surveyOpenFrame; rw [bytesOf_three]; cases k <;> rfl

/-- R31: what a survey timer expiry asks for before it makes a survey due. -/
theorem expireSurveyTimer_eq (running : s.bus.surveyRunning = true) (held : s.bus.line ≠ .stopHeld) : expireSurveyTimer s =
    if s.bus.stopWhole = true ∧ s.enrollInProgress = false ∧ s.bus.cabinets ≠ [] ∧ s.bus.line.surveying = false then
      { s with bus := { s.bus with surveyDue := true } } else s := by
  simp [expireSurveyTimer, running, held]

theorem beginSurvey_due (line : s.bus.line = .idle) (waiting : s.bus.enrollWaiting = false) (due : s.bus.surveyDue = true) :
    beginSurvey s = sendFrame (.surveyOpen s.bus.nextKind) (s.surveyOpenFrame s.bus.nextKind)
      { s with bus := { s.bus with surveyDue := false } } := by
  unfold beginSurvey; rw [if_pos ⟨lineOpen_iff.mpr ⟨line, waiting⟩, due⟩]

theorem beginSurvey_not (h : s.bus.line ≠ .idle ∨ s.bus.enrollWaiting = true ∨ s.bus.surveyDue = false) : beginSurvey s = s := by
  unfold beginSurvey
  rw [if_neg]
  rw [lineOpen_iff]
  rintro ⟨⟨line, waiting⟩, due⟩
  simp [line, waiting, due] at h

theorem openSurvey_sent {k : SurveyKind} (line : s.bus.line = .surveyOpen k) : openSurvey s =
    nextSlot k 0 (if k = .full then { s with bus := { s.bus with recheck := false } } else s) := by
  unfold openSurvey; rw [line]

theorem openSurvey_not (h : ∀ k, s.bus.line ≠ .surveyOpen k) : openSurvey s = s := by
  unfold openSurvey; split
  · next line => exact absurd line (h _)
  · rfl

theorem closeSurvey_sent {k : SurveyKind} (line : s.bus.line = .surveyClose k) :
    closeSurvey s = { s with bus := { s.bus with line := .idle, nextKind := k } } := by
  unfold closeSurvey; rw [line]

theorem closeSurvey_not (h : ∀ k, s.bus.line ≠ .surveyClose k) : closeSurvey s = s := by
  unfold closeSurvey; split
  · next line => exact absurd line (h _)
  · rfl

/-- R33: with a cabinet left the next slot opens. -/
theorem nextSlot_opens (k : SurveyKind) {c : Nat} (h : c < s.bus.cabinets.length) : nextSlot k c s =
    { s with bus := { s.bus with line := .surveySlot k (c + 1) false, rx := [] } } := by
  unfold nextSlot; exact if_pos h

/-- Settles O42, by the cases of each event's guard. -/
theorem surveysTakeTheLine : Obligations.SurveysTakeTheLine := by
  intro s live surveying judged second code flag
  have judged_iff : judged ↔ s.bus.stopWhole = true ∧ s.enrollInProgress = false ∧ s.bus.cabinets ≠ [] ∧
      s.bus.line.surveying = false := by
    rw [← Bool.not_eq_true s.enrollInProgress, enrollInProgress_iff, ← Bool.not_eq_true s.bus.line.surveying, surveying_iff]
  refine ⟨fun stopped => ?_, fun running held => ?_, fun running held due => ?_, fun held notDue => ?_, fun line waiting due => ?_,
    fun h => ?_, fun k line enrolled => ?_, fun h => ?_, fun k line => ?_, fun h => ?_⟩
  · rw [exec_surveyTimerExpiry live]; simp [expireSurveyTimer, stopped]
  · rw [exec_surveyTimerExpiry live, ← stopFrame_bytes]; simp [expireSurveyTimer, running, held, sendFrame]
  · rw [exec_surveyTimerExpiry live, expireSurveyTimer_eq running held, if_pos (judged_iff.mp due)]
  · rw [exec_surveyTimerExpiry live]
    cases running : s.bus.surveyRunning
    · simp [expireSurveyTimer, running]
    · rw [expireSurveyTimer_eq running held, if_neg (fun h => notDue (judged_iff.mpr h))]
  · rw [exec_surveyStart live, beginSurvey_due line waiting due, surveyOpenFrame_bytes]; rfl
  · rw [exec_surveyStart live, beginSurvey_not h]
  · rw [exec_surveyOpenSent live, openSurvey_sent line]
    have room : 0 < s.bus.cabinets.length := List.length_pos_iff.mpr enrolled
    cases k
    · exact congrArg _ (nextSlot_opens (s := { s with bus := { s.bus with recheck := false } }) .full room)
    · exact congrArg _ (nextSlot_opens .quiet room)
  · rw [exec_surveyOpenSent live, openSurvey_not h]
  · rw [exec_closeSent live, closeSurvey_sent line]
  · rw [exec_closeSent live, closeSurvey_not h]

end Sys2Proof.Machine.BerthBus
end

