-- ==== Sys2Proof/Proofs/PassThrough.lean ====
section
/-! Proofs/PassThrough.lean: pass-through requests, refused or queued, and their way over the line (R43, R44). -/

namespace Sys2Proof.Machine.BerthBus

variable {s t : State}

/-! ## Requests (R43) -/

theorem cabinet_isSome_iff (c : Nat) : (s.cabinet? c).isSome = true ↔ 1 ≤ c ∧ c ≤ s.bus.cabinets.length := by
  unfold State.cabinet?
  split
  · simp; omega
  · rw [Option.isSome_iff_ne_none, ne_eq, List.getElem?_eq_none_iff]; omega

theorem cabinet_isNone_iff (c : Nat) : (s.cabinet? c).isNone = true ↔ ¬ (1 ≤ c ∧ c ≤ s.bus.cabinets.length) := by
  rw [← cabinet_isSome_iff, ← Option.not_isSome, Bool.not_eq_true', Bool.not_eq_true]

/-- R43: the refusals in the order of the table. -/
theorem passRefusal_eq (f : PassFrame) : s.passRefusal f =
    if 40 < f.body.length then some .badLength
    else if ¬ ∀ c, f.cabinet = some c → 1 ≤ c ∧ c ≤ s.bus.cabinets.length then some .badValue
    else if 16 ≤ s.bus.passFifo.length then some .downstreamFull else none := by
  unfold State.passRefusal
  cases f.cabinet with
  | none => simp
  | some c => simp only [cabinet_isNone_iff, Option.some.injEq, forall_eq']

theorem takePass_refused {f : PassFrame} {code : ReplyCode} (h : s.passRefusal f = some code) :
    takePass f s = reply (cabinetParty f.cabinet) f.tag code .none s := by
  unfold takePass; rw [h]

theorem takePass_queued {f : PassFrame} (h : s.passRefusal f = none) :
    takePass f s = { s with bus := { s.bus with passFifo := s.bus.passFifo ++ [f] } } := by
  unfold takePass; rw [h]

/-! ## On the line (R44) -/

theorem nextEntry_none_iff : s.nextEntry = none ↔ s.path.list = [] := by
  unfold State.nextEntry
  constructor
  · intro h; split at h
    · cases h
    · exact List.head?_eq_none_iff.mp h
  · intro h; simp [h]

theorem dequeuePass_next {f : PassFrame} {rest : List PassFrame} (line : s.bus.line = .idle) (waiting : s.bus.enrollWaiting = false)
    (due : s.bus.surveyDue = false) (list : s.path.list = []) (fifo : s.bus.passFifo = f :: rest) : dequeuePass s =
    sendFrame (.passSending f) (busFrame 6 (f.cabinet.getD 31) f.body) { s with bus := { s.bus with passFifo := rest } } := by
  unfold dequeuePass; rw [fifo]
  exact if_pos ⟨lineOpen_iff.mpr ⟨line, waiting⟩, due, nextEntry_none_iff.mpr list⟩

theorem dequeuePass_not (h : s.bus.line ≠ .idle ∨ s.bus.enrollWaiting = true ∨ s.bus.surveyDue = true ∨ s.path.list ≠ [] ∨
    s.bus.passFifo = []) : dequeuePass s = s := by
  unfold dequeuePass; split
  · rfl
  · next fifo =>
    rw [if_neg]
    rw [lineOpen_iff, nextEntry_none_iff]
    rintro ⟨⟨line, waiting⟩, due, list⟩
    simp [line, waiting, due, list, fifo] at h

theorem finishPass_sent {f : PassFrame} (line : s.bus.line = .passSending f) : finishPass s =
    if f.expectsAnswer then setLine (.passAck f) (closeReceiver s) else passReply f .ok .none (setLine .idle s) := by
  unfold finishPass; rw [line]

theorem finishPass_not (h : ∀ f, s.bus.line ≠ .passSending f) : finishPass s = s := by
  unfold finishPass; split
  · next line => exact absurd line (h _)
  · rfl

theorem expectsAnswer_iff (f : PassFrame) : f.expectsAnswer = true ↔ (∃ c, f.cabinet = some c) ∧ f.tag ≠ 0 := by
  simp [PassFrame.expectsAnswer, Option.isSome_iff_exists]

theorem answerPass_open {f : PassFrame} (line : s.bus.line = .passAck f) (body : List Byte) : answerPass body s =
    passReply f .ok (.cabinet body) (setLine .idle (closeReceiver s)) := by
  unfold answerPass; rw [line]

theorem passTaken_open {f : PassFrame} (line : s.bus.line = .passAck f) (c : Nat) :
    s.passTaken c = decide (f.cabinet = some c) := by
  unfold State.passTaken; rw [line]

theorem expirePass_open {f : PassFrame} (line : s.bus.line = .passAck f) : expirePass s =
    passReply f .noConfirm .none (setLine .idle (closeReceiver s)) := by
  unfold expirePass; rw [line]

theorem expirePass_not (h : ∀ f, s.bus.line ≠ .passAck f) : expirePass s = s := by
  unfold expirePass; split
  · next line => exact absurd line (h _)
  · rfl

/-- A REPLY to a request whose cabinet is known has that cabinet's party. -/
theorem passReply_cabinet {f : PassFrame} {c : Option Nat} (cabinet : f.cabinet = c) (code : ReplyCode) (body : ReplyBody) (s : State) :
    passReply f code body s = reply (cabinetParty c) f.tag code body s := by
  rw [← cabinet]; rfl

/-- Settles O54: requests by the order of their refusals, then the frame on the line by what the line holds. -/
theorem passThroughIsCarried : Obligations.PassThroughIsCarried := by
  refine ⟨fun s cabinet tag body live => ?_, fun s live => ⟨fun h => ?_, fun f rest line waiting due list fifo => ?_, fun h => ?_,
    fun f line => ⟨fun c cabinet tag => ?_, fun cabinet => ?_, fun c cabinet tag => ?_⟩, fun f c body line cabinet => ?_,
    fun f line => ?_, fun h => ?_⟩⟩
  · intro party refused listed
    have refusal := passRefusal_eq (s := linkTaken s) ⟨cabinet, tag, body⟩
    have party_eq : cabinetParty cabinet = party := by cases cabinet <;> rfl
    have refuse : ∀ code, (linkTaken s).passRefusal ⟨cabinet, tag, body⟩ = some code → refused code := fun code h => by
      show exec (.pass cabinet tag body) s = _
      rw [exec_pass live, takePass_refused h, ← party_eq]
    refine ⟨fun long => refuse _ ?_, fun short unlisted => refuse _ ?_, fun short found full => refuse _ ?_,
      fun short found room => ?_⟩
    · rw [refusal, if_pos long]
    · rw [refusal, if_neg (Nat.not_lt.mpr short)]; exact if_pos unlisted
    · rw [refusal, if_neg (Nat.not_lt.mpr short)]; exact (if_neg (not_not_intro found)).trans (if_pos full)
    · rw [exec_pass live, takePass_queued]
      · rfl
      · rw [refusal, if_neg (Nat.not_lt.mpr short)]
        exact (if_neg (not_not_intro found)).trans (if_neg (Nat.not_le.mpr room))
  · rw [exec_passDequeue live, dequeuePass_not h]
  · rw [exec_passDequeue live, dequeuePass_next line waiting due list fifo]
    cases f.cabinet <;> rfl
  · rw [exec_passSent live, finishPass_not h]
  · rw [exec_passSent live, finishPass_sent line, if_pos ((expectsAnswer_iff f).mpr ⟨⟨c, cabinet⟩, tag⟩)]; rfl
  · rw [exec_passSent live, finishPass_sent line, if_neg (by simp [expectsAnswer_iff, cabinet]), passReply_cabinet cabinet]; rfl
  · rw [exec_passSent live, finishPass_sent line, if_neg (by simp [expectsAnswer_iff, tag]), passReply_cabinet cabinet, tag]; rfl
  · rw [exec_passAnswer live, if_pos (by simp [passTaken_open line, cabinet]), answerPass_open line, passReply_cabinet cabinet]; rfl
  · rw [exec_passAckWindowExpiry live, expirePass_open line]; rfl
  · rw [exec_passAckWindowExpiry live, expirePass_not h]

end Sys2Proof.Machine.BerthBus
end

