-- ==== Sys2Proof/Proofs/EnrollmentList.lean ====
section
/-! Proofs/EnrollmentList.lean: how an enrollment takes the line and builds the cabinet list (R45, R46). -/

namespace Sys2Proof.Machine.BerthBus

variable {s t : State}

/-! ## Bytes, most significant first -/

theorem unsignedOf_one (a : Byte) : unsignedOf [a] = a.toNat := by simp [unsignedOf]

theorem unsignedOf_two (a b : Byte) : unsignedOf [a, b] = a.toNat * 256 + b.toNat := by simp [unsignedOf]

theorem toNat_append_byte {n : Nat} (x : BitVec n) (b : Byte) : (x ++ b).toNat = x.toNat * 256 + b.toNat := by
  rw [BitVec.toNat_append, ← Nat.shiftLeft_add_eq_or_of_lt b.isLt, Nat.shiftLeft_eq]

/-- Four bytes are their 32-bit word. -/
theorem word_of_bytes (a b c d : Byte) : BitVec.ofNat 32 (unsignedOf [a, b, c, d]) = a ++ b ++ c ++ d := by
  have joined : (a ++ b ++ c ++ d).toNat = unsignedOf [a, b, c, d] := by simp [toNat_append_byte, unsignedOf]
  rw [← joined]; simp

theorem bytesAt_zero_one (b : Byte) (l : List Byte) : bytesAt (b :: l) 0 1 = b.toNat := unsignedOf_one b

/-! ## The command (R45, R173) -/

theorem exec_enroll (live : s.Live) (pos : EntryPos) : exec (.enroll pos) s = .next (serviceEntry pos enrollCommand s) :=
  whileRunning_live _ live

theorem entryTaken_only (pos : EntryPos) (s : State) : entryTaken pos s = { s with link := (entryTaken pos s).link } := by
  unfold entryTaken; split <;> rfl

theorem entryTaken_ctl (pos : EntryPos) (s : State) : (entryTaken pos s).ctl = s.ctl := by rw [entryTaken_only]

theorem entryTaken_enrolling (pos : EntryPos) : (entryTaken pos s).enrollInProgress = true ↔ s.Enrolling := by
  rw [entryTaken_only]; exact enrollInProgress_iff (s := s)

/-! ## The frames (R45, R46) -/

theorem beginEnrollment_taken (line : s.bus.line = .idle) (waiting : s.bus.enrollWaiting = true) : beginEnrollment s =
    sendForget 0 { s with bus := { s.bus with
      enrollWaiting := false, surveyDue := false, cabinets := [], missCounts := List.replicate Config.cabinets 0
      chainOut := true } } := by
  unfold beginEnrollment; exact if_pos ⟨line, waiting⟩

theorem beginEnrollment_not (h : s.bus.line ≠ .idle ∨ s.bus.enrollWaiting = false) : beginEnrollment s = s := by
  unfold beginEnrollment; rw [if_neg]
  rintro ⟨line, waiting⟩
  simp [line, waiting] at h

theorem finishForget_sent {n : Nat} (line : s.bus.line = .enrollForget n) : finishForget s = sendAssign 1 0 s := by
  unfold finishForget; rw [line]

theorem finishForget_not (h : ∀ n, s.bus.line ≠ .enrollForget n) : finishForget s = s := by
  unfold finishForget; split
  · next line => exact absurd line (h _)
  · rfl

theorem finishAssign_sent {k n : Nat} (line : s.bus.line = .enrollAssign k n) :
    finishAssign s = setLine (.enrollReply k) (closeReceiver s) := by
  unfold finishAssign; rw [line]

theorem finishAssign_not (h : ∀ k n, s.bus.line ≠ .enrollAssign k n) : finishAssign s = s := by
  unfold finishAssign; split
  · next line => exact absurd line (h _ _)
  · rfl

/-! ## Reports (R46) -/

theorem reportTaken_open {k : Nat} (line : s.bus.line = .enrollReply k) (cabinet : Nat) (body : List Byte) :
    s.reportTaken cabinet body = (decide (cabinet = k) && (reportRecord body).isSome) := by
  unfold State.reportTaken; rw [line]

/-- A frame discarded outside a survey slot leaves the receiver empty and nothing else changed. -/
theorem discardFrame_unslotted (h : ∀ k c b, s.bus.line ≠ .surveySlot k c b) : discardFrame s = closeReceiver s := by
  unfold discardFrame; dsimp only; split
  · next line => exact absurd line (h _ _ _)
  · rfl

theorem acceptReport_record {k : Nat} {body : List Byte} {record : Cabinet} (line : s.bus.line = .enrollReply k)
    (h : reportRecord body = some record) : acceptReport k body s = takeReport k record s := by
  unfold acceptReport; rw [if_pos (by simp [reportTaken_open line, h]), h]

theorem acceptReport_unfit {k : Nat} {body : List Byte} (line : s.bus.line = .enrollReply k) (h : reportRecord body = none) :
    acceptReport k body s = closeReceiver s := by
  unfold acceptReport
  rw [if_neg (by simp [reportTaken_open line, h]), discardFrame_unslotted (by simp [line])]

theorem serial_known_iff (record : Cabinet) : (s.bus.cabinets.any fun r => decide (r.serial = record.serial)) = true ↔
    ∃ r ∈ s.bus.cabinets, r.serial = record.serial := by simp

theorem takeReport_new {k : Nat} {record : Cabinet} (h : ∀ r ∈ s.bus.cabinets, r.serial ≠ record.serial) : takeReport k record s =
    let joined := closeReceiver { s with bus := { s.bus with cabinets := s.bus.cabinets ++ [record] } }
    if 12 ≤ k then endEnrollment joined else sendAssign (k + 1) 0 joined := by
  unfold takeReport
  rw [if_neg]
  rw [serial_known_iff]; rintro ⟨r, hr, same⟩; exact h r hr same

theorem takeReport_known {k : Nat} {record : Cabinet} (h : ∃ r ∈ s.bus.cabinets, r.serial = record.serial) :
    takeReport k record s = endEnrollment s := by
  unfold takeReport; exact if_pos ((serial_known_iff record).mpr h)

/-- R46: the layout of a REPORT, its first six bytes named. -/
theorem reportRecord_layout (a b c d n : Byte) (outlets : List Byte) : reportRecord (3 :: a :: b :: c :: d :: n :: outlets) =
    if 1 ≤ n.toNat ∧ n.toNat ≤ 3 ∧ outlets.length = 4 * n.toNat then
      some ⟨a ++ b ++ c ++ d, (List.range n.toNat).map fun i =>
        ⟨bytesAt outlets (4 * i) 2, bytesAt outlets (2 + 4 * i) 2⟩⟩
    else none := by
  have code : bytesAt (3 :: a :: b :: c :: d :: n :: outlets) 0 1 = 3 := rfl
  have count : bytesAt (3 :: a :: b :: c :: d :: n :: outlets) 5 1 = n.toNat := unsignedOf_one n
  have serial : BitVec.ofNat 32 (bytesAt (3 :: a :: b :: c :: d :: n :: outlets) 1 4) = a ++ b ++ c ++ d := word_of_bytes a b c d
  have figure : ∀ i, bytesAt (3 :: a :: b :: c :: d :: n :: outlets) (i + 6) 2 = bytesAt outlets i 2 := fun i => by simp [bytesAt]
  unfold reportRecord
  simp only [code, count, serial, true_and, List.length_cons, Nat.add_comm 6, figure,
    show ∀ i, 8 + 4 * i = 2 + 4 * i + 6 by omega, Nat.add_right_cancel_iff]

/-- Settles O55: the command by its refusals, then each event by what the line holds, then the layout of a REPORT. -/
theorem enrollmentBuildsTheList : Obligations.EnrollmentBuildsTheList := by
  refine ⟨fun s pos live => ⟨fun mode => ?_, fun mode enrolling => ?_, fun mode idle => ?_⟩, fun s live =>
    ⟨fun line waiting => ?_, fun h => ?_, fun n line => ?_, fun h => ?_, fun k n line => ?_, fun h => ?_, fun k body line unfit => ?_,
      fun k body record line fit room new => ?_, fun a b c d n outlets => ?_, fun a b c d p q v w => ?_⟩⟩
  · rw [exec_enroll live]; simp [serviceEntry, enrollCommand, entryTaken_ctl, mode]
  · rw [exec_enroll live]; simp [serviceEntry, enrollCommand, entryTaken_ctl, mode, (entryTaken_enrolling pos).mpr enrolling]
  · have free : (entryTaken pos s).enrollInProgress = false := by
      rw [← Bool.not_eq_true, entryTaken_enrolling]; exact idle
    rw [exec_enroll live]
    simp only [serviceEntry, enrollCommand, entryTaken_ctl, mode, free, ne_eq, not_true_eq_false, if_false, Bool.false_eq_true]
    rw [entryTaken_only pos s]
  · rw [exec_enrollLineTaken live, beginEnrollment_taken line waiting]; rfl
  · rw [exec_enrollLineTaken live, beginEnrollment_not h]
  · rw [exec_enrollForgetSent live, finishForget_sent line]; rfl
  · rw [exec_enrollForgetSent live, finishForget_not h]
  · rw [exec_enrollAssignSent live, finishAssign_sent line]; rfl
  · rw [exec_enrollAssignSent live, finishAssign_not h]
  · rw [exec_enrollReport live, acceptReport_unfit line unfit]; rfl
  · rw [exec_enrollReport live, acceptReport_record line fit, takeReport_new new]
    exact congrArg _ (if_neg (by omega))
  · rw [reportRecord_layout]; simp
  · rw [reportRecord_layout, if_pos (by simp)]
    simp [bytesAt, unsignedOf_two]

end Sys2Proof.Machine.BerthBus
end

