-- ==== Sys2Proof/Proofs/Acknowledgements.lean ====
section
/-! Proofs/Acknowledgements.lean: which ACK an open ack window takes, and what it writes and answers (R41, R65). -/

namespace Sys2Proof.Machine.BerthBus

variable {s t : State}

/-! ## Berth records written twice -/

theorem editBerth_editBerth (x : Nat) (f g : Berth → Berth) (s : State) :
    (s.editBerth x f).editBerth x g = s.editBerth x (g ∘ f) := by
  by_cases hx : x < s.berths.length
  · have read : (s.editBerth x f).berth x = f (s.berth x) := berth_editBerth_self s f hx
    show (s.editBerth x f).setBerth x (g ((s.editBerth x f).berth x)) = _
    rw [read]; simp [State.editBerth, State.setBerth]
  · simp [State.editBerth, State.setBerth, List.set_eq_of_length_le (Nat.le_of_not_lt hx)]

theorem editBerth_comm {x y : Nat} (h : x ≠ y) (f g : Berth → Berth) (s : State) :
    (s.editBerth x f).editBerth y g = (s.editBerth y g).editBerth x f := by
  have read_y : (s.editBerth x f).berth y = s.berth y := berth_editBerth_ne s f h.symm
  have read_x : (s.editBerth y g).berth x = s.berth x := berth_editBerth_ne s g h
  show (s.editBerth x f).setBerth y (g ((s.editBerth x f).berth y)) = (s.editBerth y g).setBerth x (f ((s.editBerth y g).berth x))
  rw [read_y, read_x]
  simp only [State.editBerth, State.setBerth, List.set_comm _ _ h]

/-- Two berth records written one after the other. -/
theorem editBerth_two {x y : Nat} (h : x ≠ y) (f g : Berth → Berth) (s : State) : (s.editBerth x f).editBerth y g =
    { s with berths := (s.berths.set x (f (s.berth x))).set y (g (s.berth y)) } := by
  have read : (s.editBerth x f).berth y = s.berth y := berth_editBerth_ne s f h.symm
  show (s.editBerth x f).setBerth y (g ((s.editBerth x f).berth y)) = _
  rw [read]; rfl

/-! ## What an ACK writes -/

/-- R41: the accepted value reaches a berth record. -/
def confirm (v : Int) (b : Berth) : Berth := { b with confirmed := v, confirmAge := some 0 }

/-- R41, R66: the transaction of a berth record ends. -/
def endFlight (b : Berth) : Berth := { b with inFlight := false, counters := { b.counters with noConfirm := 0 } }

theorem writeConfirmed_none {h : Share} (entries : List AckEntry) (own : h.berth = none) : writeConfirmed entries s h = s := by
  unfold writeConfirmed; rw [own]

theorem writeConfirmed_some {h : Share} {x : Nat} {entries : List AckEntry} {e : AckEntry} (own : h.berth = some x)
    (found : (entries.find? fun e => decide (e.outlet = h.outlet)) = some e) :
    writeConfirmed entries s h = s.editBerth x (confirm e.value) := by
  unfold writeConfirmed; rw [own, found]; rfl

/-- R41, R65: an ACK in its window writes its values, ends the transaction and is answered. -/
theorem acceptAck_open {tx : SetpointTx} (line : s.bus.line = .setpointAck tx) (body : List Byte) : acceptAck body s =
    forwardAck tx (ackEntries body) ((tx.shares.foldl (writeConfirmed (ackEntries body))
      { s with bus := { s.bus with line := .idle, rx := [] } }).editBerth tx.berth endFlight) := by
  unfold acceptAck; rw [line]; dsimp only
  unfold setInFlight editCounters
  rw [editBerth_editBerth]; rfl

/-! ## Which ACK is taken -/

theorem ackFits_iff (shares : List Share) (body : List Byte) : ackFits shares body = true ↔ body.length = 4 * shares.length ∧
    (∀ e ∈ ackEntries body, e.result ≤ 2 ∧ ∃ h ∈ shares, h.outlet = e.outlet) ∧
    ∀ h ∈ shares, ∃ e ∈ ackEntries body, e.outlet = h.outlet := by
  simp [ackFits, and_assoc]

theorem ackTaken_open {tx : SetpointTx} (line : s.bus.line = .setpointAck tx) (cabinet : Nat) (body : List Byte) :
    s.ackTaken cabinet body = true ↔ cabinet = tx.cabinet ∧ ackFits tx.shares body = true := by
  unfold State.ackTaken; rw [line]; simp

/-- R27, R41: an ACK that does not fit is discarded, the window standing. -/
theorem exec_ack_discarded {tx : SetpointTx} {cabinet : Nat} {body : List Byte} (live : s.Live) (line : s.bus.line = .setpointAck tx)
    (unfit : ¬ (cabinet = tx.cabinet ∧ ackFits tx.shares body = true)) :
    exec (.ack cabinet body) s = .next (closeReceiver s) := by
  rw [exec_ack live, if_neg (by rwa [ackTaken_open line]), discardFrame_unslotted (by simp [line])]

theorem exec_ack_accepted {tx : SetpointTx} {body : List Byte} (live : s.Live) (line : s.bus.line = .setpointAck tx)
    (fits : ackFits tx.shares body = true) : exec (.ack tx.cabinet body) s = .next (acceptAck body s) := by
  rw [exec_ack live, if_pos ((ackTaken_open line _ _).mpr ⟨rfl, fits⟩)]

/-! ## The answer (R65) -/

/-- The result a code stands for (chapter 02, ACK). -/
def resultOf (r : Nat) : SetResult := if r = 2 then .refused else if r = 1 then .limited else .accepted

theorem signedOf_range (n : Nat) (h : n < 65536) : -32768 ≤ signedOf 16 n ∧ signedOf 16 n ≤ 32767 := by
  unfold signedOf; split <;> omega

theorem steps16_range (hi lo : Byte) : -32768 ≤ steps16 hi lo ∧ steps16 hi lo ≤ 32767 := by
  apply signedOf_range
  have := hi.isLt; have := lo.isLt
  rw [unsignedOf_two]; omega

theorem ackValue_of_range {sum : Int} (low : -32768 ≤ sum) (high : sum ≤ 32767) : ackValue sum = sum := by
  unfold ackValue; exact if_pos ⟨low, high⟩

theorem combinedResult_one (e : AckEntry) : combinedResult [e] = resultOf e.result := by
  simp [combinedResult, resultOf]

theorem combinedResult_two {e f : AckEntry} (he : e.result ≤ 2) (hf : f.result ≤ 2) :
    combinedResult [e, f] = resultOf (max e.result f.result) := by
  have refused : (e.result = 2 ∨ f.result = 2) ↔ max e.result f.result = 2 := by omega
  have limited : ¬ (e.result = 2 ∨ f.result = 2) → ((e.result = 1 ∨ f.result = 1) ↔ max e.result f.result = 1) := by omega
  simp only [combinedResult, resultOf, List.any_cons, List.any_nil, Bool.or_false, Bool.or_eq_true, decide_eq_true_eq]
  by_cases worst : e.result = 2 ∨ f.result = 2
  · rw [if_pos worst, if_pos (refused.mp worst)]
  · rw [if_neg worst, if_neg (fun h => worst (refused.mpr h))]
    simp only [limited worst]

/-- The answer to a tag, and nothing for no tag. -/
def answeredWith (tx : SetpointTx) (value : Int) (r : Nat) (t : State) : State :=
  if tx.tag = 0 then t else answer (.setAck (1 + tx.berth) tx.tag value (resultOf r)) t

theorem forwardAck_one (tx : SetpointTx) (o : Nat) (r : Nat) (hi lo : Byte) (t : State) :
    forwardAck tx [⟨o, r, steps16 hi lo⟩] t = answeredWith tx (steps16 hi lo) r t := by
  have range := steps16_range hi lo
  have value : ackValue (sumOf (·.value) [(⟨o, r, steps16 hi lo⟩ : AckEntry)]) = steps16 hi lo := by
    simp only [sumOf, List.foldr_cons, List.foldr_nil, Int.add_zero]; exact ackValue_of_range range.1 range.2
  unfold forwardAck; rw [value, combinedResult_one]; rfl

/-- R41, R65: the ACK of a single outlet. -/
theorem exec_ack_one {tx : SetpointTx} {o r hi lo : Byte} {v : Int} {b : Option Nat} (live : s.Live)
    (line : s.bus.line = .setpointAck tx) (shares : tx.shares = [⟨o.toNat, v, b⟩]) (fit : r.toNat ≤ 2) :
    exec (.ack tx.cabinet [o, r, hi, lo]) s = .next (answeredWith tx (steps16 hi lo) r.toNat
      ((writeConfirmed [⟨o.toNat, r.toNat, steps16 hi lo⟩] { s with bus := { s.bus with line := .idle, rx := [] } }
        ⟨o.toNat, v, b⟩).editBerth tx.berth endFlight)) := by
  have entry : ackEntries [o, r, hi, lo] = [⟨o.toNat, r.toNat, steps16 hi lo⟩] := rfl
  rw [exec_ack_accepted live line (by rw [shares, ackFits_iff]; simp [entry, fit]), acceptAck_open line, shares, entry, forwardAck_one]
  rfl

/-! ## A pair -/

/-- R41: the two entries of a pair's ACK, in either order. -/
def BothOf (e f : AckEntry) (entries : List AckEntry) : Prop := entries = [e, f] ∨ entries = [f, e]

variable {e f : AckEntry} {entries : List AckEntry}

theorem BothOf.find (h : BothOf e f entries) (apart : e.outlet ≠ f.outlet) :
    (entries.find? fun a => decide (a.outlet = e.outlet)) = some e ∧
      (entries.find? fun a => decide (a.outlet = f.outlet)) = some f := by
  obtain rfl | rfl := h <;> simp [apart, apart.symm]

theorem BothOf.forward (h : BothOf e f entries) (he : e.result ≤ 2) (hf : f.result ≤ 2) (tx : SetpointTx) (t : State) :
    forwardAck tx entries t = answeredWith tx (ackValue (e.value + f.value)) (max e.result f.result) t := by
  have both : sumOf (·.value) entries = e.value + f.value ∧ combinedResult entries = resultOf (max e.result f.result) := by
    obtain rfl | rfl := h
    · exact ⟨by simp [sumOf], combinedResult_two he hf⟩
    · exact ⟨by simp [sumOf, Int.add_comm], by rw [combinedResult_two hf he, max_comm]⟩
  unfold forwardAck; rw [both.1, both.2]; rfl

theorem BothOf.fits {body : List Byte} (h : BothOf e f (ackEntries body)) (he : e.result ≤ 2) (hf : f.result ≤ 2)
    (length : body.length = 8) (v w : Int) (b c : Option Nat) : ackFits [⟨e.outlet, v, b⟩, ⟨f.outlet, w, c⟩] body = true := by
  rw [ackFits_iff]
  refine ⟨length, ?_, ?_⟩ <;> obtain h | h := h <;> simp [h, he, hf]

/-- R41, R65: the ACK of a pair, its entries in either order: each value reaches the berth of its outlet, where it has one. -/
theorem exec_ack_pair {tx : SetpointTx} {body : List Byte} {b c : Option Nat} {v w : Int} (live : s.Live)
    (line : s.bus.line = .setpointAck tx) (shares : tx.shares = [⟨e.outlet, v, b⟩, ⟨f.outlet, w, c⟩])
    (h : BothOf e f (ackEntries body)) (length : body.length = 8) (he : e.result ≤ 2) (hf : f.result ≤ 2) :
    exec (.ack tx.cabinet body) s = .next (answeredWith tx (ackValue (e.value + f.value)) (max e.result f.result)
      ((writeConfirmed (ackEntries body) (writeConfirmed (ackEntries body) { s with bus := { s.bus with line := .idle, rx := [] } }
        ⟨e.outlet, v, b⟩) ⟨f.outlet, w, c⟩).editBerth tx.berth endFlight)) := by
  rw [exec_ack_accepted live line (by rw [shares]; exact h.fits he hf length v w b c), acceptAck_open line, shares, h.forward he hf]
  rfl

theorem byte_ne {o q : Byte} (h : o ≠ q) : o.toNat ≠ q.toNat := fun e => h (BitVec.eq_of_toNat_eq e)

/-- Settles O51: a SINGLE berth and a pair, their outlets' berths written or, after a map change, not. -/
theorem acknowledgementsConfirm : Obligations.AcknowledgementsConfirm := by
  refine ⟨fun sum low high => ackValue_of_range low high, fun s tx live line => ?_⟩
  intro x result acked ended idle
  refine ⟨fun cabinet body unfit => ?_, fun o r hi lo v shares fit hx => ?_,
    fun o q r1 r2 h1 l1 h2 l2 p v w shares apart xp fit1 fit2 hx hp => ?_, ?_⟩
  · refine exec_ack_discarded live line fun ⟨here, fits⟩ => ?_
    obtain ⟨length, named, all⟩ := (ackFits_iff _ _).mp fits
    obtain away | short | ⟨h, hh, missing⟩ | ⟨e, he, bad⟩ := unfit
    · exact away here
    · exact short length
    · obtain ⟨e, he, same⟩ := all h hh
      exact missing e he same
    · obtain ⟨result_le, h, hh, same⟩ := named e he
      exact bad.elim (fun high => Nat.not_lt.mpr result_le high) fun none => none h hh same
  · rw [exec_ack_one live line shares fit, writeConfirmed_some (e := ⟨o.toNat, r.toNat, steps16 hi lo⟩) rfl (by simp),
      editBerth_editBerth]
    rfl
  · intro other pair
    have written : ∀ body, BothOf ⟨o.toNat, r1.toNat, steps16 h1 l1⟩ ⟨q.toNat, r2.toNat, steps16 h2 l2⟩ (ackEntries body) →
        body.length = 8 → exec (.ack tx.cabinet body) s =
          acked (ackValue (steps16 h1 l1 + steps16 h2 l2)) (max r1.toNat r2.toNat) pair := fun body both length => by
      have found := both.find (byte_ne apart)
      rw [exec_ack_pair live line shares both length fit1 fit2, writeConfirmed_some rfl found.2, writeConfirmed_some rfl found.1,
        editBerth_comm xp.symm, editBerth_editBerth]
      show _ = Host.Outcome.next (answeredWith tx _ _ pair)
      congr 2
      exact editBerth_two xp _ _ idle
    exact ⟨written _ (.inl rfl) rfl, written _ (.inr rfl) rfl⟩
  · intro quiet kept
    refine ⟨fun o r hi lo v shares fit hx => ?_, fun o q r1 r2 h1 l1 h2 l2 own v w owner shares apart fit1 fit2 hx => ?_⟩
    · rw [exec_ack_one live line shares fit, writeConfirmed_none _ rfl]; rfl
    · intro after
      have written : ∀ body, BothOf ⟨o.toNat, r1.toNat, steps16 h1 l1⟩ ⟨q.toNat, r2.toNat, steps16 h2 l2⟩ (ackEntries body) →
          body.length = 8 → exec (.ack tx.cabinet body) s =
            acked (ackValue (steps16 h1 l1 + steps16 h2 l2)) (max r1.toNat r2.toNat) after := fun body both length => by
        rw [exec_ack_pair live line shares both length fit1 fit2, writeConfirmed_none (h := ⟨q.toNat, w, none⟩) _ rfl]
        show _ = Host.Outcome.next (answeredWith tx _ _ after)
        obtain rfl | rfl := owner
        · rw [writeConfirmed_none _ rfl]; rfl
        · rw [writeConfirmed_some rfl (both.find (byte_ne apart)).1, editBerth_editBerth]; rfl
      exact ⟨written _ (.inl rfl) rfl, written _ (.inr rfl) rfl⟩

end Sys2Proof.Machine.BerthBus
end

