-- ==== Sys2Proof/Proofs/DiscardedFrames.lean ====
section
/-! Proofs/DiscardedFrames.lean: the hunting of the berth bus receiver and of the meter framer, and what a frame that no slot
or window takes does (R27, R33, R140, R141). -/

namespace Sys2Proof.Machine.BerthBus

variable {s t : State}

/-! ## The berth bus receiver's hunt (R27) -/

/-- The bytes from the first lead byte on. -/
def fromLead (bytes : List Byte) : List Byte := bytes.dropWhile (· ≠ 0xD2)

theorem fromLead_length_le (bytes : List Byte) : (fromLead bytes).length ≤ bytes.length := List.length_dropWhile_le _ _

theorem fromLead_noise {noise : List Byte} (h : ∀ b ∈ noise, b ≠ 0xD2) : fromLead noise = [] :=
  List.dropWhile_eq_nil_iff.mpr fun b hb => by simpa using h b hb

theorem fromLead_lead {noise : List Byte} (h : ∀ b ∈ noise, b ≠ 0xD2) (rest : List Byte) :
    fromLead (noise ++ 0xD2 :: rest) = 0xD2 :: rest := by
  unfold fromLead
  rw [List.dropWhile_append_of_pos (fun b hb => by simpa using h b hb)]; simp

/-- One step of the hunt with fuel left: too few bytes for a header, a frame still incomplete, or a complete frame. -/
theorem busHunt_short (n : Nat) {bytes : List Byte} (h : (fromLead bytes).length < 3) :
    busHunt (n + 1) bytes = ([], fromLead bytes) := by
  unfold fromLead at *
  match found : bytes.dropWhile (· ≠ 0xD2), h with
  | [], _ | [_], _ | [_, _], _ => simp only [busHunt, found]
  | _ :: _ :: _ :: _, long => rw [found] at long; simp at long; omega

theorem busHunt_header (n : Nat) {bytes rest : List Byte} {lead addr len : Byte} (h : fromLead bytes = lead :: addr :: len :: rest) :
    busHunt (n + 1) bytes = if rest.length < len.toNat + 2 then ([], lead :: addr :: len :: rest) else
      ((lead :: addr :: len :: rest.take (len.toNat + 2)) :: (busHunt n (rest.drop (len.toNat + 2))).1,
        (busHunt n (rest.drop (len.toNat + 2))).2) := by
  unfold fromLead at h
  simp only [busHunt, h]

/-- Fuel beyond the number of bytes changes nothing. -/
theorem busHunt_fuel (n m : Nat) (bytes : List Byte) (hn : bytes.length ≤ n) (hm : bytes.length ≤ m) :
    busHunt n bytes = busHunt m bytes := by
  induction n generalizing m bytes with
  | zero =>
    have empty : bytes = [] := List.length_eq_zero_iff.mp (by omega)
    subst empty; cases m <;> rfl
  | succ n ih =>
    cases m with
    | zero =>
      have empty : bytes = [] := List.length_eq_zero_iff.mp (by omega)
      subst empty; rfl
    | succ m =>
      have le := fromLead_length_le bytes
      match h : fromLead bytes with
      | [] | [_] | [_, _] => rw [busHunt_short n (by simp [h]), busHunt_short m (by simp [h])]
      | lead :: addr :: len :: rest =>
        have shorter : (rest.drop (len.toNat + 2)).length + 3 ≤ bytes.length := by
          rw [h] at le; simp only [List.length_cons, List.length_drop] at le ⊢; omega
        rw [busHunt_header n h, busHunt_header m h, ih m _ (by omega) (by omega)]

/-- The hunt in bytes without a header after a lead byte. -/
theorem busHunt_of_short {bytes : List Byte} (h : (fromLead bytes).length < 3) :
    busComplete bytes = [] ∧ busIncomplete bytes = fromLead bytes := by
  have run : busHunt bytes.length bytes = ([], fromLead bytes) := by
    rw [busHunt_fuel bytes.length (bytes.length + 1) bytes le_rfl (Nat.le_succ _), busHunt_short _ h]
  unfold busComplete busIncomplete; rw [run]; exact ⟨rfl, rfl⟩

/-- The hunt from a header on, the frame behind it hunted anew. -/
theorem busHunt_of_header {bytes rest : List Byte} {lead addr len : Byte} (h : fromLead bytes = lead :: addr :: len :: rest) :
    busHunt bytes.length bytes = if rest.length < len.toNat + 2 then ([], lead :: addr :: len :: rest) else
      ((lead :: addr :: len :: rest.take (len.toNat + 2)) :: busComplete (rest.drop (len.toNat + 2)),
        busIncomplete (rest.drop (len.toNat + 2))) := by
  have le := fromLead_length_le bytes
  have shorter : (rest.drop (len.toNat + 2)).length ≤ bytes.length := by
    rw [h] at le; simp only [List.length_cons, List.length_drop] at le ⊢; omega
  rw [busHunt_fuel bytes.length (bytes.length + 1) bytes le_rfl (Nat.le_succ _), busHunt_header _ h,
    busHunt_fuel bytes.length _ (rest.drop (len.toNat + 2)) shorter le_rfl]
  rfl

theorem busHunt_incomplete {bytes rest : List Byte} {lead addr len : Byte} (h : fromLead bytes = lead :: addr :: len :: rest)
    (few : rest.length < len.toNat + 2) : busComplete bytes = [] ∧ busIncomplete bytes = lead :: addr :: len :: rest := by
  unfold busComplete busIncomplete; rw [busHunt_of_header h, if_pos few]; exact ⟨rfl, rfl⟩

theorem busHunt_complete {bytes rest : List Byte} {lead addr len : Byte} (h : fromLead bytes = lead :: addr :: len :: rest)
    (enough : len.toNat + 2 ≤ rest.length) :
    busComplete bytes = (lead :: addr :: len :: rest.take (len.toNat + 2)) :: busComplete (rest.drop (len.toNat + 2)) ∧
      busIncomplete bytes = busIncomplete (rest.drop (len.toNat + 2)) := by
  have run := (busHunt_of_header h).trans (if_neg (Nat.not_lt.mpr enough))
  rw [show busComplete bytes = (busHunt bytes.length bytes).1 from rfl,
    show busIncomplete bytes = (busHunt bytes.length bytes).2 from rfl, run]
  exact ⟨rfl, rfl⟩

/-! ## The frame's fields (R27, R28) -/

theorem busFrameFields_none_iff (lead addr len : Byte) (rest : List Byte) : busFrameFields (lead :: addr :: len :: rest) = none ↔
    lead ≠ 0xD2 ∨ 40 < len.toNat ∨ rest.length ≠ len.toNat + 2 ∨
      rest.drop len.toNat ≠ crcBytes (addr :: len :: rest.take len.toNat) := by
  unfold busFrameFields
  simp only [ite_eq_right_iff, reduceCtorEq, imp_false]
  rw [← Nat.not_le]; tauto

theorem crcBytes_length (bytes : List Byte) : (crcBytes bytes).length = 2 := rfl

/-- A frame the part sends is one that its receiver takes apart again. -/
theorem busFrameFields_busFrame {kind cabinet : Nat} {body : List Byte} (hk : kind < 8) (hc : cabinet < 32)
    (hb : body.length ≤ 40) : busFrameFields (busFrame kind cabinet body) = some (kind, cabinet, body) := by
  have addr : (BitVec.ofNat 8 (kind * 32 + cabinet)).toNat = kind * 32 + cabinet := by
    rw [BitVec.toNat_ofNat]; omega
  have len : (BitVec.ofNat 8 body.length).toNat = body.length := by rw [BitVec.toNat_ofNat]; omega
  unfold busFrame busFrameFields
  simp only [List.cons_append, len, addr, hb, List.length_append, crcBytes_length, List.drop_left, List.take_left, and_self, if_true]
  simp only [Option.some.injEq, Prod.mk.injEq, and_true]
  omega

/-! ## What a discarded frame does -/

/-- R33: in a survey slot a discarded frame makes the outcome corrupt. -/
theorem discardFrame_slot {k : SurveyKind} {c : Nat} {b : Bool} (line : s.bus.line = .surveySlot k c b) :
    discardFrame s = { s with bus := { s.bus with rx := [], line := .surveySlot k c true } } := by
  unfold discardFrame; dsimp only
  rw [closeReceiver_line, line]; rfl

theorem receiveBytes_slot {k : SurveyKind} {c : Nat} {b : Bool} (line : s.bus.line = .surveySlot k c b) (bytes : List Byte) :
    receiveBytes bytes s = { s with bus := { s.bus with
      rx := busIncomplete bytes, line := .surveySlot k c (b || decide (busComplete bytes ≠ [])) } } := by
  unfold receiveBytes; dsimp only
  by_cases none : busComplete bytes = []
  · rw [if_pos none]; simp [none, ← line]
  · rw [if_neg none, discardFrame_slot line]; simp [none]

theorem receiveBytes_unslotted (h : ∀ k c b, s.bus.line ≠ .surveySlot k c b) (bytes : List Byte) :
    receiveBytes bytes s = { s with bus := { s.bus with rx := busIncomplete bytes } } := by
  unfold receiveBytes; rw [discardFrame_unslotted h]; dsimp only
  split <;> rfl

/-! ## Which frames the line takes -/

theorem statusTaken_slot {k : SurveyKind} {c : Nat} {b : Bool} (line : s.bus.line = .surveySlot k c b) (cabinet : Nat)
    (body : List Byte) : s.statusTaken cabinet body = true ↔
      cabinet = c ∧ ∃ record, s.cabinet? c = some record ∧ statusValid record.outlets.length body = true := by
  unfold State.statusTaken; rw [line]; dsimp only
  cases s.cabinet? c <;> simp

theorem statusTaken_unslotted (h : ∀ k c b, s.bus.line ≠ .surveySlot k c b) (cabinet : Nat) (body : List Byte) :
    s.statusTaken cabinet body = false := by
  unfold State.statusTaken; split
  · next line => exact absurd line (h _ _ _)
  · rfl

theorem ackTaken_shut (h : ∀ tx, s.bus.line ≠ .setpointAck tx) (cabinet : Nat) (body : List Byte) :
    s.ackTaken cabinet body = false := by
  unfold State.ackTaken; split
  · next line => exact absurd line (h _)
  · rfl

theorem passTaken_shut {cabinet : Nat} (h : ∀ f, s.bus.line = .passAck f → f.cabinet ≠ some cabinet) : s.passTaken cabinet = false := by
  unfold State.passTaken; split
  · next line => exact decide_eq_false (h _ line)
  · rfl

theorem reportTaken_shut {cabinet : Nat} (h : s.bus.line ≠ .enrollReply cabinet) (body : List Byte) :
    s.reportTaken cabinet body = false := by
  unfold State.reportTaken; split
  · next k line =>
    have : cabinet ≠ k := fun e => h (e ▸ line)
    simp [this]
  · rfl

theorem frameTaken_none {bytes : List Byte} (h : busFrameFields bytes = none) : s.frameTaken bytes = false := by
  unfold State.frameTaken; rw [h]

/-- R27: a frame is taken by what its kind asks for. -/
theorem frameTaken_fields {bytes body : List Byte} {kind cabinet : Nat} (h : busFrameFields bytes = some (kind, cabinet, body)) :
    s.frameTaken bytes = true ↔ (kind = 1 ∧ s.statusTaken cabinet body = true) ∨ (kind = 3 ∧ s.ackTaken cabinet body = true) ∨
      (kind = 5 ∧ s.reportTaken cabinet body = true) ∨ (kind = 6 ∧ s.passTaken cabinet = true) := by
  unfold State.frameTaken; rw [h]; dsimp only
  split <;> simp_all

/-! ## The meter's framer (R140, R141) -/

theorem exec_meterFrameGapAbandon (live : s.Live) (bytes : List Byte) : exec (.meterFrameGapAbandon bytes) s = .next (meterLeft [] s) :=
  whileRunning_live _ live
theorem exec_meterFrameCrcFail (live : s.Live) (bytes : List Byte) :
    exec (.meterFrameCrcFail bytes) s = .next (meterLeft (meterHunt bytes.tail) s) := whileRunning_live _ live
theorem exec_meterSampleInvalidFlag (live : s.Live) : exec .meterSampleInvalidFlag s = .next (meterLeft [] s) := whileRunning_live _ live
theorem exec_meterSampleDuplicate (live : s.Live) : exec .meterSampleDuplicate s = .next (meterLeft [] s) := whileRunning_live _ live
theorem exec_meterSampleAccepted (live : s.Live) (sample : MeterSample) : exec (.meterSampleAccepted sample) s =
    .next (if s.meter.lastSequence = some sample.sequence then s else acceptSample sample s) :=
  whileRunning_live (fun s => if s.meter.lastSequence = some sample.sequence then s else acceptSample sample s) live

/-- R140: bytes before a lead byte are dropped. -/
theorem meterHunt_noise {noise : List Byte} (h : ∀ b ∈ noise, b ≠ 0xB4) (rest : List Byte) :
    meterHunt (noise ++ rest) = meterHunt rest := by
  induction noise with
  | nil => rfl
  | cons b noise ih =>
    rw [List.cons_append, meterHunt, if_neg (h b (by simp)), ih fun c hc => h c (by simp [hc])]

theorem meterHunt_none {noise : List Byte} (h : ∀ b ∈ noise, b ≠ 0xB4) : meterHunt noise = [] := by
  rw [← List.append_nil noise, meterHunt_noise h]; rfl

/-- R140: a frame begun by a lead byte and still incomplete is kept. -/
theorem meterHunt_begun {after : List Byte} (h : after.length < 9) : meterHunt (0xB4 :: after) = 0xB4 :: after := by
  rw [meterHunt, if_pos rfl, if_pos h]

/-! ## The statement -/

/-- R27: bytes that no slot or window takes, in an open slot. -/
theorem exec_discarded_slot {k : SurveyKind} {c : Nat} {b : Bool} (live : s.Live) (line : s.bus.line = .surveySlot k c b)
    {bytes : List Byte} (untaken : s.frameTaken bytes = false) : exec (.berthBusFrameDiscarded bytes) s =
      .next { s with bus := { s.bus with
        rx := busIncomplete bytes, line := .surveySlot k c (b || decide (busComplete bytes ≠ [])) } } := by
  rw [exec_berthBusFrameDiscarded live, untaken, if_neg Bool.false_ne_true, receiveBytes_slot line]

/-- R33, R36: the slot takes nothing but a valid STATUS of its own cabinet. -/
theorem frameTaken_slot_false {k : SurveyKind} {c kind cabinet : Nat} {b : Bool} {bytes body : List Byte}
    (line : s.bus.line = .surveySlot k c b) (fields : busFrameFields bytes = some (kind, cabinet, body))
    (unfit : kind ≠ 1 ∨ cabinet ≠ c ∨ ∀ record, s.cabinet? c = some record → statusValid record.outlets.length body = false) :
    s.frameTaken bytes = false := by
  rw [← Bool.not_eq_true, frameTaken_fields fields, statusTaken_slot line, ackTaken_shut (by simp [line]),
    passTaken_shut (by simp [line]), reportTaken_shut (by simp [line])]
  rintro (⟨status, here, record, found, valid⟩ | h | h | h)
  · obtain other | away | invalid := unfit
    · exact other status
    · exact away here
    · simp [invalid record found] at valid
  · exact absurd h.2 Bool.false_ne_true
  · exact absurd h.2 Bool.false_ne_true
  · exact absurd h.2 Bool.false_ne_true

/-- Settles O48: the receivers' hunts, then the frames that an open slot, and any other holder of the line, discard. -/
theorem discardedFramesEndNothing : Obligations.DiscardedFramesEndNothing := by
  unfold Obligations.DiscardedFramesEndNothing
  intro unfit
  refine ⟨⟨fun bytes noise => ?_, fun noise rest h few => ?_, fun noise addr len rest h => ?_⟩,
    ⟨busFrameFields_none_iff, fun kind cabinet body hk hc hb => busFrameFields_busFrame hk hc hb,
      fun s bytes k c b live line h => ?_, fun s cabinet body k c b f live line h => ?_, fun s cabinet body bytes live line => ?_⟩,
    fun s bytes live => ?_, fun s lead before after live h few => ?_, fun s sample live known => ?_⟩
  · have hunt := busHunt_of_short (bytes := bytes) (by simp [fromLead_noise noise])
    rwa [fromLead_noise noise] at hunt
  · have hunt := busHunt_of_short (bytes := noise ++ 0xD2 :: rest) (by rw [fromLead_lead h]; simp; omega)
    rwa [fromLead_lead h] at hunt
  · exact ⟨fun few => busHunt_incomplete (fromLead_lead h _) few, fun enough => busHunt_complete (fromLead_lead h _) enough⟩
  · refine exec_discarded_slot live line ?_
    obtain none | ⟨kind, cabinet, body, fields, bad⟩ := h
    · exact frameTaken_none none
    · exact frameTaken_slot_false line fields bad
  · have discarded := discardFrame_slot line
    obtain ⟨rfl, bad⟩ | rfl | rfl | rfl := h
    · have untaken : ¬ s.statusTaken cabinet body = true := by
        rw [statusTaken_slot line]
        rintro ⟨here, record, found, valid⟩
        exact bad.elim (fun away => away here) fun invalid => by simp [invalid record found] at valid
      rw [exec_status live, if_neg untaken, discarded]
    · rw [exec_ack live, ackTaken_shut (by simp [line]), if_neg Bool.false_ne_true, discarded]
    · rw [exec_passAnswer live, passTaken_shut (by simp [line]), if_neg Bool.false_ne_true, discarded]
    · rw [exec_enrollReport live]
      unfold acceptReport
      rw [reportTaken_shut (by simp [line]), if_neg Bool.false_ne_true, discarded]
  · intro heard
    have discarded : discardFrame s = { s with bus := { s.bus with rx := [] } } := discardFrame_unslotted line
    have received := receiveBytes_unslotted line bytes
    refine ⟨fun untaken => ?_, ?_, ?_, fun shut => ?_, fun shut => ?_, fun shut => ?_⟩
    · have not_taken : s.frameTaken bytes = false := by
        obtain none | ⟨kind, source, held, fields, no_ack, no_report, no_pass⟩ := untaken
        · exact frameTaken_none none
        · rw [← Bool.not_eq_true, frameTaken_fields fields, statusTaken_unslotted line]
          rintro (h | ⟨kind3, taken⟩ | ⟨kind5, taken⟩ | ⟨kind6, taken⟩)
          · exact absurd h.2 Bool.false_ne_true
          · simp [ackTaken_shut (no_ack kind3)] at taken
          · simp [reportTaken_shut (no_report kind5)] at taken
          · simp [passTaken_shut (no_pass kind6)] at taken
      rw [exec_berthBusFrameDiscarded live, not_taken, if_neg Bool.false_ne_true, received]
    · rw [exec_berthBusFrameDiscarded live]
      cases s.frameTaken bytes
      · exact ⟨busIncomplete bytes, by rw [if_neg Bool.false_ne_true, received]⟩
      · exact ⟨s.bus.rx, rfl⟩
    · rw [exec_status live, statusTaken_unslotted line, if_neg Bool.false_ne_true, discarded]
    · rw [exec_ack live, ackTaken_shut shut, if_neg Bool.false_ne_true, discarded]
    · rw [exec_passAnswer live, passTaken_shut shut, if_neg Bool.false_ne_true, discarded]
    · rw [exec_enrollReport live]
      unfold acceptReport
      rw [reportTaken_shut shut, if_neg Bool.false_ne_true, discarded]
  · refine ⟨exec_meterFrameGapAbandon live bytes, exec_meterSampleInvalidFlag live, exec_meterSampleDuplicate live, fun noise => ?_⟩
    rw [exec_meterFrameCrcFail live, meterHunt_none noise]; rfl
  · rw [exec_meterFrameCrcFail live, List.tail_cons, meterHunt_noise h, meterHunt_begun few]; rfl
  · rw [exec_meterSampleAccepted live, if_pos known]

end Sys2Proof.Machine.BerthBus
end

