-- ==== Sys2Proof/Proofs/SessionRecords.lean ====
section
/-! Proofs/SessionRecords.lean: what the session operations of a berth (reports, detectors, latches) make of a berth record:
an equation for a latch, and the fields that none of them writes. -/

namespace Sys2Proof.Machine.BerthBus

variable {s t u : State}

/-! ## A latch (R155) -/

/-- R10, R155: the record of a berth whose session takes a fault. -/
def faultedRecord (b : Berth) : Berth :=
  match b.session with
  | .serving => { b with
      session := .faulted, grant := 0, request := none, done := false, doneByComplete := false, projectedShort := false
      setpoint := .idle }
  | .empty | .connected => { b with session := .faulted, setpoint := .idle }
  | _ => b

theorem faultedRecord_unwatched {b : Berth} (h : b.session ≠ .serving ∧ b.session ≠ .empty ∧ b.session ≠ .connected) :
    faultedRecord b = b := by
  obtain ⟨h1, h2, h3⟩ := h
  unfold faultedRecord; split
  · next e => exact absurd e h1
  · next e => exact absurd e h2
  · next e => exact absurd e h3
  · rfl

theorem faultedRecord_session {b : Berth} (h : b.session = .empty ∨ b.session = .connected ∨ b.session = .serving) :
    (faultedRecord b).session = .faulted := by
  unfold faultedRecord
  obtain h | h | h := h <;> rw [h]

/-- The fields of a record that a fault of its session leaves alone. -/
theorem faultedRecord_fields (b : Berth) : faultedRecord b = { b with
    session := (faultedRecord b).session, grant := (faultedRecord b).grant, request := (faultedRecord b).request
    done := (faultedRecord b).done, doneByComplete := (faultedRecord b).doneByComplete
    projectedShort := (faultedRecord b).projectedShort, setpoint := (faultedRecord b).setpoint } := by
  unfold faultedRecord; split <;> rfl

theorem lt_length_of_session {x : Nat} (h : (s.berth x).session ≠ .unconfigured) : x < s.berths.length := by
  by_contra hx
  rw [berth_out x (Nat.le_of_not_lt hx)] at h
  exact h rfl

theorem berth_faultSession (x y : Nat) (s : State) :
    (faultSession x s).berth y = if y = x then faultedRecord (s.berth x) else s.berth y := by
  have withdrawn : (s.berth x).session = .empty ∨ (s.berth x).session = .connected →
      (zeroTrim x (withdrawWork x (s.editBerth x fun b => { b with session := .faulted }))).berth y =
        if y = x then { s.berth x with session := .faulted, setpoint := .idle } else s.berth y := fun h => by
    have hx : x < s.berths.length := lt_length_of_session (by obtain h | h := h <;> rw [h] <;> simp)
    rw [berth_congr (zeroTrim_berths x _), berth_withdrawWork]
    simp only [editBerth_length, hx, and_true, berth_editBerth]
    split <;> rfl
  unfold faultSession; split
  · next h =>
    have hx : x < s.berths.length := lt_length_of_session (by rw [h]; simp)
    rw [berth_leaveServing]; simp only [hx, and_true, faultedRecord, h]
  · next h => rw [withdrawn (.inl h)]; simp only [faultedRecord, h]
  · next h => rw [withdrawn (.inr h)]; simp only [faultedRecord, h]
  · next h1 h2 h3 =>
    rw [faultedRecord_unwatched ⟨h1, h2, h3⟩]; split
    · next e => rw [e]
    · rfl

/-- R155: the flag at its own berth, the fault at the berth that carries the session. -/
theorem berth_latchFault (x y : Nat) (flag : FaultFlag) (s : State) : (latchFault x flag s).berth y =
    if s.carrierOf x = some y then faultedRecord ((s.editBerth x fun b => { b with flags := b.flags.latch flag }).berth y)
    else (s.editBerth x fun b => { b with flags := b.flags.latch flag }).berth y := by
  unfold latchFault; dsimp only
  rw [berth_congr (notify_same _ _).2.2.2.2.1]
  cases s.carrierOf x with
  | none => simp
  | some l =>
    dsimp only
    rw [berth_faultSession]
    by_cases h : y = l
    · simp [h]
    · rw [if_neg h, if_neg (by simpa using Ne.symm h)]

/-! ## The fields of the map and of the last report -/

/-- A record that differs at most in what a session, a detector, a latch or an association writes. -/
def SameBerth (b c : Berth) : Prop :=
  c = { b with
    session := c.session, grant := c.grant, request := c.request, done := c.done, doneByComplete := c.doneByComplete
    projectedShort := c.projectedShort, setpoint := c.setpoint, flags := c.flags, counters := c.counters, bus := c.bus }

/-- Every berth record stands but for such fields. -/
def SameBerths (s t : State) : Prop := ∀ y, SameBerth (s.berth y) (t.berth y)

theorem SameBerth.trans {a b c : Berth} (h : SameBerth a b) (h' : SameBerth b c) : SameBerth a c := by
  unfold SameBerth at *; rw [h', h]

theorem SameBerths.refl (s : State) : SameBerths s s := fun _ => rfl

theorem SameBerths.trans (h : SameBerths s t) (h' : SameBerths t u) : SameBerths s u := fun y => (h y).trans (h' y)

theorem SameBerths.of_berths (h : t.berths = s.berths) : SameBerths s t := fun y => by rw [berth_congr h]; rfl

theorem SameBerths.of_path (h : PathStep s t) : SameBerths s t := fun y => by unfold SameBerth; rw [h.berth y]

theorem SameBerths.edit (x : Nat) (f : Berth → Berth) (s : State) (h : ∀ b, SameBerth b (f b)) : SameBerths s (s.editBerth x f) := fun y => by
  rw [berth_editBerth]; split
  · next e => rw [e.1]; exact h _
  · rfl

theorem SameBerths.foldl {α : Type} (f : State → α → State) (h : ∀ s a, SameBerths s (f s a)) (l : List α) (s : State) :
    SameBerths s (l.foldl f s) := by
  induction l generalizing s with
  | nil => exact .refl s
  | cons a l ih => exact (h s a).trans (ih _)

theorem notify_same_berths (b : NoticeBody) (s : State) : SameBerths s (notify b s) := .of_berths (notify_same b s).2.2.2.2.1

theorem dissociate_same_berths (x : Nat) (s : State) : SameBerths s (dissociate x s) := fun y => by
  rw [berth_dissociate]; split
  · next e => rw [e]; rfl
  · rfl

theorem associate_same_berths (b x : Nat) (s : State) : SameBerths s (associate b x s) := fun y => by
  rw [berth_associate]; split
  · next e => rw [e.1]; rfl
  · rfl

theorem unplug_same_berths (x : Nat) (s : State) : SameBerths s (unplug x s) := fun y => by
  rw [berth_unplug]; split
  · next e => rw [e]; rfl
  · rfl

theorem resolveTag_same_berths (x : Nat) (s : State) : SameBerths s (resolveTag x s) := fun y => by
  unfold SameBerth; rw [berth_resolveTag]

theorem reassociate_same_berths (x : Nat) (s : State) : SameBerths s (reassociate x s) := fun y => by
  unfold SameBerth; rw [berth_reassociate]

theorem leaveServing_same_berths (x : Nat) (dest : Session) (s : State) : SameBerths s (leaveServing x dest s) := fun y => by
  rw [berth_leaveServing]; split
  · next e => rw [e.1]; rfl
  · rfl

theorem editCounters_same_berths (x : Nat) (f : FaultCounters → FaultCounters) (s : State) : SameBerths s (editCounters x f s) :=
  .edit x (fun b => { b with counters := f b.counters }) s fun _ => rfl

theorem latchFault_same_berths (x : Nat) (flag : FaultFlag) (s : State) : SameBerths s (latchFault x flag s) := fun y => by
  have flagged : SameBerth (s.berth y) ((s.editBerth x fun b => { b with flags := b.flags.latch flag }).berth y) :=
    SameBerths.edit x (fun b => { b with flags := b.flags.latch flag }) s (fun _ => rfl) y
  rw [berth_latchFault]; split
  · refine flagged.trans ?_
    unfold SameBerth; rw [faultedRecord_fields]
  · exact flagged

theorem detection_same_berths (x : Nat) (flag : FaultFlag) (s : State) : SameBerths s (detection x flag s) := by
  unfold detection; split
  · exact latchFault_same_berths x flag s
  · exact .refl s

end Sys2Proof.Machine.BerthBus
end

