-- ==== Sys2Proof/Proofs/ExpiredSlots.lean ====
section
/-! Proofs/ExpiredSlots.lean: a slot that ends at its timer, and the COMM_MISS latches it makes, one berth after another
(R27, R33 to R35, R154). -/

namespace Sys2Proof.Machine.BerthBus

variable {s t u : State}

/-! ## The end of a slot (R33 to R35) -/

/-- R35: the kind a CLOSE names. -/
def nextKindOf (quiet : Nat) (recheck : Bool) : SurveyKind := if 4 ≤ quiet ∨ recheck = true then .full else .quiet

theorem nextSlot_closes (k : SurveyKind) {c : Nat} (h : s.bus.cabinets.length ≤ c) : nextSlot k c s = { s with bus := { s.bus with
    line := .surveyClose (nextKindOf (quietAfter k s.bus.quietCount) s.bus.recheck), rx := []
    busTx := busFrame 4 31 [BitVec.ofNat 8 (nextKindOf (quietAfter k s.bus.quietCount) s.bus.recheck).code]
    quietCount := quietAfter k s.bus.quietCount } } := by
  unfold nextSlot; exact if_neg (Nat.not_lt.mpr h)

theorem code_byte (k : SurveyKind) : BitVec.ofNat 8 k.code = if k = .full then 0 else 1 := by cases k <;> rfl

theorem quietAfter_eq (k : SurveyKind) (n : Nat) : quietAfter k n = if k = .full then 0 else n + 1 := by cases k <;> rfl

/-- R33, R35: what the end of a slot leaves of the bus master, by the figures it finds. -/
theorem nextSlot_leaves (k : SurveyKind) (c : Nat) (s : State) :
    let quiet := if k = .full then 0 else s.bus.quietCount + 1
    let next := nextKindOf quiet s.bus.recheck
    (nextSlot k c s).bus.rx = [] ∧ (nextSlot k c s).bus.recheck = s.bus.recheck ∧
    (nextSlot k c s).bus.missCounts = s.bus.missCounts ∧ (nextSlot k c s).berths = s.berths ∧ (nextSlot k c s).link = s.link ∧
    (c < s.bus.cabinets.length → (nextSlot k c s).bus.line = .surveySlot k (c + 1) false ∧
      (nextSlot k c s).bus.quietCount = s.bus.quietCount) ∧
    (s.bus.cabinets.length ≤ c → (nextSlot k c s).bus.line = .surveyClose next ∧ (nextSlot k c s).bus.quietCount = quiet ∧
      (nextSlot k c s).bus.busTx = busFrame 4 31 [if next = .full then 0 else 1]) := by
  intro quiet next
  have only := nextSlot_only k c s
  refine ⟨by rw [only], by rw [only], by rw [only], by rw [only], by rw [only], fun room => ?_, fun last => ?_⟩
  · rw [nextSlot_opens k room]; exact ⟨rfl, rfl⟩
  · rw [nextSlot_closes k last, quietAfter_eq, code_byte]; exact ⟨rfl, rfl, rfl⟩

/-! ## Carriers (R11) -/

/-- The carrier of a berth is the berth itself, or the LEADER it is paired with. -/
theorem carrierOf_some {z x : Nat} (h : s.carrierOf z = some x) : z = x ∨
    ((s.berth z).coupling = .follower ∧ (s.berth z).partner = some x ∧ (s.berth x).configured = true ∧
      (s.berth x).coupling = .leader ∧ (s.berth x).partner = some z) := by
  unfold State.carrierOf at h; split at h
  · next follower =>
    unfold State.leaderOf at h; split at h
    · cases h
    · next l partner =>
      split at h
      · next pair =>
        cases h; obtain ⟨_, configured, leader, back⟩ := pair
        exact .inr ⟨follower, partner, configured, leader, back⟩
      · cases h
  · exact .inl (by simpa using h)

theorem carrierOf_self {x : Nat} (h : (s.berth x).coupling ≠ .follower) : s.carrierOf x = some x := by
  unfold State.carrierOf; exact if_neg h

theorem carrierOf_paired {x p : Nat} (h : s.PairedWith x p) (configured : (s.berth x).configured = true) :
    s.carrierOf p = some x := by
  obtain ⟨leader, partner, _, follower, back⟩ := h
  unfold State.carrierOf State.leaderOf
  rw [if_pos follower, back]; exact if_pos ⟨follower, configured, leader, partner⟩

theorem SameBerths.carrierOf (h : SameBerths s t) (x : Nat) : t.carrierOf x = s.carrierOf x := by
  unfold State.carrierOf
  rw [leaderOf_congr (s := s) (t := t) (fun y => by rw [h y]; exact ⟨rfl, rfl, rfl⟩), h x]

/-! ## Latches, one berth after another (R154) -/

/-- R154: a detection of COMM_MISS has an effect on this record. -/
def Detected (b : Berth) : Prop := b.session.watched = true ∧ b.flags.commMiss = false

theorem detection_hit {x : Nat} (h : Detected (s.berth x)) : detection x .commMiss s = latchFault x .commMiss s := by
  unfold detection; exact if_pos h

theorem detection_void {x : Nat} (h : ¬ Detected (s.berth x)) : detection x .commMiss s = s := by
  unfold detection; exact if_neg h

/-- A latch elsewhere leaves a record as it was, where that record is not of the carrier. -/
theorem berth_detection_other {x z : Nat} (apart : z ≠ x) (h : s.carrierOf z = some x → ¬ Detected (s.berth z)) :
    (detection z .commMiss s).berth x = s.berth x := by
  by_cases hit : Detected (s.berth z)
  · rw [detection_hit hit, berth_latchFault, if_neg (fun carrier => h carrier hit), berth_editBerth_ne _ _ apart.symm]
  · rw [detection_void hit]

theorem flags_detection_other {x z : Nat} (apart : z ≠ x) : ((detection z .commMiss s).berth x).flags = (s.berth x).flags := by
  by_cases hit : Detected (s.berth z)
  · rw [detection_hit hit, berth_latchFault, berth_editBerth_ne _ _ apart.symm]
    split
    · rw [faultedRecord_fields]
    · rfl
  · rw [detection_void hit]

/-- A FAULTED berth stays so, and its flags stand. -/
theorem detection_faulted (z : Nat) {x : Nat} (h : (s.berth x).session = .faulted) :
    ((detection z .commMiss s).berth x).session = .faulted ∧ ((detection z .commMiss s).berth x).flags = (s.berth x).flags := by
  by_cases apart : z = x
  · subst apart
    rw [detection_void (fun hit => by simp [Detected, h, Session.watched] at hit)]; exact ⟨h, rfl⟩
  · refine ⟨?_, flags_detection_other apart⟩
    by_cases hit : Detected (s.berth z)
    · rw [detection_hit hit, berth_latchFault, berth_editBerth_ne _ _ (Ne.symm apart), faultedRecord_unwatched (by simp [h])]
      simp [h]
    · rw [detection_void hit]; exact h

/-- The record of a berth that latches itself. -/
theorem berth_detection_self {x : Nat} (h : Detected (s.berth x)) : ((detection x .commMiss s).berth x).flags.commMiss = true ∧
    ((s.berth x).coupling ≠ .follower → (s.berth x).session ≠ .follower →
      ((detection x .commMiss s).berth x).session = .faulted) := by
  have hx : x < s.berths.length := lt_length_of_session (by intro e; simp [Detected, e, Session.watched] at h)
  rw [detection_hit h, berth_latchFault, berth_editBerth_self _ _ hx]
  constructor
  · split
    · rw [faultedRecord_fields]; rfl
    · rfl
  · intro own session
    rw [if_pos (carrierOf_self own)]
    refine faultedRecord_session ?_
    have watched := h.1
    revert watched session; cases (s.berth x).session <;> simp [Session.watched]

/-- The detections of these berths, one after another. -/
def latchAll (l : List Nat) (s : State) : State := l.foldl (fun s x => detection x .commMiss s) s

theorem latchAll_append (l m : List Nat) (s : State) : latchAll (l ++ m) s = latchAll m (latchAll l s) := List.foldl_append

theorem latchAll_cons (z : Nat) (l : List Nat) (s : State) : latchAll (z :: l) s = latchAll l (detection z .commMiss s) := rfl

theorem latchAll_same_berths (l : List Nat) (s : State) : SameBerths s (latchAll l s) :=
  .foldl _ (fun s x => detection_same_berths x .commMiss s) l s

theorem latchAll_flags {x : Nat} {l : List Nat} (h : x ∉ l) (s : State) : ((latchAll l s).berth x).flags = (s.berth x).flags := by
  induction l generalizing s with
  | nil => rfl
  | cons z l ih =>
    rw [latchAll_cons, ih (fun m => h (List.mem_cons_of_mem _ m)), flags_detection_other (fun e => h (by simp [e]))]

theorem latchAll_faulted {x : Nat} (l : List Nat) (h : (s.berth x).session = .faulted) :
    ((latchAll l s).berth x).session = .faulted ∧ ((latchAll l s).berth x).flags = (s.berth x).flags := by
  induction l generalizing s with
  | nil => exact ⟨h, rfl⟩
  | cons z l ih =>
    obtain ⟨session, flags⟩ := detection_faulted z h
    rw [latchAll_cons, (ih session).2, flags]; exact ⟨(ih session).1, rfl⟩

/-- A record is as it was while no berth whose carrier it is has been detected. -/
theorem latchAll_keeps {x : Nat} {l : List Nat} (nodup : l.Nodup) (out : x ∉ l)
    (h : ∀ z ∈ l, s.carrierOf z = some x → ¬ Detected (s.berth z)) : (latchAll l s).berth x = s.berth x := by
  induction l generalizing s with
  | nil => rfl
  | cons z l ih =>
    have apart : z ≠ x := fun e => out (by simp [e])
    have same := detection_same_berths z .commMiss s
    rw [latchAll_cons, ih (List.nodup_cons.mp nodup).2 (fun m => out (List.mem_cons_of_mem _ m)), berth_detection_other apart (h z (by simp))]
    intro w hw carrier
    rw [same.carrierOf] at carrier
    have kept : (detection z .commMiss s).berth w = s.berth w := by
      refine berth_detection_other (fun e => (List.nodup_cons.mp nodup).1 (e ▸ hw)) fun by_z => ?_
      obtain e | ⟨follower, _⟩ := carrierOf_some carrier
      · exact absurd hw (e ▸ fun m => out (List.mem_cons_of_mem _ m))
      · obtain e | ⟨_, _, _, leader, _⟩ := carrierOf_some by_z
        · exact absurd (e ▸ hw) (List.nodup_cons.mp nodup).1
        · rw [follower] at leader; cases leader
    rw [kept]; exact h w (List.mem_cons_of_mem _ hw) carrier

/-- Nobody but itself is the carrier of a berth that is no LEADER. -/
theorem latchAll_keeps_own {x : Nat} {l : List Nat} (nodup : l.Nodup) (out : x ∉ l) (own : (s.berth x).coupling ≠ .leader) :
    (latchAll l s).berth x = s.berth x := by
  refine latchAll_keeps nodup out fun z hz carrier => ?_
  obtain rfl | ⟨_, _, _, leader, _⟩ := carrierOf_some carrier
  · exact absurd hz out
  · exact absurd leader own

/-- R154, Log 18: what the detections of a cabinet's berths, taken in ascending number, make of a watched berth. -/
theorem latchAll_detected {x : Nat} {l : List Nat} (sorted : l.Pairwise (· < ·)) (hx : x ∈ l) (detected : Detected (s.berth x))
    (first : ∀ z ∈ l, z < x → s.carrierOf z = some x → ¬ Detected (s.berth z)) :
    ((latchAll l s).berth x).flags.commMiss = true ∧
      ((s.berth x).coupling ≠ .follower → (s.berth x).session ≠ .follower → ((latchAll l s).berth x).session = .faulted) := by
  obtain ⟨before, behind, rfl⟩ := List.append_of_mem hx
  have parts := List.pairwise_append.mp sorted
  have lower : ∀ z ∈ before, z < x := fun z hz => parts.2.2 z hz x (by simp)
  have kept : (latchAll before s).berth x = s.berth x :=
    latchAll_keeps (parts.1.imp Nat.ne_of_lt) (fun m => absurd (lower x m) (Nat.lt_irrefl x))
      fun z hz => first z (by simp [hz]) (lower z hz)
  have higher : x ∉ behind := fun m => absurd ((List.pairwise_cons.mp parts.2.1).1 x m) (Nat.lt_irrefl x)
  rw [latchAll_append, latchAll_cons, latchAll_flags higher]
  have own := berth_detection_self (s := latchAll before s) (x := x) (by rw [kept]; exact detected)
  rw [kept] at own
  exact ⟨own.1, fun coupling session => (latchAll_faulted _ (own.2 coupling session)).1⟩

/-- R154, Log 18: a watched LEADER whose FOLLOWER of a lower number latches before it is FAULTED by that and takes no flag. -/
theorem latchAll_led {x p : Nat} {l : List Nat} (sorted : l.Pairwise (· < ·)) (hp : p ∈ l) (lower : p < x)
    (pair : s.PairedWith x p) (configured : (s.berth x).configured = true) (detected : Detected (s.berth p))
    (session : (s.berth x).session = .empty ∨ (s.berth x).session = .connected ∨ (s.berth x).session = .serving) :
    ((latchAll l s).berth x).session = .faulted ∧ ((latchAll l s).berth x).flags = (s.berth x).flags := by
  obtain ⟨leader, partner, _, follower, _⟩ := pair
  obtain ⟨before, behind, rfl⟩ := List.append_of_mem hp
  have parts := List.pairwise_append.mp sorted
  have below : ∀ z ∈ before, z < p := fun z hz => parts.2.2 z hz p (by simp)
  have nodup : before.Nodup := parts.1.imp Nat.ne_of_lt
  have out : p ∉ before := fun m => absurd (below p m) (Nat.lt_irrefl p)
  have kept_p : (latchAll before s).berth p = s.berth p := latchAll_keeps_own nodup out (by rw [follower]; simp)
  have kept_x : (latchAll before s).berth x = s.berth x := by
    refine latchAll_keeps nodup (fun m => absurd ((below x m).trans lower) (Nat.lt_irrefl x)) fun z hz carrier => ?_
    obtain rfl | ⟨_, _, _, _, back⟩ := carrierOf_some carrier
    · exact absurd ((below z hz).trans lower) (Nat.lt_irrefl z)
    · rw [partner] at back; cases back; exact absurd hz out
  have carrier : (latchAll before s).carrierOf p = some x := by
    rw [(latchAll_same_berths before s).carrierOf]; exact carrierOf_paired ⟨leader, partner, ‹_›, follower, ‹_›⟩ configured
  have hit : Detected ((latchAll before s).berth p) := by rw [kept_p]; exact detected
  have faulted : (detection p .commMiss (latchAll before s)).berth x = faultedRecord (s.berth x) := by
    rw [detection_hit hit, berth_latchFault, if_pos carrier, berth_editBerth_ne _ _ (Nat.ne_of_gt lower), kept_x]
  have stays := latchAll_faulted (s := detection p .commMiss (latchAll before s)) (x := x) behind
    (by rw [faulted]; exact faultedRecord_session session)
  rw [latchAll_append, latchAll_cons, stays.2, faulted]
  exact ⟨stays.1, by rw [faultedRecord_fields]⟩

/-! ## The outcome of a slot (R34, R154) -/

theorem mem_cabinetBerths (c x : Nat) : x ∈ s.cabinetBerths c ↔
    x < 36 ∧ (s.berth x).configured = true ∧ (s.berth x).cabinet = some c := by
  simp [State.cabinetBerths, berthNumbers]

theorem cabinetBerths_sorted (c : Nat) (s : State) : (s.cabinetBerths c).Pairwise (· < ·) :=
  List.Pairwise.filter _ List.pairwise_lt_range

theorem SameBerths.cabinetBerths (h : SameBerths s t) (c : Nat) : t.cabinetBerths c = s.cabinetBerths c := by
  unfold State.cabinetBerths; congr 1; funext x; rw [h x]

/-- Records changed one after another by the same change, each at most once. -/
theorem berth_foldl_editBerth (f : Berth → Berth) {l : List Nat} (nodup : l.Nodup) (s : State) (y : Nat) :
    (l.foldl (fun u x => u.editBerth x f) s).berth y = if y ∈ l ∧ y < s.berths.length then f (s.berth y) else s.berth y := by
  induction l generalizing s with
  | nil => simp
  | cons x l ih =>
    obtain ⟨fresh, nodup⟩ := List.nodup_cons.mp nodup
    rw [List.foldl_cons, ih nodup, editBerth_length, berth_editBerth]
    by_cases here : y = x
    · subst here; simp [fresh]
    · simp [here]

/-- R154: the miss count reaches the cabinet's berths. -/
def tally (c misses : Nat) (s : State) : State :=
  (s.cabinetBerths c).foldl (fun u x => u.editBerth x fun b => { b with counters := { b.counters with commMiss := misses } }) s

theorem tally_same_berths (c misses : Nat) (s : State) : SameBerths s (tally c misses s) :=
  .foldl _ (fun u x => .edit x (fun b => { b with counters := { b.counters with commMiss := misses } }) u fun _ => rfl) _ s

theorem tally_step (c misses : Nat) (s : State) : SessionStep s (tally c misses s) :=
  .foldl _ _ (fun x _ u => editCounters_step x (fun k => { k with commMiss := misses }) u) s

theorem berth_tally (c misses : Nat) (length : s.berths.length = 36) (y : Nat) : (tally c misses s).berth y =
    if y ∈ s.cabinetBerths c then { s.berth y with counters := { (s.berth y).counters with commMiss := misses } } else s.berth y := by
  unfold tally
  rw [berth_foldl_editBerth _ ((cabinetBerths_sorted c s).imp Nat.ne_of_lt), length]
  congr 1
  exact propext ⟨fun h => h.1, fun h => ⟨h, ((mem_cabinetBerths c y).mp h).1⟩⟩

theorem tally_path (c misses : Nat) (s : State) : (tally c misses s).path = s.path := by
  unfold tally
  apply foldl_keeps (fun u : State => u.path)
  exact fun _ _ => rfl

/-- R34: the miss count of a cabinet's slot is entered. -/
def counted (c misses : Nat) (s : State) : State :=
  { s with bus := { s.bus with missCounts := s.bus.missCounts.set (c - 1) misses } }

theorem slotOutcome_quiet {c misses : Nat} {missed : Bool} (h : missed = false ∨ misses ≠ 3) :
    slotOutcome c misses missed s = tally c misses (counted c misses s) := by
  have undetected : (missed && decide (misses = 3)) = false := by obtain h | h := h <;> simp [h]
  unfold slotOutcome commMissOutcome; rw [undetected]; rfl

theorem slotOutcome_missed (c : Nat) (s : State) : slotOutcome c 3 true s =
    ageByBerth s.path.nextAge (latchAll (s.cabinetBerths c) (tally c 3 (counted c 3 s))) := by
  have again : (tally c 3 (counted c 3 s)).cabinetBerths c = s.cabinetBerths c :=
    (tally_same_berths c 3 (counted c 3 s)).cabinetBerths c
  have age : (tally c 3 (counted c 3 s)).path.nextAge = s.path.nextAge := by rw [tally_path]; rfl
  rw [← again, ← age]; rfl

/-- The miss count reaches no session and no flag. -/
theorem tally_fields (c misses : Nat) (x : Nat) (s : State) : ((tally c misses s).berth x).session = (s.berth x).session ∧
    ((tally c misses s).berth x).flags = (s.berth x).flags := by
  have kept : ∀ u y, ((State.editBerth u y fun b => { b with counters := { b.counters with commMiss := misses } }).berth x).session =
      (u.berth x).session ∧ ((State.editBerth u y fun b => { b with counters := { b.counters with commMiss := misses } }).berth x).flags =
      (u.berth x).flags := fun u y => ⟨berth_editBerth_field (·.session) u y x _ fun _ => rfl, berth_editBerth_field (·.flags) u y x _ fun _ => rfl⟩
  exact ⟨foldl_keeps (fun u : State => (u.berth x).session) _ (fun u y => (kept u y).1) _ s,
    foldl_keeps (fun u : State => (u.berth x).flags) _ (fun u y => (kept u y).2) _ s⟩

theorem counters_detection (z x : Nat) (s : State) : ((detection z .commMiss s).berth x).counters = (s.berth x).counters := by
  by_cases hit : Detected (s.berth z)
  · have flagged := berth_editBerth_field (·.counters) s z x (fun b => { b with flags := b.flags.latch .commMiss }) fun _ => rfl
    rw [detection_hit hit, berth_latchFault, ← flagged]; split
    · rw [faultedRecord_fields]
    · rfl
  · rw [detection_void hit]

theorem counters_latchAll (l : List Nat) (x : Nat) (s : State) : ((latchAll l s).berth x).counters = (s.berth x).counters :=
  foldl_keeps (fun u : State => (u.berth x).counters) _ (fun u z => counters_detection z x u) l s

/-- R34, R154: the miss count stands in the records of the cabinet's berths, latched or not. -/
theorem slotOutcome_counter {c misses x : Nat} (missed : Bool) (length : s.berths.length = 36) (hx : x ∈ s.cabinetBerths c) :
    ((slotOutcome c misses missed s).berth x).counters.commMiss = misses := by
  have entered : ((tally c misses (counted c misses s)).berth x).counters.commMiss = misses := by
    rw [berth_tally c misses (s := counted c misses s) length, if_pos (show x ∈ (counted c misses s).cabinetBerths c from hx)]
  by_cases latched : missed = true ∧ misses = 3
  · obtain ⟨rfl, rfl⟩ := latched
    rw [slotOutcome_missed]
    exact (congrArg FaultCounters.commMiss (counters_latchAll (s.cabinetBerths c) x _)).trans entered
  · rw [slotOutcome_quiet (by cases missed <;> simp_all)]; exact entered

/-- R154: a berth of another cabinet keeps its flags. -/
theorem slotOutcome_flags_other {c misses x : Nat} (missed : Bool) (hx : x ∉ s.cabinetBerths c) :
    ((slotOutcome c misses missed s).berth x).flags = (s.berth x).flags := by
  have same := (tally_fields c misses x (counted c misses s)).2
  by_cases latched : missed = true ∧ misses = 3
  · obtain ⟨rfl, rfl⟩ := latched
    rw [slotOutcome_missed]; exact (latchAll_flags hx _).trans same
  · rw [slotOutcome_quiet (by cases missed <;> simp_all)]; exact same

/-- R154: below 3, or in a QUIET survey, the count is all that the outcome writes in a record of the cabinet. -/
theorem slotOutcome_record_quiet {c misses x : Nat} {missed : Bool} (h : missed = false ∨ misses ≠ 3) (length : s.berths.length = 36)
    (hx : x ∈ s.cabinetBerths c) : (slotOutcome c misses missed s).berth x =
      { s.berth x with counters := { (s.berth x).counters with commMiss := misses } } := by
  rw [slotOutcome_quiet h, berth_tally c misses (s := counted c misses s) length]; exact if_pos hx

theorem detected_tally (c misses x : Nat) : Detected ((tally c misses (counted c misses s)).berth x) ↔ Detected (s.berth x) := by
  obtain ⟨session, flags⟩ := tally_fields c misses x (counted c misses s)
  unfold Detected; rw [session, flags]; rfl

/-- R154, Log 18: a watched berth of the cabinet, no FOLLOWER of a lower number having latched for it. -/
theorem slotOutcome_latched {c x : Nat} (hx : x ∈ s.cabinetBerths c) (detected : Detected (s.berth x))
    (first : ∀ z ∈ s.cabinetBerths c, z < x → s.carrierOf z = some x → ¬ Detected (s.berth z)) :
    ((slotOutcome c 3 true s).berth x).flags.commMiss = true ∧
      ((s.berth x).coupling ≠ .follower → (s.berth x).session ≠ .follower → ((slotOutcome c 3 true s).berth x).session = .faulted) := by
  have same := tally_same_berths c 3 (counted c 3 s)
  have latched := latchAll_detected (s := tally c 3 (counted c 3 s)) (cabinetBerths_sorted c s) hx ((detected_tally c 3 x).mpr detected)
    fun z hz lower carrier => by
      rw [same.carrierOf] at carrier; rw [detected_tally]; exact first z hz lower carrier
  rw [(tally_fields c 3 x (counted c 3 s)).1, same x] at latched
  rw [slotOutcome_missed]; exact latched

/-- R154, Log 18: a watched LEADER of the cabinet whose FOLLOWER of a lower number latches before it. -/
theorem slotOutcome_led {c x p : Nat} (hp : p ∈ s.cabinetBerths c) (lower : p < x) (pair : s.PairedWith x p)
    (configured : (s.berth x).configured = true) (detected : Detected (s.berth p))
    (session : (s.berth x).session = .empty ∨ (s.berth x).session = .connected ∨ (s.berth x).session = .serving) :
    ((slotOutcome c 3 true s).berth x).session = .faulted ∧ ((slotOutcome c 3 true s).berth x).flags = (s.berth x).flags := by
  have same := tally_same_berths c 3 (counted c 3 s)
  obtain ⟨held, flags⟩ := tally_fields c 3 x (counted c 3 s)
  have led := latchAll_led (s := tally c 3 (counted c 3 s)) (x := x) (cabinetBerths_sorted c s) hp lower
    (by unfold State.PairedWith at *; rw [same x, same p]; exact pair) (by rw [same x]; exact configured)
    ((detected_tally c 3 p).mpr detected) (by rw [held]; exact session)
  rw [flags] at led
  rw [slotOutcome_missed]; exact led

/-- R34, R154: an outcome stays inside the sessions' frame behind the count. -/
theorem slotOutcome_step (c misses : Nat) (missed : Bool) (s : State) :
    SessionStep (counted c misses s) (slotOutcome c misses missed s) := commMissOutcome_step c misses _ _

theorem slotOutcome_bus (c misses : Nat) (missed : Bool) (s : State) : (slotOutcome c misses missed s).bus =
    { s.bus with missCounts := s.bus.missCounts.set (c - 1) misses, line := (slotOutcome c misses missed s).bus.line } :=
  (onlySessions_iff.mp (slotOutcome_step c misses missed s).only).2.2.2.1

/-! ## The expiry -/

/-- R34: what an expiry makes of the recheck flag. -/
def rechecked (k : SurveyKind) (corrupt : Bool) (s : State) : State :=
  { s with bus := { s.bus with recheck := decide (k = .full ∨ corrupt = true ∨ s.bus.recheck = true) } }

theorem expireSlot_eq (k : SurveyKind) (c : Nat) (corrupt : Bool) (s : State) : expireSlot k c corrupt s =
    slotOutcome c (if k = .full then min 3 (s.missCount c + 1) else s.missCount c) (decide (k = .full)) (rechecked k corrupt s) := by
  unfold expireSlot
  cases k
  · simp [rechecked]
  · cases corrupt <;> simp [rechecked]

theorem expireSlotTimer_open {k : SurveyKind} {c : Nat} {corrupt : Bool} (line : s.bus.line = .surveySlot k c corrupt) :
    expireSlotTimer s = nextSlot k c (expireSlot k c (corrupt || !s.bus.rx.isEmpty) s) := by
  unfold expireSlotTimer; rw [line]

theorem expireSlotTimer_shut (h : ∀ k c b, s.bus.line ≠ .surveySlot k c b) : expireSlotTimer s = s := by
  unfold expireSlotTimer; split
  · next line => exact absurd line (h _ _ _)
  · rfl

theorem missCount_counted {c : Nat} (misses : Nat) (low : 1 ≤ c) (high : c ≤ s.bus.missCounts.length) :
    (counted c misses s).missCount c = misses ∧ ∀ d, d ≠ c → 1 ≤ d → (counted c misses s).missCount d = s.missCount d := by
  unfold State.missCount counted
  refine ⟨?_, fun d other positive => ?_⟩
  · simp [List.getD_eq_getElem?_getD, show c - 1 < s.bus.missCounts.length by omega]
  · simp [List.getD_eq_getElem?_getD, show c - 1 ≠ d - 1 by omega]

/-- A watched session that is no FOLLOWER's. -/
theorem watched_own {b : Session} (watched : b.watched = true) (own : b ≠ .follower) : b = .empty ∨ b = .connected ∨ b = .serving := by
  revert watched own; cases b <;> simp [Session.watched]

/-- Settles O43: the bus master's figures first, then the cabinet's records: counted only, or latched one after another. -/
theorem expiredSlotsAreCounted : Obligations.ExpiredSlotsAreCounted := by
  refine ⟨fun s k c corrupt live line low high length => ?_, fun s live h => ?_⟩
  · intro misses recheck quiet next
    have flag : (rechecked k (corrupt || !s.bus.rx.isEmpty) s).bus.recheck = recheck := by
      simp [rechecked, recheck, or_assoc]
    generalize hr : rechecked k (corrupt || !s.bus.rx.isEmpty) s = r at flag
    have r_only : r = { s with bus := { s.bus with recheck := recheck } } := by rw [← flag, ← hr]; rfl
    generalize ho : slotOutcome c misses (decide (k = .full)) r = o
    have run : exec .slotTimerExpiry s = .next (nextSlot k c o) := by
      rw [exec_slotTimerExpiry live, expireSlotTimer_open line, expireSlot_eq, hr, ← ho]
    have bus : o.bus = { s.bus with missCounts := s.bus.missCounts.set (c - 1) misses, recheck := recheck, line := o.bus.line } := by
      rw [← ho, slotOutcome_bus, r_only]
    obtain ⟨rx, rck, counts, berths, -, opens, closes⟩ := nextSlot_leaves k c o
    have cabinets : o.bus.cabinets = s.bus.cabinets := by rw [bus]
    have quietCount : o.bus.quietCount = s.bus.quietCount := by rw [bus]
    have o_recheck : o.bus.recheck = recheck := by rw [bus]
    rw [cabinets, quietCount] at opens
    rw [cabinets, quietCount, o_recheck] at closes
    have missCount : ∀ d, (nextSlot k c o).missCount d = (counted c misses s).missCount d := fun d => by
      unfold State.missCount; rw [counts, bus]; rfl
    have read : ∀ x, (nextSlot k c o).berth x = o.berth x := fun x => berth_congr berths x
    have r_berth : ∀ x, r.berth x = s.berth x := fun x => by rw [r_only]; rfl
    have r_length : r.berths.length = 36 := by rw [r_only]; exact length
    have member : ∀ x, x ∈ r.cabinetBerths c ↔ x < 36 ∧ (s.berth x).configured = true ∧ (s.berth x).cabinet = some c := fun x => by
      rw [mem_cabinetBerths, r_berth]
    refine ⟨_, run, (missCount c).trans (missCount_counted misses low high).1, rx,
      fun d other positive => (missCount d).trans ((missCount_counted misses low high).2 d other positive), rck.trans o_recheck,
      opens, closes, fun x away => ?_, fun x hx configured cabinet => ?_, fun full third => ?_⟩
    · rw [read, ← ho, slotOutcome_flags_other, r_berth]
      rw [member]; rintro ⟨-, configured, cabinet⟩
      exact away.elim (fun h => by simp [h] at configured) fun h => h cabinet
    · have hx : x ∈ r.cabinetBerths c := (member x).mpr ⟨hx, configured, cabinet⟩
      have outcome : ∀ full : k = .full, misses = 3 → o = slotOutcome c 3 true r := fun full third => by
        rw [← ho, third]; simp [full]
      rw [funext read]
      refine ⟨by rw [← ho]; exact slotOutcome_counter _ r_length hx, fun mild => ?_, fun full third single watched clear => ?_,
        fun full third leader watched own clear => ?_⟩
      · have unlatched : decide (k = .full) = false ∨ misses ≠ 3 :=
          mild.imp (fun quiet => by simp [quiet]) Nat.ne_of_lt
        rw [← ho, slotOutcome_record_quiet unlatched r_length hx, r_berth]
      · rw [outcome full third]
        have latched := slotOutcome_latched hx (by rw [r_berth]; exact ⟨watched, clear⟩) fun z _ lower carrier => by
          obtain rfl | ⟨_, _, _, coupling, _⟩ := carrierOf_some carrier
          · exact absurd lower (Nat.lt_irrefl z)
          · rw [r_berth] at coupling; exact absurd coupling single
        rw [r_berth] at latched
        exact ⟨latched.1, fun alone own => latched.2 (by rw [alone]; simp) own⟩
      · intro before
        have paired : ∀ p, r.PairedWith x p ↔ s.PairedWith x p := fun p => by unfold State.PairedWith; rw [r_berth, r_berth]
        rw [outcome full third]
        by_cases led : before
        · obtain ⟨p, lower, pair, p_cabinet, p_watched, p_clear⟩ := led
          have p_in : p ∈ r.cabinetBerths c := (member p).mpr
            ⟨lower.trans ((mem_cabinetBerths c x).mp hx).1, pair.2.2.1, p_cabinet⟩
          have result := slotOutcome_led p_in lower ((paired p).mpr pair) (by rw [r_berth]; exact configured)
            (by rw [r_berth]; exact ⟨p_watched, p_clear⟩) (by rw [r_berth]; exact watched_own watched own)
          rw [r_berth] at result
          exact ⟨result.1, fun not => absurd ⟨p, lower, pair, p_cabinet, p_watched, p_clear⟩ not, fun _ => result.2⟩
        · have latched := slotOutcome_latched hx (by rw [r_berth]; exact ⟨watched, clear⟩) fun z hz lower carrier detected => led ?_
          · rw [r_berth] at latched
            exact ⟨latched.2 (by rw [leader]; simp) own, fun _ => latched.1, fun h => absurd h led⟩
          · obtain ⟨-, z_configured, z_cabinet⟩ := (member z).mp hz
            obtain rfl | ⟨follower, partner, _, _, back⟩ := carrierOf_some carrier
            · exact absurd lower (Nat.lt_irrefl z)
            · simp only [r_berth] at follower partner back detected
              exact ⟨z, lower, ⟨leader, back, z_configured, follower, partner⟩, z_cabinet, detected.1, detected.2⟩
    · have flagged : recheck = true := by simp [recheck, full]
      subst full
      rw [← ho, third, r_only, flagged]
      exact congrArg _ (slotOutcome_missed c _)
  · rw [exec_slotTimerExpiry live, expireSlotTimer_shut h]

end Sys2Proof.Machine.BerthBus
end

