-- ==== Sys2Proof/Proofs/StatusReports.lean ====
section
/-! Proofs/StatusReports.lean: the layout of a STATUS body, and what a valid STATUS writes in the berths it names
(R33 to R38, R170). -/

namespace Sys2Proof.Machine.BerthBus

variable {s t u : State}

/-! ## The layout of a STATUS body (R36) -/

theorem statusValid_iff (n : Nat) (body : List Byte) : statusValid n body = true ↔ body.length = 12 * n ∧
    (∀ e ∈ statusEntries body, e.outlet < n ∧ e.plug ≤ 3) ∧ ((statusEntries body).map (·.outlet)).Nodup := by
  have length : body.length % 12 = 0 ∧ body.length / 12 = n ↔ body.length = 12 * n := by omega
  simp only [statusValid, Bool.and_eq_true, decide_eq_true_eq, List.all_eq_true, length, and_assoc]

theorem statusEntries_short {body : List Byte} (h : body.length < 12) : statusEntries body = [] := by
  unfold statusEntries; rw [Nat.div_eq_of_lt h]; rfl

theorem decide_bit (b : Byte) (i : Nat) : decide (b.toNat / 2 ^ i % 2 = 1) = b.getLsbD i := by
  rw [BitVec.getLsbD, Nat.testBit_eq_decide_div_mod_eq]

/-- One entry of 12 bytes. -/
theorem statusEntryOf_bytes (place flags t1 t2 t3 t4 c1 c2 p1 p2 m1 m2 : Byte) :
    statusEntryOf [place, flags, t1, t2, t3, t4, c1, c2, p1, p2, m1, m2] =
      { outlet := place.toNat / 16, plug := place.toNat % 16, trip := flags.getLsbD 0, isolation := flags.getLsbD 1
        contactor := flags.getLsbD 2, tag := t1 ++ t2 ++ t3 ++ t4, soc := c1.toNat * 256 + c2.toNat, measured := steps16 p1 p2
        acceptMax := m1.toNat * 256 + m2.toNat } := by
  rw [← decide_bit, ← decide_bit, ← decide_bit, ← word_of_bytes, ← unsignedOf_two, ← unsignedOf_two, ← unsignedOf_one place,
    ← unsignedOf_one flags]
  simp [statusEntryOf, bytesAt, steps16]

theorem statusEntries_cons (place flags t1 t2 t3 t4 c1 c2 p1 p2 m1 m2 : Byte) (rest : List Byte) :
    statusEntries (place :: flags :: t1 :: t2 :: t3 :: t4 :: c1 :: c2 :: p1 :: p2 :: m1 :: m2 :: rest) =
      statusEntryOf [place, flags, t1, t2, t3, t4, c1, c2, p1, p2, m1, m2] :: statusEntries rest := by
  have count : (place :: flags :: t1 :: t2 :: t3 :: t4 :: c1 :: c2 :: p1 :: p2 :: m1 :: m2 :: rest).length / 12 = rest.length / 12 + 1 := by
    simp only [List.length_cons]; omega
  unfold statusEntries; rw [count]; rfl

/-! ## What the rules behind a report leave alone -/

theorem setDone_same_berths (x : Nat) (s : State) : SameBerths s (setDone x s) := by
  unfold setDone; split
  · exact .refl s
  · exact (SameBerths.edit x (fun b => { b with done := true }) s fun _ => rfl).trans (notify_same_berths _ _)

theorem reportDone_same_berths (x : Nat) (s : State) : SameBerths s (reportDone x s) := by
  unfold reportDone; repeat' split
  · exact .refl s
  · exact (SameBerths.edit x (fun b => { b with doneByComplete := true }) s fun _ => rfl).trans (setDone_same_berths _ _)
  · exact .edit x (fun b => { b with done := false, doneByComplete := false }) s fun _ => rfl
  · exact .refl s

theorem enterServing_same_berths (x : Nat) (s : State) : SameBerths s (enterServing x s) :=
  .edit x (fun b => { b with session := .serving, setpoint := .idle }) s fun _ => rfl

theorem enterConnected_same_berths (x : Nat) (s : State) : SameBerths s (enterConnected x s) :=
  (SameBerths.edit x (fun b => { b with session := .connected }) s fun _ => rfl).trans (resolveTag_same_berths _ _)

theorem plugRule_same_berths (x : Nat) (s : State) : SameBerths s (plugRule x s) := by
  unfold plugRule; split
  · exact unplug_same_berths x s
  · exact (enterConnected_same_berths x s).trans (enterServing_same_berths x _)
  · exact enterConnected_same_berths x s
  · exact (SameBerths.edit x (fun b => { b with session := .empty, request := none, done := false, doneByComplete := false }) s
      fun _ => rfl).trans (unplug_same_berths x _)
  · exact enterServing_same_berths x s
  · exact (leaveServing_same_berths x _ s).trans (unplug_same_berths x _)
  · exact (leaveServing_same_berths x _ s).trans (resolveTag_same_berths x _)
  · exact unplug_same_berths x s
  · exact .refl s

theorem tagRules_same_berths (x : Nat) (tag : Ident) (s : State) : SameBerths s (tagRules x tag s) := by
  unfold tagRules; split
  · refine SameBerths.trans ?_ (reassociate_same_berths x _)
    split
    · exact resolveTag_same_berths x s
    · exact .refl s
  · exact .refl s

theorem storeEnergy_same_berths (x : Nat) (before : Session) (s : State) : SameBerths s (storeEnergy x before s) := by
  unfold storeEnergy; dsimp only; repeat' split
  · exact .of_berths (editBus_same _ _ _).2.2.2.2.2.1
  · exact .refl s
  · exact .refl s

/-- A detector counts, and latches where its count is reached. -/
theorem counted_latch_same_berths (x : Nat) (f : FaultCounters → FaultCounters) (flag : FaultFlag) (s : State) :
    SameBerths s (latchFault x flag (editCounters x f s)) :=
  (editCounters_same_berths x f s).trans (latchFault_same_berths x flag _)

theorem detectOvercurrent_same_berths (x : Nat) (trip : Bool) (s : State) : SameBerths s (detectOvercurrent x trip s) := by
  unfold detectOvercurrent; dsimp only; repeat' split
  · exact .refl s
  · exact latchFault_same_berths x _ s
  · exact counted_latch_same_berths x _ _ s
  · exact editCounters_same_berths x _ s
  · exact editCounters_same_berths x _ s

theorem detectOpenPath_same_berths (x : Nat) (contactor : Bool) (s : State) : SameBerths s (detectOpenPath x contactor s) := by
  unfold detectOpenPath; dsimp only; repeat' split
  · exact .refl s
  · exact counted_latch_same_berths x _ _ s
  · exact editCounters_same_berths x _ s
  · exact editCounters_same_berths x _ s

theorem detectIsolation_same_berths (x : Nat) (fault : Bool) (s : State) : SameBerths s (detectIsolation x fault s) := by
  unfold detectIsolation; repeat' split
  · exact .refl s
  · exact counted_latch_same_berths x _ _ s
  · exact editCounters_same_berths x _ s

theorem detectFaults_same_berths (x : Nat) (trip isolation contactor : Bool) (s : State) :
    SameBerths s (detectFaults x trip isolation contactor s) := by
  unfold detectFaults; split
  · exact (detectOvercurrent_same_berths x _ s).trans
      ((detectOpenPath_same_berths x _ _).trans (detectIsolation_same_berths x _ _))
  · exact editCounters_same_berths x _ s

/-- R38: behind the fields of its entry a report writes sessions, detectors and associations alone. -/
theorem reportBerth_same_berths (x : Nat) (e : StatusEntry) (s : State) :
    SameBerths (s.editBerth x (·.report e)) (reportBerth x e s) :=
  ((plugRule_same_berths x _).trans ((tagRules_same_berths x _ _).trans (reportDone_same_berths x _))).trans
    ((storeEnergy_same_berths x _ _).trans (detectFaults_same_berths x _ _ _ _))

/-! ## The fields of a report (R37) -/

/-- What a report writes in a record, in the order of R37. -/
def telemetry (b : Berth) : Plug × Ident × Option Nat × Int × Nat := (b.plug, b.tag, b.soc, b.measured, b.acceptMax)

/-- What an entry reports for an outlet of this hardware charge max. -/
def reported (e : StatusEntry) (hwCharge : Nat) : Plug × Ident × Option Nat × Int × Nat :=
  (plugOf e.plug, e.tag, socOf e.soc, e.measured, min e.acceptMax hwCharge)

/-- The map's fields of a record. -/
def mapping (b : Berth) : Bool × Option Nat × Option Nat × Nat := (b.configured, b.cabinet, b.outlet, b.hwCharge)

theorem SameBerth.telemetry {b c : Berth} (h : SameBerth b c) : telemetry c = telemetry b := by rw [h]; rfl

theorem SameBerth.mapping {b c : Berth} (h : SameBerth b c) : mapping c = mapping b := by rw [h]; rfl

theorem reportBerth_mapping (x : Nat) (e : StatusEntry) (s : State) (y : Nat) :
    mapping ((reportBerth x e s).berth y) = mapping (s.berth y) :=
  (reportBerth_same_berths x e s y).mapping.trans (berth_editBerth_field mapping s x y _ fun _ => rfl)

theorem reportBerth_other {x y : Nat} (h : y ≠ x) (e : StatusEntry) (s : State) :
    telemetry ((reportBerth x e s).berth y) = telemetry (s.berth y) := by
  rw [(reportBerth_same_berths x e s y).telemetry, berth_editBerth_ne _ _ h]

theorem lt_length_of_configured {x : Nat} (h : (s.berth x).configured = true) : x < s.berths.length := by
  by_contra hx
  rw [berth_out x (Nat.le_of_not_lt hx)] at h
  cases h

theorem reportBerth_self {x : Nat} (configured : (s.berth x).configured = true) (e : StatusEntry) :
    telemetry ((reportBerth x e s).berth x) = reported e (s.berth x).hwCharge := by
  rw [(reportBerth_same_berths x e s x).telemetry, berth_editBerth_self _ _ (lt_length_of_configured configured)]; rfl

/-- The berths of one outlet report one after another; the map stands. -/
theorem foldl_reportBerth (e : StatusEntry) (l : List Nat) (s : State) (y : Nat) :
    let t := l.foldl (fun s x => reportBerth x e s) s
    mapping (t.berth y) = mapping (s.berth y) ∧ (y ∉ l → telemetry (t.berth y) = telemetry (s.berth y)) ∧
      (y ∈ l → (s.berth y).configured = true → telemetry (t.berth y) = reported e (s.berth y).hwCharge) := by
  induction l generalizing s with
  | nil => simp
  | cons x l ih =>
    obtain ⟨map, other, named⟩ := ih (reportBerth x e s)
    have first := reportBerth_mapping x e s y
    have configured_eq : ((reportBerth x e s).berth y).configured = (s.berth y).configured := congrArg (·.1) first
    have hw_eq : ((reportBerth x e s).berth y).hwCharge = (s.berth y).hwCharge := congrArg (·.2.2.2) first
    refine ⟨map.trans first, fun out => ?_, fun mem configured => ?_⟩
    · rw [List.mem_cons, not_or] at out
      exact (other out.2).trans (reportBerth_other out.1 e s)
    · by_cases again : y ∈ l
      · rw [← hw_eq]; exact named again (configured_eq.trans configured)
      · obtain rfl : y = x := by simpa [again] using mem
        exact (other again).trans (reportBerth_self configured e)

/-- The berth is named by this outlet of cabinet `c`. -/
def names (c outlet y : Nat) (b : Berth) : Prop := y < 36 ∧ b.configured = true ∧ b.cabinet = some c ∧ b.outlet = some outlet

theorem mem_outletBerths (c outlet y : Nat) : y ∈ s.outletBerths c outlet ↔ names c outlet y (s.berth y) := by
  simp only [State.outletBerths, List.mem_filter, mem_cabinetBerths, names, and_assoc, decide_eq_true_eq]

theorem names_congr {b d : Berth} (h : mapping d = mapping b) (c outlet y : Nat) : names c outlet y d ↔ names c outlet y b := by
  obtain ⟨h1, h2, h3, -⟩ := (by simpa [mapping] using h : d.configured = b.configured ∧ d.cabinet = b.cabinet ∧ d.outlet = b.outlet ∧ _)
  unfold names; rw [h1, h2, h3]

/-- R37: the entries of a STATUS, each outlet once, write the berths they name and no other. -/
theorem foldl_reportEntry (c : Nat) (entries : List StatusEntry) (nodup : (entries.map (·.outlet)).Nodup) (s : State) (y : Nat) :
    let t := entries.foldl (fun s e => reportEntry c e s) s
    ((∀ e ∈ entries, ¬ names c e.outlet y (s.berth y)) → telemetry (t.berth y) = telemetry (s.berth y)) ∧
      (∀ e ∈ entries, names c e.outlet y (s.berth y) → telemetry (t.berth y) = reported e (s.berth y).hwCharge) := by
  induction entries generalizing s with
  | nil => simp
  | cons e entries ih =>
    rw [List.map_cons, List.nodup_cons] at nodup
    obtain ⟨other, named⟩ := ih nodup.2 (reportEntry c e s)
    obtain ⟨map, unnamed, written⟩ := foldl_reportBerth e (s.outletBerths c e.outlet) s y
    rw [mem_outletBerths] at unnamed written
    have map : mapping ((reportEntry c e s).berth y) = mapping (s.berth y) := map
    have hw_eq : ((reportEntry c e s).berth y).hwCharge = (s.berth y).hwCharge := congrArg (·.2.2.2) map
    simp only [names_congr map, hw_eq] at other named
    refine ⟨fun none => ?_, fun f hf name => ?_⟩
    · exact (other fun f hf => none f (List.mem_cons_of_mem _ hf)).trans (unnamed (none e (by simp)))
    · obtain rfl | hf := List.mem_cons.mp hf
      · refine (other fun g hg again => ?_).trans (written name name.2.1)
        have same : f.outlet = g.outlet := Option.some.inj (name.2.2.2.symm.trans again.2.2.2)
        exact nodup.1 (same ▸ List.mem_map_of_mem hg)
      · exact named f hf name

/-! ## A STATUS in its slot (R33, R38) -/

/-- The entries of a STATUS, one after another (R38). -/
def reportEntries (c : Nat) (body : List Byte) (s : State) : State := (statusEntries body).foldl (fun s e => reportEntry c e s) s

theorem reportStatus_eq (c : Nat) (body : List Byte) (s : State) : reportStatus c body s =
    { ageByBerth s.path.nextAge (reportEntries c body s) with
      link := { (reportEntries c body s).link with slots := (reportEntries c body s).link.slots.set (c - 1) ⟨body, true⟩ } } := rfl

theorem reportEntries_step (c : Nat) (body : List Byte) (s : State) : SessionStep s (reportEntries c body s) :=
  .foldl _ _ (fun e _ u => reportEntry_step c e u) s

theorem answerSlot_open {k : SurveyKind} {c : Nat} {corrupt : Bool} (line : s.bus.line = .surveySlot k c corrupt) (body : List Byte) :
    answerSlot body s = nextSlot k c (reportStatus c body (tally c 0 (counted c 0 s))) := by
  rw [← slotOutcome_quiet (.inl rfl)]
  unfold answerSlot; rw [line]

theorem tally_only (c misses : Nat) (s : State) : (tally c misses s).bus = s.bus ∧ (tally c misses s).link = s.link := by
  unfold tally
  exact ⟨by apply foldl_keeps (fun u : State => u.bus); exact fun _ _ => rfl,
    by apply foldl_keeps (fun u : State => u.link); exact fun _ _ => rfl⟩

/-- R37, R38: what a STATUS leaves of the bus master and of the telemetry slots. -/
theorem reportStatus_leaves (c : Nat) (body : List Byte) (s : State) :
    (reportStatus c body s).bus = { s.bus with line := (reportStatus c body s).bus.line } ∧
      (reportStatus c body s).link.slots = s.link.slots.set (c - 1) ⟨body, true⟩ := by
  obtain ⟨-, -, link, bus, -⟩ := onlySessions_iff.mp (reportEntries_step c body s).only
  refine ⟨by rw [reportStatus_eq]; exact bus, ?_⟩
  rw [reportStatus_eq]; show (reportEntries c body s).link.slots.set _ _ = _
  rw [link]

theorem slot_set {c : Nat} (new : Slot) (low : 1 ≤ c) (high : c ≤ s.link.slots.length)
    (h : t.link.slots = s.link.slots.set (c - 1) new) : t.slot c = new ∧ ∀ d, d ≠ c → 1 ≤ d → t.slot d = s.slot d := by
  unfold State.slot; rw [h]
  refine ⟨?_, fun d other positive => ?_⟩
  · simp [List.getD_eq_getElem?_getD, show c - 1 < s.link.slots.length by omega]
  · simp [List.getD_eq_getElem?_getD, show c - 1 ≠ d - 1 by omega]

/-- Settles O44: the layout, the STATUS that does not fit its slot, then the slot's figures and the fields of the berths. -/
theorem statusIsReported : Obligations.StatusIsReported := by
  refine ⟨statusValid_iff, fun body => statusEntries_short, fun place flags t1 t2 t3 t4 c1 c2 p1 p2 m1 m2 rest => ?_,
    fun s k c corrupt body live line unfit => ?_, fun s k c corrupt record body live line low high misses slots length found valid => ?_⟩
  · rw [statusEntries_cons, statusEntryOf_bytes]
  · have untaken : ¬ s.statusTaken c body = true := by
      rw [statusTaken_slot line]
      rintro ⟨-, record, found, valid⟩
      simp [unfit record found] at valid
    rw [exec_status live, if_neg untaken, discardFrame_slot line]
  · intro quiet next
    have taken : s.statusTaken c body = true := (statusTaken_slot line c body).mpr ⟨rfl, record, found, valid⟩
    obtain ⟨body_length, -, nodup⟩ := (statusValid_iff _ _).mp valid
    have run : exec (.status c body) s = .next (nextSlot k c (reportStatus c body (tally c 0 (counted c 0 s)))) := by
      rw [exec_status live, if_pos taken, answerSlot_open line]
    obtain ⟨tally_bus, tally_link⟩ := tally_only c 0 (counted c 0 s)
    obtain ⟨bus, slots_set⟩ := reportStatus_leaves c body (tally c 0 (counted c 0 s))
    rw [tally_bus] at bus; rw [tally_link] at slots_set
    have berths_eq : (reportStatus c body (tally c 0 (counted c 0 s))).berths = (reportEntries c body (tally c 0 (counted c 0 s))).berths := rfl
    generalize reportStatus c body (tally c 0 (counted c 0 s)) = r at run bus slots_set berths_eq
    obtain ⟨rx, recheck, counts, berths, link, opens, closes⟩ := nextSlot_leaves k c r
    have cabinets : r.bus.cabinets = s.bus.cabinets := by rw [bus]; rfl
    have quietCount : r.bus.quietCount = s.bus.quietCount := by rw [bus]; rfl
    have recheck_eq : r.bus.recheck = s.bus.recheck := by rw [bus]; rfl
    rw [cabinets, quietCount] at opens
    rw [cabinets, quietCount, recheck_eq] at closes
    have missCount : ∀ d, (nextSlot k c r).missCount d = (counted c 0 s).missCount d := fun d => by
      unfold State.missCount; rw [counts, bus]
    have counted_misses := missCount_counted (s := s) 0 low (by omega)
    have slot := slot_set (s := s) (t := nextSlot k c r) ⟨body, true⟩ low (by omega) (by rw [link]; exact slots_set)
    have same := tally_same_berths c 0 (counted c 0 s)
    have map : ∀ x, mapping ((tally c 0 (counted c 0 s)).berth x) = mapping (s.berth x) := fun x => (same x).mapping
    have fields := fun x => foldl_reportEntry c (statusEntries body) nodup (tally c 0 (counted c 0 s)) x
    have hw_eq : ∀ x, ((tally c 0 (counted c 0 s)).berth x).hwCharge = (s.berth x).hwCharge := fun x => congrArg (·.2.2.2) (map x)
    have read : ∀ x, (nextSlot k c r).berth x = (reportEntries c body (tally c 0 (counted c 0 s))).berth x :=
      fun x => berth_congr (berths.trans berths_eq) x
    refine ⟨body_length, _, run, (missCount c).trans counted_misses.1, slot.1,
      fun d other positive => ⟨slot.2 d other positive, (missCount d).trans (counted_misses.2 d other positive)⟩,
      recheck.trans recheck_eq, rx, opens, closes, fun x hx configured cabinet e he outlet => ?_, fun x away => ?_⟩
    · have written := (fields x).2 e he ((names_congr (map x) _ _ _).mpr ⟨hx, configured, cabinet, outlet⟩)
      rw [hw_eq] at written
      have written : telemetry ((nextSlot k c r).berth x) = reported e (s.berth x).hwCharge := (congrArg telemetry (read x)).trans written
      simp only [telemetry, reported, Prod.mk.injEq] at written
      obtain ⟨plug, tag, soc, measured, acceptMax⟩ := written
      refine ⟨plug, tag, measured, soc.trans ?_, acceptMax⟩
      unfold socOf
      by_cases bounded : e.soc ≤ 1000
      · rw [if_pos bounded, Nat.min_eq_left bounded]
      · rw [if_neg bounded, Nat.min_eq_right (by omega)]
    · have kept := (fields x).1 fun e he name => by
        obtain ⟨-, configured, cabinet, outlet⟩ := (names_congr (map x) _ _ _).mp name
        obtain out | out | out := away
        · rw [configured] at out; cases out
        · exact out cabinet
        · exact out e he outlet
      have kept : telemetry ((nextSlot k c r).berth x) = telemetry (s.berth x) :=
        (congrArg telemetry (read x)).trans (kept.trans (same x).telemetry)
      simp only [telemetry, Prod.mk.injEq] at kept
      obtain ⟨plug, tag, soc, measured, acceptMax⟩ := kept
      exact ⟨plug, tag, soc, measured, acceptMax⟩

end Sys2Proof.Machine.BerthBus
end

