-- ==== Sys2Proof/Proofs/PlacedWork.lean ====
section
/-! Proofs/PlacedWork.lean: what the third missing acknowledgement in a row makes of a watched berth's record and waiting work
(R64, R66, R154, R155), and where the entry of an abandoned SETPOINT is placed (R67). -/

namespace Sys2Proof.Machine.BerthBus

variable {s t u v : State}

/-! ## What the upstream queue looks at -/

theorem answer_link (f : UpFrame) (h : t.link = s.link) : (answer f t).link = (answer f s).link := by
  unfold answer; rw [h]; split <;> rfl

theorem supersede_link (x tag : Nat) (h : t.link = s.link) : (supersede x tag t).link = (supersede x tag s).link := by
  unfold supersede; split
  · exact h
  · exact answer_link _ h

/-- An answer leaves the notices' flag and the berths as they were. -/
theorem supersede_only (x tag : Nat) (s : State) : supersede x tag s = { s with link := (supersede x tag s).link } := by
  unfold supersede; split
  · rfl
  · unfold reply answer; split <;> rfl

/-! ## Withdrawn work and the zero trim (R64) -/

theorem trimWaits_congr {l : List Entry} (x : Nat) (h : t.path.list.filter (·.old.isSome) = l.filter (·.old.isSome)) :
    t.trimWaits x = l.any fun e => decide (e.berth = x) && e.old.isSome := by
  have split : ∀ m : List Entry, (m.any fun e => decide (e.berth = x) && e.old.isSome) =
      (m.filter (·.old.isSome)).any fun e => decide (e.berth = x) := fun m => by
    rw [List.any_filter]; congr 1; funext e; rw [Bool.and_comm]
  unfold State.trimWaits; rw [split, split, h]

/-- A trim at an old address is no entry of a berth's own. -/
theorem filter_trims_unowned (x : Nat) (l : List Entry) :
    (l.filter fun e => !e.ownOf x).filter (·.old.isSome) = l.filter (·.old.isSome) := by
  rw [List.filter_filter]; congr 1; funext e
  cases trim : e.old <;> simp [Entry.ownOf, trim]

theorem trimWaits_withdrawWork (x y : Nat) (s : State) : (withdrawWork x s).trimWaits y = s.trimWaits y :=
  trimWaits_congr y (by rw [withdrawWork_list, filter_trims_unowned])

/-- R64: the answers of the withdrawn work. -/
theorem withdrawWork_link (x : Nat) (s : State) : (withdrawWork x s).link =
    (supersede x (entryTag (s.entryOf x)) (supersede x (queuedTag (s.queuedOf x)) s)).link := by
  have entry : (removeQueued x (supersede x (queuedTag (s.queuedOf x)) (setSetpointState x .idle s))).entryOf x = s.entryOf x :=
    entryOf_congr (by simp) (by simp [removeQueued]) x
  unfold withdrawWork; dsimp only
  rw [show (setSetpointState x .idle s).queuedOf x = s.queuedOf x from rfl, entry]
  exact supersede_link x _ (supersede_link (s := s) (t := setSetpointState x .idle s) x _ rfl)

theorem withdrawWork_faults (x : Nat) (s : State) : (withdrawWork x s).faults = s.faults :=
  (onlyPath_iff.mp (withdrawWork_step x s).only).2.2.2.2.2.2.2.2.2.2.2.2

theorem withdrawWork_bus (x : Nat) (s : State) : (withdrawWork x s).bus = s.bus :=
  (onlyPath_iff.mp (withdrawWork_step x s).only).2.2.2.1

/-- R64 step 4: the zero trim that a berth's withdrawn work leaves, if any. -/
def trimOf (x : Nat) (s : State) : List Entry := if s.commandedNonzero x = true then [⟨x, 0, s.path.nextAge, none⟩] else []

theorem zeroTrim_fresh {x : Nat} (h : s.entryOf x = none) : zeroTrim x s = { s with path := { s.path with
    list := if s.trimWaits x then s.path.list else s.path.list ++ trimOf x s
    waiting := if s.trimWaits x then s.path.waiting ++ trimOf x s else s.path.waiting
    nextAge := s.path.nextAge + (trimOf x s).length } } := by
  unfold zeroTrim trimOf
  by_cases power : s.commandedNonzero x = true
  · rw [if_pos power, if_pos power]; unfold originateEntry; rw [h]; rfl
  · rw [if_neg power, if_neg power]; simp

theorem trimOf_withdrawWork (x : Nat) (s : State) : trimOf x (withdrawWork x s) = trimOf x s := by
  unfold trimOf; rw [(withdrawWork_step x s).commandedNonzero, withdrawWork_nextAge]

/-- R64: the list, the waiting work and the queue once a berth's work is withdrawn and its zero trim made. -/
theorem zeroTrim_withdrawWork_path (x : Nat) (s : State) : (zeroTrim x (withdrawWork x s)).path = { s.path with
    list := if s.trimWaits x then s.path.list.filter (fun e => !e.ownOf x) else (s.path.list.filter fun e => !e.ownOf x) ++ trimOf x s
    waiting := if s.trimWaits x then (s.path.waiting.filter fun e => !e.ownOf x) ++ trimOf x s else s.path.waiting.filter fun e => !e.ownOf x
    queue := s.path.queue.filter fun q => decide (q.berth ≠ x)
    nextAge := s.path.nextAge + (trimOf x s).length } := by
  have none_left : (withdrawWork x s).entryOf x = none := by rw [entryOf_withdrawWork, if_pos rfl]
  have path := onlyPath_iff.mp (withdrawWork_step x s).only |>.2.2.2.2.2.2.2.2.2.1
  rw [zeroTrim_fresh none_left]
  dsimp only
  rw [trimOf_withdrawWork, trimWaits_withdrawWork, path]
  simp only [withdrawWork_list, withdrawWork_waiting, withdrawWork_queue, withdrawWork_nextAge]

theorem zeroTrim_only_path (x : Nat) (s : State) : zeroTrim x s = { s with path := (zeroTrim x s).path } := by
  unfold zeroTrim originateEntry; split
  · split <;> rfl
  · rfl

/-! ## The third missing acknowledgement in a row (R66, R154, R155) -/

/-- R9, R10: berth `x` has left its session for FAULTED, its work not yet withdrawn. -/
def atFault (x : Nat) (s : State) : State :=
  let serving := (s.berth x).session = .serving
  { s.editBerth x fun b => if serving then { b with
      session := .faulted, grant := 0, request := none, done := false, doneByComplete := false, projectedShort := false }
      else { b with session := .faulted } with
    bus := { s.bus with line := if serving then markLeft x s.bus.line else s.bus.line } }

/-- R10, R155: a fault withdraws the work of a berth in session and leaves its zero trim. -/
theorem faultSession_session {x : Nat} (h : (s.berth x).session = .empty ∨ (s.berth x).session = .connected ∨ (s.berth x).session = .serving) :
    faultSession x s = zeroTrim x (withdrawWork x (atFault x s)) := by
  unfold faultSession atFault
  obtain h | h | h := h <;> rw [h] <;> rfl

/-- The record that the third missing acknowledgement in a row leaves, up to what the session's fault clears. -/
def missedRecord (b : Berth) : Berth :=
  { b with counters := { b.counters with noConfirm := 3 }, flags := { b.flags with noConfirm := true } }

/-- The record of `x` counted and flagged, its session still as it was. -/
def flagMissed (x : Nat) (s : State) : State := s.editBerth x missedRecord

/-- What the latch of NO_CONFIRM for a berth in session leaves before the notice. -/
def missedOut (x : Nat) (s : State) : State := zeroTrim x (withdrawWork x (atFault x (flagMissed x s)))

/-- What the third missing acknowledgement in a row asks for before it latches. -/
structure ThirdMiss (x : Nat) (s : State) : Prop where
  count : 2 ≤ (s.berth x).counters.noConfirm
  own : (s.berth x).coupling ≠ .follower
  clear : (s.berth x).flags.noConfirm = false
  session : (s.berth x).session = .empty ∨ (s.berth x).session = .connected ∨ (s.berth x).session = .serving

variable {x : Nat}

theorem ThirdMiss.lt (h : ThirdMiss x s) : x < s.berths.length :=
  lt_length_of_session (by obtain e | e | e := h.session <;> rw [e] <;> simp)

theorem ThirdMiss.flagged (h : ThirdMiss x s) : (flagMissed x s).berth x = missedRecord (s.berth x) :=
  berth_editBerth_self s _ h.lt

theorem berth_missedOut (h : ThirdMiss x s) (y : Nat) :
    (missedOut x s).berth y = if y = x then faultedRecord (missedRecord (s.berth x)) else s.berth y := by
  have session : ((flagMissed x s).berth x).session = (s.berth x).session := by rw [h.flagged]; rfl
  unfold missedOut
  rw [← faultSession_session (by rw [session]; exact h.session), berth_faultSession, h.flagged]
  split
  · rfl
  · next other => exact berth_editBerth_ne s _ other

/-- R66 step 2, R154, R155: the third in a row latches NO_CONFIRM, the berth leaves its session, and one notice follows. -/
theorem countNoConfirm_third (h : ThirdMiss x s) : countNoConfirm x s =
    notify (.berthFault x .noConfirm x (s.berth x).bus (s.berth x).measured) (missedOut x s) := by
  have hx := h.lt
  have third : min 3 ((s.berth x).counters.noConfirm + 1) = 3 := by have := h.count; omega
  unfold countNoConfirm; dsimp only; rw [third]
  generalize hc : editCounters x (fun c => { c with noConfirm := 3 }) s = c
  have counted : c.berth x = { s.berth x with counters := { (s.berth x).counters with noConfirm := 3 } } := by
    rw [← hc]; exact berth_editBerth_self s _ hx
  have watched : (c.berth x).session.watched = true ∧ (c.berth x).flags.has .noConfirm = false := by
    rw [counted]; refine ⟨?_, h.clear⟩
    obtain e | e | e := h.session <;> simp [e, Session.watched]
  have not_follower : (c.berth x).session ≠ .follower := by
    rw [counted]; obtain e | e | e := h.session <;> simp [e]
  have flagged : (c.editBerth x fun b => { b with flags := b.flags.latch .noConfirm }) = flagMissed x s := by
    rw [← hc]; exact editBerth_editBerth x _ _ s
  have carrier : c.carrierOf x = some x := carrierOf_self (by rw [counted]; exact h.own)
  have in_session : ((flagMissed x s).berth x).session = .empty ∨ ((flagMissed x s).berth x).session = .connected ∨
      ((flagMissed x s).berth x).session = .serving := by rw [h.flagged]; exact h.session
  rw [if_pos ⟨rfl, not_follower⟩]
  unfold detection; rw [if_pos watched]
  unfold latchFault; dsimp only
  rw [carrier, flagged]
  dsimp only [Option.getD_some]
  rw [faultSession_session in_session]
  change notify (.berthFault x .noConfirm x ((missedOut x s).berth x).bus ((missedOut x s).berth x).measured) (missedOut x s) = _
  rw [berth_missedOut h, if_pos rfl, faultedRecord_fields]; rfl

/-! ## Frames of the latch -/

theorem flagMissed_same_berths (x : Nat) (s : State) : SameBerths s (flagMissed x s) := .edit x missedRecord s fun _ => rfl

theorem missedOut_bus (h : ThirdMiss x s) : (missedOut x s).bus =
    { s.bus with line := if (s.berth x).session = .serving then markLeft x s.bus.line else s.bus.line } := by
  unfold missedOut
  rw [zeroTrim_only_path]; dsimp only
  rw [withdrawWork_bus]; unfold atFault; dsimp only
  rw [h.flagged]; rfl

theorem commandedNonzero_congr (h : SameBerths s t) (x : Nat) : t.commandedNonzero x = s.commandedNonzero x := by
  unfold State.commandedNonzero
  rw [followerOf_congr (s := s) (t := t) (fun y => by rw [h y]; exact ⟨rfl, rfl, rfl⟩), h x]
  cases s.followerOf x with
  | none => rfl
  | some p => dsimp only; rw [h p]

theorem atFault_same_berths (x : Nat) (s : State) : SameBerths s (atFault x s) := by
  have edited : SameBerths s (s.editBerth x fun b => if (s.berth x).session = .serving then { b with
      session := .faulted, grant := 0, request := none, done := false, doneByComplete := false, projectedShort := false }
      else { b with session := .faulted }) := .edit x _ s fun b => by split <;> rfl
  exact edited

theorem trimOf_congr (h : SameBerths s t) (age : t.path.nextAge = s.path.nextAge) (x : Nat) : trimOf x t = trimOf x s := by
  unfold trimOf; rw [commandedNonzero_congr h, age]

theorem missedOut_path (x : Nat) (s : State) : (missedOut x s).path = { s.path with
    list := if s.trimWaits x then s.path.list.filter (fun e => !e.ownOf x) else (s.path.list.filter fun e => !e.ownOf x) ++ trimOf x s
    waiting := if s.trimWaits x then (s.path.waiting.filter fun e => !e.ownOf x) ++ trimOf x s else s.path.waiting.filter fun e => !e.ownOf x
    queue := s.path.queue.filter fun q => decide (q.berth ≠ x)
    nextAge := s.path.nextAge + (trimOf x s).length } := by
  have trim : trimOf x (atFault x (flagMissed x s)) = trimOf x s :=
    trimOf_congr ((flagMissed_same_berths x s).trans (atFault_same_berths x _)) rfl x
  unfold missedOut; rw [zeroTrim_withdrawWork_path, trim]; rfl

theorem missedOut_link (x : Nat) (s : State) : (missedOut x s).link =
    (supersede x (entryTag (s.entryOf x)) (supersede x (queuedTag (s.queuedOf x)) s)).link := by
  unfold missedOut
  rw [zeroTrim_only_path]; dsimp only
  rw [withdrawWork_link]
  exact supersede_link x _ (supersede_link (s := s) (t := atFault x (flagMissed x s)) x _ rfl)

theorem missedOut_faults (x : Nat) (s : State) : (missedOut x s).faults = s.faults := by
  unfold missedOut
  rw [zeroTrim_only_path]; dsimp only
  rw [withdrawWork_faults]; rfl

end Sys2Proof.Machine.BerthBus
end

