-- ==== Sys2Proof/Proofs/EchoCheck.lean ====
section
/-! Proofs/EchoCheck.lean: what the echo check makes of the frame being sent (R30, R67). -/

namespace Sys2Proof.Machine.BerthBus

variable {s t u : State} {tx : SetpointTx}

/-! ## Where an entry is placed (R67) -/

/-- An entry goes behind those as old as it and before the newer ones. -/
theorem insertBy_between {e : Entry} {older newer : List Entry} (h : ∀ q ∈ older, q.age ≤ e.age) (h' : ∀ q ∈ newer, e.age < q.age) :
    insertBy (fun a b => decide (a.age < b.age)) e (older ++ newer) = older ++ e :: newer := by
  induction older with
  | nil =>
    cases newer with
    | nil => rfl
    | cons q newer => simp [insertBy, h' q (by simp)]
  | cons q older ih =>
    have first : ¬ e.age < q.age := Nat.not_lt.mpr (h q (by simp))
    simp [insertBy, first, ih fun r hr => h r (List.mem_cons_of_mem _ hr)]

theorem find_insertBy {α : Type} (before : α → α → Bool) (p : α → Bool) (a : α) (l : List α) (ha : p a = true)
    (hl : ∀ b ∈ l, ¬ p b = true) : (insertBy before a l).find? p = some a := by
  induction l with
  | nil => simp [insertBy, ha]
  | cons b l ih =>
    unfold insertBy; split
    · simp [ha]
    · rw [List.find?_cons_of_neg (hl b (by simp)), ih fun c hc => hl c (List.mem_cons_of_mem _ hc)]

/-- A returned entry is its berth's own, on the list or behind the trim that stands there. -/
theorem entryOf_returnEntry {x : Nat} {e : Entry} (own : e.ownOf x = true) (h : s.entryOf x = none) :
    (returnEntry e s).entryOf x = some e := by
  unfold State.entryOf at h ⊢
  rw [List.find?_append, Option.or_eq_none_iff] at h
  have unowned := List.find?_eq_none.mp h.1
  unfold returnEntry; dsimp only
  by_cases waits : (e.old.isNone && s.trimWaits e.berth) = true
  · rw [if_pos waits, if_pos waits]
    simp [List.find?_append, h.1, h.2, own]
  · rw [if_neg waits, if_neg waits, List.find?_append, find_insertBy _ _ e _ own unowned]; rfl

theorem returnEntry_list {e : Entry} {older newer : List Entry} (open_ : e.old.isSome = true ∨ s.trimWaits e.berth = false)
    (list : s.path.list = older ++ newer) (h : ∀ q ∈ older, q.age ≤ e.age) (h' : ∀ q ∈ newer, e.age < q.age) :
    returnEntry e s = { s with path := { s.path with list := older ++ e :: newer } } := by
  have placed : (e.old.isNone && s.trimWaits e.berth) = false := by
    obtain h | h := open_
    · cases old : e.old <;> simp [old] at h ⊢
    · simp [h]
  unfold returnEntry; rw [placed, list, insertBy_between h h']; rfl

/-- R3, R61: a berth's own work waits, and a queued berth becomes IDLE. -/
theorem holdWork_eq (x : Nat) (s : State) : holdWork x s = { s with
    berths := if (s.queuedOf x).isSome = true then s.berths.set x { s.berth x with setpoint := .idle } else s.berths
    path := { s.path with
      list := s.path.list.filter fun e => !e.ownOf x
      waiting := s.path.waiting ++ s.path.list.filter (·.ownOf x) ++
        (s.queuedOf x).toList.map fun q => ⟨x, q.tag, s.path.nextAge, none⟩
      queue := s.path.queue.filter fun q => decide (q.berth ≠ x) } } := by
  unfold holdWork
  cases queued : s.queuedOf x with
  | none =>
    have absent : (s.path.queue.filter fun q => decide (q.berth ≠ x)) = s.path.queue :=
      List.filter_eq_self.mpr fun q hq => by simpa using List.find?_eq_none.mp queued q hq
    rw [absent]; simp
  | some q => rfl

/-! ## The cases of R67 -/

/-- The trim of a map change, as it goes back to the list. -/
def trimEntry (tx : SetpointTx) : Entry := ⟨tx.berth, tx.tag, tx.age, some ⟨tx.cabinet, tx.shares.map (·.outlet)⟩⟩

theorem placeReturned_trim_stands (trim : tx.trim = true) (waits : s.trimWaits tx.berth = true) : placeReturned tx s = s := by
  unfold placeReturned; dsimp only; rw [if_pos trim, if_pos waits]

theorem placeReturned_trim (trim : tx.trim = true) (waits : s.trimWaits tx.berth = false) :
    placeReturned tx s = returnEntry (trimEntry tx) (holdWork tx.berth s) := by
  unfold placeReturned; dsimp only; rw [if_pos trim, waits]; rfl

theorem placeReturned_left (trim : tx.trim = false) (left : tx.left = true) :
    placeReturned tx s = supersede tx.berth tx.tag s := by
  unfold placeReturned; simp [trim, left]

theorem placeReturned_queued {q : Queued} (trim : tx.trim = false) (left : tx.left = false) (queued : s.queuedOf tx.berth = some q) :
    placeReturned tx s = if q.tag = 0 then { s with path := { s.path with
      queue := s.path.queue.map fun r => if r.berth = tx.berth then ⟨tx.berth, tx.tag⟩ else r } }
      else supersede tx.berth tx.tag s := by
  unfold placeReturned; simp [trim, left, queued]

theorem placeReturned_entry {e : Entry} (trim : tx.trim = false) (left : tx.left = false) (queued : s.queuedOf tx.berth = none)
    (entry : s.entryOf tx.berth = some e) : placeReturned tx s =
      returnEntry ⟨tx.berth, if e.tag = 0 then tx.tag else e.tag, min e.age tx.age, none⟩
        (removeEntry tx.berth (if e.tag = 0 then s else supersede tx.berth tx.tag s)) := by
  unfold placeReturned; simp [trim, left, queued, entry]

theorem placeReturned_fresh (trim : tx.trim = false) (left : tx.left = false) (queued : s.queuedOf tx.berth = none)
    (entry : s.entryOf tx.berth = none) : placeReturned tx s = returnEntry ⟨tx.berth, tx.tag, tx.age, none⟩ s := by
  unfold placeReturned; simp [trim, left, queued, entry]

/-! ## The abandonment (R30) -/

/-- The abandonment is counted and the line free. -/
def abandonCounted (x : Nat) (s : State) : State := { s with
  bus := { s.bus with line := .idle }
  berths := s.berths.set x { s.berth x with
    counters := { (s.berth x).counters with noConfirm := min 3 ((s.berth x).counters.noConfirm + 1) } } }

theorem abandonFrame_setpoint (line : s.bus.line = .setpointSending tx) (tx' : SetpointTx)
    (after : (countNoConfirm tx.berth s).bus.line = .setpointSending tx') :
    abandonFrame s = placeReturned tx' (setLine .idle (countNoConfirm tx.berth s)) := by
  unfold abandonFrame; rw [line]
  unfold abandonSetpoint; dsimp only; rw [after]

/-- R67, Log 29: an abandonment that latches nothing is counted, then the entry is placed. -/
theorem abandonFrame_counted (line : s.bus.line = .setpointSending tx)
    (h : (s.berth tx.berth).counters.noConfirm < 2 ∨ (s.berth tx.berth).flags.noConfirm = true ∨
      ((s.berth tx.berth).session ≠ .empty ∧ (s.berth tx.berth).session ≠ .connected ∧ (s.berth tx.berth).session ≠ .serving)) :
    abandonFrame s = placeReturned tx (abandonCounted tx.berth s) := by
  have quiet := countNoConfirm_quiet tx.berth s h
  rw [abandonFrame_setpoint line tx (by rw [quiet]; exact line), quiet]; rfl

/-- R67, R64: what the third abandonment in a row makes of the SETPOINT: its berth has left SERVING where it was there. -/
def abandonedTx (tx : SetpointTx) (s : State) : SetpointTx := { tx with left := decide ((s.berth tx.berth).session = .serving) || tx.left }

/-- The state the third abandonment in a row leaves before the entry is placed. -/
def abandonLatched (x : Nat) (s : State) : State :=
  setLine .idle (notify (.berthFault x .noConfirm x (s.berth x).bus (s.berth x).measured) (missedOut x s))

theorem abandonFrame_latched (line : s.bus.line = .setpointSending tx) (h : ThirdMiss tx.berth s) :
    abandonFrame s = placeReturned (abandonedTx tx s) (abandonLatched tx.berth s) := by
  have third := countNoConfirm_third h
  have after : (countNoConfirm tx.berth s).bus.line = .setpointSending (abandonedTx tx s) := by
    rw [third, (notify_same _ _).2.2.1, missedOut_bus h, line]; dsimp only
    unfold abandonedTx
    by_cases serving : (s.berth tx.berth).session = .serving
    · rw [if_pos serving]; simp [markLeft, serving]
    · rw [if_neg serving]; simp [serving]
  rw [abandonFrame_setpoint line _ after, third, abandonLatched]

/-! ## Behind the third abandonment in a row -/

variable {x : Nat}

theorem abandonLatched_berth (h : ThirdMiss x s) (y : Nat) : (abandonLatched x s).berth y =
    if y = x then faultedRecord (missedRecord (s.berth x)) else s.berth y := by
  have berths : (abandonLatched x s).berths = (missedOut x s).berths := by
    unfold abandonLatched; rw [setLine_berths]; simp only [notify_same]
  rw [← berth_missedOut h, berth_congr berths]

theorem abandonLatched_bus (h : ThirdMiss x s) : (abandonLatched x s).bus = { s.bus with line := .idle } := by
  unfold abandonLatched setLine; dsimp only
  rw [(notify_same _ _).2.2.1, missedOut_bus h]

theorem abandonLatched_path (x : Nat) (s : State) : (abandonLatched x s).path = (missedOut x s).path := by
  unfold abandonLatched; rw [setLine_path]; simp only [notify_same]

theorem abandonLatched_queuedOf (x : Nat) (s : State) : (abandonLatched x s).queuedOf x = none := by
  rw [queuedOf_filter (s := s) (x := x) (by rw [abandonLatched_path, missedOut_path]), if_pos rfl]

theorem abandonLatched_trimWaits (x : Nat) (s : State) : (abandonLatched x s).trimWaits x = s.trimWaits x := by
  refine trimWaits_congr x ?_
  have own_trim : (trimOf x s).filter (·.old.isSome) = [] := by unfold trimOf; split <;> rfl
  rw [abandonLatched_path, missedOut_path]
  dsimp only
  split
  · exact filter_trims_unowned x _
  · rw [List.filter_append, filter_trims_unowned, own_trim, List.append_nil]

theorem abandonLatched_entryOf (x : Nat) (s : State) : (abandonLatched x s).entryOf x =
    if s.commandedNonzero x = true then some ⟨x, 0, s.path.nextAge, none⟩ else none := by
  have gone : (withdrawWork x (atFault x (flagMissed x s))).entryOf x = none := by rw [entryOf_withdrawWork, if_pos rfl]
  have power : (withdrawWork x (atFault x (flagMissed x s))).commandedNonzero x = s.commandedNonzero x := by
    rw [(withdrawWork_step x _).commandedNonzero,
      commandedNonzero_congr ((flagMissed_same_berths x s).trans (atFault_same_berths x _))]
  rw [entryOf_congr_path (abandonLatched_path x s)]
  unfold missedOut
  rw [entryOf_zeroTrim, gone, power, withdrawWork_nextAge]; rfl

/-- R155: the record of the berth, as the statement reads it. -/
theorem latched_record (h : ThirdMiss x s) (berths : t.berths = (abandonLatched x s).berths) :
    (t.berth x).counters.noConfirm = 3 ∧ (t.berth x).flags = { (s.berth x).flags with noConfirm := true } ∧
    (t.berth x).session = .faulted ∧ (t.berth x).setpoint = .idle ∧ (t.berth x).commanded = (s.berth x).commanded ∧
    (t.berth x).confirmed = (s.berth x).confirmed ∧ (t.berth x).inFlight = (s.berth x).inFlight ∧ State.OthersKept x s t := by
  have record : t.berth x = faultedRecord (missedRecord (s.berth x)) := by
    rw [berth_congr berths, abandonLatched_berth h, if_pos rfl]
  have setpoint : (faultedRecord (missedRecord (s.berth x))).setpoint = .idle := by
    unfold faultedRecord missedRecord
    obtain e | e | e := h.session <;> rw [e]
  have others : State.OthersKept x s t := fun y other => by rw [berth_congr berths, abandonLatched_berth h, if_neg other]
  rw [record]
  refine ⟨?_, ?_, faultedRecord_session h.session, setpoint, ?_, ?_, ?_, others⟩ <;> rw [faultedRecord_fields] <;> rfl

theorem setLine_link (l : Line) (s : State) : (setLine l s).link = s.link := rfl

theorem abandonLatched_link (x : Nat) (s : State) : (abandonLatched x s).link =
    (notify (.berthFault x .noConfirm x (s.berth x).bus (s.berth x).measured) (missedOut x s)).link := by
  unfold abandonLatched; rw [setLine_link]

/-- The state before the notice of the latch, as the statement asks for it: its answers, and what the notice looks at. -/
theorem latched_link (h : ThirdMiss x s) (tag : Nat) (link : t.link = (supersede x tag (abandonLatched x s)).link) :
    ∃ u : State, u.link = (supersede x (entryTag (s.entryOf x)) (supersede x (queuedTag (s.queuedOf x)) s)).link ∧
      u.faults = s.faults ∧ (u.berth x).noticeEnable = (s.berth x).noticeEnable ∧
      t.link = (supersede x tag (notify (.berthFault x .noConfirm x (s.berth x).bus (s.berth x).measured) u)).link := by
  refine ⟨missedOut x s, missedOut_link x s, missedOut_faults x s, ?_, link.trans (supersede_link x tag (abandonLatched_link x s))⟩
  rw [berth_missedOut h, if_pos rfl, faultedRecord_fields]; rfl

theorem supersede_untagged (x : Nat) (s : State) : supersede x 0 s = s := rfl

theorem latched_link_untagged (h : ThirdMiss x s) (link : t.link = (abandonLatched x s).link) :
    ∃ u : State, u.link = (supersede x (entryTag (s.entryOf x)) (supersede x (queuedTag (s.queuedOf x)) s)).link ∧
      u.faults = s.faults ∧ (u.berth x).noticeEnable = (s.berth x).noticeEnable ∧
      t.link = (notify (.berthFault x .noConfirm x (s.berth x).bus (s.berth x).measured) u).link := by
  have untagged := latched_link h 0 (link.trans (congrArg State.link (supersede_untagged x _).symm))
  simpa only [supersede_untagged] using untagged

/-- R67: an entry that goes back changes the setpoint path alone. -/
theorem returnEntry_frame (e : Entry) (s : State) : (returnEntry e s).berths = s.berths ∧ (returnEntry e s).bus = s.bus ∧
    (returnEntry e s).link = s.link ∧ ∀ x, (returnEntry e s).queuedOf x = s.queuedOf x := ⟨rfl, rfl, rfl, fun _ => rfl⟩

theorem removeEntry_frame (x : Nat) (s : State) : (removeEntry x s).berths = s.berths ∧ (removeEntry x s).bus = s.bus ∧
    (removeEntry x s).link = s.link ∧ ∀ y, (removeEntry x s).queuedOf y = s.queuedOf y := ⟨rfl, rfl, rfl, fun _ => rfl⟩

/-- R67: where no work of its own but an untagged entry of a newer age stands, the returned entry is at its own age. -/
theorem placeReturned_alone (trim : tx.trim = false) (left : tx.left = false) (queued : s.queuedOf tx.berth = none)
    (entry : s.entryOf tx.berth = none ∨ ∃ age, tx.age < age ∧ s.entryOf tx.berth = some ⟨tx.berth, 0, age, none⟩) :
    let t := placeReturned tx s
    t.berths = s.berths ∧ t.bus = s.bus ∧ t.link = s.link ∧ t.queuedOf tx.berth = none ∧
      t.entryOf tx.berth = some ⟨tx.berth, tx.tag, tx.age, none⟩ := by
  intro t
  have own : Entry.ownOf tx.berth ⟨tx.berth, tx.tag, tx.age, none⟩ = true := by simp [Entry.ownOf]
  obtain none | ⟨age, newer, some⟩ := entry
  · have placed : t = returnEntry ⟨tx.berth, tx.tag, tx.age, Option.none⟩ s := placeReturned_fresh trim left queued none
    obtain ⟨berths, bus, link, queue⟩ := returnEntry_frame ⟨tx.berth, tx.tag, tx.age, Option.none⟩ s
    rw [placed]; exact ⟨berths, bus, link, (queue _).trans queued, entryOf_returnEntry own none⟩
  · have placed : t = returnEntry ⟨tx.berth, tx.tag, tx.age, none⟩ (removeEntry tx.berth s) := by
      have found := placeReturned_entry trim left queued some
      rw [if_pos rfl, if_pos rfl, Nat.min_eq_right (show tx.age ≤ (Entry.mk tx.berth 0 age none).age from Nat.le_of_lt newer)] at found
      exact found
    obtain ⟨berths, bus, link, queue⟩ := returnEntry_frame ⟨tx.berth, tx.tag, tx.age, none⟩ (removeEntry tx.berth s)
    obtain ⟨berths', bus', link', queue'⟩ := removeEntry_frame tx.berth s
    rw [placed]
    exact ⟨berths.trans berths', bus.trans bus', link.trans link', (queue _).trans ((queue' _).trans queued),
      entryOf_returnEntry own (by rw [entryOf_removeEntry, if_pos rfl])⟩

/-- R67: where the entry goes once its berth is FAULTED: answered where the berth has left SERVING, and at its place where not. -/
theorem placeReturned_latched (trim : tx.trim = false) (age : tx.age < s.path.nextAge) :
    let x := tx.berth
    let gone : Prop := (s.berth x).session = .serving ∨ tx.left = true
    let t := placeReturned (abandonedTx tx s) (abandonLatched x s)
    t.berths = (abandonLatched x s).berths ∧ t.bus = (abandonLatched x s).bus ∧ t.queuedOf x = none ∧
      t.link = (supersede x (if gone then tx.tag else 0) (abandonLatched x s)).link ∧
      (gone → t.entryOf x = (abandonLatched x s).entryOf x) ∧ (¬ gone → t.entryOf x = some ⟨x, tx.tag, tx.age, none⟩) := by
  intro x gone t
  have queued := abandonLatched_queuedOf x s
  have entry := abandonLatched_entryOf x s
  have left : (abandonedTx tx s).left = true ↔ gone := by simp [abandonedTx, gone, x]
  simp only [t]
  generalize abandonLatched x s = latched at queued entry
  by_cases out : gone
  · have placed : placeReturned (abandonedTx tx s) latched = supersede x tx.tag latched :=
      placeReturned_left (tx := abandonedTx tx s) trim (left.mpr out)
    rw [placed, if_pos out]
    exact ⟨supersede_berths _ _ _, by rw [supersede_only], (queuedOf_congr (by rw [supersede_path]) x).trans queued, rfl,
      fun _ => entryOf_congr_path (supersede_path _ _ _) x, fun h => absurd out h⟩
  · have stays : (abandonedTx tx s).left = false := by rw [← Bool.not_eq_true, left]; exact out
    have alone : latched.entryOf x = none ∨ ∃ age, tx.age < age ∧ latched.entryOf x = some ⟨x, 0, age, none⟩ := by
      rw [entry]; split
      · exact .inr ⟨_, age, rfl⟩
      · exact .inl rfl
    obtain ⟨berths, bus, link, queue, own⟩ := placeReturned_alone (tx := abandonedTx tx s) trim stays queued alone
    rw [if_neg out]
    exact ⟨berths, bus, queue, link, fun h => absurd h out, fun _ => own⟩

/-- R3, R67: the trim of a map change goes back before the zero trim that the latch has made, which waits for it. -/
theorem placeReturned_latched_trim (trim : tx.trim = true) (waits : s.trimWaits tx.berth = false) :
    placeReturned (abandonedTx tx s) (abandonLatched tx.berth s) = returnEntry (trimEntry tx)
      { abandonLatched tx.berth s with path := { s.path with
          list := s.path.list.filter fun e => !e.ownOf tx.berth
          waiting := (s.path.waiting.filter fun e => !e.ownOf tx.berth) ++ trimOf tx.berth s
          queue := s.path.queue.filter fun q => decide (q.berth ≠ tx.berth)
          nextAge := s.path.nextAge + (trimOf tx.berth s).length } } := by
  have own_trim : (trimOf tx.berth s).filter (·.ownOf tx.berth) = trimOf tx.berth s ∧
      (trimOf tx.berth s).filter (fun e => !e.ownOf tx.berth) = [] := by
    unfold trimOf; split
    · exact ⟨by simp [Entry.ownOf], by simp [Entry.ownOf]⟩
    · exact ⟨rfl, rfl⟩
  have unowned : (s.path.list.filter fun e => !e.ownOf tx.berth).filter (·.ownOf tx.berth) = [] := by
    rw [List.filter_filter]; simp
  have placed := placeReturned_trim (tx := abandonedTx tx s) (s := abandonLatched tx.berth s) trim
    (by rw [← waits]; exact abandonLatched_trimWaits tx.berth s)
  refine placed.trans (congrArg (returnEntry (trimEntry tx)) ?_)
  rw [show (abandonedTx tx s).berth = tx.berth from rfl, holdWork_eq, abandonLatched_queuedOf, abandonLatched_path, missedOut_path, waits]
  simp [List.filter_append, own_trim, unowned]

theorem returnEntry_only (e : Entry) (s : State) : returnEntry e s = { s with path := { s.path with
    list := (returnEntry e s).path.list, waiting := (returnEntry e s).path.waiting } } := rfl

theorem returnEntry_trim_waiting {e : Entry} (h : e.old.isSome = true) (s : State) : (returnEntry e s).path.waiting = s.path.waiting := by
  obtain ⟨a, ha⟩ := Option.isSome_iff_exists.mp h
  simp [returnEntry, ha]

/-! ## The other frames (R30) -/

theorem retryEnroll_again {n : Nat} (h : n < 2) (again : Nat → State → State) : retryEnroll (n + 1) again s = again (n + 1) s := by
  unfold retryEnroll; exact if_neg (by omega)

/-- The places of R67 for an abandonment that latches nothing. -/
theorem abandonCounted_reads (x : Nat) (s : State) : (∀ y, (abandonCounted x s).queuedOf y = s.queuedOf y) ∧
    (∀ y, (abandonCounted x s).entryOf y = s.entryOf y) ∧ ∀ y, (abandonCounted x s).trimWaits y = s.trimWaits y :=
  ⟨fun _ => rfl, fun _ => rfl, fun _ => rfl⟩

/-- Settles O53: a SETPOINT that latches nothing, then the third in a row of an entry and of a map change's trim, then the other
frames by what the line holds. -/
theorem abandonedFramesAreReturned : Obligations.AbandonedFramesAreReturned := by
  intro s live
  refine ⟨fun tx line hx mild => ?_, fun tx line trim hx age count own clear session => ?_,
    fun tx line trim hx count own clear session => ?_, fun f line => ?_, fun k line => ?_, fun n few line => ?_,
    fun k n few line => ?_, fun line => ?_, fun line => ?_⟩
  · intro x counted returned
    have run : exec .echoMismatch s = .next (placeReturned tx (abandonCounted x s)) := by
      rw [exec_echoMismatch live, abandonFrame_counted line mild]
    obtain ⟨queuedOf, entryOf, trimWaits⟩ := abandonCounted_reads x s
    refine ⟨fun trim waits older newer list below above => ?_, fun trim waits => ?_, fun trim left => ?_,
      fun trim left waits entry queued older newer list below above => ?_, fun q trim left queued => ⟨fun tagged => ?_, fun untagged => ?_⟩,
      fun e trim left queued entry => ?_⟩
    · have record : (abandonCounted x s).berth x = { s.berth x with
          counters := { (s.berth x).counters with noConfirm := min 3 ((s.berth x).counters.noConfirm + 1) } } :=
        berth_editBerth_self s (fun b => { b with
          counters := { b.counters with noConfirm := min 3 ((s.berth x).counters.noConfirm + 1) } }) hx
      rw [run, placeReturned_trim (s := abandonCounted x s) trim waits, holdWork_eq, returnEntry_list (e := trimEntry tx) (.inl rfl) list below above, record, queuedOf]
      cases s.queuedOf x with
      | none => rfl
      | some q => simp only [Option.isSome_some, if_true, abandonCounted, x, List.set_set]; rfl
    · rw [run, placeReturned_trim_stands (s := abandonCounted x s) trim waits]; rfl
    · rw [run, placeReturned_left (s := abandonCounted x s) trim left]; rfl
    · rw [run, placeReturned_fresh (s := abandonCounted x s) trim left queued entry, returnEntry_list (s := abandonCounted x s) (e := ⟨tx.berth, tx.tag, tx.age, none⟩)
        (.inr waits) list below above]; rfl
    · rw [run, placeReturned_queued (s := abandonCounted x s) trim left queued, if_neg tagged]; rfl
    · rw [run, placeReturned_queued (s := abandonCounted x s) trim left queued, if_pos untagged]; rfl
    · refine ⟨_, run, ?_⟩
      rw [placeReturned_entry (s := abandonCounted x s) trim left queued entry]
      generalize he : (⟨tx.berth, if e.tag = 0 then tx.tag else e.tag, min e.age tx.age, none⟩ : Entry) = back
      have back_own : back.ownOf tx.berth = true := by rw [← he]; simp [Entry.ownOf]
      generalize ha : (if e.tag = 0 then abandonCounted x s else supersede tx.berth tx.tag (abandonCounted x s)) = answered
      obtain ⟨berths, bus, link, -⟩ := returnEntry_frame back (removeEntry tx.berth answered)
      obtain ⟨berths', bus', link', -⟩ := removeEntry_frame tx.berth answered
      have answered_only : answered.berths = counted.berths ∧ answered.bus = counted.bus ∧
          answered.link = (if e.tag = 0 then s else supersede x tx.tag s).link := by
        rw [← ha]; split
        · exact ⟨rfl, rfl, rfl⟩
        · exact ⟨supersede_berths _ _ _, by rw [supersede_only]; rfl, supersede_link _ _ rfl⟩
      refine ⟨(berths.trans berths').trans answered_only.1, (bus.trans bus').trans answered_only.2.1, ?_,
        (link.trans link').trans answered_only.2.2⟩
      exact entryOf_returnEntry back_own (by rw [entryOf_removeEntry, if_pos rfl])
  · intro x
    have third : ThirdMiss x s := ⟨count, own, clear, session⟩
    obtain ⟨berths, bus, queued, link, gone, stays⟩ := placeReturned_latched trim age
    have line_idle : (abandonLatched x s).bus.line = .idle := by rw [abandonLatched_bus third]
    obtain ⟨counter, flags, faulted, -, commanded, confirmed, inFlight, others⟩ := latched_record third berths
    have run : exec .echoMismatch s = .next (placeReturned (abandonedTx tx s) (abandonLatched x s)) := by
      rw [exec_echoMismatch live, abandonFrame_latched line third]
    refine ⟨_, run, (congrArg BusMaster.line bus).trans line_idle, counter, flags,
      faulted, commanded, confirmed, inFlight, others, queued, fun out => (gone out).trans (abandonLatched_entryOf x s),
      fun unserved left => stays fun out => out.elim unserved (by simp [left]), latched_link third _ link⟩
  · intro x own_work others
    have third : ThirdMiss x s := ⟨count, own, clear, session⟩
    have run : exec .echoMismatch s = .next (placeReturned (abandonedTx tx s) (abandonLatched x s)) := by
      rw [exec_echoMismatch live, abandonFrame_latched line third]
    refine ⟨_, run, ?_⟩
    by_cases waits : s.trimWaits x = true
    · have placed : placeReturned (abandonedTx tx s) (abandonLatched x s) = abandonLatched x s :=
        placeReturned_trim_stands (tx := abandonedTx tx s) trim ((abandonLatched_trimWaits x s).trans waits)
      obtain ⟨counter, flags, faulted, idle, commanded, confirmed, inFlight, kept⟩ := latched_record third (t := abandonLatched x s) rfl
      have path : (abandonLatched x s).path = { s.path with
          list := others, waiting := (s.path.waiting.filter fun e => !e.ownOf x) ++ own_work
          queue := s.path.queue.filter fun q => decide (q.berth ≠ x), nextAge := s.path.nextAge + own_work.length } := by
        rw [abandonLatched_path, missedOut_path, if_pos waits, if_pos waits]; rfl
      rw [placed]
      exact ⟨abandonLatched_bus third, counter, flags, faulted, idle, commanded, confirmed, inFlight, kept, by rw [path],
        fun _ => by rw [path], fun h => Bool.noConfusion (waits.symm.trans h), latched_link_untagged third rfl⟩
    · have clear_list : s.trimWaits x = false := by simpa using waits
      rw [placeReturned_latched_trim trim clear_list]
      generalize hh : ({ abandonLatched x s with path := { s.path with
          list := s.path.list.filter fun e => !e.ownOf x
          waiting := (s.path.waiting.filter fun e => !e.ownOf x) ++ trimOf x s
          queue := s.path.queue.filter fun q => decide (q.berth ≠ x)
          nextAge := s.path.nextAge + (trimOf x s).length } } : State) = held
      have held_berths : held.berths = (abandonLatched x s).berths := by rw [← hh]
      have held_bus : held.bus = (abandonLatched x s).bus := by rw [← hh]
      have held_link : held.link = (abandonLatched x s).link := by rw [← hh]
      have held_path : held.path = { s.path with
          list := others, waiting := (s.path.waiting.filter fun e => !e.ownOf x) ++ own_work
          queue := s.path.queue.filter fun q => decide (q.berth ≠ x), nextAge := s.path.nextAge + own_work.length } := by rw [← hh]; rfl
      obtain ⟨berths, bus, link, -⟩ := returnEntry_frame (trimEntry tx) held
      obtain ⟨counter, flags, faulted, idle, commanded, confirmed, inFlight, kept⟩ := latched_record third (berths.trans held_berths)
      refine ⟨(bus.trans held_bus).trans (abandonLatched_bus third), counter, flags, faulted, idle, commanded, confirmed, inFlight, kept,
        ?_, fun h => absurd h waits, fun _ older newer split below above => ?_, latched_link_untagged third (link.trans held_link)⟩
      · rw [returnEntry_only]; dsimp only
        rw [returnEntry_trim_waiting rfl, held_path]
      · rw [returnEntry_list (e := trimEntry tx) (older := older) (newer := newer) (.inl rfl) (by rw [held_path]; exact split) below above]; rfl
  · rw [exec_echoMismatch live]; unfold abandonFrame; rw [line]; rfl
  · rw [exec_echoMismatch live]; unfold abandonFrame
    obtain line | line := line <;> rw [line]
  · rw [exec_echoMismatch live]; unfold abandonFrame; rw [line]; dsimp only; rw [retryEnroll_again few]; rfl
  · rw [exec_echoMismatch live]; unfold abandonFrame; rw [line]; dsimp only; rw [retryEnroll_again few]; rfl
  · rw [exec_echoMismatch live]; unfold abandonFrame; rw [line]
  · rw [exec_echoMismatch live]; unfold abandonFrame
    obtain line | line := line <;> rw [line]

end Sys2Proof.Machine.BerthBus
end

