-- ==== Sys2Proof/Proofs/EnrollmentEnds.lean ====
section
/-! Proofs/EnrollmentEnds.lean: what the end of an enrollment makes of the map, of the pending list's trims and of the
pass-through FIFO, in the order of its stages (R29, R30, R35, R46, R47). -/

namespace Sys2Proof.Machine.BerthBus

variable {s t u v : State}

/-! ## The answers of the map's work -/

/-- Only SUPERSEDED answers have joined the upstream FIFO. -/
def OnlySuperseded (s t : State) : Prop :=
  ∃ more, t.link.fifo = s.link.fifo ++ more ∧ ∀ f ∈ more, ∃ x tag, f = .reply (1 + x) tag .superseded .none

theorem OnlySuperseded.of_link (h : t.link = s.link) : OnlySuperseded s t :=
  ⟨[], by rw [h, List.append_nil], fun _ m => absurd m (by simp)⟩

theorem OnlySuperseded.trans (h : OnlySuperseded s t) (h' : OnlySuperseded t u) : OnlySuperseded s u := by
  obtain ⟨m, hm, all⟩ := h
  obtain ⟨n, hn, all'⟩ := h'
  exact ⟨m ++ n, by rw [hn, hm, List.append_assoc], fun f hf => (List.mem_append.mp hf).elim (all f) (all' f)⟩

theorem supersede_only_superseded (x tag : Nat) (s : State) : OnlySuperseded s (supersede x tag s) := by
  unfold supersede; split
  · exact .of_link rfl
  · unfold reply answer; split
    · exact ⟨[.reply (berthParty x) tag .superseded .none], rfl, fun f hf => ⟨x, tag, List.mem_singleton.mp hf⟩⟩
    · exact ⟨[], by simp, fun _ m => absurd m (by simp)⟩

/-! ## A berth brought in line (R3, R47) -/

/-- What bringing one berth in line, or several, may do beside its records. -/
structure AlignStep (s t : State) : Prop where
  session : SessionStep s t
  runs : t.runs = s.runs
  faults : t.faults = s.faults
  answers : OnlySuperseded s t

theorem AlignStep.refl (s : State) : AlignStep s s := ⟨.refl s, rfl, rfl, .of_link rfl⟩

theorem AlignStep.trans (h : AlignStep s t) (h' : AlignStep t u) : AlignStep s u :=
  ⟨h.session.trans h'.session, h'.runs.trans h.runs, h'.faults.trans h.faults, h.answers.trans h'.answers⟩

theorem dissociate_frame (x : Nat) (s : State) : (dissociate x s).runs = s.runs ∧ (dissociate x s).faults = s.faults ∧
    (dissociate x s).link = s.link := by
  unfold dissociate; split <;> simp

theorem detachedTrim_frame (x : Nat) (s : State) : (detachedTrim x s).runs = s.runs ∧ (detachedTrim x s).faults = s.faults ∧
    (detachedTrim x s).link = s.link := by
  unfold detachedTrim; split
  · split <;> exact ⟨rfl, rfl, rfl⟩
  · exact ⟨rfl, rfl, rfl⟩

theorem withdrawWork_runs (x : Nat) (s : State) : (withdrawWork x s).runs = s.runs :=
  (onlyPath_iff.mp (withdrawWork_step x s).only).2.2.2.2.2.2.2.1

theorem withdrawWork_answers (x : Nat) (s : State) : OnlySuperseded s (withdrawWork x s) :=
  ((supersede_only_superseded x _ s).trans (supersede_only_superseded x _ _)).trans (.of_link (withdrawWork_link x s))

theorem editBerth_frame (x : Nat) (f : Berth → Berth) (s : State) : (s.editBerth x f).runs = s.runs ∧
    (s.editBerth x f).faults = s.faults ∧ (s.editBerth x f).link = s.link := by
  simp only [editBerth_self_same, and_self]

theorem loseSession_align (x : Nat) (s : State) : AlignStep s (loseSession x s) := by
  refine ⟨loseSession_step x s, ?_, ?_, ?_⟩ <;> unfold loseSession <;> dsimp only
  · rw [(dissociate_frame x _).1, (editBerth_frame x _ _).1, (detachedTrim_frame x _).1, withdrawWork_runs]
  · rw [(dissociate_frame x _).2.1, (editBerth_frame x _ _).2.1, (detachedTrim_frame x _).2.1, withdrawWork_faults]
  · refine OnlySuperseded.trans (t := withdrawWork x { s with bus := { s.bus with line := markDetached x s.bus.line } })
      (withdrawWork_answers x { s with bus := { s.bus with line := markDetached x s.bus.line } }) (.of_link ?_)
    rw [(dissociate_frame x _).2.2, (editBerth_frame x _ _).2.2, (detachedTrim_frame x _).2.2]

theorem AlignStep.edit (h : AlignStep s t) (x : Nat) (f : Berth → Berth) (step : SessionStep s (t.editBerth x f)) :
    AlignStep s (t.editBerth x f) := by
  obtain ⟨runs, faults, link⟩ := editBerth_frame x f t
  exact ⟨step, runs.trans h.runs, faults.trans h.faults, h.answers.trans (.of_link link)⟩

theorem unmapBerth_align (x : Nat) (s : State) : AlignStep s (unmapBerth x s) := by
  by_cases configured : (s.berth x).configured = true
  · have step := unmapBerth_step x s
    unfold unmapBerth at step ⊢
    rw [if_pos configured] at step ⊢
    exact (loseSession_align x s).edit x _ step
  · unfold unmapBerth; rw [if_neg configured]; exact .refl s

theorem alignBerth_align (x : Nat) (s : State) : AlignStep s (alignBerth x s) := by
  have step := alignBerth_step x s
  unfold alignBerth at step ⊢
  split
  case h_1 c o hc ho =>
    simp only [hc, ho] at step
    split
    · exact unmapBerth_align x s
    next figures found => simp only [found] at step; exact (AlignStep.refl s).edit x _ step
  case h_2 => exact .refl s

theorem lineKind_self {l m : Line} (h : lineKind l = some m) : l = m := by
  cases l <;> simp only [lineKind, Option.some.injEq, reduceCtorEq] at h <;> exact h

/-- Where the line holds no SETPOINT the session operations leave the bus as it was. -/
theorem bus_of_session (h : SessionStep s t) (held : lineKind s.bus.line = some s.bus.line) : t.bus = s.bus := by
  obtain ⟨-, -, -, bus, -⟩ := onlySessions_iff.mp h.only
  rw [bus, lineKind_self (h.line.trans held)]

theorem outletRecord_congr (h : t.bus.cabinets = s.bus.cabinets) (c o : Nat) : t.outletRecord c o = s.outletRecord c o := by
  unfold State.outletRecord State.cabinet?; rw [h]

/-- R3, R47: a configured berth's record brought in line with the cabinet list of `s`. -/
def alignedRecord (s : State) (b : Berth) : Berth :=
  match b.cabinet, b.outlet with
  | some c, some o =>
    match s.outletRecord c o with
    | none => { b with
        grant := 0, commanded := 0, confirmed := 0, request := none, done := false, doneByComplete := false
        projectedShort := false, flags := .clear, counters := .zero, enable := false, setpoint := .idle, bus := none
        configured := false, cabinet := none, outlet := none, group := none, partner := none, coupling := .single
        hwCharge := 0, hwDischarge := 0, session := .unconfigured }
    | some figures => { b with hwCharge := figures.charge, hwDischarge := figures.discharge }
  | _, _ => b

theorem alignedRecord_listed {c o : Nat} {figures : Outlet} {b : Berth} (hc : b.cabinet = some c) (ho : b.outlet = some o)
    (found : s.outletRecord c o = some figures) :
    alignedRecord s b = { b with hwCharge := figures.charge, hwDischarge := figures.discharge } := by
  unfold alignedRecord; rw [hc, ho]; dsimp only; rw [found]

theorem alignedRecord_gone {c o : Nat} {b : Berth} (hc : b.cabinet = some c) (ho : b.outlet = some o)
    (gone : s.outletRecord c o = none) : (alignedRecord s b).configured = false ∧ (alignedRecord s b).session = .unconfigured ∧
      (alignedRecord s b).cabinet = none ∧ (alignedRecord s b).bus = none ∧ (alignedRecord s b).grant = 0 := by
  unfold alignedRecord; rw [hc, ho]; dsimp only; rw [gone]; exact ⟨rfl, rfl, rfl, rfl, rfl⟩

theorem alignedRecord_congr (h : t.bus.cabinets = s.bus.cabinets) (b : Berth) : alignedRecord t b = alignedRecord s b := by
  unfold alignedRecord; simp only [outletRecord_congr h]

/-- R47: bringing one configured berth in line touches no other's record. -/
theorem berth_alignBerth {x : Nat} (configured : (s.berth x).configured = true) (y : Nat) :
    (alignBerth x s).berth y = if y = x then alignedRecord s (s.berth x) else s.berth y := by
  have unchanged : s.berth y = if y = x then s.berth x else s.berth y := by
    by_cases same : y = x <;> simp [same]
  unfold alignBerth alignedRecord
  cases hc : (s.berth x).cabinet with
  | none => exact unchanged
  | some c =>
    cases ho : (s.berth x).outlet with
    | none => exact unchanged
    | some o =>
      dsimp only
      cases s.outletRecord c o with
      | none => dsimp only; rw [berth_unmapBerth]; simp only [configured, and_true]
      | some figures => dsimp only; rw [berth_editBerth]; simp only [lt_length_of_configured configured, and_true, hc, ho]

/-! ## All configured berths brought in line (R47) -/

theorem foldl_alignBerth (l : List Nat) (s : State) : AlignStep s (l.foldl (fun s x => alignBerth x s) s) := by
  induction l generalizing s with
  | nil => exact .refl s
  | cons x l ih => exact (alignBerth_align x s).trans (ih _)

theorem berth_foldl_alignBerth (l : List Nat) (s : State) (distinct : l.Nodup) (configured : ∀ x ∈ l, (s.berth x).configured = true)
    (y : Nat) : (l.foldl (fun s x => alignBerth x s) s).berth y = if y ∈ l then alignedRecord s (s.berth y) else s.berth y := by
  induction l generalizing s with
  | nil => simp
  | cons x l ih =>
    obtain ⟨fresh, rest⟩ := List.nodup_cons.mp distinct
    have first := berth_alignBerth (configured x (by simp))
    have cabinets : (alignBerth x s).bus.cabinets = s.bus.cabinets := by
      rw [(onlySessions_iff.mp (alignBerth_step x s).only).2.2.2.1]
    have later : ∀ z ∈ l, z ≠ x := fun z hz same => fresh (same ▸ hz)
    rw [List.foldl_cons, ih (alignBerth x s) rest
      (fun z hz => by rw [first z, if_neg (later z hz)]; exact configured z (List.mem_cons_of_mem x hz)), alignedRecord_congr cabinets]
    by_cases here : y ∈ l
    · rw [if_pos here, if_pos (List.mem_cons_of_mem x here), first, if_neg (later y here)]
    · rw [if_neg here, first]
      by_cases same : y = x
      · rw [if_pos same, if_pos (by simp [same]), same]
      · rw [if_neg same, if_neg (by simp [same, here])]

/-- R47: the receiver emptied and CHAIN_OUT lowered. -/
def chainLowered (u : State) : State := closeReceiver { u with bus := { u.bus with chainOut := false } }

/-- R47: after that, every configured berth brought in line. -/
def alignedMap (u : State) : State :=
  (chainLowered u).configuredBerths.foldl (fun s x => alignBerth x s) (chainLowered u)

theorem alignedMap_step (u : State) : AlignStep (chainLowered u) (alignedMap u) :=
  foldl_alignBerth _ _

theorem alignedMap_bus (held : lineKind u.bus.line = some u.bus.line) :
    (alignedMap u).bus = { u.bus with chainOut := false, rx := [] } :=
  bus_of_session (alignedMap_step u).session held

theorem mem_configuredBerths (short : s.berths.length = 36) {x : Nat} : x ∈ s.configuredBerths ↔ (s.berth x).configured = true := by
  unfold State.configuredBerths berthNumbers
  rw [List.mem_filter, List.mem_range]
  exact ⟨And.right, fun h => ⟨(lt_length_of_configured h).trans_eq short, h⟩⟩

theorem alignedMap_berth (short : u.berths.length = 36) (y : Nat) : (alignedMap u).berth y =
    if (u.berth y).configured = true then alignedRecord u (u.berth y) else u.berth y := by
  have member : ∀ x, x ∈ (chainLowered u).configuredBerths ↔
      (u.berth x).configured = true := fun x => mem_configuredBerths short
  unfold alignedMap
  rw [berth_foldl_alignBerth (chainLowered u).configuredBerths (chainLowered u) (List.nodup_range.filter _) (fun x hx => (member x).mp hx)]
  simp only [member]
  rfl

/-- Without a configured berth nothing is brought in line. -/
theorem alignedMap_unmapped (h : ∀ x, (u.berth x).configured = false) :
    alignedMap u = chainLowered u := by
  have none : (chainLowered u).configuredBerths = [] :=
    List.filter_eq_nil_iff.mpr fun x _ => by rw [Bool.not_eq_true]; exact h x
  unfold alignedMap; rw [none]; rfl

/-! ## The pending list and the pass-through FIFO on the new list (R29, R47) -/

/-- The trims at old addresses are for outlets on the cabinet list of `s`. -/
def TrimsListed (s : State) (l : List Entry) : Prop :=
  ∀ e ∈ l, ∀ a, e.old = some a → a.outlets ≠ [] ∧ ∀ o ∈ a.outlets, (s.outletRecord a.cabinet o).isSome = true

theorem TrimsListed.congr {l : List Entry} (h : TrimsListed s l) (cabinets : t.bus.cabinets = s.bus.cabinets) : TrimsListed t l :=
  fun e he a ha => by simp only [outletRecord_congr cabinets]; exact h e he a ha

theorem trimsListed_kept (s : State) : TrimsListed s ((s.path.list.filter fun e => !s.strayTrim e).map s.relisted) := by
  rintro e he a ha
  obtain ⟨before, kept, rfl⟩ := List.mem_map.mp he
  obtain ⟨address, old, rfl⟩ := Option.map_eq_some_iff.mp ha
  have some_left : (s.listedOutlets address).isEmpty = false := by
    simpa [State.strayTrim, old] using (List.mem_filter.mp kept).2
  exact ⟨by simpa using some_left, fun o ho => (List.mem_filter.mp ho).2⟩

/-- The work that waited behind a trim is no trim itself. -/
theorem trimsListed_releaseWork {s : State} (x : Nat) {u : State} (h : TrimsListed s u.path.list) :
    TrimsListed s (releaseWork x u).path.list := by
  unfold releaseWork; split
  · exact h
  · unfold addEntry; dsimp only; split
    · exact h
    · rintro e he a ha
      obtain old | fresh := List.mem_append.mp he
      · exact h e old a ha
      · rw [List.mem_singleton.mp fresh] at ha; cases ha

theorem trimsListed_dropStrayTrims (s : State) : TrimsListed s (dropStrayTrims s).path.list := by
  unfold dropStrayTrims; dsimp only
  exact foldl_inv (fun u : State => TrimsListed s u.path.list) (fun u (e : Entry) => releaseWork e.berth u)
    (fun _ e h => trimsListed_releaseWork e.berth h) _ _ (trimsListed_kept s)

theorem releaseWork_path (x : Nat) (s : State) : releaseWork x s = { s with path := (releaseWork x s).path } := by
  unfold releaseWork; split <;> rfl

/-- R29: the trims that go change nothing but the waiting work. -/
theorem dropStrayTrims_path (s : State) : dropStrayTrims s = { s with path := (dropStrayTrims s).path } := by
  unfold dropStrayTrims; dsimp only
  refine foldl_inv (fun u : State => u = { s with path := u.path }) (fun u (e : Entry) => releaseWork e.berth u)
    (fun u e h => ?_) _ _ rfl
  rw [releaseWork_path e.berth u, h]

theorem old_of_mem_agedFrom {first : Nat} {l : List Entry} {e : Entry} (h : e ∈ agedFrom first l) : ∃ e' ∈ l, e.old = e'.old := by
  induction l generalizing first with
  | nil => cases h
  | cons a l ih =>
    obtain rfl | later := List.mem_cons.mp h
    · exact ⟨a, by simp, rfl⟩
    · obtain ⟨e', he', same⟩ := ih later
      exact ⟨e', List.mem_cons_of_mem a he', same⟩

/-- R54: the ages of one event's entries leave every address. -/
theorem trimsListed_ageByBerth {first : Nat} {u : State} (h : TrimsListed s u.path.list) :
    TrimsListed s (ageByBerth first u).path.list := by
  rintro e he a ha
  obtain kept | aged := List.mem_append.mp he
  · exact h e (List.mem_filter.mp kept).1 a ha
  · obtain ⟨e', he', same⟩ := old_of_mem_agedFrom aged
    exact h e' (List.mem_filter.mp ((sortBy_perm _ _).mem_iff.mp he')).1 a (same ▸ ha)

/-- R47: the frame's cabinet, or every cabinet, is on the list. -/
def passStays (s : State) (f : PassFrame) : Bool :=
  match f.cabinet with
  | none => true
  | some c => decide (1 ≤ c ∧ c ≤ s.bus.cabinets.length)

/-- The BAD_VALUE answers of the frames that go. -/
def straysAnswered (s : State) (w : State) : State :=
  (s.bus.passFifo.filter fun f => !passStays s f).foldl (fun w f => passReply f .badValue .none w) w

theorem straysAnswered_link (s : State) {w w' : State} (h : w'.link = w.link) :
    (straysAnswered s w').link = (straysAnswered s w).link := by
  unfold straysAnswered
  generalize s.bus.passFifo.filter _ = l
  induction l generalizing w w' with
  | nil => exact h
  | cons f l ih => exact ih (answer_link _ h)

theorem straysAnswered_only (s w : State) : straysAnswered s w = { w with link := (straysAnswered s w).link } := by
  unfold straysAnswered
  refine foldl_inv (fun u : State => u = { w with link := u.link }) _ (fun u f h => ?_) _ _ rfl
  rw [h]; unfold passReply reply answer; split <;> rfl

/-- R47: the frame's cabinet is no longer on the list, as the model computes it. -/
def passStray (s : State) (f : PassFrame) : Bool :=
  match f.cabinet with
  | none => false
  | some c => (s.cabinet? c).isNone

theorem passStray_eq (s : State) : passStray s = fun f => !passStays s f := by
  funext f
  unfold passStray passStays
  cases f.cabinet with
  | none => rfl
  | some c =>
    dsimp only
    rw [Bool.eq_iff_iff, cabinet_isNone_iff, Bool.not_eq_true', decide_eq_false_iff_not]

theorem dropStrayPasses_eq (s : State) : dropStrayPasses s =
    straysAnswered s { s with bus := { s.bus with passFifo := s.bus.passFifo.filter (passStays s) } } := by
  have unfolded : dropStrayPasses s = (s.bus.passFifo.filter (passStray s)).foldl (fun w f => passReply f .badValue .none w)
      { s with bus := { s.bus with passFifo := s.bus.passFifo.filter fun f => !passStray s f } } := rfl
  rw [unfolded, passStray_eq]
  simp only [Bool.not_not]
  rfl

/-! ## The end of an enrollment (R47, R35) -/

/-- A notice of the controller looks at the upstream FIFO and the notice flags alone. -/
theorem notify_congr {b : NoticeBody} (controller : b.subjectBerth = none) (link : t.link = s.link) (faults : t.faults = s.faults) :
    (notify b t).link = (notify b s).link ∧ (notify b t).faults = (notify b s).faults := by
  have enabled : t.noticeEnabled b = s.noticeEnabled b := by unfold State.noticeEnabled; rw [controller, faults]
  have count : t.noticeCount = s.noticeCount := by unfold State.noticeCount; rw [link]
  have second : t.stampedSecond = s.stampedSecond := by unfold State.stampedSecond; rw [link]
  unfold notify
  rw [enabled, count, second, link]
  split
  · split
    · exact ⟨rfl, faults⟩
    · exact ⟨rfl, by rw [faults]⟩
  · exact ⟨link, faults⟩

/-- The line is free and the next survey FULL. -/
def lineFreed (s : State) : State :=
  { s with bus := { s.bus with nextKind := .full, quietCount := 0, recheck := true, line := .idle } }

/-- What the end of an enrollment has done before its notice. -/
def listSettled (u : State) : State := lineFreed (dropStrayPasses (dropStrayTrims (alignedMap u)))

theorem endEnrollment_closeReceiver (u : State) : endEnrollment (closeReceiver u) = endEnrollment u := rfl

theorem autorunEnd_off (h : s.ctl.autorun = false) : autorunEnd s = s := by
  unfold autorunEnd; rw [h]; rfl

theorem straysAnswered_congr (cabinets : t.bus.cabinets = s.bus.cabinets) (fifo : t.bus.passFifo = s.bus.passFifo) (w : State) :
    straysAnswered t w = straysAnswered s w := by
  unfold straysAnswered passStays; rw [cabinets, fifo]

/-- The berth bus once an enrollment has ended. -/
def enrolledBus (u : State) : BusMaster :=
  { u.bus with
    line := .idle, rx := [], chainOut := false, nextKind := .full, quietCount := 0, recheck := true
    passFifo := u.bus.passFifo.filter (passStays u) }

theorem listSettled_eq (held : lineKind u.bus.line = some u.bus.line) : listSettled u = { alignedMap u with
    link := (straysAnswered u (alignedMap u)).link
    bus := enrolledBus u
    path := (dropStrayTrims (alignedMap u)).path } := by
  have bus := alignedMap_bus held
  unfold listSettled
  generalize alignedMap u = a at bus ⊢
  have trims : (dropStrayTrims a).bus = a.bus := by rw [dropStrayTrims_path]
  have stays : passStays (dropStrayTrims a) = passStays u := by unfold passStays; rw [trims, bus]
  rw [dropStrayPasses_eq, straysAnswered_congr (s := u) (by rw [trims, bus]) (by rw [trims, bus]), straysAnswered_only,
    straysAnswered_link (w := a) u (by rw [dropStrayTrims_path]), stays, trims, bus, dropStrayTrims_path]
  rfl

/-- The records as the end of an enrollment leaves them, its notice and the ages left aside. -/
theorem listSettled_reads (held : lineKind u.bus.line = some u.bus.line) :
    (listSettled u).link = (straysAnswered u (alignedMap u)).link ∧ (listSettled u).bus = enrolledBus u ∧
      (listSettled u).berths = (alignedMap u).berths ∧ (listSettled u).path = (dropStrayTrims (alignedMap u)).path ∧
      (listSettled u).faults = (alignedMap u).faults := by
  rw [listSettled_eq held]; exact ⟨rfl, rfl, rfl, rfl, rfl⟩

theorem endEnrollment_eq (auto : u.ctl.autorun = false) (held : lineKind u.bus.line = some u.bus.line) :
    endEnrollment u = ageByBerth u.path.nextAge (notify (.enrolled u.bus.cabinets.length) (listSettled u)) := by
  have ctl : (listSettled u).ctl = u.ctl := by
    rw [listSettled_eq held]; exact (onlySessions_iff.mp (alignedMap_step u).session.only).2.1
  have off : (notify (.enrolled (listSettled u).bus.cabinets.length) (listSettled u)).ctl.autorun = false := by
    rw [(notify_same _ _).2.1, ctl]; exact auto
  have cabinets : (listSettled u).bus.cabinets = u.bus.cabinets := congrArg (·.cabinets) (listSettled_reads held).2.1
  have unfolded : endEnrollment u =
      ageByBerth u.path.nextAge (autorunEnd (notify (.enrolled (listSettled u).bus.cabinets.length) (listSettled u))) := rfl
  rw [unfolded, autorunEnd_off off, cabinets]

/-- What the end of an enrollment may change. -/
def EndsOnly (s t : State) : Prop :=
  t = { s with
    link := { s.link with fifo := t.link.fifo, answerLost := t.link.answerLost }
    bus := t.bus
    berths := t.berths
    fleet := t.fleet
    path := { s.path with list := t.path.list, waiting := t.path.waiting, queue := t.path.queue, nextAge := t.path.nextAge }
    faults := { s.faults with noticeLost := t.faults.noticeLost } }

theorem endsOnly_iff : EndsOnly s t ↔ t.pending = s.pending ∧ t.ctl = s.ctl ∧
    t.link = { s.link with fifo := t.link.fifo, answerLost := t.link.answerLost } ∧ t.meter = s.meter ∧
    t.groups = s.groups ∧ t.runs = s.runs ∧ t.alloc = s.alloc ∧
    t.path = { s.path with list := t.path.list, waiting := t.path.waiting, queue := t.path.queue, nextAge := t.path.nextAge } ∧
    t.storage = s.storage ∧ t.reserve = s.reserve ∧ t.faults = { s.faults with noticeLost := t.faults.noticeLost } := by
  unfold EndsOnly
  cases s; cases t; simp only [State.mk.injEq]; tauto

theorem EndsOnly.trans (h : EndsOnly s t) (h' : EndsOnly t u) : EndsOnly s u := by
  rw [endsOnly_iff] at *
  obtain ⟨a1, a2, a3, a4, a5, a6, a7, a8, a9, a10, a11⟩ := h
  obtain ⟨b1, b2, b3, b4, b5, b6, b7, b8, b9, b10, b11⟩ := h'
  refine ⟨b1.trans a1, b2.trans a2, ?_, b4.trans a4, b5.trans a5, b6.trans a6, b7.trans a7, ?_, b9.trans a9, b10.trans a10, ?_⟩
  · rw [b3, a3]
  · rw [b8, a8]
  · rw [b11, a11]

theorem EndsOnly.of_path (h : s.OnlyPath t) : EndsOnly s t := by
  rw [onlyPath_iff] at h; rw [endsOnly_iff]
  obtain ⟨pending, ctl, link, -, meter, groups, -, runs, alloc, path, storage, reserve, faults⟩ := h
  exact ⟨pending, ctl, link, meter, groups, runs, alloc, path, storage, reserve, by rw [faults]⟩

theorem EndsOnly.of_queue (h : s.OnlyQueue t) : EndsOnly s t := by
  rw [onlyQueue_iff] at h; rw [endsOnly_iff]
  obtain ⟨pending, ctl, link, -, meter, -, groups, -, runs, alloc, path, storage, reserve, faults⟩ := h
  exact ⟨pending, ctl, link, meter, groups, runs, alloc, by rw [path], storage, reserve, faults⟩

theorem EndsOnly.of_align (h : AlignStep s t) : EndsOnly s t := by
  have only := onlySessions_iff.mp h.session.only
  rw [endsOnly_iff]
  obtain ⟨pending, ctl, link, -, meter, groups, -, alloc, path, storage, reserve, -⟩ := only
  exact ⟨pending, ctl, link, meter, groups, h.runs, alloc, path, storage, reserve, by rw [h.faults]⟩

theorem straysAnswered_queue (s w : State) : w.OnlyQueue (straysAnswered s w) := by
  unfold straysAnswered
  exact foldl_inv (fun u : State => w.OnlyQueue u) _ (fun u f h => h.trans (answer_onlyQueue _ u)) _ _ (.refl w)

theorem dropStrayPasses_ends (s : State) : EndsOnly s (dropStrayPasses s) := by
  rw [dropStrayPasses_eq]
  exact EndsOnly.trans (t := { s with bus := { s.bus with passFifo := s.bus.passFifo.filter (passStays s) } }) rfl
    (.of_queue (straysAnswered_queue s _))

theorem lineFreed_ends (s : State) : EndsOnly s (lineFreed s) := rfl

theorem listSettled_ends (u : State) : EndsOnly u (listSettled u) :=
  EndsOnly.trans (t := chainLowered u) rfl (.trans (.of_align (alignedMap_step u))
    (.trans (.of_path (dropStrayTrims_step (alignedMap u)).only) (.trans (dropStrayPasses_ends _) (lineFreed_ends _))))

/-! ## The outcome of an enrollment's end -/

theorem ageByBerth_frame (first : Nat) (s : State) : (ageByBerth first s).link = s.link ∧ (ageByBerth first s).faults = s.faults ∧
    (ageByBerth first s).berths = s.berths := ⟨rfl, rfl, rfl⟩

theorem endEnrollment_frame (auto : u.ctl.autorun = false) (held : lineKind u.bus.line = some u.bus.line) :
    endEnrollment u = { u with
      link := { u.link with fifo := (endEnrollment u).link.fifo, answerLost := (endEnrollment u).link.answerLost }
      bus := enrolledBus u
      berths := (endEnrollment u).berths
      fleet := (endEnrollment u).fleet
      path := { u.path with
        list := (endEnrollment u).path.list, waiting := (endEnrollment u).path.waiting
        queue := (endEnrollment u).path.queue, nextAge := (endEnrollment u).path.nextAge }
      faults := { u.faults with noticeLost := (endEnrollment u).faults.noticeLost } } := by
  have ended : EndsOnly u (endEnrollment u) := by
    rw [endEnrollment_eq auto held]
    exact .trans (listSettled_ends u) (.trans (.of_queue (notify_onlyQueue _ _)) (.of_path (ageByBerth_step _ _).only))
  have bus : (endEnrollment u).bus = (listSettled u).bus := by
    rw [endEnrollment_eq auto held, ageByBerth_bus, (notify_same _ _).2.2.1]
  rw [(listSettled_reads held).2.1] at bus
  generalize endEnrollment u = t at ended bus ⊢
  rw [← bus]
  exact ended

/-- The notice and the answers before it, over any state with the link and the flags of the map's answers. -/
theorem endEnrollment_tells (auto : u.ctl.autorun = false) (held : lineKind u.bus.line = some u.bus.line)
    (link : v.link = (alignedMap u).link) (faults : v.faults = u.faults) :
    (endEnrollment u).link = (notify (.enrolled u.bus.cabinets.length) (straysAnswered u v)).link ∧
      (endEnrollment u).faults = (notify (.enrolled u.bus.cabinets.length) (straysAnswered u v)).faults := by
  obtain ⟨fifo, -, -, -, flags⟩ := listSettled_reads held
  have told := notify_congr (t := listSettled u) (s := straysAnswered u v) (b := .enrolled u.bus.cabinets.length) rfl
    (fifo.trans (straysAnswered_link u link.symm))
    (by rw [flags, (alignedMap_step u).faults, straysAnswered_only u v]; exact faults.symm)
  obtain ⟨link', faults', -⟩ :=
    ageByBerth_frame u.path.nextAge (notify (.enrolled u.bus.cabinets.length) (listSettled u))
  rw [endEnrollment_eq auto held, link', faults']
  exact told

theorem endEnrollment_trims (auto : u.ctl.autorun = false) (held : lineKind u.bus.line = some u.bus.line) :
    TrimsListed u (endEnrollment u).path.list := by
  obtain ⟨-, -, -, path, -⟩ := listSettled_reads held
  have cabinets : u.bus.cabinets = (alignedMap u).bus.cabinets := by rw [alignedMap_bus held]
  rw [endEnrollment_eq auto held]
  refine trimsListed_ageByBerth ?_
  rw [(notify_same _ _).2.2.2.2.2.2.2.2.2.1, path]
  exact (trimsListed_dropStrayTrims (alignedMap u)).congr cabinets

theorem endEnrollment_berth (auto : u.ctl.autorun = false) (held : lineKind u.bus.line = some u.bus.line)
    (short : u.berths.length = 36) (x : Nat) : (endEnrollment u).berth x =
    if (u.berth x).configured = true then alignedRecord u (u.berth x) else u.berth x := by
  obtain ⟨-, -, berths, -, -⟩ := listSettled_reads held
  have same : (endEnrollment u).berths = (alignedMap u).berths := by
    rw [endEnrollment_eq auto held, (ageByBerth_frame _ _).2.2, (notify_same _ _).2.2.2.2.1, berths]
  rw [berth_congr same, alignedMap_berth short]

/-! ## The events that end an enrollment -/

theorem exec_last_report (live : s.Live) {k : Nat} {body : List Byte} {record : Cabinet} (line : s.bus.line = .enrollReply k)
    (h : reportRecord body = some record) (fresh : ∀ r ∈ s.bus.cabinets, r.serial ≠ record.serial) (last : 12 ≤ k) :
    exec (.enrollReport k body) s =
      .next (endEnrollment { s with bus := { s.bus with cabinets := s.bus.cabinets ++ [record] } }) := by
  rw [exec_enrollReport live, acceptReport_record line h, takeReport_new fresh]
  dsimp only
  rw [if_pos last, endEnrollment_closeReceiver]

theorem exec_third_abandonment (live : s.Live) (line : ∃ k, s.bus.line = .enrollForget 2 ∨ s.bus.line = .enrollAssign k 2) :
    exec .echoMismatch s = .next (endEnrollment s) := by
  rw [exec_echoMismatch live]
  obtain ⟨k, line | line⟩ := line <;> unfold abandonFrame <;> rw [line] <;> rfl

/-- Settles O56: the stages of the end in turn, and the events that bring it. -/
theorem enrollmentEnds : Obligations.EnrollmentEnds := by
  intro s c u live autorun short event stays
  have same : stays = passStays u := rfl
  clear_value stays; subst same
  obtain ⟨run, only, held⟩ : exec c s = .next (endEnrollment u) ∧
      u = { s with bus := { s.bus with cabinets := u.bus.cabinets } } ∧ lineKind s.bus.line = some s.bus.line := by
    obtain ⟨k, line, reply⟩ | ⟨rfl, rfl, line⟩ := event
    · have held : lineKind s.bus.line = some s.bus.line := by rw [line]; rfl
      obtain ⟨rfl, rfl⟩ | ⟨body, record, rfl, found, ⟨known, rfl⟩ | ⟨fresh, last, rfl⟩⟩ := reply
      · exact ⟨by rw [exec_enrollReplyWindowExpiry live]; unfold expireReply; rw [line], rfl, held⟩
      · exact ⟨by rw [exec_enrollReport live, acceptReport_record line found, takeReport_known known], rfl, held⟩
      · exact ⟨exec_last_report live line found fresh last, rfl, held⟩
    · exact ⟨exec_third_abandonment live line, rfl, by obtain ⟨k, line | line⟩ := line <;> rw [line] <;> rfl⟩
  have link : u.link = s.link := by rw [only]
  have faults : u.faults = s.faults := by rw [only]
  have path : u.path = s.path := by rw [only]
  have berths : ∀ x, u.berth x = s.berth x := fun x => berth_congr (by rw [only]) x
  have auto : u.ctl.autorun = false := by rw [only]; exact autorun
  have lineHeld : lineKind u.bus.line = some u.bus.line := by rw [only]; exact held
  have length : u.berths.length = 36 := by rw [only]; exact short
  have step := alignedMap_step u
  have frame := endEnrollment_frame auto lineHeld
  rw [link, path, faults] at frame
  refine ⟨endEnrollment u, { s with link := (alignedMap u).link }, run, frame, ?_, ?_, ?_,
    endEnrollment_tells auto lineHeld rfl faults.symm, endEnrollment_trims auto lineHeld, fun x => ⟨fun free => ?_, ?_⟩⟩
  · have only := (onlySessions_iff.mp step.session.only).2.2.1
    rw [show (chainLowered u).link = s.link from link] at only
    exact congrArg (fun l => { s with link := l }) only
  · obtain ⟨more, fifo, all⟩ := step.answers
    exact ⟨more, by rw [fifo, ← link]; rfl, all⟩
  · intro unmapped
    have kept : (alignedMap u).link = s.link := by
      rw [alignedMap_unmapped fun x => by rw [berths x]; exact unmapped x]; exact link
    rw [kept]
  · rw [endEnrollment_berth auto lineHeld length, berths, if_neg (by simp [free])]
  · intro cabinet outlet configured hc ho
    rw [endEnrollment_berth auto lineHeld length, berths, if_pos configured]
    exact ⟨fun _ found => alignedRecord_listed hc ho found, fun gone => alignedRecord_gone hc ho gone⟩

end Sys2Proof.Machine.BerthBus
end

