-- ==== Sys2Proof/Proofs/TargetsAndTimers.lean ====
section
/-! Proofs/TargetsAndTimers.lean: the target of a berth (R51), and what the tick and the two expiries of seconds do
(R50, R136, R171). -/

namespace Sys2Proof.Machine.SetpointWork

variable {s t : State}

/-! ## Targets (R51) -/

theorem target_of_out {x : Nat} (h : (s.berth x).session ≠ .serving ∨ (s.berth x).coupling = .follower) : s.target x = 0 := by
  simp only [State.target, h, if_true]

theorem target_of_discharge {x : Nat} (serving : (s.berth x).session = .serving) (own : (s.berth x).coupling ≠ .follower)
    (grant : (s.berth x).grant < 0) : s.target x = (s.berth x).grant := by
  simp [State.target, serving, own, grant]

theorem target_of_free {x : Nat} (serving : (s.berth x).session = .serving) (own : (s.berth x).coupling ≠ .follower)
    (_grant : 0 ≤ (s.berth x).grant) (request : (s.berth x).request = none) : s.target x = (s.berth x).grant := by
  simp [State.target, serving, own, request]

theorem target_of_request {x : Nat} {r : Request} (serving : (s.berth x).session = .serving) (own : (s.berth x).coupling ≠ .follower)
    (grant : 0 ≤ (s.berth x).grant) (request : (s.berth x).request = some r) : s.target x = min r.value (s.berth x).grant := by
  simp [State.target, serving, own, request, not_lt.mpr grant]

theorem target_between {x : Nat} (h : ∀ r, (s.berth x).request = some r → 0 ≤ r.value) :
    min 0 (s.berth x).grant ≤ s.target x ∧ s.target x ≤ max 0 (s.berth x).grant := by
  by_cases out : (s.berth x).session ≠ .serving ∨ (s.berth x).coupling = .follower
  · rw [target_of_out out]; omega
  · obtain ⟨serving, own⟩ := not_or.mp out
    have serving := not_not.mp serving
    by_cases grant : (s.berth x).grant < 0
    · rw [target_of_discharge serving own grant]; omega
    · cases request : (s.berth x).request with
      | none => rw [target_of_free serving own (not_lt.mp grant) request]; omega
      | some r =>
        have value := h r request
        rw [target_of_request serving own (not_lt.mp grant) request]; omega

/-- Settles O11: the four cases of R51's table, and the bound from them. -/
theorem targetFollowsGrantAndRequest : Obligations.TargetFollowsGrantAndRequest := by
  unfold Obligations.TargetFollowsGrantAndRequest
  exact fun s x => ⟨target_of_out, fun serving own => ⟨target_of_discharge serving own, target_of_free serving own,
    fun _ => target_of_request serving own⟩, target_between⟩

/-! ## The tick and the expiries (R50, R136, R171) -/

theorem exec_oneSecondTick (live : s.Live) : exec .oneSecondTick s = .next (tickAll s) := whileRunning_live _ live
theorem exec_requestLifetimeExpiry (live : s.Live) (x : Nat) : exec (.requestLifetimeExpiry x) s = .next (expireRequest x s) :=
  whileRunning_live _ live
theorem exec_callDurationExpiry (live : s.Live) : exec .callDurationExpiry s = .next (expireCall s) := whileRunning_live _ live

theorem tickAll_eq (s : State) : tickAll s = { s with
    berths := s.berths.map Berth.tick
    reserve := { s.reserve with call := s.reserve.call.map fun c => { c with left := c.left - 1 } } } := by
  unfold tickAll; dsimp only
  split
  · next none => rw [none, Option.map_none, ← none]
  · next c some => rw [some]; rfl

theorem expireRequest_over {x : Nat} {r : Request} (request : (s.berth x).request = some r) (ended : r.left = 0) :
    expireRequest x s = { s with berths := s.berths.set x { s.berth x with request := none } } := by
  simp only [expireRequest, State.lifetimeOver, request, ended, decide_true, if_true]; rfl

theorem expireRequest_running {x : Nat} (h : ∀ r, (s.berth x).request = some r → r.left ≠ 0) : expireRequest x s = s := by
  unfold expireRequest State.lifetimeOver
  cases request : (s.berth x).request with
  | none => rfl
  | some r => simp [h r request]

theorem expireCall_running (h : ∀ c, s.reserve.call = some c → c.left ≠ 0) : expireCall s = s := by
  unfold expireCall State.callOver
  cases call : s.reserve.call with
  | none => rfl
  | some c => simp [h c call]

/-- A notice reads nothing of the Reserve Unit. -/
theorem notify_setReserve (b : NoticeBody) (r : Reserve) (s : State) :
    notify b { s with reserve := r } = { notify b s with reserve := r } := by
  unfold notify
  by_cases enabled : s.noticeEnabled b = true
  · by_cases room : s.noticeCount < Config.upstreamNotices ∧ s.link.fifo.length < Config.upstreamEntries
    · exact (if_pos enabled).trans ((if_pos room).trans (by rw [if_pos enabled, if_pos room]; rfl))
    · exact (if_pos enabled).trans ((if_neg room).trans (by rw [if_pos enabled, if_neg room]))
  · exact (if_neg enabled).trans (by rw [if_neg enabled])

theorem changeReserve_of_ne {st : ReserveState} (h : s.reserve.state ≠ st) : changeReserve st s =
    notify (.reserveState s.reserve.state st (s.reserve.coverage.map (·.value))) { s with reserve := { s.reserve with state := st } } := by
  rw [changeReserve, if_neg h]

/-- R136: an ordinary end of a call in CALLED, its record being the newest. -/
theorem endCall_called {c : Call} {record : CallRecord} {older : List CallRecord} (cause : CallCause)
    (call : s.reserve.call = some c) (called : s.reserve.state = .called) (records : s.reserve.records = record :: older) :
    endCall cause id s = notify (.reserveState .called .recovery (s.reserve.coverage.map (·.value)))
      (notify (.callEnd c.callId cause (callMean c)) { s with reserve := { s.reserve with
        state := .recovery, call := none, recoveryTarget := some (s.clampTarget (c.baseline - c.reduction))
        tripCount := 0, recoverCount := 0
        records := { record with finish := some s.link.second, mean := callMean c, cause := some cause } :: older } }) := by
  have closed : closeCall c cause (some (s.callTarget c)) s = { s with reserve := { s.reserve with
      call := none, recoveryTarget := some (s.callTarget c), tripCount := 0, recoverCount := 0
      records := { record with finish := some s.now, mean := callMean c, cause := some cause } :: older } } := by
    simp only [closeCall, editRecord, records]
  simp only [endCall, call, closed, id]
  rw [notify_setReserve, changeReserve_of_ne (by simp [called])]
  simp only [called]
  exact congrArg _ (notify_setReserve (.callEnd c.callId cause (callMean c)) _ s).symm

/-- Settles O32: the tick, the lifetime's end and the call's end, each by its equation. -/
theorem ticksAndDurations : Obligations.TicksAndDurations := by
  unfold Obligations.TicksAndDurations
  refine ⟨fun s live => ?_, fun s x r live request ended => ?_, fun s x live h => ?_, fun s live h => ?_,
    fun s c record older live call ended called records => ?_⟩
  · rw [exec_oneSecondTick live, tickAll_eq]; rfl
  · rw [exec_requestLifetimeExpiry live, expireRequest_over request ended]
  · rw [exec_requestLifetimeExpiry live, expireRequest_running h]
  · rw [exec_callDurationExpiry live, expireCall_running h]
  · have isOver : s.callOver = true := by simp [State.callOver, call, ended]
    rw [exec_callDurationExpiry live, expireCall, if_pos isOver, endCall_called .duration call called records]; rfl

end Sys2Proof.Machine.SetpointWork
end

