-- ==== Sys2Proof/Proofs/WorkShapes.lean ====
section
/-! Proofs/WorkShapes.lean: the relation `State.PathOrdered` taken apart: what it says of the ages on the list, of the SETPOINT on
the line, and of the work of each berth by itself. -/

namespace Sys2Proof.Machine.SetpointWork

variable {s t : State} {x y : Nat}

/-! ## The work of one berth -/

/-- What the Setpoint Path's relation reads of a berth record. -/
structure BerthCore where
  configured : Bool
  coupling : Coupling
  session : Session
  setpoint : SetpointState
  commanded : Int

def coreOf (b : Berth) : BerthCore := ⟨b.configured, b.coupling, b.session, b.setpoint, b.commanded⟩

/-- One berth's entries on the list, its waiting work, its places in the start queue, its record, and the line. -/
structure Work where
  list : List Entry
  wait : List Entry
  queue : List Queued
  berth : BerthCore
  line : Line

def entriesFor (x : Nat) (l : List Entry) : List Entry := l.filter fun e => decide (e.berth = x)
def placesFor (x : Nat) (l : List Queued) : List Queued := l.filter fun q => decide (q.berth = x)

def workOf (x : Nat) (s : State) : Work :=
  ⟨entriesFor x s.path.list, entriesFor x s.path.waiting, placesFor x s.path.queue, coreOf (s.berth x), s.bus.line⟩

theorem mem_entriesFor {l : List Entry} {e : Entry} : e ∈ entriesFor x l ↔ e ∈ l ∧ e.berth = x := by simp [entriesFor]

@[simp] theorem entriesFor_append (x : Nat) (l m : List Entry) : entriesFor x (l ++ m) = entriesFor x l ++ entriesFor x m :=
  List.filter_append ..
@[simp] theorem placesFor_append (x : Nat) (l m : List Queued) : placesFor x (l ++ m) = placesFor x l ++ placesFor x m :=
  List.filter_append ..
@[simp] theorem entriesFor_nil (x : Nat) : entriesFor x [] = [] := rfl
@[simp] theorem placesFor_nil (x : Nat) : placesFor x [] = [] := rfl
theorem entriesFor_cons (x : Nat) (e : Entry) (l : List Entry) :
    entriesFor x (e :: l) = if e.berth = x then e :: entriesFor x l else entriesFor x l := by
  simp [entriesFor, List.filter_cons]
theorem placesFor_cons (x : Nat) (q : Queued) (l : List Queued) :
    placesFor x (q :: l) = if q.berth = x then q :: placesFor x l else placesFor x l := by
  simp [placesFor, List.filter_cons]

/-! ## The model's reads of it -/

theorem trimWaits_work : s.trimWaits x = (workOf x s).list.any (·.old.isSome) := by
  simp [State.trimWaits, workOf, entriesFor, List.any_filter]

theorem entryOf_work : s.entryOf x = ((workOf x s).list ++ (workOf x s).wait).find? (·.old.isNone) := by
  simp only [State.entryOf, workOf, entriesFor, ← List.filter_append, List.find?_filter]
  congr 1; funext e
  by_cases own : e.old = none <;> simp [Entry.ownOf, own]

theorem queuedOf_work : s.queuedOf x = (workOf x s).queue.head? := by
  simp [State.queuedOf, workOf, placesFor, List.head?_filter]

/-! ## The SETPOINT on the line, as one berth sees it -/

/-- The trim of a map change of berth `x` is being sent. -/
def Line.SendsTrim (x : Nat) (l : Line) : Prop := ∃ tx, l = .setpointSending tx ∧ tx.trim = true ∧ tx.berth = x

/-- A SETPOINT of berth `x` stands on the line, and its map entry has not changed since. -/
def Line.Attached (x : Nat) (l : Line) : Prop :=
  ∃ tx, (l = .setpointSending tx ∨ l = .setpointAck tx) ∧ tx.berth = x ∧ tx.detached = false

/-- A value other than 0 is being sent for berth `x`, as its work of now. -/
def Line.Raises (x : Nat) (l : Line) : Prop :=
  ∃ tx, l = .setpointSending tx ∧ tx.berth = x ∧ tx.detached = false ∧ tx.value ≠ 0

/-- The SETPOINT of another berth will write the commanded field of `x`. -/
def Line.WritesAlso (x : Nat) (l : Line) : Prop :=
  ∃ tx, l = .setpointSending tx ∧ tx.berth ≠ x ∧ ∃ h ∈ tx.shares, h.berth = some x

/-- What `State.PathOrdered` says of a SETPOINT on the line alone. -/
structure Line.Fits (l : Line) : Prop where
  low : ∀ tx, l = .setpointSending tx ∨ l = .setpointAck tx → tx.berth < 36
  trim : ∀ tx, l = .setpointSending tx ∨ l = .setpointAck tx → tx.trim = true → tx.detached = true
  left : ∀ tx, l = .setpointSending tx ∨ l = .setpointAck tx → tx.trim = false → tx.detached = true → tx.left = true
  zero : ∀ tx, l = .setpointSending tx → tx.value = 0 → ∀ h ∈ tx.shares, h.value = 0
  loose : ∀ tx, l = .setpointSending tx → tx.detached = true → ∀ h ∈ tx.shares, h.berth = none

/-- The list's ages rise to the next age, and the SETPOINT being sent has one of its own. -/
structure AgesFit (list : List Entry) (next : Nat) (l : Line) : Prop where
  rising : list.Pairwise fun a b => a.age < b.age
  newest : ∀ e ∈ list, e.age < next
  sent : ∀ tx, l = .setpointSending tx → tx.age < next ∧ ∀ e ∈ list, e.age ≠ tx.age

/-! ## What the relation says of one berth -/

/-- The forms the work of berth `x` can have: none; a place in the queue; an entry of its own; the trim of a map change, alone or with
one piece of work behind it; or that piece alone while its trim is being sent. -/
inductive Shape (x : Nat) (l : Line) : List Entry → List Entry → List Queued → Prop where
  | none : Shape x l [] [] []
  | queued (q : Queued) : Shape x l [] [] [q]
  | own (e : Entry) (own : e.old = .none) : Shape x l [e] [] []
  | trim (e : Entry) (trim : e.old.isSome = true) : Shape x l [e] [] []
  | held (e w : Entry) (trim : e.old.isSome = true) (own : w.old = .none) : Shape x l [e] [w] []
  | behind (w : Entry) (own : w.old = .none) (sent : Line.SendsTrim x l) : Shape x l [] [w] []

/-- What `State.PathOrdered` says of the work of berth `x`, with what R3 and R11 say of its session. -/
structure Work.Fits (x : Nat) (w : Work) : Prop where
  shape : Shape x w.line w.list w.wait w.queue
  low : w.list ≠ [] → x < 36
  own : ∀ e ∈ w.list ++ w.wait, e.old = none → w.berth.configured = true ∧ w.berth.coupling ≠ .follower
  queued : w.berth.setpoint = .startQueued ↔ w.queue ≠ []
  serving : w.queue ≠ [] → w.berth.session = .serving
  commanded : w.queue ≠ [] → w.berth.coupling = .single → w.berth.commanded = 0
  attached : Line.Attached x w.line → w.berth.configured = true ∧ w.berth.coupling ≠ .follower ∧ ∀ e ∈ w.list, e.old = none
  raises : Line.Raises x w.line → w.berth.session ≠ .serving ∨ w.berth.setpoint = .active
  writes : Line.WritesAlso x w.line → w.berth.configured = true ∧ w.berth.coupling = .follower
  carries : w.berth.session = .unconfigured ∨ w.berth.session = .follower ∨
    (w.berth.configured = true ∧ w.berth.coupling ≠ .follower)

/-- The relation, taken apart. -/
structure Ready (s : State) : Prop where
  berths : s.berths.length = 36
  ages : AgesFit s.path.list s.path.nextAge s.bus.line
  line : Line.Fits s.bus.line
  work : ∀ x, (workOf x s).Fits x

/-! ## The two forms of the relation -/

theorem nodup_map_iff {α : Type} (f : α → Nat) (l : List α) :
    (l.map f).Nodup ↔ ∀ y, (l.filter fun a => decide (f a = y)).length ≤ 1 := by
  simp only [List.nodup_iff_count_le_one, List.count, List.countP_map, ← List.countP_eq_length_filter]
  refine forall_congr' fun y => iff_of_eq (congrArg (· ≤ 1) (List.countP_congr fun a _ => by simp))

section
variable {l : Line} {a b : List Entry} {q : List Queued}

theorem Shape.lengths (h : Shape x l a b q) : a.length ≤ 1 ∧ b.length ≤ 1 ∧ q.length ≤ 1 := by cases h <;> simp

theorem Shape.waits (h : Shape x l a b q) : ∀ w ∈ b, w.old = .none ∧
    ((∃ e ∈ a, e.old.isSome = true) ∨ (Line.SendsTrim x l ∧ a = [])) := by
  cases h with
  | held e w trim own => simp [own, trim]
  | behind w own sent => simp [own, sent]
  | _ => simp

theorem Shape.apart (h : Shape x l a b q) (some : q ≠ []) : a = [] ∧ b = [] := by cases h <;> simp_all

/-- The forms are what the lengths and the rules of R3 and R54 leave. -/
theorem shape_of (one : a.length ≤ 1 ∧ b.length ≤ 1 ∧ q.length ≤ 1)
    (waits : ∀ w ∈ b, w.old = none ∧ ((∃ e ∈ a, e.old.isSome = true) ∨ (Line.SendsTrim x l ∧ a = [])))
    (apart : q ≠ [] → a = [] ∧ b = []) : Shape x l a b q := by
  obtain ⟨la, lb, lq⟩ := one
  match a, b, q with
  | [], [], [] => exact .none
  | [], [], [q] => exact .queued q
  | [e], [], [] =>
    cases old : e.old with
    | none => exact .own e old
    | some a => exact .trim e (by simp [old])
  | [e], [w], [] =>
    obtain ⟨own, ⟨f, mem, trim⟩ | ⟨-, none⟩⟩ := waits w (by simp)
    · exact .held e w (by simpa [List.mem_singleton.mp mem] using trim) own
    · cases none
  | [], [w], [] =>
    obtain ⟨own, ⟨f, mem, -⟩ | ⟨sent, -⟩⟩ := waits w (by simp)
    · cases mem
    · exact .behind w own sent
  | _ :: _, _, _ :: _ => exact absurd (apart (by simp)).1 (by simp)
  | [], _ :: _, _ :: _ => exact absurd (apart (by simp)).2 (by simp)
  | _ :: _ :: _, _, _ => simp at la
  | _, _ :: _ :: _, _ => simp at lb
  | _, _, _ :: _ :: _ => simp at lq

end

theorem entriesFor_eq_nil {l : List Entry} : entriesFor x l = [] ↔ ∀ e ∈ l, e.berth ≠ x := by
  simp [entriesFor, List.filter_eq_nil_iff]
theorem placesFor_eq_nil {l : List Queued} : placesFor x l = [] ↔ ∀ q ∈ l, q.berth ≠ x := by
  simp [placesFor, List.filter_eq_nil_iff]
theorem placesFor_ne_nil {l : List Queued} : placesFor x l ≠ [] ↔ ∃ q ∈ l, q.berth = x := by
  simp [placesFor_eq_nil]

theorem trimWaits_iff : s.trimWaits x = true ↔ ∃ e ∈ entriesFor x s.path.list, e.old.isSome = true := by
  rw [trimWaits_work, List.any_eq_true]; rfl

theorem trimWaits_false_iff : s.trimWaits x = false ↔ ∀ e ∈ entriesFor x s.path.list, e.old = none := by
  rw [← Bool.not_eq_true, trimWaits_iff]; simp

theorem ready_of_granted (granted : s.Granted) (path : s.PathOrdered) : Ready s := by
  refine ⟨granted.berths, ⟨path.rising, path.newest, path.age⟩, ⟨fun tx h => (path.sender tx h).1, fun tx h => (path.sender tx h).2.1,
    fun tx h => (path.sender tx h).2.2.1, fun tx h => (path.share tx h).1, fun tx h => (path.share tx h).2.1⟩, fun x => ?_⟩
  have queue : placesFor x s.path.queue ≠ [] ↔ ∃ q ∈ s.path.queue, q.berth = x := placesFor_ne_nil
  refine ⟨shape_of ⟨?_, ?_, ?_⟩ ?_ ?_, ?_, ?_, ?_, ?_, ?_, ?_, ?_, ?_, ?_⟩
  · exact (nodup_map_iff _ _).mp path.once x
  · exact (nodup_map_iff _ _).mp path.waitingOnce x
  · exact (nodup_map_iff _ _).mp path.queuedOnce x
  · intro w mem
    obtain ⟨waiting, rfl⟩ := mem_entriesFor.mp mem
    obtain ⟨own, -, waits | ⟨tx, line, trim, berth, none⟩⟩ := path.waits w waiting
    · exact ⟨own, .inl (trimWaits_iff.mp waits)⟩
    · exact ⟨own, .inr ⟨⟨tx, line, trim, berth⟩, entriesFor_eq_nil.mpr none⟩⟩
  · intro some
    obtain ⟨q, mem, rfl⟩ := queue.mp some
    exact ⟨entriesFor_eq_nil.mpr fun e he => path.apart q mem e (List.mem_append_left _ he),
      entriesFor_eq_nil.mpr fun e he => path.apart q mem e (List.mem_append_right _ he)⟩
  · intro some
    obtain ⟨e, mem⟩ := List.exists_mem_of_ne_nil _ some
    obtain ⟨listed, rfl⟩ := mem_entriesFor.mp mem
    exact path.berth e listed
  · intro e mem
    rw [workOf, ← entriesFor_append] at mem
    obtain ⟨work, rfl⟩ := mem_entriesFor.mp mem
    exact path.own e work
  · exact (path.queued x).trans queue.symm
  · intro some; obtain ⟨q, mem, rfl⟩ := queue.mp some; exact path.serving q mem
  · intro some; obtain ⟨q, mem, rfl⟩ := queue.mp some; exact path.commanded q mem
  · rintro ⟨tx, line, rfl, attached⟩
    obtain ⟨configured, own, free⟩ := (path.sender tx line).2.2.2 attached
    exact ⟨configured, own, trimWaits_false_iff.mp free⟩
  · rintro ⟨tx, line, rfl, attached, value⟩
    obtain detached | rest := (path.share tx line).2.2.2 value
    · simp [attached] at detached
    · exact rest
  · rintro ⟨tx, line, other, h, mem, berth⟩
    exact ((path.share tx line).2.2.1 h mem x berth).resolve_left fun e => other e.symm
  · by_cases own : (s.berth x).configured = true
    · by_cases follower : (s.berth x).coupling = .follower
      · exact .inr (.inl ((granted.follower x).mpr ⟨own, follower⟩))
      · exact .inr (.inr ⟨own, follower⟩)
    · exact .inl ((granted.session x).mpr (by simpa using own))

theorem Ready.lt (h : Ready s) (configured : (s.berth x).configured = true) : x < 36 := by
  by_contra out
  rw [berth_out x (by rw [h.berths]; omega)] at configured
  simp [Berth.blank] at configured

theorem Ready.pathOrdered (h : Ready s) : s.PathOrdered where
  rising := h.ages.rising
  newest := h.ages.newest
  once := (nodup_map_iff _ _).mpr fun y => (h.work y).shape.lengths.1
  berth e mem := (h.work e.berth).low (List.ne_nil_of_mem (mem_entriesFor.mpr ⟨mem, rfl⟩))
  waitingOnce := (nodup_map_iff _ _).mpr fun y => (h.work y).shape.lengths.2.1
  waits e mem := by
    have fits := h.work e.berth
    have mem : e ∈ (workOf e.berth s).wait := mem_entriesFor.mpr ⟨mem, rfl⟩
    obtain ⟨own, waits⟩ := fits.shape.waits e mem
    refine ⟨own, h.lt (fits.own e (List.mem_append_right _ mem) own).1, ?_⟩
    obtain trim | ⟨⟨tx, line, trim, berth⟩, none⟩ := waits
    · exact .inl (trimWaits_iff.mpr trim)
    · exact .inr ⟨tx, line, trim, berth, entriesFor_eq_nil.mp none⟩
  own e mem old := (h.work e.berth).own e (by
    rw [workOf, ← entriesFor_append]; exact mem_entriesFor.mpr ⟨mem, rfl⟩) old
  queuedOnce := (nodup_map_iff _ _).mpr fun y => (h.work y).shape.lengths.2.2
  queued x := (h.work x).queued.trans placesFor_ne_nil
  serving q mem := (h.work q.berth).serving (placesFor_ne_nil.mpr ⟨q, mem, rfl⟩)
  commanded q mem := (h.work q.berth).commanded (placesFor_ne_nil.mpr ⟨q, mem, rfl⟩)
  apart q mem e he berth := by
    have none := (h.work q.berth).shape.apart (placesFor_ne_nil.mpr ⟨q, mem, rfl⟩)
    have he : e ∈ entriesFor q.berth (s.path.list ++ s.path.waiting) := mem_entriesFor.mpr ⟨he, berth⟩
    rw [entriesFor_append, show entriesFor _ _ = [] from none.1, show entriesFor _ _ = [] from none.2] at he
    cases he
  age := h.ages.sent
  sender tx line := ⟨h.line.low tx line, h.line.trim tx line, h.line.left tx line, fun attached => by
    obtain ⟨configured, own, free⟩ := (h.work tx.berth).attached ⟨tx, line, rfl, attached⟩
    exact ⟨configured, own, trimWaits_false_iff.mpr free⟩⟩
  share tx line := by
    refine ⟨h.line.zero tx line, h.line.loose tx line, fun g mem x berth => ?_, fun value => ?_⟩
    · by_cases own : x = tx.berth
      · exact .inl own
      · exact .inr ((h.work x).writes ⟨tx, line, fun e => own e.symm, g, mem, berth⟩)
    · by_cases detached : tx.detached = true
      · exact .inl detached
      · exact .inr ((h.work tx.berth).raises ⟨tx, line, rfl, by simpa using detached, value⟩)

end Sys2Proof.Machine.SetpointWork
end

