-- ==== Sys2Proof/Proofs/WorkSteps.lean ====
section
/-! Proofs/WorkSteps.lean: what each elementary operation of the Setpoint Path makes of the work of its own berth, that it leaves
the work of every other as it was, and that the ages keep their order. -/

namespace Sys2Proof.Machine.SetpointWork

variable {s t u : State} {x y : Nat}

/-! ## Ages (R54) -/

section
variable {l l' : List Entry} {n : Nat} {line : Line}

theorem agesFit_iff : AgesFit l n line ↔ (l.map (·.age)).Pairwise (· < ·) ∧ (∀ a ∈ l.map (·.age), a < n) ∧
    ∀ tx, line = .setpointSending tx → tx.age < n ∧ tx.age ∉ l.map (·.age) := by
  constructor
  · rintro ⟨rising, newest, sent⟩
    exact ⟨List.pairwise_map.mpr rising, by simpa using newest, fun tx h => ⟨(sent tx h).1, by simpa using (sent tx h).2⟩⟩
  · rintro ⟨rising, newest, sent⟩
    exact ⟨List.pairwise_map.mp rising, by simpa using newest, fun tx h => ⟨(sent tx h).1, by simpa using (sent tx h).2⟩⟩

/-- Entries that leave the list, or change in anything but their ages, leave the order as it was. -/
theorem AgesFit.mono (h : AgesFit l n line) (sub : (l'.map (·.age)).Sublist (l.map (·.age))) : AgesFit l' n line := by
  rw [agesFit_iff] at *
  obtain ⟨rising, newest, sent⟩ := h
  exact ⟨rising.sublist sub, fun a mem => newest a (sub.subset mem), fun tx e => ⟨(sent tx e).1, fun mem => (sent tx e).2 (sub.subset mem)⟩⟩

/-- A new entry takes the next age. -/
theorem AgesFit.snoc (h : AgesFit l n line) (e : Entry) (age : e.age = n) : AgesFit (l ++ [e]) (n + 1) line := by
  obtain ⟨rising, newest, sent⟩ := h
  refine ⟨List.pairwise_append.mpr ⟨rising, by simp, fun a ha b hb => ?_⟩, fun a ha => ?_, fun tx line => ⟨?_, fun a ha => ?_⟩⟩
  · rw [List.mem_singleton.mp hb, age]; exact newest a ha
  · rcases List.mem_append.mp ha with ha | ha
    · exact Nat.lt_succ_of_lt (newest a ha)
    · rw [List.mem_singleton.mp ha, age]; omega
  · have := (sent tx line).1; omega
  · rcases List.mem_append.mp ha with ha | ha
    · exact (sent tx line).2 a ha
    · have := (sent tx line).1; rw [List.mem_singleton.mp ha, age]; omega

theorem AgesFit.next (h : AgesFit l n line) : AgesFit l (n + 1) line :=
  ⟨h.rising, fun e mem => Nat.lt_succ_of_lt (h.newest e mem), fun tx line => ⟨Nat.lt_succ_of_lt (h.sent tx line).1, (h.sent tx line).2⟩⟩

/-- The line's SETPOINT ends, or takes marks. -/
theorem AgesFit.onLine (h : AgesFit l n line) {line' : Line}
    (same : ∀ tx', line' = .setpointSending tx' → ∃ tx, line = .setpointSending tx ∧ tx.age = tx'.age) : AgesFit l n line' :=
  ⟨h.rising, h.newest, fun tx' e => by obtain ⟨tx, line, age⟩ := same tx' e; rw [← age]; exact h.sent tx line⟩

theorem mem_insertBy {α : Type} {before : α → α → Bool} {a b : α} {l : List α} : b ∈ insertBy before a l ↔ b = a ∨ b ∈ l := by
  induction l with
  | nil => simp [insertBy]
  | cons c l ih => unfold insertBy; split <;> simp [ih]; tauto

/-- R67: an entry goes back among the others by an age that none of them has. -/
theorem AgesFit.insert (h : AgesFit l n line) (e : Entry) (old : e.age < n) (fresh : ∀ f ∈ l, f.age ≠ e.age)
    (free : ∀ tx, line ≠ .setpointSending tx) : AgesFit (insertBy (fun a b => decide (a.age < b.age)) e l) n line := by
  refine ⟨?_, fun f mem => ?_, fun tx line => absurd line (free tx)⟩
  · have rising := h.rising
    clear h
    induction l with
    | nil => simp [insertBy]
    | cons f l ih =>
      obtain ⟨head, tail⟩ := List.pairwise_cons.mp rising
      unfold insertBy; split
      · next before =>
        have before : e.age < f.age := by simpa using before
        exact List.pairwise_cons.mpr ⟨fun g mem => by
          rcases List.mem_cons.mp mem with rfl | mem
          · exact before
          · exact before.trans (head g mem), rising⟩
      · next after =>
        have after : f.age < e.age := by
          have := fresh f (by simp)
          simp only [decide_eq_true_eq] at after; omega
        refine List.pairwise_cons.mpr ⟨fun g mem => ?_, ih (fun g mem => fresh g (by simp [mem])) tail⟩
        rcases mem_insertBy.mp mem with rfl | mem
        · exact after
        · exact head g mem
  · rcases mem_insertBy.mp mem with rfl | mem
    · exact old
    · exact h.newest f mem

end

/-! ## Operations on one berth's work -/

/-- An operation on the work of berth `x`: that of the others, the line and the order of the ages stand. -/
structure WorkStep (x : Nat) (s t : State) : Prop where
  length : t.berths.length = s.berths.length
  line : t.bus.line = s.bus.line
  others : ∀ y, y ≠ x → workOf y t = workOf y s
  ages : AgesFit s.path.list s.path.nextAge s.bus.line → AgesFit t.path.list t.path.nextAge t.bus.line

theorem WorkStep.refl (x : Nat) (s : State) : WorkStep x s s := ⟨rfl, rfl, fun _ _ => rfl, id⟩

theorem WorkStep.trans (h : WorkStep x s t) (h' : WorkStep x t u) : WorkStep x s u :=
  ⟨h'.length.trans h.length, h'.line.trans h.line, fun y hy => (h'.others y hy).trans (h.others y hy), h'.ages ∘ h.ages⟩

/-- The relation holds again where the berth's own work fits. -/
theorem WorkStep.ready (h : WorkStep x s t) (ready : Ready s) (fits : (workOf x t).Fits x) : Ready t :=
  ⟨h.length.trans ready.berths, h.ages ready.ages, h.line ▸ ready.line, fun y => by
    by_cases hy : y = x
    · exact hy ▸ fits
    · rw [h.others y hy]; exact ready.work y⟩

theorem workOf_congr (path : t.path = s.path) (berth : coreOf (t.berth x) = coreOf (s.berth x)) (line : t.bus.line = s.bus.line) :
    workOf x t = workOf x s := by simp [workOf, path, berth, line]

/-- An operation that leaves the lists, the line and what the relation reads of the records as they were. -/
theorem WorkStep.of_same (path : t.path = s.path) (line : t.bus.line = s.bus.line) (length : t.berths.length = s.berths.length)
    (berths : ∀ y, y ≠ x → coreOf (t.berth y) = coreOf (s.berth y)) : WorkStep x s t :=
  ⟨length, line, fun y hy => workOf_congr path (berths y hy) line, by rw [path, line]; exact id⟩

theorem entriesFor_single_self (e : Entry) : entriesFor e.berth [e] = [e] := by simp [entriesFor_cons]
theorem entriesFor_single_ne {e : Entry} (h : x ≠ e.berth) : entriesFor x [e] = [] := by simp [entriesFor_cons, h.symm]

/-! ### Tags and setpoint states -/

theorem supersede_line (x tag : Nat) (s : State) : (supersede x tag s).bus.line = s.bus.line := by
  unfold supersede; split <;> simp [reply]

theorem workOf_supersede (y tag : Nat) (s : State) : workOf x (supersede y tag s) = workOf x s :=
  workOf_congr (supersede_path y tag s) (by rw [berth_congr (supersede_berths y tag s)]) (supersede_line y tag s)

theorem supersede_work (x y tag : Nat) (s : State) : WorkStep x s (supersede y tag s) :=
  ⟨by simp, supersede_line y tag s, fun _ _ => workOf_supersede y tag s, by simp [supersede_line]⟩

theorem setSetpointState_work (x : Nat) (p : SetpointState) (s : State) : WorkStep x s (setSetpointState x p s) :=
  .of_same rfl rfl (by simp [setSetpointState]) fun y hy => by rw [setSetpointState, berth_editBerth_ne _ _ hy]

theorem workOf_setSetpointState (p : SetpointState) (low : x < s.berths.length) :
    workOf x (setSetpointState x p s) = { workOf x s with berth := { (workOf x s).berth with setpoint := p } } := by
  simp [workOf, setSetpointState, coreOf, low]

/-! ### Entries -/

theorem addEntry_work (x tag : Nat) (s : State) : WorkStep x s (addEntry x tag s) := by
  refine ⟨rfl, rfl, fun y hy => ?_, fun ages => ?_⟩
  · have none : entriesFor y [⟨x, tag, s.path.nextAge, none⟩] = [] := entriesFor_single_ne hy
    unfold addEntry workOf
    split <;> simp [none] <;> rfl
  · unfold addEntry; dsimp only
    split
    · exact ages.next
    · exact ages.snoc _ rfl

/-- A new entry of the berth's own, waiting behind a trim of its map change. -/
def Work.add (e : Entry) (w : Work) : Work :=
  if w.list.any (·.old.isSome) then { w with wait := w.wait ++ [e] } else { w with list := w.list ++ [e] }

theorem workOf_addEntry (x tag : Nat) (s : State) :
    workOf x (addEntry x tag s) = (workOf x s).add ⟨x, tag, s.path.nextAge, none⟩ := by
  have one : entriesFor x [⟨x, tag, s.path.nextAge, none⟩] = [⟨x, tag, s.path.nextAge, none⟩] := entriesFor_single_self _
  rw [Work.add, ← trimWaits_work]
  unfold addEntry workOf
  split <;> simp [one] <;> rfl

theorem addTrim_work (x : Nat) (a : OldAddress) (s : State) : WorkStep x s (addTrim x a s) :=
  ⟨rfl, rfl, fun y hy => by
    have none : entriesFor y [⟨x, 0, s.path.nextAge, some a⟩] = [] := entriesFor_single_ne hy
    simp only [addTrim, workOf, entriesFor_append, none, List.append_nil]; rfl, fun ages => ages.snoc _ rfl⟩

theorem workOf_addTrim (x : Nat) (a : OldAddress) (s : State) : workOf x (addTrim x a s) =
    { workOf x s with list := (workOf x s).list ++ [⟨x, 0, s.path.nextAge, some a⟩] } := by
  have one : entriesFor x [⟨x, 0, s.path.nextAge, some a⟩] = [⟨x, 0, s.path.nextAge, some a⟩] := entriesFor_single_self _
  simp only [addTrim, workOf, entriesFor_append, one]; rfl

/-- An entry of the berth's own takes a tag. -/
def retag (tag : Nat) (e : Entry) : Entry := if e.old.isNone then { e with tag := tag } else e

theorem retag_same (tag : Nat) (e : Entry) : (retag tag e).berth = e.berth ∧ (retag tag e).age = e.age ∧ (retag tag e).old = e.old := by
  unfold retag; split <;> exact ⟨rfl, rfl, rfl⟩

theorem entriesFor_tagged (x y tag : Nat) (l : List Entry) :
    entriesFor y (l.map fun e => if e.ownOf x then { e with tag := tag } else e) =
      if y = x then (entriesFor x l).map (retag tag) else entriesFor y l := by
  induction l with
  | nil => simp
  | cons e l ih =>
    rw [List.map_cons, entriesFor_cons, ih]
    by_cases own : e.ownOf x = true
    · obtain ⟨berth, old⟩ := (ownOf_iff x e).mp own
      by_cases hy : y = x
      · subst hy; simp [entriesFor_cons, own, berth, retag, old]
      · have : x ≠ y := Ne.symm hy
        simp [entriesFor_cons, own, berth, hy, this]
    · by_cases hy : y = x
      · subst hy
        by_cases berth : e.berth = y
        · have old : e.old.isNone = false := by
            cases h : e.old with
            | none => exact absurd ((ownOf_iff y e).mpr ⟨berth, h⟩) own
            | some a => rfl
          simp [entriesFor_cons, own, berth, retag, old]
        · simp [entriesFor_cons, own, berth]
      · simp [entriesFor_cons, own, hy]

theorem tagEntry_work (x tag : Nat) (s : State) : WorkStep x s (tagEntry x tag s) := by
  refine ⟨rfl, rfl, fun y hy => ?_, fun ages => ages.mono ?_⟩
  · simp only [workOf, tagEntry, entriesFor_tagged, hy, if_false]; rfl
  · have same : (tagEntry x tag s).path.list.map (·.age) = s.path.list.map (·.age) := by
      simp only [tagEntry, List.map_map]
      refine List.map_congr_left fun e _ => ?_
      simp only [Function.comp]; split <;> rfl
    rw [same]

theorem workOf_tagEntry (x tag : Nat) (s : State) : workOf x (tagEntry x tag s) =
    { workOf x s with list := (workOf x s).list.map (retag tag), wait := (workOf x s).wait.map (retag tag) } := by
  simp only [workOf, tagEntry, entriesFor_tagged, if_true]; rfl

theorem entriesFor_unowned (x y : Nat) (l : List Entry) : entriesFor y (l.filter fun e => !e.ownOf x) =
    if y = x then (entriesFor x l).filter (·.old.isSome) else entriesFor y l := by
  unfold entriesFor
  split
  · next e =>
    subst e
    rw [List.filter_comm]
    refine List.filter_congr fun e mem => ?_
    have berth : e.berth = y := by simpa using (List.mem_filter.mp mem).2
    by_cases old : e.old = none <;> simp [Entry.ownOf, berth, old, Option.isSome_iff_ne_none]
  · next hy =>
    rw [List.filter_filter]
    refine List.filter_congr fun e _ => ?_
    by_cases berth : e.berth = y
    · simp [Entry.ownOf, berth, hy]
    · simp [berth]

theorem removeEntry_work (x : Nat) (s : State) : WorkStep x s (removeEntry x s) :=
  ⟨rfl, rfl, fun y hy => by simp only [workOf, removeEntry, entriesFor_unowned, hy, if_false]; rfl,
    fun ages => ages.mono (List.filter_sublist.map _)⟩

theorem workOf_removeEntry (x : Nat) (s : State) : workOf x (removeEntry x s) = { workOf x s with
    list := (workOf x s).list.filter (·.old.isSome), wait := (workOf x s).wait.filter (·.old.isSome) } := by
  simp only [workOf, removeEntry, entriesFor_unowned, if_true]; rfl

/-! ### Places in the start queue -/

theorem placesFor_unqueued (x y : Nat) (l : List Queued) : placesFor y (l.filter fun q => decide (q.berth ≠ x)) =
    if y = x then [] else placesFor y l := by
  unfold placesFor
  split
  · next e => subst e; simp
  · next hy =>
    rw [List.filter_filter]
    refine List.filter_congr fun q _ => ?_
    by_cases berth : q.berth = y
    · simp [berth, hy]
    · simp [berth]

theorem removeQueued_work (x : Nat) (s : State) : WorkStep x s (removeQueued x s) :=
  ⟨rfl, rfl, fun y hy => by simp only [workOf, removeQueued, placesFor_unqueued, hy, if_false]; rfl, id⟩

theorem workOf_removeQueued (x : Nat) (s : State) : workOf x (removeQueued x s) = { workOf x s with queue := [] } := by
  simp only [workOf, removeQueued, placesFor_unqueued, if_true]; rfl

/-- Berth `x` takes its place behind the others, or its place's new tag. -/
def takePlace (x tag : Nat) (s : State) : State :=
  match s.queuedOf x with
  | none => { s with path := { s.path with queue := s.path.queue ++ [⟨x, tag⟩] } }
  | some _ => { s with path := { s.path with queue := s.path.queue.map fun r => if r.berth = x then ⟨x, tag⟩ else r } }

theorem placesFor_replaced (x y tag : Nat) (l : List Queued) :
    placesFor y (l.map fun r => if r.berth = x then ⟨x, tag⟩ else r) =
      if y = x then (placesFor x l).map fun _ => ⟨x, tag⟩ else placesFor y l := by
  induction l with
  | nil => simp
  | cons q l ih =>
    rw [List.map_cons, placesFor_cons, ih]
    by_cases berth : q.berth = x <;> by_cases hy : y = x
    · subst hy; simp [placesFor_cons, berth]
    · have : x ≠ y := Ne.symm hy
      simp [placesFor_cons, berth, hy, this]
    · subst hy; simp [placesFor_cons, berth]
    · simp [placesFor_cons, berth, hy]

theorem takePlace_work (x tag : Nat) (s : State) : WorkStep x s (takePlace x tag s) := by
  unfold takePlace
  cases s.queuedOf x with
  | none =>
    refine ⟨rfl, rfl, fun y hy => ?_, id⟩
    have none : placesFor y [⟨x, tag⟩] = [] := by simp [placesFor_cons, Ne.symm hy]
    simp only [workOf, placesFor_append, none, List.append_nil]; rfl
  | some q =>
    refine ⟨rfl, rfl, fun y hy => ?_, id⟩
    simp only [workOf, placesFor_replaced, hy, if_false]; rfl

theorem workOf_takePlace (tag : Nat) (few : (workOf x s).queue.length ≤ 1) :
    workOf x (takePlace x tag s) = { workOf x s with queue := [⟨x, tag⟩] } := by
  unfold takePlace
  cases place : s.queuedOf x with
  | none =>
    have none : placesFor x s.path.queue = [] := by rw [queuedOf_work, List.head?_eq_none_iff] at place; exact place
    simp only [workOf, placesFor_append, placesFor_cons, if_true, placesFor_nil, none, List.nil_append]; rfl
  | some q =>
    have one : placesFor x s.path.queue = [q] := by
      rw [queuedOf_work] at place
      change List.head? (placesFor x s.path.queue) = some q at place
      change (placesFor x s.path.queue).length ≤ 1 at few
      match l : placesFor x s.path.queue with
      | [] => simp [l] at place
      | [r] => simpa [l] using place
      | _ :: _ :: _ => simp [l] at few
    simp only [workOf, placesFor_replaced, if_true, one, List.map_cons, List.map_nil]; rfl

end Sys2Proof.Machine.SetpointWork
end

