-- ==== Sys2Proof/Proofs/FittingWork.lean ====
section
/-! Proofs/FittingWork.lean: how the work of one berth may change and still fit (R3, R54, R59), by its forms. -/

namespace Sys2Proof.Machine.SetpointWork

variable {x : Nat} {w v : Work}

/-! ## Reading the forms -/

/-- The berth has work of its own on the list, or waiting. -/
def Work.Owns (w : Work) : Prop := ∃ e ∈ w.list ++ w.wait, e.old = none

/-- A trim of a map change stands on the list. -/
def Work.Trimmed (w : Work) : Prop := ∃ e ∈ w.list, e.old.isSome = true

/-- Berth `x` is one that may have work of its own. -/
def Work.Carries (x : Nat) (w : Work) : Prop := x < 36 ∧ w.berth.configured = true ∧ w.berth.coupling ≠ .follower

theorem trimWaits_true_iff {s : State} : s.trimWaits x = true ↔ (workOf x s).Trimmed := trimWaits_iff

theorem trimWaits_eq_false_iff {s : State} : s.trimWaits x = false ↔ ¬ (workOf x s).Trimmed := by
  rw [← trimWaits_true_iff, Bool.not_eq_true]

theorem entryOf_none_iff {s : State} : s.entryOf x = none ↔ ¬ (workOf x s).Owns := by
  rw [entryOf_work, List.find?_eq_none]; simp [Work.Owns]

theorem queuedOf_none_iff {s : State} : s.queuedOf x = none ↔ (workOf x s).queue = [] := by
  rw [queuedOf_work, List.head?_eq_none_iff]

/-- Without work of its own a berth has nothing waiting. -/
theorem Work.Fits.wait_nil (h : w.Fits x) (free : ¬ w.Owns) : w.wait = [] := by
  by_contra some
  obtain ⟨e, mem⟩ := List.exists_mem_of_ne_nil _ some
  exact free ⟨e, List.mem_append_right _ mem, (h.shape.waits e mem).1⟩

/-- With neither work of its own nor a trim a berth has nothing on the list. -/
theorem Work.list_nil (free : ¬ w.Owns) (open_ : ¬ w.Trimmed) : w.list = [] := by
  by_contra some
  obtain ⟨e, mem⟩ := List.exists_mem_of_ne_nil _ some
  cases old : e.old with
  | none => exact free ⟨e, List.mem_append_left _ mem, old⟩
  | some a => exact open_ ⟨e, mem, by simp [old]⟩

/-- A queued berth has nothing else. -/
theorem Work.Fits.queued_alone (h : w.Fits x) (queued : w.queue ≠ []) : ¬ w.Owns ∧ ¬ w.Trimmed := by
  obtain ⟨list, wait⟩ := h.shape.apart queued
  simp [Work.Owns, Work.Trimmed, list, wait]

@[simp] theorem Work.add_same (e : Entry) (w : Work) : (w.add e).queue = w.queue ∧ (w.add e).berth = w.berth ∧ (w.add e).line = w.line := by
  unfold Work.add; split <;> simp

/-! ## New work -/

theorem Work.trimmed_iff : (w.list.any (·.old.isSome)) = true ↔ w.Trimmed := by rw [List.any_eq_true]; rfl

/-- R54, R3: a berth without work of its own, and out of the queue, takes a new entry. -/
theorem Work.Fits.add (h : w.Fits x) (free : ¬ w.Owns) (unqueued : w.queue = []) (carries : w.Carries x) {e : Entry}
    (own : e.old = none) : (w.add e).Fits x := by
  have wait := h.wait_nil free
  unfold Work.add; split
  · next trimmed =>
    have trimmed := Work.trimmed_iff.mp trimmed
    refine { h with shape := ?_, own := fun _ _ _ => carries.2 }
    have shape := h.shape
    rw [wait, unqueued] at shape ⊢
    generalize list : w.list = l at shape
    cases shape with
    | trim f trim => exact .held f e trim own
    | own f old => exact absurd ⟨f, by simp [list], old⟩ free
    | none => obtain ⟨f, mem, -⟩ := trimmed; simp [list] at mem
  · next open_ =>
    have list := Work.list_nil free fun trimmed => open_ (Work.trimmed_iff.mpr trimmed)
    refine { h with shape := ?_, low := fun _ => carries.1, own := fun _ _ _ => carries.2, attached := fun on => ?_ }
    · rw [wait, unqueued, list]; exact .own e own
    · exact ⟨carries.2.1, carries.2.2, by simp [list, own]⟩

/-- What the kinds of the entries decide holds in lists of the same kinds. -/
theorem exists_of_kinds (p : Entry → Prop) (kind : ∀ e f : Entry, e.old.isSome = f.old.isSome → p e → p f) {l m : List Entry}
    (same : l.map (·.old.isSome) = m.map (·.old.isSome)) : (∃ e ∈ l, p e) → ∃ e ∈ m, p e := by
  rintro ⟨e, mem, h⟩
  obtain ⟨f, mem, eq⟩ := List.mem_map.mp (same ▸ List.mem_map_of_mem mem : e.old.isSome ∈ m.map (·.old.isSome))
  exact ⟨f, mem, kind e f eq.symm h⟩

/-- The form is one of the entries' kinds: tags and ages have no part in it. -/
theorem Work.Fits.relabel (h : w.Fits x) {a b : List Entry} (list : a.map (·.old.isSome) = w.list.map (·.old.isSome))
    (wait : b.map (·.old.isSome) = w.wait.map (·.old.isSome)) : ({ w with list := a, wait := b } : Work).Fits x := by
  have trims (l m : List Entry) := exists_of_kinds (fun e => e.old.isSome = true) (fun _ _ same h => same ▸ h) (l := l) (m := m)
  have owns (l m : List Entry) := exists_of_kinds (fun e => e.old = none)
    (fun e f same h => by rw [h] at same; simpa using same.symm) (l := l) (m := m)
  have lengths : a.length = w.list.length ∧ b.length = w.wait.length := by
    have l := congrArg List.length list; have m := congrArg List.length wait
    rw [List.length_map, List.length_map] at l m; exact ⟨l, m⟩
  have nil : a = [] ↔ w.list = [] := by rw [← List.length_eq_zero_iff, lengths.1, List.length_eq_zero_iff]
  have nil' : b = [] ↔ w.wait = [] := by rw [← List.length_eq_zero_iff, lengths.2, List.length_eq_zero_iff]
  refine { h with shape := ?_, low := fun some => h.low (some ∘ nil.mpr), own := fun e mem old => ?_, attached := fun on => ?_ }
  · refine shape_of (by rw [lengths.1, lengths.2]; exact h.shape.lengths) (fun f mem => ?_) fun some => ?_
    · have own : f.old = none := by
        by_contra trim
        obtain ⟨g, held, trim⟩ := trims b w.wait wait ⟨f, mem, Option.isSome_iff_ne_none.mpr trim⟩
        simp [(h.shape.waits g held).1] at trim
      obtain ⟨g, held⟩ := List.exists_mem_of_ne_nil w.wait fun none => by simp [nil'.mpr none] at mem
      obtain ⟨-, trim | ⟨sent, none⟩⟩ := h.shape.waits g held
      · exact ⟨own, .inl (trims w.list a list.symm trim)⟩
      · exact ⟨own, .inr ⟨sent, nil.mpr none⟩⟩
    · exact ⟨nil.mpr (h.shape.apart some).1, nil'.mpr (h.shape.apart some).2⟩
  · obtain ⟨f, held, old⟩ := owns (a ++ b) (w.list ++ w.wait) (by rw [List.map_append, List.map_append, list, wait]) ⟨e, mem, old⟩
    exact h.own f held old
  · obtain ⟨configured, own, all⟩ := h.attached on
    refine ⟨configured, own, fun e mem => ?_⟩
    by_contra trim
    obtain ⟨f, held, trim⟩ := trims a w.list list ⟨e, mem, Option.isSome_iff_ne_none.mpr trim⟩
    simp [all f held] at trim

/-! ## The start queue -/

/-- R61: a berth out of the queue has the setpoint state that its work of now has. -/
theorem Work.Fits.unqueue (h : w.Fits x) {p : SetpointState} (out : p ≠ .startQueued)
    (raises : Line.Raises x w.line → w.berth.session ≠ .serving ∨ p = .active) :
    ({ w with queue := [], berth := { w.berth with setpoint := p } } : Work).Fits x := by
  refine { h with shape := ?_, queued := by simp [out], serving := by simp, commanded := by simp, raises := raises }
  have shape := h.shape
  revert shape
  generalize w.list = a, w.wait = b, w.queue = q
  intro shape
  cases shape with
  | none => exact .none
  | queued q => exact .none
  | own e own => exact .own e own
  | trim e trim => exact .trim e trim
  | held e w trim own => exact .held e w trim own
  | behind w own sent => exact .behind w own sent

/-- While a berth is queued no value other than 0 is being sent as its work of now. -/
theorem Work.Fits.queued_quiet (h : w.Fits x) (queued : w.queue ≠ []) : ¬ Line.Raises x w.line := fun raises => by
  obtain out | active := h.raises raises
  · exact out (h.serving queued)
  · simp [h.queued.mpr queued] at active

/-- R59: a berth takes its place in the queue with nothing else. -/
theorem Work.Fits.enqueue (h : w.Fits x) (open_ : ¬ w.Trimmed) (q : Queued) (serving : w.berth.session = .serving)
    (commanded : w.berth.coupling = .single → w.berth.commanded = 0) (quiet : ¬ Line.Raises x w.line) :
    ({ w with list := w.list.filter (·.old.isSome), wait := w.wait.filter (·.old.isSome), queue := [q]
              berth := { w.berth with setpoint := .startQueued } } : Work).Fits x := by
  have list : w.list.filter (·.old.isSome) = [] := List.filter_eq_nil_iff.mpr fun e mem old => open_ ⟨e, mem, old⟩
  have wait : w.wait.filter (·.old.isSome) = [] :=
    List.filter_eq_nil_iff.mpr fun e mem old => by simp [(h.shape.waits e mem).1] at old
  rw [list, wait]
  refine { h with shape := .queued q, low := by simp, own := by simp, queued := by simp, serving := fun _ => serving
                  commanded := fun _ => commanded, attached := fun on => ?_, raises := fun raises => absurd raises quiet }
  obtain ⟨configured, own, -⟩ := h.attached on
  exact ⟨configured, own, by simp⟩

/-! ## Work withdrawn, and the trims of map changes -/

/-- R3, R64: with its work withdrawn a berth is IDLE and only a trim at its old address may stand. -/
theorem Work.Fits.withdraw (h : w.Fits x) (list : v.list = w.list.filter (·.old.isSome)) (wait : v.wait = w.wait.filter (·.old.isSome))
    (queue : v.queue = []) (berth : v.berth.configured = w.berth.configured ∧ v.berth.coupling = w.berth.coupling ∧ v.berth.setpoint = .idle)
    (attached : Line.Attached x v.line → Line.Attached x w.line) (raises : Line.Raises x v.line → v.berth.session ≠ .serving)
    (writes : Line.WritesAlso x v.line → Line.WritesAlso x w.line) (carries : v.berth.session = .unconfigured ∨
      v.berth.session = .follower ∨ (v.berth.configured = true ∧ v.berth.coupling ≠ .follower)) : v.Fits x := by
  obtain ⟨configured, coupling, idle⟩ := berth
  have wait : v.wait = [] := wait.trans
    (List.filter_eq_nil_iff.mpr fun e mem old => by simp [(h.shape.waits e mem).1] at old)
  have trims : ∀ e ∈ v.list, e.old.isSome = true := by rw [list]; exact fun e mem => (List.mem_filter.mp mem).2
  refine { carries := carries, shape := ?_, low := fun some => h.low ?_, own := ?_, queued := by simp [idle, queue], serving := by simp [queue]
           commanded := by simp [queue], attached := fun on => ?_, raises := fun on => .inl (raises on), writes := fun on => ?_ }
  · have short : v.list.length ≤ 1 := by rw [list]; exact (List.length_filter_le _ _).trans h.shape.lengths.1
    rw [wait, queue]
    exact shape_of ⟨short, by simp, by simp⟩ (by simp) (by simp)
  · rintro none; simp [list, none] at some
  · rw [wait, List.append_nil]
    exact fun e mem none => by simpa [none] using trims e mem
  · obtain ⟨isConfigured, own, all⟩ := h.attached (attached on)
    refine ⟨configured ▸ isConfigured, coupling ▸ own, fun e mem => all e ?_⟩
    rw [list] at mem; exact (List.mem_filter.mp mem).1
  · rw [configured, coupling]; exact h.writes (writes on)

theorem Line.Raises.attached {l : Line} (h : Line.Raises x l) : Line.Attached x l := by
  obtain ⟨tx, line, berth, attached, -⟩ := h
  exact ⟨tx, .inl line, berth, attached⟩

/-- R3: a trim of a map change takes its place on the list, and the berth's own work, on the list or in the queue, stands behind it. -/
theorem Work.Fits.pushTrim (h : w.Fits x) {e : Entry} {n : Nat} (trim : e.old.isSome = true) (low : x < 36) (open_ : ¬ w.Trimmed)
    (list : v.list = [e]) (queue : v.queue = [])
    (wait : v.wait = w.wait ++ w.list.filter (·.old.isNone) ++ w.queue.map fun q => ⟨x, q.tag, n, none⟩)
    (berth : v.berth = { w.berth with setpoint := if w.queue = [] then w.berth.setpoint else .idle })
    (detached : ¬ Line.Attached x v.line) (writes : Line.WritesAlso x v.line → Line.WritesAlso x w.line) : v.Fits x := by
  have carrier : v.berth.configured = w.berth.configured ∧ v.berth.coupling = w.berth.coupling ∧ v.berth.session = w.berth.session := by
    rw [berth]; exact ⟨rfl, rfl, rfl⟩
  obtain ⟨configured, coupling, session⟩ := carrier
  have owner : v.wait ≠ [] → w.berth.configured = true ∧ w.berth.coupling ≠ .follower := by
    intro some
    by_cases queued : w.queue = []
    · obtain ⟨f, mem⟩ := List.exists_mem_of_ne_nil _ some
      rw [wait, queued, List.map_nil, List.append_nil] at mem
      rcases List.mem_append.mp mem with mem | mem
      · exact h.own f (List.mem_append_right _ mem) (h.shape.waits f mem).1
      · obtain ⟨mem, old⟩ := List.mem_filter.mp mem
        exact h.own f (List.mem_append_left _ mem) (by simpa using old)
    · have serving := h.serving queued
      rcases h.carries with out | out | carries
      · simp [serving] at out
      · simp [serving] at out
      · exact carries
  have waiting : v.wait.length ≤ 1 ∧ ∀ f ∈ v.wait, f.old = none := by
    rw [wait]
    have shape := h.shape
    revert shape open_
    unfold Work.Trimmed
    generalize w.list = a, w.wait = b, w.queue = q
    intro open_ shape
    cases shape with
    | none => simp
    | queued q => simp
    | own f own => simp [own]
    | trim f trim => exact absurd ⟨f, by simp, trim⟩ open_
    | held f g trim own => exact absurd ⟨f, by simp, trim⟩ open_
    | behind f own sent => simp [own]
  obtain ⟨few, own⟩ := waiting
  refine { shape := ?_, low := fun _ => low, own := fun f mem old => ?_, queued := ?_, serving := by simp [queue], commanded := by simp [queue]
           attached := fun on => absurd on detached, raises := fun on => absurd on.attached detached, writes := fun on => ?_, carries := ?_ }
  · exact shape_of ⟨by simp [list], few, by simp [queue]⟩ (fun f mem => ⟨own f mem, .inl ⟨e, by simp [list], trim⟩⟩) (by simp [queue])
  · rw [configured, coupling]
    rw [list] at mem
    rcases List.mem_append.mp mem with mem | mem
    · rw [List.mem_singleton.mp mem] at old; simp [old] at trim
    · exact owner (List.ne_nil_of_mem mem)
  · rw [queue, berth]
    by_cases queued : w.queue = []
    · simpa [queued] using h.queued
    · simp [queued]
  · rw [configured, coupling]; exact h.writes (writes on)
  · rw [configured, coupling, session]; exact h.carries

/-! ## The line -/

/-- The work stands while what the line holds of the berth only ends. -/
theorem Work.Fits.onLine (h : w.Fits x) {l : Line} (behind : w.wait ≠ [] → w.list = [] → Line.SendsTrim x l)
    (attached : Line.Attached x l → Line.Attached x w.line) (raises : Line.Raises x l → Line.Raises x w.line)
    (writes : Line.WritesAlso x l → Line.WritesAlso x w.line) : ({ w with line := l } : Work).Fits x := by
  refine { h with shape := ?_, attached := h.attached ∘ attached, raises := h.raises ∘ raises, writes := h.writes ∘ writes }
  refine shape_of h.shape.lengths (fun f mem => ?_) h.shape.apart
  obtain ⟨own, trim | ⟨-, none⟩⟩ := h.shape.waits f mem
  · exact ⟨own, .inl trim⟩
  · exact ⟨own, .inr ⟨behind (List.ne_nil_of_mem mem) none, none⟩⟩

/-- What waited no longer waits. -/
theorem Work.Fits.dropWait (h : w.Fits x) : ({ w with wait := [] } : Work).Fits x := by
  refine { h with shape := ?_, own := fun e mem => h.own e (List.mem_append_left _ (by simpa using mem)) }
  exact shape_of ⟨h.shape.lengths.1, by simp, h.shape.lengths.2.2⟩ (by simp) fun some => ⟨(h.shape.apart some).1, rfl⟩

/-- What waited was all the berth had of its own. -/
theorem Work.Fits.owns_dropWait (h : w.Fits x) (some : w.wait ≠ []) : ¬ ({ w with wait := [] } : Work).Owns ∧ w.queue = [] := by
  have shape := h.shape
  revert shape some
  unfold Work.Owns
  dsimp only
  generalize w.list = a, w.wait = b, w.queue = q
  intro some shape
  cases shape with
  | held e f trim own => simpa using fun none => by simp [none] at trim
  | _ => simp at *

end Sys2Proof.Machine.SetpointWork
end

