-- ==== Sys2Proof/Proofs/KeptWork.lean ====
section
/-! Proofs/KeptWork.lean: the Setpoint Path's shared operations keep the relation `Ready`, and which of them put a berth in the
start queue (R54 to R61, R64). -/

namespace Sys2Proof.Machine.SetpointWork

variable {s t u : State} {x y : Nat}

/-- A SETPOINT being sent on the second line stood on the first, with its age. -/
def LineAges (l l' : Line) : Prop := ∀ tx', l' = .setpointSending tx' → ∃ tx, l = .setpointSending tx ∧ tx.age = tx'.age

theorem LineAges.refl (l : Line) : LineAges l l := fun tx line => ⟨tx, line, rfl⟩

theorem LineAges.of_quiet {l l' : Line} (quiet : ∀ tx, l' ≠ .setpointSending tx) : LineAges l l' := fun tx line => absurd line (quiet tx)

/-- The relation holds behind an event, and the event has put no berth in the start queue and no SETPOINT on the line. -/
structure Kept (s t : State) : Prop where
  ready : Ready t
  joins : ∀ y, s.queuedOf y = none → t.queuedOf y = none
  line : LineAges s.bus.line t.bus.line

theorem Kept.refl (h : Ready s) : Kept s s := ⟨h, fun _ => id, .refl _⟩

theorem Kept.trans (h : Kept s t) (h' : Kept t u) : Kept s u := ⟨h'.ready, fun y => h'.joins y ∘ h.joins y, fun tx line => by
  obtain ⟨mid, line, age⟩ := h'.line tx line
  obtain ⟨first, line, age'⟩ := h.line mid line
  exact ⟨first, line, age'.trans age⟩⟩

/-- Every SETPOINT being sent is older than the next age as the event found it. -/
theorem Kept.sent (h : Kept s t) (ready : Ready s) : ∀ tx, t.bus.line = .setpointSending tx → tx.age < s.path.nextAge := by
  intro tx line
  obtain ⟨first, line, age⟩ := h.line tx line
  exact age ▸ (ready.ages.sent first line).1

theorem Kept.foldl {α : Type} (f : State → α → State) (l : List α) (h : ∀ a ∈ l, ∀ t, Ready t → Kept t (f t a)) (ready : Ready s) :
    Kept s (l.foldl f s) := by
  induction l generalizing s with
  | nil => exact .refl ready
  | cons a l ih =>
    have first := h a (by simp) s ready
    exact first.trans (ih (fun b mem => h b (by simp [mem])) first.ready)

theorem WorkStep.kept (h : WorkStep x s t) (ready : Ready s) (fits : (workOf x t).Fits x)
    (queue : (workOf x s).queue = [] → (workOf x t).queue = []) : Kept s t :=
  ⟨h.ready ready fits, fun y none => by
    rw [queuedOf_none_iff] at *
    by_cases hy : y = x
    · subst hy; exact queue none
    · rw [h.others y hy]; exact none, by rw [h.line]; exact .refl _⟩

theorem Ready.index (h : Ready s) (low : x < 36) : x < s.berths.length := by rw [h.berths]; exact low

theorem Ready.carries (h : Ready s) (configured : (s.berth x).configured = true) (own : (s.berth x).coupling ≠ .follower) :
    (workOf x s).Carries x := ⟨h.lt configured, configured, own⟩

theorem Ready.carries_of_session (h : Ready s) (session : (s.berth x).session ≠ .unconfigured ∧ (s.berth x).session ≠ .follower) :
    (workOf x s).Carries x := by
  obtain out | out | ⟨configured, own⟩ := (h.work x).carries
  · exact absurd out session.1
  · exact absurd out session.2
  · exact h.carries configured own

theorem Ready.carries_of_serving (h : Ready s) (serving : (s.berth x).session = .serving) : (workOf x s).Carries x :=
  h.carries_of_session (by simp [serving])

/-- A berth that is not START_QUEUED has no place in the queue. -/
theorem Ready.unqueued (h : Ready s) (setpoint : (s.berth x).setpoint ≠ .startQueued) : (workOf x s).queue = [] := by
  by_contra queued; exact setpoint ((h.work x).queued.mpr queued)

theorem Ready.unqueued_of_session (h : Ready s) (out : (s.berth x).session ≠ .serving) : (workOf x s).queue = [] := by
  by_contra queued; exact out ((h.work x).serving queued)

/-! ## Entries made and tagged (R57) -/

theorem originateEntry_work (x : Nat) (s : State) : WorkStep x s (originateEntry x s) := by
  unfold originateEntry; split
  · exact addEntry_work x 0 s
  · exact .refl x s

theorem requestEntry_work (x tag : Nat) (s : State) : WorkStep x s (requestEntry x tag s) := by
  unfold requestEntry; split
  · exact addEntry_work x tag s
  · exact (supersede_work x x _ s).trans (tagEntry_work x tag _)

theorem addEntry_kept (ready : Ready s) (tag : Nat) (free : ¬ (workOf x s).Owns) (unqueued : (workOf x s).queue = [])
    (carries : (workOf x s).Carries x) : Kept s (addEntry x tag s) := by
  refine (addEntry_work x tag s).kept ready ?_ fun _ => ?_
  · rw [workOf_addEntry]; exact (ready.work x).add free unqueued carries rfl
  · simpa [workOf_addEntry] using unqueued

theorem originateEntry_kept (ready : Ready s) (unqueued : (workOf x s).queue = []) (carries : (workOf x s).Carries x) :
    Kept s (originateEntry x s) := by
  unfold originateEntry; split
  · next none => exact addEntry_kept ready 0 (entryOf_none_iff.mp none) unqueued carries
  · exact .refl ready

theorem supersede_kept (x tag : Nat) (ready : Ready s) : Kept s (supersede x tag s) := by
  refine (supersede_work x x tag s).kept ready ?_ fun none => ?_
  · rw [workOf_supersede]; exact ready.work x
  · rw [workOf_supersede]; exact none

theorem tagEntry_kept (x tag : Nat) (ready : Ready s) : Kept s (tagEntry x tag s) := by
  refine (tagEntry_work x tag s).kept ready ?_ fun none => ?_
  · have kind : ∀ l : List Entry, (l.map (retag tag)).map (·.old.isSome) = l.map (·.old.isSome) := fun l => by
      rw [List.map_map]; exact List.map_congr_left fun e _ => by rw [Function.comp, (retag_same tag e).2.2]
    rw [workOf_tagEntry]; exact (ready.work x).relabel (kind _) (kind _)
  · rw [workOf_tagEntry]; exact none

theorem requestEntry_kept (ready : Ready s) (tag : Nat) (unqueued : (workOf x s).queue = []) (carries : (workOf x s).Carries x) :
    Kept s (requestEntry x tag s) := by
  unfold requestEntry; split
  · next none => exact addEntry_kept ready tag (entryOf_none_iff.mp none) unqueued carries
  · exact (supersede_kept x _ ready).trans (tagEntry_kept x tag (supersede_kept x _ ready).ready)

theorem zeroTrim_kept (ready : Ready s) (unqueued : (workOf x s).queue = []) (carries : (workOf x s).Carries x) :
    Kept s (zeroTrim x s) := by
  unfold zeroTrim; split
  · exact originateEntry_kept ready unqueued carries
  · exact .refl ready

/-! ## The start queue (R59, R61) -/

/-- The berth with its place given up, and the setpoint state it then has. -/
def unqueue (x : Nat) (p : SetpointState) (s : State) : State := setSetpointState x p (removeQueued x s)

theorem unqueue_work (x : Nat) (p : SetpointState) (s : State) : WorkStep x s (unqueue x p s) :=
  (removeQueued_work x s).trans (setSetpointState_work x p _)

theorem workOf_unqueue (p : SetpointState) (low : x < s.berths.length) : workOf x (unqueue x p s) =
    { workOf x s with queue := [], berth := { (workOf x s).berth with setpoint := p } } := by
  rw [unqueue, workOf_setSetpointState p (by exact low), workOf_removeQueued]

theorem leaveQueue_eq (x : Nat) (s : State) : leaveQueue x s =
    if queuedTag (s.queuedOf x) = 0 then unqueue x .idle s else requestEntry x (queuedTag (s.queuedOf x)) (unqueue x .idle s) := rfl

theorem leaveQueue_work (x : Nat) (s : State) : WorkStep x s (leaveQueue x s) := by
  rw [leaveQueue_eq]; split
  · exact unqueue_work x .idle s
  · exact (unqueue_work x .idle s).trans (requestEntry_work x _ _)

theorem unqueue_kept (ready : Ready s) {p : SetpointState} (out : p ≠ .startQueued) (low : x < 36)
    (raises : Line.Raises x s.bus.line → (s.berth x).session ≠ .serving ∨ p = .active) : Kept s (unqueue x p s) := by
  refine (unqueue_work x p s).kept ready ?_ fun _ => ?_
  · rw [workOf_unqueue p (ready.index low)]; exact (ready.work x).unqueue out raises
  · rw [workOf_unqueue p (ready.index low)]

theorem leaveQueue_kept (ready : Ready s) (carries : (workOf x s).Carries x)
    (raises : Line.Raises x s.bus.line → (s.berth x).session ≠ .serving) : Kept s (leaveQueue x s) := by
  have first : Kept s (unqueue x .idle s) := unqueue_kept ready (by simp) carries.1 fun on => .inl (raises on)
  have work := workOf_unqueue (s := s) .idle (ready.index carries.1)
  rw [leaveQueue_eq]; split
  · exact first
  · refine first.trans (requestEntry_kept first.ready _ ?_ ?_)
    · rw [work]
    · rw [work]; exact carries

/-- A queued berth that leaves the queue. -/
theorem leaveQueue_queued_kept (ready : Ready s) (queued : (s.berth x).setpoint = .startQueued) : Kept s (leaveQueue x s) := by
  have some := (ready.work x).queued.mp queued
  exact leaveQueue_kept ready (ready.carries_of_serving ((ready.work x).serving some))
    fun on => absurd on ((ready.work x).queued_quiet some)

/-- The tag with which berth `x` joins the queue. -/
def joinTag (x tag : Nat) (s : State) : Nat := if tag = 0 then heldTag x s else tag

/-- A berth joins the queue, its entry passing into its place. -/
def enqueue (x tag : Nat) (s : State) : State :=
  takePlace x (joinTag x tag s) (setSetpointState x .startQueued (removeEntry x (if tag = 0 then s else supersede x (heldTag x s) s)))

theorem joinQueue_eq (x tag : Nat) (s : State) : joinQueue x tag s =
    if s.trimWaits x = true ∧ s.queuedOf x = none then (if tag = 0 then originateEntry x s else requestEntry x tag s)
    else enqueue x tag s := rfl

theorem supersedeHeld_work (x tag : Nat) (s : State) :
    WorkStep x s (if tag = 0 then s else supersede x (heldTag x s) s) := by
  split
  · exact .refl x s
  · exact supersede_work x x _ s

theorem enqueue_work (x tag : Nat) (s : State) : WorkStep x s (enqueue x tag s) :=
  (supersedeHeld_work x tag s).trans (((removeEntry_work x _).trans (setSetpointState_work x .startQueued _)).trans (takePlace_work x _ _))

theorem joinQueue_work (x tag : Nat) (s : State) : WorkStep x s (joinQueue x tag s) := by
  rw [joinQueue_eq]; repeat' split
  · exact originateEntry_work x s
  · exact requestEntry_work x tag s
  · exact enqueue_work x tag s

theorem workOf_enqueue (tag : Nat) (low : x < s.berths.length) (few : (workOf x s).queue.length ≤ 1) :
    workOf x (enqueue x tag s) = { workOf x s with
      list := (workOf x s).list.filter (·.old.isSome), wait := (workOf x s).wait.filter (·.old.isSome)
      queue := [⟨x, joinTag x tag s⟩], berth := { (workOf x s).berth with setpoint := .startQueued } } := by
  have first : workOf x (if tag = 0 then s else supersede x (heldTag x s) s) = workOf x s := by
    split
    · rfl
    · exact workOf_supersede x _ s
  have length := (supersedeHeld_work x tag s).length
  unfold enqueue
  generalize (if tag = 0 then s else supersede x (heldTag x s) s) = v at first length ⊢
  have work := workOf_setSetpointState (s := removeEntry x v) (x := x) .startQueued (by rw [(removeEntry_work x v).length, length]; exact low)
  rw [workOf_removeEntry, first] at work
  rw [workOf_takePlace _ (by rw [work]; exact few), work]

/-- R59: what must hold of a berth that joins the queue. -/
theorem joinQueue_ready (ready : Ready s) (tag : Nat) (serving : (s.berth x).session = .serving)
    (commanded : (s.berth x).coupling = .single → (s.berth x).commanded = 0) (quiet : ¬ Line.Raises x s.bus.line) :
    Ready (joinQueue x tag s) := by
  have carries := ready.carries_of_serving serving
  rw [joinQueue_eq]; split
  · next waits =>
    have unqueued := queuedOf_none_iff.mp waits.2
    split
    · exact (originateEntry_kept ready unqueued carries).ready
    · exact (requestEntry_kept ready tag unqueued carries).ready
  · next places =>
    have open_ : ¬ (workOf x s).Trimmed := fun trimmed => places ⟨trimWaits_true_iff.mpr trimmed, queuedOf_none_iff.mpr (by
      by_contra queued; exact ((ready.work x).queued_alone queued).2 trimmed)⟩
    refine (enqueue_work x tag s).ready ready ?_
    rw [workOf_enqueue tag (ready.index carries.1) (ready.work x).shape.lengths.2.2]
    exact (ready.work x).enqueue open_ _ serving commanded quiet

/-! ## Withdrawn work and grants of 0 (R64) -/

theorem withdrawWork_work (x : Nat) (s : State) : WorkStep x s (withdrawWork x s) := by
  unfold withdrawWork
  exact ((setSetpointState_work x .idle s).trans ((supersede_work x x _ _).trans (removeQueued_work x _))).trans
    ((supersede_work x x _ _).trans (removeEntry_work x _))

theorem workOf_withdrawWork (low : x < s.berths.length) : workOf x (withdrawWork x s) = { workOf x s with
    list := (workOf x s).list.filter (·.old.isSome), wait := (workOf x s).wait.filter (·.old.isSome)
    queue := [], berth := { (workOf x s).berth with setpoint := .idle } } := by
  unfold withdrawWork
  rw [workOf_removeEntry, workOf_supersede, workOf_removeQueued, workOf_supersede, workOf_setSetpointState .idle low]

/-- The work of a berth is withdrawn while its session changes to one that is not SERVING, or after what the line holds of it has been
let go. -/
theorem withdrawWork_kept (ready : Ready s) (low : x < 36) (edit : WorkStep x s t) {b : BerthCore}
    (work : workOf x t = { workOf x s with berth := b })
    (map : b.configured = (s.berth x).configured ∧ b.coupling = (s.berth x).coupling)
    (raises : Line.Raises x s.bus.line → b.session ≠ .serving)
    (carries : b.session = .unconfigured ∨ b.session = .follower ∨ (b.configured = true ∧ b.coupling ≠ .follower)) :
    Kept s (withdrawWork x t) := by
  have step := edit.trans (withdrawWork_work x t)
  have index : x < t.berths.length := by rw [edit.length]; exact ready.index low
  have all := workOf_withdrawWork index
  rw [work] at all
  refine step.kept ready ?_ fun _ => by rw [all]
  rw [all]
  exact (ready.work x).withdraw rfl rfl rfl ⟨map.1, map.2, rfl⟩ id raises id carries

theorem pathGrantZeroed_kept (x : Nat) (ready : Ready s) : Kept s (pathGrantZeroed x s) := by
  unfold pathGrantZeroed; dsimp only
  split
  · exact .refl ready
  · next inside =>
    obtain ⟨serving, own⟩ := not_or.mp inside
    have carries := ready.carries_of_serving (not_not.mp serving)
    split
    · next queued => exact leaveQueue_queued_kept ready queued
    · next active =>
      split
      · exact originateEntry_kept ready (ready.unqueued (by simp [active])) carries
      · exact .refl ready
    · exact .refl ready

end Sys2Proof.Machine.SetpointWork
end

