-- ==== Sys2Proof/Proofs/WorkFrames.lean ====
section
/-! Proofs/WorkFrames.lean: changes the relation `Ready` does not read, the ages of one event's entries (R54), and the marks of a
SETPOINT on the line (R3, R67). -/

namespace Sys2Proof.Machine.SetpointWork

variable {s t u : State} {x y : Nat}

/-! ## What the relation does not read -/

/-- Nothing that the relation reads has changed. -/
structure SameWork (s t : State) : Prop where
  list : t.path.list = s.path.list
  waiting : t.path.waiting = s.path.waiting
  queue : t.path.queue = s.path.queue
  nextAge : t.path.nextAge = s.path.nextAge
  line : t.bus.line = s.bus.line
  length : t.berths.length = s.berths.length
  berth : ∀ y, coreOf (t.berth y) = coreOf (s.berth y)

theorem SameWork.refl (s : State) : SameWork s s := ⟨rfl, rfl, rfl, rfl, rfl, rfl, fun _ => rfl⟩

theorem SameWork.trans (h : SameWork s t) (h' : SameWork t u) : SameWork s u :=
  ⟨h'.list.trans h.list, h'.waiting.trans h.waiting, h'.queue.trans h.queue, h'.nextAge.trans h.nextAge, h'.line.trans h.line,
    h'.length.trans h.length, fun y => (h'.berth y).trans (h.berth y)⟩

theorem SameWork.foldl {α : Type} (f : State → α → State) (h : ∀ s a, SameWork s (f s a)) (l : List α) (s : State) :
    SameWork s (l.foldl f s) := by
  induction l generalizing s with
  | nil => exact .refl s
  | cons a l ih => exact (h s a).trans (ih _)

theorem SameWork.work (h : SameWork s t) (x : Nat) : workOf x t = workOf x s := by
  simp only [workOf, h.list, h.waiting, h.queue, h.line, h.berth]

theorem SameWork.kept (h : SameWork s t) (ready : Ready s) : Kept s t :=
  ⟨⟨h.length.trans ready.berths, by rw [h.list, h.nextAge, h.line]; exact ready.ages, h.line ▸ ready.line,
    fun x => by rw [h.work]; exact ready.work x⟩, fun y none => by rw [queuedOf_congr h.queue]; exact none, by
    rw [h.line]; exact .refl _⟩

/-- The berth records, the Setpoint Path and the line stand. -/
theorem SameWork.of_eq (berths : t.berths = s.berths) (path : t.path = s.path) (line : t.bus.line = s.bus.line) : SameWork s t :=
  ⟨by rw [path], by rw [path], by rw [path], by rw [path], line, by rw [berths], fun y => by rw [berth_congr berths]⟩

/-- A change of one berth record that the relation does not read. -/
theorem SameWork.edit {f : Berth → Berth} (h : ∀ b, coreOf (f b) = coreOf b) : SameWork s (s.editBerth x f) :=
  ⟨rfl, rfl, rfl, rfl, rfl, by simp, fun y => berth_editBerth_field coreOf s x y f h⟩

theorem SameWork.of_queue (h : s.OnlyQueue t) : SameWork s t := by
  obtain ⟨-, -, -, bus, -, berths, -, -, -, -, path, -⟩ := onlyQueue_iff.mp h
  exact .of_eq berths path (by rw [bus])

theorem notify_same_work (b : NoticeBody) (s : State) : SameWork s (notify b s) := .of_queue (notify_onlyQueue b s)
theorem answer_same_work (f : UpFrame) (s : State) : SameWork s (answer f s) := .of_queue (answer_onlyQueue f s)
theorem reply_same_work (party tag : Nat) (code : ReplyCode) (body : ReplyBody) (s : State) :
    SameWork s (reply party tag code body s) := answer_same_work _ s

theorem SameWork.of_reserve (h : ReserveStep s t) : SameWork s t := by
  obtain ⟨-, berths, -, -, -, -, -, bus, -, path⟩ := h.same
  exact .of_eq berths path (by rw [bus])

theorem SameWork.of_table (h : TableStep s t) : SameWork s t := by
  have only := h.only
  exact .of_eq (by rw [only]) (by rw [only]) (by rw [only])

theorem editBus_same_work (b : Nat) (f : Bus → Bus) (s : State) : SameWork s (s.editBus b f) := by
  obtain ⟨-, -, -, bus, -, berths, -, -, -, path, -⟩ := editBus_same s b f
  exact .of_eq berths path (by rw [bus])

theorem associate_same_work (b x : Nat) (s : State) : SameWork s (associate b x s) := by
  refine SameWork.trans ?_ (editBus_same_work b _ _)
  exact .edit fun _ => rfl

theorem dissociate_same_work (x : Nat) (s : State) : SameWork s (dissociate x s) := by
  unfold dissociate; split
  · exact .refl s
  · refine SameWork.trans ?_ (editBus_same_work _ _ _)
    exact .edit fun _ => rfl

theorem unplug_same_work (x : Nat) (s : State) : SameWork s (unplug x s) := by
  unfold unplug; split
  · exact .refl s
  · exact (dissociate_same_work x s).trans (.of_table (runUnplug_table _ _))

theorem resolveTag_same_work (x : Nat) (s : State) : SameWork s (resolveTag x s) := by
  unfold resolveTag; dsimp only; split
  · exact (dissociate_same_work x s).trans (notify_same_work _ _)
  · split
    · exact (dissociate_same_work x s).trans (associate_same_work _ x _)
    · split
      · exact .refl s
      · exact ((dissociate_same_work x s).trans (dissociate_same_work _ _)).trans
          ((associate_same_work _ x _).trans (notify_same_work _ _))

theorem reassociate_same_work (x : Nat) (s : State) : SameWork s (reassociate x s) := by
  unfold reassociate; split
  · split
    · exact associate_same_work _ x s
    · exact .refl s
  · exact .refl s

theorem tagRules_same_work (x : Nat) (tag : Ident) (s : State) : SameWork s (tagRules x tag s) := by
  unfold tagRules; split
  · refine SameWork.trans ?_ (reassociate_same_work x _)
    split
    · exact resolveTag_same_work x s
    · exact .refl s
  · exact .refl s

theorem setDone_same_work (x : Nat) (s : State) : SameWork s (setDone x s) := by
  unfold setDone; split
  · exact .refl s
  · refine SameWork.trans ?_ (notify_same_work _ _)
    exact .edit fun _ => rfl

theorem clearDone_same_work (x : Nat) (s : State) : SameWork s (clearDone x s) := .edit fun _ => rfl

theorem reportDone_same_work (x : Nat) (s : State) : SameWork s (reportDone x s) := by
  unfold reportDone; repeat' split
  · exact .refl s
  · refine SameWork.trans ?_ (setDone_same_work x _)
    exact .edit fun _ => rfl
  · exact clearDone_same_work x s
  · exact .refl s

theorem editCounters_same_work (x : Nat) (f : FaultCounters → FaultCounters) (s : State) : SameWork s (editCounters x f s) :=
  .edit fun _ => rfl

theorem storeEnergy_same_work (x : Nat) (before : Session) (s : State) : SameWork s (storeEnergy x before s) := by
  unfold storeEnergy; dsimp only
  split
  · split
    · exact editBus_same_work _ _ s
    · exact .refl s
  · exact .refl s

theorem linkTaken_same_work (s : State) : SameWork s (linkTaken s) := .of_eq rfl rfl rfl

theorem entryTaken_same_work (pos : EntryPos) (s : State) : SameWork s (entryTaken pos s) := by
  unfold entryTaken; split
  · exact linkTaken_same_work s
  · exact .refl s

theorem serviceResult_same_work (pos : EntryPos) (code : ReplyCode) (s : State) : SameWork s (serviceResult pos code s) := by
  unfold serviceResult; dsimp only; split
  · refine SameWork.trans ?_ (reply_same_work _ _ _ _ _)
    exact .of_eq rfl rfl rfl
  · exact .of_eq rfl rfl rfl

/-! ## The ages of one event's entries (R54) -/

/-- Whose an entry is, and whether it is a trim. -/
def kindOf (e : Entry) : Nat × Bool := (e.berth, e.old.isSome)

theorem agedFrom_kinds (first : Nat) (l : List Entry) : (agedFrom first l).map kindOf = l.map kindOf := by
  induction l generalizing first with
  | nil => rfl
  | cons e l ih => simp [agedFrom, ih, kindOf]

theorem ageByBerth_kinds (first : Nat) (s : State) :
    ((ageByBerth first s).path.list.map kindOf).Perm (s.path.list.map kindOf) := by
  unfold ageByBerth
  simp only [List.map_append, agedFrom_kinds]
  rw [← List.map_append]
  refine List.Perm.map _ (((sortBy_perm _ _).append_left _).trans ?_)
  have split := List.filter_append_perm (fun e : Entry => decide (e.age < first)) s.path.list
  have same : (fun e : Entry => decide (first ≤ e.age)) = fun e => !decide (e.age < first) := by
    funext e; by_cases h : e.age < first
    · simp [h]
    · simp [h, Nat.le_of_not_lt h]
  rw [same]; exact split

theorem entriesFor_kinds {l m : List Entry} (perm : (l.map kindOf).Perm (m.map kindOf)) (y : Nat) :
    ((entriesFor y l).map (·.old.isSome)).Perm ((entriesFor y m).map (·.old.isSome)) := by
  have form : ∀ l : List Entry, (entriesFor y l).map (·.old.isSome) = ((l.map kindOf).filter fun k => decide (k.1 = y)).map (·.2) := by
    intro l
    rw [List.filter_map, List.map_map]; rfl
  rw [form, form]
  exact (perm.filter _).map _

theorem eq_of_perm_of_length {α : Type} {l m : List α} (perm : l.Perm m) (few : m.length ≤ 1) : l = m := by
  match m with
  | [] => exact List.perm_nil.mp perm
  | [a] => exact List.perm_singleton.mp perm
  | _ :: _ :: _ => simp at few

theorem length_le_of_rising {l : List Nat} {first n : Nat} (rising : l.Pairwise (· < ·)) (bounds : ∀ a ∈ l, first ≤ a ∧ a < n)
    (some : l ≠ []) : first + l.length ≤ n := by
  induction l generalizing first with
  | nil => exact absurd rfl some
  | cons a l ih =>
    obtain ⟨head, tail⟩ := List.pairwise_cons.mp rising
    have low := bounds a (by simp)
    by_cases none : l = []
    · subst none; simp; omega
    · have rest := ih (first := a + 1) tail (fun b mem => ⟨head b mem, (bounds b (by simp [mem])).2⟩) none
      simp only [List.length_cons]; omega

theorem ageByBerth_ages {first : Nat} (ages : AgesFit s.path.list s.path.nextAge s.bus.line)
    (sent : ∀ tx, s.bus.line = .setpointSending tx → tx.age < first) :
    AgesFit (ageByBerth first s).path.list s.path.nextAge s.bus.line := by
  rw [agesFit_iff] at ages ⊢
  obtain ⟨rising, newest, own⟩ := ages
  let older := s.path.list.filter fun e => decide (e.age < first)
  let created := s.path.list.filter fun e => decide (first ≤ e.age)
  have form : (ageByBerth first s).path.list.map (·.age) = older.map (·.age) ++ List.range' first created.length := by
    unfold ageByBerth
    simp only [List.map_append, agedFrom_ages, (sortBy_perm _ _).length_eq]; rfl
  have low : ∀ a ∈ older.map (·.age), a < first := by
    intro a mem
    obtain ⟨e, old, rfl⟩ := List.mem_map.mp mem
    simpa using (List.mem_filter.mp old).2
  have high : ∀ a ∈ List.range' first created.length, first ≤ a ∧ a < s.path.nextAge := by
    intro a mem
    obtain ⟨bound, short⟩ := List.mem_range'_1.mp mem
    refine ⟨bound, short.trans_le ?_⟩
    have := length_le_of_rising (l := created.map (·.age)) (first := first) (n := s.path.nextAge)
      (rising.sublist (List.filter_sublist.map _)) (fun b mem => by
        obtain ⟨e, new, rfl⟩ := List.mem_map.mp mem
        obtain ⟨listed, bound⟩ := List.mem_filter.mp new
        exact ⟨by simpa using bound, newest _ (List.mem_map_of_mem listed)⟩)
      (fun none => by
        have : created.length = 0 := by simpa using congrArg List.length none
        omega)
    simpa using this
  rw [form]
  refine ⟨List.pairwise_append.mpr ⟨rising.sublist (List.filter_sublist.map _), List.pairwise_lt_range',
    fun a ha b hb => (low a ha).trans_le (high b hb).1⟩, fun a mem => ?_, fun tx line => ⟨(own tx line).1, fun mem => ?_⟩⟩
  · rcases List.mem_append.mp mem with mem | mem
    · exact newest a ((List.filter_sublist.map _).subset mem)
    · exact (high a mem).2
  · rcases List.mem_append.mp mem with mem | mem
    · exact (own tx line).2 ((List.filter_sublist.map _).subset mem)
    · have := (high _ mem).1; have := sent tx line; omega

theorem ageByBerth_kept {first : Nat} (ready : Ready s) (sent : ∀ tx, s.bus.line = .setpointSending tx → tx.age < first) :
    Kept s (ageByBerth first s) := by
  refine ⟨⟨ready.berths, ageByBerth_ages ready.ages sent, ready.line, fun y => ?_⟩, fun y => id, .refl _⟩
  have kinds := eq_of_perm_of_length (entriesFor_kinds (ageByBerth_kinds first s) y)
    (by rw [List.length_map]; exact (ready.work y).shape.lengths.1)
  exact (ready.work y).relabel kinds rfl

/-! ## Marks on the line (R3, R67) -/

/-- A change of the line alone. -/
def onLine (l : Line) (s : State) : State := { s with bus := { s.bus with line := l } }

theorem workOf_onLine (l : Line) (s : State) : workOf x (onLine l s) = { workOf x s with line := l } := rfl

theorem onLine_kept {l : Line} (ready : Ready s) (line : Line.Fits l) (ages : LineAges s.bus.line l)
    (behind : ∀ x, Line.SendsTrim x s.bus.line → Line.SendsTrim x l) (attached : ∀ x, Line.Attached x l → Line.Attached x s.bus.line)
    (raises : ∀ x, Line.Raises x l → Line.Raises x s.bus.line) (writes : ∀ x, Line.WritesAlso x l → Line.WritesAlso x s.bus.line) :
    Kept s (onLine l s) := by
  refine ⟨⟨ready.berths, ready.ages.onLine ages, line, fun x => ?_⟩, fun y => id, ages⟩
  have fits := ready.work x
  refine fits.onLine (fun waits none => behind x ?_) (attached x) (raises x) (writes x)
  obtain ⟨e, mem⟩ := List.exists_mem_of_ne_nil _ waits
  obtain ⟨-, ⟨f, listed, -⟩ | ⟨sent, -⟩⟩ := fits.shape.waits e mem
  · simp [none] at listed
  · exact sent

/-- A SETPOINT on the line with other marks: what `f` may change of it. -/
structure Marks (f : SetpointTx → SetpointTx) : Prop where
  same : ∀ tx, (f tx).berth = tx.berth ∧ (f tx).age = tx.age ∧ (f tx).value = tx.value ∧ (f tx).trim = tx.trim
  detached : ∀ tx, tx.detached = true → (f tx).detached = true
  left : ∀ tx, (tx.trim = false → tx.detached = true → tx.left = true) → (f tx).trim = false → (f tx).detached = true → (f tx).left = true
  values : ∀ tx, ∀ h ∈ (f tx).shares, ∃ g ∈ tx.shares, h.value = g.value ∧ (h.berth = none ∨ h.berth = g.berth)
  loose : ∀ tx, (tx.detached = true → ∀ h ∈ tx.shares, h.berth = none) → (f tx).detached = true → ∀ h ∈ (f tx).shares, h.berth = none

/-- The marks put on a SETPOINT on the line. -/
def Line.mark (f : SetpointTx → SetpointTx) (l : Line) : Line :=
  match l with
  | .setpointSending tx => .setpointSending (f tx)
  | .setpointAck tx => .setpointAck (f tx)
  | l => l

section
variable {f : SetpointTx → SetpointTx} {l : Line}

theorem Line.mark_sending {tx' : SetpointTx} : Line.mark f l = .setpointSending tx' ↔ ∃ tx, l = .setpointSending tx ∧ f tx = tx' := by
  cases l <;> simp [Line.mark]

theorem Line.mark_ack {tx' : SetpointTx} : Line.mark f l = .setpointAck tx' ↔ ∃ tx, l = .setpointAck tx ∧ f tx = tx' := by
  cases l <;> simp [Line.mark]

theorem Line.mark_either {tx' : SetpointTx} (h : Line.mark f l = .setpointSending tx' ∨ Line.mark f l = .setpointAck tx') :
    ∃ tx, (l = .setpointSending tx ∨ l = .setpointAck tx) ∧ f tx = tx' := by
  obtain h | h := h
  · obtain ⟨tx, line, eq⟩ := Line.mark_sending.mp h; exact ⟨tx, .inl line, eq⟩
  · obtain ⟨tx, line, eq⟩ := Line.mark_ack.mp h; exact ⟨tx, .inr line, eq⟩

theorem Marks.attached (h : Marks f) {tx : SetpointTx} (attached : (f tx).detached = false) : tx.detached = false := by
  by_contra detached
  rw [h.detached tx (by simpa using detached)] at attached; cases attached

theorem Marks.fits (h : Marks f) (fits : Line.Fits l) : Line.Fits (Line.mark f l) where
  low tx' line := by
    obtain ⟨tx, on, rfl⟩ := Line.mark_either line
    rw [(h.same tx).1]; exact fits.low tx on
  trim tx' line trim := by
    obtain ⟨tx, on, rfl⟩ := Line.mark_either line
    exact h.detached tx (fits.trim tx on (by rw [← (h.same tx).2.2.2]; exact trim))
  left tx' line := by
    obtain ⟨tx, on, rfl⟩ := Line.mark_either line
    exact h.left tx (fits.left tx on)
  zero tx' line value g mem := by
    obtain ⟨tx, on, rfl⟩ := Line.mark_sending.mp line
    obtain ⟨g', mem, eq, -⟩ := h.values tx g mem
    rw [eq]; exact fits.zero tx on (by rw [← (h.same tx).2.2.1]; exact value) g' mem
  loose tx' line detached := by
    obtain ⟨tx, on, rfl⟩ := Line.mark_sending.mp line
    exact h.loose tx (fits.loose tx on) detached

theorem mark_kept (h : Marks f) (ready : Ready s) : Kept s (onLine (Line.mark f s.bus.line) s) := by
  refine onLine_kept ready (h.fits ready.line) (fun tx' line => ?_) ?_ ?_ ?_ ?_
  · obtain ⟨tx, on, rfl⟩ := Line.mark_sending.mp line
    exact ⟨tx, on, (h.same tx).2.1.symm⟩
  · rintro x ⟨tx, line, trim, berth⟩
    exact ⟨f tx, Line.mark_sending.mpr ⟨tx, line, rfl⟩, (h.same tx).2.2.2.trans trim, (h.same tx).1.trans berth⟩
  · rintro x ⟨tx', line, berth, attached⟩
    obtain ⟨tx, on, rfl⟩ := Line.mark_either line
    exact ⟨tx, on, (h.same tx).1.symm.trans berth, h.attached attached⟩
  · rintro x ⟨tx', line, berth, attached, value⟩
    obtain ⟨tx, on, rfl⟩ := Line.mark_sending.mp line
    exact ⟨tx, on, (h.same tx).1.symm.trans berth, h.attached attached, by rw [← (h.same tx).2.2.1]; exact value⟩
  · rintro x ⟨tx', line, other, g, mem, berth⟩
    obtain ⟨tx, on, rfl⟩ := Line.mark_sending.mp line
    obtain ⟨g', mem, -, none | same⟩ := h.values tx g mem
    · simp [berth] at none
    · exact ⟨tx, on, by rw [← (h.same tx).1]; exact other, g', mem, same.symm.trans berth⟩

end

/-- R67: the berth has left SERVING since the dequeue. -/
def leftBy (x : Nat) (tx : SetpointTx) : SetpointTx := if tx.berth = x then { tx with left := true } else tx

theorem markLeft_eq (x : Nat) (l : Line) : markLeft x l = Line.mark (leftBy x) l := by
  unfold markLeft Line.mark leftBy
  cases l <;> dsimp only <;> split <;> rfl

theorem leftBy_marks (x : Nat) : Marks (leftBy x) := by
  have either : ∀ tx, leftBy x tx = { tx with left := true } ∨ leftBy x tx = tx := fun tx => by
    unfold leftBy; split
    · exact .inl rfl
    · exact .inr rfl
  refine ⟨fun tx => ?_, fun tx h => ?_, fun tx h => ?_, fun tx g mem => ?_, fun tx h => ?_⟩ <;> rcases either tx with eq | eq
  · rw [eq]; exact ⟨rfl, rfl, rfl, rfl⟩
  · rw [eq]; exact ⟨rfl, rfl, rfl, rfl⟩
  · rw [eq]; exact h
  · rw [eq]; exact h
  · rw [eq]; exact fun _ _ => rfl
  · rw [eq]; exact h
  · rw [eq] at mem; exact ⟨g, mem, rfl, .inr rfl⟩
  · rw [eq] at mem; exact ⟨g, mem, rfl, .inr rfl⟩
  · rw [eq]; exact h
  · rw [eq]; exact h

theorem markDetached_eq (x : Nat) (l : Line) : markDetached x l = Line.mark (·.detachFrom x) l := by cases l <;> rfl

theorem detachFrom_marks (x : Nat) : Marks (·.detachFrom x) := by
  refine ⟨fun tx => ?_, fun tx h => ?_, fun tx h => ?_, fun tx g mem => ?_, fun tx h => ?_⟩ <;>
    unfold SetpointTx.detachFrom at * <;> by_cases own : tx.berth = x
  · rw [if_pos own]; exact ⟨rfl, rfl, rfl, rfl⟩
  · rw [if_neg own]; exact ⟨rfl, rfl, rfl, rfl⟩
  · rw [if_pos own]
  · rw [if_neg own]; exact h
  · rw [if_pos own]; exact fun _ _ => rfl
  · rw [if_neg own]; exact h
  · rw [if_pos own] at mem
    obtain ⟨g', shared, rfl⟩ := List.mem_map.mp mem
    exact ⟨g', shared, rfl, .inl rfl⟩
  · rw [if_neg own] at mem
    obtain ⟨g', shared, rfl⟩ := List.mem_map.mp mem
    refine ⟨g', shared, ?_⟩
    split
    · exact ⟨rfl, .inl rfl⟩
    · exact ⟨rfl, .inr rfl⟩
  · rw [if_pos own]
    intro _ g mem
    obtain ⟨g', -, rfl⟩ := List.mem_map.mp mem; rfl
  · rw [if_neg own]
    intro detached g mem
    obtain ⟨g', shared, rfl⟩ := List.mem_map.mp mem
    split
    · rfl
    · exact h detached g' shared

/-- After the marks of a map change nothing on the line is the berth's. -/
theorem detached_quiet (x : Nat) (l : Line) :
    ¬ Line.Attached x (Line.mark (·.detachFrom x) l) ∧ ¬ Line.WritesAlso x (Line.mark (·.detachFrom x) l) := by
  constructor
  · rintro ⟨tx', line, berth, attached⟩
    obtain ⟨tx, -, rfl⟩ := Line.mark_either line
    rw [((detachFrom_marks x).same tx).1] at berth
    simp [SetpointTx.detachFrom, berth] at attached
  · rintro ⟨tx', line, other, g, mem, berth⟩
    obtain ⟨tx, -, rfl⟩ := Line.mark_sending.mp line
    rw [((detachFrom_marks x).same tx).1] at other
    simp only [SetpointTx.detachFrom, if_neg other] at mem
    obtain ⟨g', -, rfl⟩ := List.mem_map.mp mem
    split at berth
    · cases berth
    · next differs => exact differs berth

end Sys2Proof.Machine.SetpointWork
end

