-- ==== Sys2Proof/Proofs/RunWork.lean ====
section
/-! Proofs/RunWork.lean: an allocation run keeps the relation `Ready`, and the berths that it puts in the start queue are those R59
names (R59, R62, R63, R71). -/

namespace Sys2Proof.Machine.SetpointWork

variable {s t u : State} {x y : Nat}

/-! ## Joining the start queue -/

/-- What R59 asks of a berth that joins the start queue. -/
def Joins (t : State) (y : Nat) : Prop := (t.berth y).session = .serving ∧ t.pairCommanded y = 0 ∧ t.target y ≠ 0

/-- The relation holds behind an event, and the berths that the event has put in the start queue are those R59 names. -/
structure Joined (s t : State) : Prop where
  ready : Ready t
  joins : ∀ y, s.queuedOf y = none → (t.queuedOf y).isSome = true → Joins t y

theorem Kept.joined (h : Kept s t) : Joined s t :=
  ⟨h.ready, fun y none some => by simp [h.joins y none] at some⟩

theorem Kept.andThen (h : Kept s t) (h' : Joined t u) : Joined s u := ⟨h'.ready, fun y none => h'.joins y (h.joins y none)⟩

/-- Nothing that R59 reads of a berth has changed. -/
def SameJoins (s t : State) : Prop := ∀ y, (t.berth y).session = (s.berth y).session ∧
  t.pairCommanded y = s.pairCommanded y ∧ t.target y = s.target y

theorem SameJoins.of_berths (berths : t.berths = s.berths) : SameJoins s t := fun y =>
  ⟨by rw [berth_congr berths], by simp only [State.pairCommanded, State.pairSum, State.followerOf, berth_congr berths],
    by simp only [State.target, berth_congr berths]⟩

theorem SameJoins.of_path (h : PathStep s t) : SameJoins s t := fun y =>
  ⟨by rw [h.berth y], h.pairCommanded y, h.target y⟩

/-- A change of what R59 does not read, in every berth record. -/
theorem SameJoins.of_flags (h : ∀ y, t.berth y = { s.berth y with
    setpoint := (t.berth y).setpoint, done := (t.berth y).done
    doneByComplete := (t.berth y).doneByComplete, projectedShort := (t.berth y).projectedShort }) : SameJoins s t := fun y => by
  have follower : ∀ x, t.followerOf x = s.followerOf x := followerOf_congr fun y => by rw [h y]; exact ⟨rfl, rfl, rfl⟩
  have commanded : ∀ x, (t.berth x).commanded = (s.berth x).commanded := fun x => by rw [h x]
  refine ⟨by rw [h y], by simp only [State.pairCommanded, State.pairSum, follower, commanded], ?_⟩
  unfold State.target; rw [h y]

theorem Joins.same (h : Joins s y) (same : SameJoins s t) : Joins t y := by
  obtain ⟨serving, commanded, target⟩ := h
  obtain ⟨session, pair, aim⟩ := same y
  exact ⟨session.trans serving, pair.trans commanded, aim ▸ target⟩

theorem Joined.trans (h : Joined s t) (h' : Joined t u) (same : SameJoins t u) : Joined s u := by
  refine ⟨h'.ready, fun y none some => ?_⟩
  cases place : t.queuedOf y with
  | none => exact h'.joins y place some
  | some q => exact (h.joins y none (by rw [place]; rfl)).same same

theorem Joined.andKept (h : Joined s t) (h' : Kept t u) (same : SameJoins t u) : Joined s u := h.trans h'.joined same

theorem Joined.andSame (h : Joined s t) (h' : SameWork t u) (same : SameJoins t u) : Joined s u := h.andKept (h'.kept h.ready) same

theorem SameWork.joined (h : SameWork s t) (ready : Ready s) : Joined s t := (h.kept ready).joined

theorem WorkStep.joined (h : WorkStep x s t) (ready : Ready t) (joins : Joins t x) : Joined s t :=
  ⟨ready, fun y none some => by
    by_cases hy : y = x
    · exact hy ▸ joins
    · rw [queuedOf_work] at none some
      rw [h.others y hy, none] at some; cases some⟩

theorem pairCommanded_single (single : (s.berth x).coupling = .single) : s.pairCommanded x = (s.berth x).commanded := by
  have alone : s.followerOf x = none := by unfold State.followerOf; split <;> simp [single]
  simp [State.pairCommanded, State.pairSum, alone]

/-- R59: an IDLE berth, or one already queued, that R59 names takes its place in the queue. -/
theorem joinQueue_joined (ready : Ready s) (tag : Nat) (joins : Joins s x) (idle : (s.berth x).setpoint ≠ .active) :
    Joined s (joinQueue x tag s) := by
  obtain ⟨serving, commanded, target⟩ := joins
  refine (joinQueue_work x tag s).joined (joinQueue_ready ready tag serving (fun single => ?_) fun raises => ?_)
    (Joins.same ⟨serving, commanded, target⟩ (.of_path (joinQueue_step x tag s)))
  · rw [← pairCommanded_single single]; exact commanded
  · exact ((ready.work x).raises raises).elim (fun out => out serving) idle

/-! ## Following the grants (R62, R63) -/

theorem recompute_joined (x : Nat) (ready : Ready s) : Joined s (recompute x s) := by
  unfold recompute; dsimp only
  split
  · exact (Kept.refl ready).joined
  next inside =>
  obtain ⟨serving, own⟩ := not_or.mp inside
  have serving := not_not.mp serving
  have carries := ready.carries_of_serving serving
  split
  next active =>
    split
    · exact (originateEntry_kept ready (ready.unqueued (by simp [active])) carries).joined
    · exact (Kept.refl ready).joined
  next queued =>
    split
    · exact (leaveQueue_queued_kept ready queued).joined
    · exact (Kept.refl ready).joined
  next idle =>
    split
    next zero =>
      split
      next target => exact joinQueue_joined ready 0 ⟨serving, zero, target⟩ (by simp [idle])
      · exact (Kept.refl ready).joined
    next =>
      split
      next free =>
        obtain ⟨-, entry⟩ := Bool.or_eq_false_iff.mp free.1
        have free := entryOf_none_iff.mp (Option.isSome_eq_false_iff.mp entry |> Option.isNone_iff_eq_none.mp)
        exact (addEntry_kept ready 0 free (ready.unqueued (by simp [idle])) carries).joined
      · exact (Kept.refl ready).joined

theorem recomputeAll_joined (ready : Ready s) : Joined s (recomputeAll s) := by
  unfold recomputeAll
  generalize berthNumbers = l
  induction l generalizing s with
  | nil => exact (Kept.refl ready).joined
  | cons x l ih =>
    have first := recompute_joined x ready
    exact first.trans (ih first.ready) (.of_path (PathStep.foldl _ (fun s x => recompute_step x s) l _))

/-! ## The other stages of a run -/

/-- A stage of a run that leaves the Setpoint Path alone. -/
theorem SameWork.of_run (h : RunStep s t) (path : t.path = s.path) (setpoint : ∀ y, (t.berth y).setpoint = (s.berth y).setpoint) :
    SameWork s t := by
  have only := onlyRun_iff.mp h.only
  refine ⟨by rw [path], by rw [path], by rw [path], by rw [path], by simp only [only], h.length, fun y => ?_⟩
  rw [coreOf, setpoint y, h.berth y]; rfl

theorem alignDone_same_work (v : Served) (s : State) : SameWork s (alignDone v s) := by
  unfold alignDone; dsimp only
  generalize (if v.bus.isSome = true then decide (v.need = 0) else _) = atTarget
  split
  · refine SameWork.trans ?_ (setDone_same_work _ _)
    exact .edit fun _ => rfl
  · split
    · exact clearDone_same_work _ s
    · exact .refl s

theorem writeEnergies_same_work (s : State) : SameWork s (writeEnergies s) := by
  unfold writeEnergies
  refine SameWork.foldl _ (fun t b => ?_) _ s
  split
  · exact editBus_same_work b _ t
  · exact .refl t

theorem runInputs_same_work (s : State) : SameWork s (runInputs s).1 :=
  (writeEnergies_same_work s).trans (SameWork.foldl _ (fun s v => alignDone_same_work v s) _ _)

theorem peakShortfall_same_work (n h : Int) (s : State) : SameWork s (peakShortfall n h s) := by
  unfold peakShortfall; repeat' split
  · exact .refl s
  · refine SameWork.trans ?_ (notify_same_work _ _)
    exact .of_eq rfl rfl rfl
  · exact .refl s

theorem handShortfall_same_work (n : Int) (b : Budgets) (s : State) : SameWork s (handShortfall n b s) := by
  unfold handShortfall; repeat' split
  · exact .refl s
  · exact .of_reserve (reserveShortfall_step _ s)
  · exact peakShortfall_same_work _ _ s
  · exact .refl s

theorem writeGrants_same_work (g : List Int) (s : State) : SameWork s (writeGrants g s) :=
  .of_run (writeGrants_run g s) rfl fun y => by unfold writeGrants; rw [berth_mapIdx]; split <;> rfl

theorem writeProjections_same_work (l : List Nat) (s : State) : SameWork s (writeProjections l s) :=
  .of_run (writeProjections_run l s) rfl fun y => by unfold writeProjections; rw [berth_mapIdx]; split <;> rfl

theorem writeProjections_joins (l : List Nat) (s : State) : SameJoins s (writeProjections l s) :=
  .of_flags fun y => by unfold writeProjections; rw [berth_mapIdx]; split <;> rfl

theorem editRun_same_work (runId : Nat) (f : Run → Run) (s : State) : SameWork s (editRun runId f s) := .of_eq rfl rfl rfl

theorem handOver_same_work (r : Run) (b need : Nat) (p : Option ShortReason) (s : State) : SameWork s (handOver r b need p s) := by
  unfold handOver; dsimp only
  refine SameWork.trans ?_ (editRun_same_work _ _ _)
  split
  · exact .refl s
  · split
    · exact .refl s
    · exact notify_same_work _ s

theorem handRuns_same_work (served : List Served) (filled : List Int) (s : State) : SameWork s (handRuns served filled s) := by
  unfold handRuns
  refine SameWork.foldl _ (fun s r => ?_) _ s
  split
  · exact .refl s
  · exact handOver_same_work _ _ _ _ s

theorem handCoverage_same_work (k : RunKind) (served : List Served) (g : List Int) (s : State) :
    SameWork s (handCoverage k served g s) := by
  unfold handCoverage; repeat' split
  · exact .refl s
  · exact .of_reserve (storeCoverage_step _ _ s)
  · exact .refl s

/-- The stages of a run behind the setpoint work. -/
theorem runEnd_same (k : RunKind) (served : List Served) (o : Outcomes) (short : List Nat) (totals : Totals) (s : State) :
    let t := handRuns served o.filled (writeProjections short s)
    let t := handCoverage k served o.grants { t with alloc := { t.alloc with totals := totals } }
    SameWork s t ∧ SameJoins s t := by
  dsimp only
  have projected := writeProjections_same_work short s
  have joins := writeProjections_joins short s
  generalize writeProjections short s = a at projected joins ⊢
  have runs := handRuns_same_work served o.filled a
  have berths := (handRuns_same served o.filled a).2.1
  generalize handRuns served o.filled a = b at runs berths ⊢
  have totaled : SameWork b { b with alloc := { b.alloc with totals := totals } } := .of_eq rfl rfl rfl
  refine ⟨((projected.trans runs).trans totaled).trans (handCoverage_same_work k served o.grants _), fun y => ?_⟩
  have rest := SameJoins.of_berths (s := a)
    ((handCoverage_same k served o.grants { b with alloc := { b.alloc with totals := totals } }).2.1.trans berths) y
  obtain ⟨session, commanded, target⟩ := joins y
  exact ⟨rest.1.trans session, rest.2.1.trans commanded, rest.2.2.trans target⟩

theorem allocationRun_tail (k : RunKind) (s : State) :
    allocationRun k s = runTail k (runInputs s).1 (runInputs s).2 (runOutcome s) := by
  delta allocationRun runTail runOutcome runInputs; dsimp only

/-- A run, cut before and behind its setpoint work. -/
theorem allocationRun_cut (k : RunKind) (s : State) : ∃ w, SameWork s w ∧ RunStep s w ∧
    SameWork (recomputeAll w) (allocationRun k s) ∧ SameJoins (recomputeAll w) (allocationRun k s) := by
  have inputs := runInputs_same_work s
  refine ⟨writeGrants (runOutcome s).grants (handShortfall (runOutcome s).shortfall (runInputs s).1.budgets (runInputs s).1),
    (inputs.trans (handShortfall_same_work _ _ _)).trans (writeGrants_same_work _ _),
    ((runInputs_run s).trans (handShortfall_run _ _ _)).trans (writeGrants_run _ _), ?_⟩
  rw [allocationRun_tail]
  exact runEnd_same k _ _ _ _ _

theorem allocationRun_joined (k : RunKind) (ready : Ready s) : Joined s (allocationRun k s) := by
  obtain ⟨w, before, -, behind, joins⟩ := allocationRun_cut k s
  have start := before.kept ready
  exact (start.andThen (recomputeAll_joined start.ready)).andSame behind joins

theorem immediateRun_joined (ready : Ready s) : Joined s (immediateRun s) := by
  unfold immediateRun; split
  · exact allocationRun_joined _ ready
  · exact (Kept.refl ready).joined

theorem immediateIf_joined (asked : Bool) (ready : Ready s) : Joined s (immediateIf asked s) := by
  unfold immediateIf; split
  · exact immediateRun_joined ready
  · exact (Kept.refl ready).joined

theorem SameWork.thenRun (h : SameWork s t) (ready : Ready s) : Joined s (immediateRun t) :=
  (h.kept ready).andThen (immediateRun_joined (h.kept ready).ready)

end Sys2Proof.Machine.SetpointWork
end

