-- ==== Sys2Proof/Proofs/FollowedTargets.lean ====
section
/-! Proofs/FollowedTargets.lean: the setpoint work of an allocation run, berth by berth and in its order (R54, R57, R59, R61 to
R63). -/

namespace Sys2Proof.Machine.SetpointWork

variable {s t u v : State} {x y : Nat} {l : List Nat}

/-! ## The recompute of one berth (R62, R63) -/

theorem recompute_outside (out : (s.berth x).session ≠ .serving ∨ (s.berth x).coupling = .follower) : recompute x s = s := by
  simp only [recompute, out, if_true]

section
variable (serving : (s.berth x).session = .serving) (own : (s.berth x).coupling ≠ .follower)
include serving own

theorem recompute_active (active : (s.berth x).setpoint = .active) : recompute x s =
    if wantsEntry (s.target x) (s.pairCommanded x) s.raiseDeadband then originateEntry x s else s := by
  simp [recompute, serving, own, active]

theorem recompute_queued (queued : (s.berth x).setpoint = .startQueued) : recompute x s =
    if s.target x = 0 then leaveQueue x s else s := by
  simp [recompute, serving, own, queued]

theorem recompute_idle (idle : (s.berth x).setpoint = .idle) : recompute x s =
    if s.pairCommanded x = 0 then (if s.target x ≠ 0 then joinQueue x 0 s else s)
    else if s.hasEntry x = false ∧ ¬ (s.berth x).inFlight then addEntry x 0 s else s := by
  simp [recompute, serving, own, idle]

end

theorem recompute_work (x : Nat) (s : State) : WorkStep x s (recompute x s) := by
  unfold recompute; dsimp only
  repeat' split
  · exact .refl x s
  · exact originateEntry_work x s
  · exact .refl x s
  · exact leaveQueue_work x s
  · exact .refl x s
  · exact joinQueue_work x 0 s
  · exact .refl x s
  · exact addEntry_work x 0 s
  · exact .refl x s

/-! ## The order of the new work -/

/-- The targets of the berths in `l` have been followed, in that order: which places in the queue and which entries stand, and which
are new behind them. -/
structure Follows (l : List Nat) (s t : State) : Prop where
  queue : ∃ joined : List Queued, joined.Pairwise (fun a b => a.berth < b.berth) ∧ (∀ q ∈ joined, q.berth ∈ l) ∧
    t.path.queue = (s.path.queue.filter fun q => decide (q.berth ∈ l → s.target q.berth ≠ 0)) ++ joined
  list : ∃ created : List Entry, created.Pairwise (fun a b => a.berth < b.berth ∧ a.age < b.age) ∧
    (∀ e ∈ created, e.berth ∈ l ∧ e.old = none ∧ s.path.nextAge ≤ e.age ∧ e.age < t.path.nextAge) ∧
    t.path.list = (s.path.list.filter fun e => decide (e.berth ∈ l → e.old.isSome = true ∨ t.queuedOf e.berth = none)) ++ created
  age : s.path.nextAge ≤ t.path.nextAge

theorem Follows.nil (s : State) : Follows [] s s :=
  ⟨⟨[], by simp⟩, ⟨[], by simp⟩, Nat.le_refl _⟩

theorem Follows.cons (first : Follows [x] s t) (rest : Follows l t u) (low : ∀ y ∈ l, x < y)
    (target : ∀ y, t.target y = s.target y) (place : u.queuedOf x = t.queuedOf x) : Follows (x :: l) s u := by
  obtain ⟨⟨j, jUp, jIn, jForm⟩, ⟨c, cUp, cIn, cForm⟩, age⟩ := first
  obtain ⟨⟨j', jUp', jIn', jForm'⟩, ⟨c', cUp', cIn', cForm'⟩, age'⟩ := rest
  have out : x ∉ l := fun mem => absurd (low x mem) (lt_irrefl x)
  refine ⟨⟨j ++ j', ?_, ?_, ?_⟩, ⟨c ++ c', ?_, ?_, ?_⟩, age.trans age'⟩
  · refine List.pairwise_append.mpr ⟨jUp, jUp', fun a ha b hb => ?_⟩
    rw [List.mem_singleton.mp (jIn a ha)]; exact low _ (jIn' b hb)
  · intro q mem
    rcases List.mem_append.mp mem with mem | mem
    · simp [List.mem_singleton.mp (jIn q mem)]
    · simp [jIn' q mem]
  · have kept : j.filter (fun q => decide (q.berth ∈ l → t.target q.berth ≠ 0)) = j :=
      List.filter_eq_self.mpr fun q mem => by
        have := List.mem_singleton.mp (jIn q mem); simp [this, out]
    rw [jForm', jForm, List.filter_append, kept, List.append_assoc, List.filter_filter]
    congr 1
    refine List.filter_congr fun q _ => ?_
    simp only [target, List.mem_cons, ← Bool.decide_and, List.not_mem_nil, or_false]
    exact decide_eq_decide.mpr (by tauto)
  · refine List.pairwise_append.mpr ⟨cUp, cUp', fun a ha b hb => ?_⟩
    obtain ⟨aIn, -, -, old⟩ := cIn a ha
    obtain ⟨bIn, -, new, -⟩ := cIn' b hb
    rw [List.mem_singleton.mp aIn]
    exact ⟨low _ bIn, old.trans_le new⟩
  · intro e mem
    rcases List.mem_append.mp mem with mem | mem
    · obtain ⟨isIn, own, low, high⟩ := cIn e mem
      exact ⟨by simp [List.mem_singleton.mp isIn], own, low, high.trans_le age'⟩
    · obtain ⟨isIn, own, low, high⟩ := cIn' e mem
      exact ⟨by simp [isIn], own, age.trans low, high⟩
  · have kept : c.filter (fun e => decide (e.berth ∈ l → e.old.isSome = true ∨ u.queuedOf e.berth = none)) = c :=
      List.filter_eq_self.mpr fun e mem => by
        have := List.mem_singleton.mp (cIn e mem).1; simp [this, out]
    rw [cForm', cForm, List.filter_append, kept, List.append_assoc, List.filter_filter]
    congr 1
    refine List.filter_congr fun e _ => ?_
    simp only [List.mem_cons, ← Bool.decide_and, List.not_mem_nil, or_false]
    refine decide_eq_decide.mpr ⟨?_, ?_⟩
    · rintro ⟨rest, first⟩ (berth | mem)
      · rw [berth, place, ← berth]; exact first berth
      · exact rest mem
    · refine fun all => ⟨fun mem => all (.inr mem), fun berth => ?_⟩
      have := all (.inl berth)
      rwa [berth, place, ← berth] at this

/-! ## One berth's part -/

theorem queue_of_quiet (stays : ∀ q ∈ s.path.queue, q.berth = x → s.target x ≠ 0) :
    s.path.queue = s.path.queue.filter fun q => decide (q.berth = x → s.target x ≠ 0) :=
  (List.filter_eq_self.mpr fun q mem => decide_eq_true (stays q mem)).symm

theorem list_of_quiet (stays : ∀ e ∈ s.path.list, e.berth = x → e.old.isSome = true ∨ t.queuedOf x = none) :
    s.path.list = s.path.list.filter fun e => decide (e.berth = x → e.old.isSome = true ∨ t.queuedOf x = none) :=
  (List.filter_eq_self.mpr fun e mem => decide_eq_true (stays e mem)).symm

/-- What one berth's recompute makes: at most one place and at most one entry. -/
theorem Follows.single {j : List Queued} {c : List Entry}
    (queue : t.path.queue = (s.path.queue.filter fun q => decide (q.berth = x → s.target x ≠ 0)) ++ j)
    (places : j = [] ∨ ∃ tag, j = [⟨x, tag⟩])
    (list : t.path.list = (s.path.list.filter fun e => decide (e.berth = x → e.old.isSome = true ∨ t.queuedOf x = none)) ++ c)
    (entries : c = [] ∨ ∃ tag, c = [⟨x, tag, s.path.nextAge, none⟩] ∧ t.path.nextAge = s.path.nextAge + 1)
    (age : s.path.nextAge ≤ t.path.nextAge) : Follows [x] s t := by
  refine ⟨⟨j, ?_, ?_, ?_⟩, ⟨c, ?_, ?_, ?_⟩, age⟩
  · rcases places with rfl | ⟨tag, rfl⟩ <;> simp
  · rcases places with rfl | ⟨tag, rfl⟩ <;> simp
  · rw [queue]
    congr 1
    refine List.filter_congr fun q _ => ?_
    by_cases berth : q.berth = x <;> simp [berth]
  · rcases entries with rfl | ⟨tag, rfl, -⟩ <;> simp
  · rcases entries with rfl | ⟨tag, rfl, new⟩
    · simp
    · simp [new]
  · rw [list]
    congr 1
    refine List.filter_congr fun e _ => ?_
    by_cases berth : e.berth = x <;> simp [berth]

/-- The places of the others stand, and the list. -/
theorem Follows.stand (queue : v.path.queue = s.path.queue.filter fun q => decide (q.berth = x → s.target x ≠ 0))
    (list : v.path.list = s.path.list) (age : v.path.nextAge = s.path.nextAge)
    (stays : ∀ e ∈ s.path.list, e.berth = x → e.old.isSome = true ∨ v.queuedOf x = none) : Follows [x] s v :=
  .single (j := []) (c := []) (by rw [queue, List.append_nil]) (.inl rfl)
    (by rw [list, List.append_nil]; exact list_of_quiet stays) (.inl rfl) age.ge

/-- And the berth's new entry. -/
theorem Follows.add (queue : v.path.queue = s.path.queue.filter fun q => decide (q.berth = x → s.target x ≠ 0))
    (list : v.path.list = s.path.list) (age : v.path.nextAge = s.path.nextAge) (out : v.queuedOf x = none) (tag : Nat) :
    Follows [x] s (addEntry x tag v) := by
  have quiet : s.path.list = s.path.list.filter fun e =>
      decide (e.berth = x → e.old.isSome = true ∨ (addEntry x tag v).queuedOf x = none) := list_of_quiet fun _ _ _ => .inr out
  have listed : (addEntry x tag v).path.list =
      s.path.list ++ if v.trimWaits x then [] else [⟨x, tag, s.path.nextAge, none⟩] := by
    unfold addEntry; dsimp only; split <;> simp [list, age]
  refine .single (j := []) (by rw [List.append_nil]; exact queue) (.inl rfl) (listed.trans (congrArg (· ++ _) quiet)) ?_
    (by rw [addEntry_nextAge, age]; omega)
  split
  · exact .inl rfl
  · exact .inr ⟨tag, rfl, by rw [addEntry_nextAge, age]⟩

theorem Follows.originate (out : s.queuedOf x = none) : Follows [x] s (originateEntry x s) := by
  have none := placesFor_eq_nil.mp (queuedOf_none_iff.mp out)
  have queue := queue_of_quiet (s := s) (x := x) fun q mem berth => absurd berth (none q mem)
  unfold originateEntry; split
  · exact .add queue rfl rfl out 0
  · exact .stand queue rfl rfl fun _ _ _ => .inr out

theorem Follows.leave (zero : s.target x = 0) (free : s.entryOf x = none) : Follows [x] s (leaveQueue x s) := by
  have out : (unqueue x .idle s).queuedOf x = none := (queuedOf_filter (removeQueued_queue x s)).trans (if_pos rfl)
  have queue : (unqueue x .idle s).path.queue = s.path.queue.filter fun q => decide (q.berth = x → s.target x ≠ 0) := by
    simp only [zero]; exact (removeQueued_queue x s).trans (List.filter_congr fun q _ => by simp)
  rw [leaveQueue_eq]; split
  · exact .stand queue rfl rfl fun _ _ _ => .inr out
  · have free : (unqueue x .idle s).entryOf x = none := free
    simp only [requestEntry, free]
    exact .add queue rfl rfl out _

theorem Follows.join (out : s.queuedOf x = none) : Follows [x] s (joinQueue x 0 s) := by
  rw [joinQueue_eq]; split
  · rw [if_pos rfl]; exact .originate out
  · have none := placesFor_eq_nil.mp (queuedOf_none_iff.mp out)
    have queue : (enqueue x 0 s).path.queue = s.path.queue ++ [⟨x, joinTag x 0 s⟩] := by
      have out : (setSetpointState x .startQueued (removeEntry x s)).queuedOf x = Option.none := out
      simp only [enqueue, takePlace, if_true, out]; rfl
    have list : (enqueue x 0 s).path.list = s.path.list.filter fun e => !e.ownOf x := by
      have out : (setSetpointState x .startQueued (removeEntry x s)).queuedOf x = Option.none := out
      simp only [enqueue, takePlace, if_true, out]; rfl
    have age : (enqueue x 0 s).path.nextAge = s.path.nextAge := by
      have out : (setSetpointState x .startQueued (removeEntry x s)).queuedOf x = Option.none := out
      simp only [enqueue, takePlace, if_true, out]; rfl
    have place : (enqueue x 0 s).queuedOf x ≠ Option.none := fun h =>
      placesFor_eq_nil.mp (queuedOf_none_iff.mp h) ⟨x, joinTag x 0 s⟩ (by rw [queue]; simp) rfl
    refine .single (c := []) (by rw [queue]; exact congrArg (· ++ _) (queue_of_quiet fun q mem berth => absurd berth (none q mem)))
      (.inr ⟨_, rfl⟩) ?_ (.inl rfl) age.ge
    rw [list, List.append_nil]
    refine List.filter_congr fun e _ => ?_
    by_cases berth : e.berth = x <;> cases old : e.old <;> simp [Entry.ownOf, berth, old, place]

theorem Ready.entry_none (ready : Ready s) (queued : (s.berth x).setpoint = .startQueued) :
    s.entryOf x = none ∧ s.trimWaits x = false ∧ ∃ q, s.queuedOf x = some q := by
  have places := (ready.work x).queued.mp queued
  obtain ⟨free, open_⟩ := (ready.work x).queued_alone places
  refine ⟨entryOf_none_iff.mpr free, trimWaits_eq_false_iff.mpr open_, ?_⟩
  cases place : s.queuedOf x with
  | none => exact absurd (queuedOf_none_iff.mp place) places
  | some q => exact ⟨q, rfl⟩

theorem Follows.same (ready : Ready s) (stays : (s.berth x).setpoint = .startQueued → s.target x ≠ 0) : Follows [x] s s := by
  have queued : ∀ q ∈ s.path.queue, q.berth = x → (s.berth x).setpoint = .startQueued := fun q mem berth =>
    (ready.work x).queued.mpr (placesFor_ne_nil.mpr ⟨q, mem, berth⟩)
  refine .stand (queue_of_quiet fun q mem berth => stays (queued q mem berth)) rfl rfl fun e mem berth => ?_
  cases place : s.queuedOf x with
  | none => exact .inr rfl
  | some q =>
    have some : (workOf x s).queue ≠ [] := fun none => by simp [queuedOf_none_iff.mpr none] at place
    have none := ((ready.work x).shape.apart some).1
    exact absurd berth (entriesFor_eq_nil.mp none e mem)

theorem recompute_follows (x : Nat) (ready : Ready s) : Follows [x] s (recompute x s) := by
  by_cases out : (s.berth x).session ≠ .serving ∨ (s.berth x).coupling = .follower
  · rw [recompute_outside out]
    refine .same ready fun queued => ?_
    have serving := (ready.work x).serving ((ready.work x).queued.mp queued)
    exact absurd (ready.carries_of_serving serving).2.2 (not_not.mpr (out.resolve_left (not_not.mpr serving)))
  obtain ⟨serving, own⟩ := not_or.mp out
  have serving := not_not.mp serving
  have none (h : (s.berth x).setpoint ≠ .startQueued) : s.queuedOf x = none := queuedOf_none_iff.mpr (ready.unqueued h)
  cases setpoint : (s.berth x).setpoint with
  | active =>
    rw [recompute_active serving own setpoint]; split
    · exact .originate (none (by simp [setpoint]))
    · exact .same ready (by simp [setpoint])
  | startQueued =>
    rw [recompute_queued serving own setpoint]; split
    next zero => exact .leave zero (ready.entry_none setpoint).1
    next target => exact .same ready fun _ => target
  | idle =>
    have none := none (by simp [setpoint])
    have stays : Follows [x] s s := .same ready (by simp [setpoint])
    rw [recompute_idle serving own setpoint]
    repeat' split
    · exact .join none
    · exact stays
    next free =>
      have alone := placesFor_eq_nil.mp (queuedOf_none_iff.mp none)
      exact .add (queue_of_quiet fun q mem berth => absurd berth (alone q mem)) rfl rfl none 0
    · exact stays

/-! ## All berths -/

theorem recomputes_step (l : List Nat) (s : State) : PathStep s (l.foldl (fun s x => recompute x s) s) :=
  PathStep.foldl _ (fun s x => recompute_step x s) l s

theorem recomputes_beside (l : List Nat) (apart : x ∉ l) (s : State) :
    workOf x (l.foldl (fun s x => recompute x s) s) = workOf x s := by
  induction l generalizing s with
  | nil => rfl
  | cons y l ih =>
    obtain ⟨differs, apart⟩ := not_or.mp (mt List.mem_cons.mpr apart)
    exact (ih apart _).trans ((recompute_work y s).others x differs)

theorem recomputes_ready (l : List Nat) (ready : Ready s) : Ready (l.foldl (fun s x => recompute x s) s) := by
  induction l generalizing s with
  | nil => exact ready
  | cons x l ih => exact ih (recompute_joined x ready).ready

theorem recomputes_follow (l : List Nat) (up : l.Pairwise (· < ·)) (ready : Ready s) :
    Follows l s (l.foldl (fun s x => recompute x s) s) := by
  induction l generalizing s with
  | nil => exact .nil s
  | cons x l ih =>
    obtain ⟨low, up⟩ := List.pairwise_cons.mp up
    refine (recompute_follows x ready).cons (ih up (recompute_joined x ready).ready) low
      (fun y => (recompute_step x s).target y) ?_
    rw [List.foldl_cons, queuedOf_work, queuedOf_work, recomputes_beside l (fun mem => absurd (low x mem) (lt_irrefl x))]

theorem recomputeAll_follows (ready : Ready s) : Follows berthNumbers s (recomputeAll s) :=
  recomputes_follow _ List.pairwise_lt_range ready

/-- The recompute of all berths, cut at that of berth `x`. -/
theorem recomputeAll_cut (low : x < 36) (ready : Ready s) : ∃ v, Ready v ∧ PathStep s v ∧ workOf x v = workOf x s ∧
    s.path.nextAge ≤ v.path.nextAge ∧ PathStep (recompute x v) (recomputeAll s) ∧
    workOf x (recomputeAll s) = workOf x (recompute x v) ∧ (recompute x v).path.nextAge ≤ (recomputeAll s).path.nextAge := by
  obtain ⟨pre, post, form⟩ := List.append_of_mem (List.mem_range.mpr low)
  have up : (pre ++ x :: post).Pairwise (· < ·) := form ▸ List.pairwise_lt_range
  obtain ⟨preUp, up, below⟩ := List.pairwise_append.mp up
  obtain ⟨above, postUp⟩ := List.pairwise_cons.mp up
  have all : recomputeAll s = post.foldl (fun s x => recompute x s) (recompute x (pre.foldl (fun s x => recompute x s) s)) := by
    have : berthNumbers = pre ++ x :: post := form
    rw [recomputeAll, this, List.foldl_append, List.foldl_cons]
  have first := recomputes_ready pre ready
  refine ⟨_, first, recomputes_step pre s, recomputes_beside pre (fun mem => ?_) s, (recomputes_follow pre preUp ready).age, ?_⟩
  · exact absurd (below x mem x (by simp)) (lt_irrefl x)
  · rw [all]
    exact ⟨recomputes_step post _, recomputes_beside post (fun mem => absurd (above x mem) (lt_irrefl x)) _,
      (recomputes_follow post postUp (recompute_joined x first).ready).age⟩

end Sys2Proof.Machine.SetpointWork
end

