-- ==== Sys2Proof/Proofs/ImmediateRuns.lean ====
section
/-! Proofs/ImmediateRuns.lean: what an immediate run writes (R70 to R72, R92), and the setpoint work that every run leaves
(ImmediateRunsWriteOnlyTheirOutcome). -/

namespace Sys2Proof.Machine.SetpointWork

variable {s t u v r : State} {x : Nat}

/-! ## The records that a run writes -/

theorem immediateRun_out (h : s.ctl.mode ≠ .run) : immediateRun s = s := by simp [immediateRun, State.inRun, h]

theorem immediateRun_in (h : s.ctl.mode = .run) : immediateRun s = allocationRun .immediate s := by
  simp [immediateRun, State.inRun, h]

/-- The newest call record may have its shortfall flag set; no other record changes. -/
def RecordsMarked (s t : State) : Prop := (s.reserve.records = [] → t.reserve.records = []) ∧
  ∀ c older, s.reserve.records = c :: older → ∃ short, t.reserve.records = { c with shortfall := short } :: older

theorem RecordsMarked.of_eq (h : t.reserve.records = s.reserve.records) : RecordsMarked s t :=
  ⟨fun none => h.trans none, fun c _ form => ⟨c.shortfall, h.trans form⟩⟩

theorem handShortfall_records (n : Int) (b : Budgets) (s : State) : RecordsMarked s (handShortfall n b s) := by
  unfold handShortfall; split
  · exact .of_eq rfl
  · split
    · unfold reserveShortfall
      split
      next c head older called call records =>
        split
        · exact .of_eq rfl
        · refine ⟨fun none => by simp [records] at none, fun c' older' form => ⟨true, ?_⟩⟩
          rw [records] at form
          obtain ⟨rfl, rfl⟩ := List.cons.inj form
          simp [editRecord, records]
      · exact .of_eq rfl
    · refine .of_eq ?_
      unfold peakShortfall; repeat' split
      · rfl
      · simp
      · rfl
    · exact .of_eq rfl

/-- The stages behind the shortfall leave the Reserve Unit of an immediate run as it was. -/
theorem runTail_reserve (a : State) (served : List Served) (o : Outcomes) :
    (runTail .immediate a served o).reserve = (handShortfall o.shortfall a.budgets a).reserve := by
  unfold runTail; dsimp only
  generalize (List.map _ (List.filter _ served)) = short
  generalize handShortfall o.shortfall a.budgets a = b
  have followed := (recomputeAll_same (writeGrants o.grants b)).2.1
  generalize recomputeAll (writeGrants o.grants b) = c at followed ⊢
  have handed := (handRuns_same served o.filled (writeProjections short c)).2.2
  generalize handRuns served o.filled (writeProjections short c) = d at handed ⊢
  rw [(handCoverage_same .immediate _ _ _).2.2.2.2.2 (by simp)]
  exact handed.trans followed

theorem allocationRun_records (s : State) : RecordsMarked s (allocationRun .immediate s) := by
  obtain ⟨none, some⟩ := handShortfall_records (runOutcome s).shortfall (runInputs s).1.budgets (runInputs s).1
  rw [runInputs_reserve] at none some
  unfold RecordsMarked
  rw [allocationRun_tail, runTail_reserve]
  exact ⟨none, some⟩

theorem runInputs_alloc (s : State) : (runInputs s).1.alloc = s.alloc := by
  have aligned : ∀ (u : State) (v : Served), (alignDone v u).alloc = u.alloc := fun u v => by
    unfold alignDone; dsimp only
    generalize (if v.bus.isSome = true then decide (v.need = 0) else _) = atTarget
    repeat' split
    · unfold setDone; split
      · rfl
      · simp
    · rfl
    · rfl
  unfold runInputs; dsimp only
  rw [foldl_keeps (·.alloc) (fun s v => alignDone v s) aligned]
  unfold writeEnergies
  refine foldl_keeps (·.alloc) _ (fun u b => ?_) _ s
  split
  · simp
  · rfl

theorem allocationRun_counts (s : State) : (allocationRun .immediate s).alloc.totals.kind = .immediate ∧
    (allocationRun .immediate s).alloc.totals.count = (s.alloc.totals.count + 1) % 65536 := by
  obtain ⟨-, ⟨short, totals⟩, -⟩ := allocationRun_leaves .immediate s
  rw [totals, ← runInputs_alloc s]
  exact ⟨rfl, rfl⟩

theorem interval_of_plain {i j : Option Interval} (h : j.map Interval.plain = i.map Interval.plain) :
    (i = none → j = none) ∧ ∀ a, i = some a → ∃ short, j = some { a with shortfall := short } := by
  refine ⟨fun none => by simpa [none] using h, ?_⟩
  rintro a rfl
  obtain ⟨b, rfl, same⟩ := Option.map_eq_some_iff.mp h
  exact ⟨b.shortfall, by rw [← show { b.plain with shortfall := b.shortfall } = b from rfl, same]; rfl⟩

/-! ## The setpoint work of one berth -/

/-- What the recompute reads of berth `x`, as the run finds it: a moment `v` of the recompute at which it is unchanged. -/
structure Reads (x : Nat) (u v : State) : Prop where
  berth : ∀ y, v.berth y = { u.berth y with
    grant := (v.berth y).grant, setpoint := (v.berth y).setpoint, done := (v.berth y).done
    doneByComplete := (v.berth y).doneByComplete, projectedShort := (v.berth y).projectedShort }
  setpoint : (v.berth x).setpoint = (u.berth x).setpoint
  entry : v.entryOf x = u.entryOf x
  queued : v.queuedOf x = u.queuedOf x
  trim : v.trimWaits x = u.trimWaits x
  deadband : v.raiseDeadband = u.raiseDeadband
  age : u.path.nextAge ≤ v.path.nextAge

theorem setpoint_of_work (h : workOf x v = workOf x u) : (v.berth x).setpoint = (u.berth x).setpoint :=
  congrArg (fun w : Work => w.berth.setpoint) h

theorem Reads.of_run (run : RunStep u v) (work : workOf x v = workOf x u) (age : u.path.nextAge ≤ v.path.nextAge) : Reads x u v where
  berth := run.berth
  setpoint := setpoint_of_work work
  entry := by rw [entryOf_work, entryOf_work, work]
  queued := by rw [queuedOf_work, queuedOf_work, work]
  trim := by rw [trimWaits_work, trimWaits_work, work]
  deadband := by
    obtain ⟨-, -, link, -⟩ := onlyRun_iff.mp run.only
    unfold State.raiseDeadband State.param
    rw [link]
  age := age

theorem Reads.same (h : Reads x u v) : (v.berth x).session = (u.berth x).session ∧ (v.berth x).coupling = (u.berth x).coupling ∧
    (v.berth x).inFlight = (u.berth x).inFlight := by rw [h.berth x]; exact ⟨rfl, rfl, rfl⟩

theorem Reads.commanded (h : Reads x u v) : v.pairCommanded x = u.pairCommanded x := by
  have follower : v.followerOf x = u.followerOf x := followerOf_congr (fun y => by rw [h.berth y]; exact ⟨rfl, rfl, rfl⟩) x
  have commanded : ∀ y, (v.berth y).commanded = (u.berth y).commanded := fun y => by rw [h.berth y]
  simp only [State.pairCommanded, State.pairSum, follower, commanded]

/-- What the run leaves of berth `x` behind its recompute. -/
structure Leaves (x : Nat) (r t : State) : Prop where
  setpoint : (t.berth x).setpoint = (r.berth x).setpoint
  entry : t.entryOf x = r.entryOf x
  queued : t.queuedOf x = r.queuedOf x
  age : r.path.nextAge ≤ t.path.nextAge

theorem Leaves.of_work (work : workOf x t = workOf x r) (age : r.path.nextAge ≤ t.path.nextAge) : Leaves x r t where
  setpoint := setpoint_of_work work
  entry := by rw [entryOf_work, entryOf_work, work]
  queued := by rw [queuedOf_work, queuedOf_work, work]
  age := age

/-- The work of berth `x` stands as the run found it. -/
def Stands (x : Nat) (u t : State) : Prop :=
  (t.berth x).setpoint = (u.berth x).setpoint ∧ t.entryOf x = u.entryOf x ∧ t.queuedOf x = u.queuedOf x

/-- Berth `x` has a new entry with this tag. -/
def Made (x : Nat) (u t : State) (p : SetpointState) (tag : Nat) : Prop :=
  (t.berth x).setpoint = p ∧ t.queuedOf x = none ∧
    ∃ age, u.path.nextAge ≤ age ∧ age < t.path.nextAge ∧ t.entryOf x = some ⟨x, tag, age, none⟩

/-- Berth `x` has a new untagged entry, or the one that stood. -/
def Originated (x : Nat) (u t : State) : Prop :=
  (u.entryOf x = none → Made x u t (u.berth x).setpoint 0) ∧ (u.entryOf x ≠ none → Stands x u t)

/-- R62: a target `g` that the commanded value `c` has to follow. -/
def ToFollow (g c deadband : Int) : Prop :=
  g ≠ c ∧ (g = 0 ∨ (c < 0 ∧ 0 < g) ∨ (0 < c ∧ g < 0) ∨ g.natAbs < c.natAbs ∨ deadband ≤ (g.natAbs : Int) - c.natAbs)

theorem wantsEntry_iff (g c deadband : Int) : wantsEntry g c deadband = true ↔ ToFollow g c deadband := by
  unfold wantsEntry ToFollow oppositeSigns mag
  simp only [decide_eq_true_eq]
  split_ifs <;> simp only [decide_eq_true_eq, true_iff, false_iff] <;> omega

section
variable (reads : Reads x u v) (leaves : Leaves x r t)
include reads leaves

theorem stands_of_same (same : r = v) : Stands x u t := by
  subst same
  exact ⟨leaves.setpoint.trans reads.setpoint, leaves.entry.trans reads.entry, leaves.queued.trans reads.queued⟩

/-- An entry that the recompute has added. -/
theorem made_of_addEntry {w : State} {tag : Nat} (form : r = addEntry x tag w) (age : w.path.nextAge = v.path.nextAge)
    (free : w.entryOf x = none) (out : w.queuedOf x = none) : Made x u t (w.berth x).setpoint tag := by
  subst form
  refine ⟨leaves.setpoint, leaves.queued.trans out, w.path.nextAge, age ▸ reads.age, ?_, ?_⟩
  · have := leaves.age; rw [addEntry_nextAge] at this; omega
  · rw [leaves.entry, entryOf_addEntry_self tag free]

theorem originated_of_originateEntry (form : r = originateEntry x v) (out : v.queuedOf x = none) : Originated x u t := by
  unfold Originated
  rw [← reads.entry]
  refine ⟨fun free => ?_, fun some => stands_of_same reads leaves ?_⟩
  · rw [← reads.setpoint]
    exact made_of_addEntry reads leaves (w := v) (by rw [form]; simp only [originateEntry, free]) rfl free out
  · rw [form]
    cases entry : v.entryOf x with
    | none => exact absurd entry some
    | some e => simp only [originateEntry, entry]

end

/-- One berth's recompute, with what lies before and behind it in the run. -/
structure Around (x : Nat) (u v t : State) : Prop where
  ready : Ready v
  reads : Reads x u v
  leaves : Leaves x (recompute x v) t
  target : t.target x = v.target x

section
variable (h : Around x u v t)
include h

theorem stands_outside (out : (u.berth x).session ≠ .serving ∨ (u.berth x).coupling = .follower) : Stands x u t := by
  obtain ⟨session, coupling, -⟩ := h.reads.same
  exact stands_of_same h.reads h.leaves (recompute_outside (by rw [session, coupling]; exact out))

variable (serving : (u.berth x).session = .serving) (own : (u.berth x).coupling ≠ .follower)
include serving own

theorem active_followed (active : (u.berth x).setpoint = .active) :
    (ToFollow (t.target x) (u.pairCommanded x) u.raiseDeadband → Originated x u t) ∧
      (¬ ToFollow (t.target x) (u.pairCommanded x) u.raiseDeadband → Stands x u t) := by
  obtain ⟨session, coupling, -⟩ := h.reads.same
  have setpoint : (v.berth x).setpoint = .active := h.reads.setpoint.trans active
  have form := recompute_active (session.trans serving) (coupling ▸ own) setpoint
  rw [h.target, ← h.reads.commanded, ← h.reads.deadband, ← wantsEntry_iff]
  refine ⟨fun wants => originated_of_originateEntry h.reads h.leaves (by rw [form, if_pos wants]) ?_,
    fun not => stands_of_same h.reads h.leaves (by rw [form, if_neg not])⟩
  exact queuedOf_none_iff.mpr (h.ready.unqueued (by simp [setpoint]))

theorem queued_followed (queued : (u.berth x).setpoint = .startQueued) :
    (t.target x ≠ 0 → Stands x u t) ∧ ∀ q, t.target x = 0 → u.queuedOf x = some q →
      (q.tag = 0 → (t.berth x).setpoint = .idle ∧ t.queuedOf x = none ∧ t.entryOf x = none) ∧
      (q.tag ≠ 0 → Made x u t .idle q.tag) := by
  obtain ⟨session, coupling, -⟩ := h.reads.same
  have setpoint : (v.berth x).setpoint = .startQueued := h.reads.setpoint.trans queued
  have form := recompute_queued (session.trans serving) (coupling ▸ own) setpoint
  have low : x < v.berths.length := h.ready.index (h.ready.carries_of_serving (session.trans serving)).1
  have free : (unqueue x .idle v).entryOf x = none := (h.ready.entry_none setpoint).1
  have out : (unqueue x .idle v).queuedOf x = none := (queuedOf_filter (removeQueued_queue x v)).trans (if_pos rfl)
  have idle : ((unqueue x .idle v).berth x).setpoint = .idle :=
    congrArg (fun w : Work => w.berth.setpoint) (workOf_unqueue .idle low)
  rw [h.target]
  refine ⟨fun target => stands_of_same h.reads h.leaves (by rw [form, if_neg target]), fun q zero place => ?_⟩
  rw [← h.reads.queued] at place
  rw [if_pos zero, leaveQueue_eq, place, queuedTag] at form
  refine ⟨fun untagged => ?_, fun tagged => ?_⟩
  · rw [if_pos untagged] at form
    have leaves := h.leaves
    rw [form] at leaves
    exact ⟨leaves.setpoint.trans idle, leaves.queued.trans out, leaves.entry.trans free⟩
  · rw [if_neg tagged] at form
    rw [← idle]
    exact made_of_addEntry h.reads h.leaves (by rw [form]; simp only [requestEntry, free]) rfl free out

theorem idle_joined (idle : (u.berth x).setpoint = .idle) (zero : u.pairCommanded x = 0) :
    (t.target x = 0 → Stands x u t) ∧
      (t.target x ≠ 0 → u.trimWaits x = false → (t.berth x).setpoint = .startQueued ∧ t.entryOf x = none ∧
        t.queuedOf x = some ⟨x, entryTag (u.entryOf x)⟩) ∧
      (t.target x ≠ 0 → u.trimWaits x = true → Originated x u t) := by
  obtain ⟨session, coupling, -⟩ := h.reads.same
  have setpoint : (v.berth x).setpoint = .idle := h.reads.setpoint.trans idle
  have form := recompute_idle (session.trans serving) (coupling ▸ own) setpoint
  have out : v.queuedOf x = none := queuedOf_none_iff.mpr (h.ready.unqueued (by simp [setpoint]))
  rw [h.target, ← h.reads.trim, ← h.reads.entry]
  rw [if_pos (h.reads.commanded.trans zero)] at form
  refine ⟨fun none => stands_of_same h.reads h.leaves (by rw [form, if_neg (not_not.mpr none)]), fun target open_ => ?_,
    fun target trim => originated_of_originateEntry h.reads h.leaves ?_ out⟩
  · rw [if_pos target, joinQueue_eq, if_neg (by simp [open_])] at form
    have leaves := h.leaves
    rw [form] at leaves
    have low : x < v.berths.length := h.ready.index (h.ready.carries_of_serving (session.trans serving)).1
    have work := workOf_enqueue 0 low (h.ready.work x).shape.lengths.2.2
    have tag : joinTag x 0 v = entryTag (v.entryOf x) := by simp [joinTag, heldTag, out]
    refine ⟨leaves.setpoint.trans (congrArg (fun w : Work => w.berth.setpoint) work), leaves.entry.trans ?_, leaves.queued.trans ?_⟩
    · rw [entryOf_none_iff, work]
      rintro ⟨e, mem, own⟩
      rcases List.mem_append.mp mem with mem | mem <;> simp [own] at mem
    · rw [queuedOf_work, work, tag]; rfl
  · rw [form, if_pos target, joinQueue_eq, if_pos ⟨trim, out⟩, if_pos rfl]

theorem idle_trimmed (idle : (u.berth x).setpoint = .idle) (some : u.pairCommanded x ≠ 0) :
    (u.entryOf x = none → u.trimWaits x = false → (u.berth x).inFlight = false → Made x u t .idle 0) ∧
      (u.entryOf x ≠ none ∨ u.trimWaits x = true ∨ (u.berth x).inFlight = true → Stands x u t) := by
  obtain ⟨session, coupling, flight⟩ := h.reads.same
  have setpoint : (v.berth x).setpoint = .idle := h.reads.setpoint.trans idle
  have form := recompute_idle (session.trans serving) (coupling ▸ own) setpoint
  have out : v.queuedOf x = none := queuedOf_none_iff.mpr (h.ready.unqueued (by simp [setpoint]))
  rw [← h.reads.trim, ← h.reads.entry, ← flight, ← setpoint]
  rw [← h.reads.commanded] at some
  rw [if_neg some] at form
  refine ⟨fun free open_ quiet => ?_, fun busy => ?_⟩
  · exact made_of_addEntry h.reads h.leaves (by rw [form, if_pos ⟨by simp [State.hasEntry, free, open_], by simp [quiet]⟩])
      rfl free out
  · have waits : ¬ (v.hasEntry x = false ∧ ¬ (v.berth x).inFlight = true) := by
      rintro ⟨none, quiet⟩
      obtain ⟨open_, free⟩ := Bool.or_eq_false_iff.mp none
      rcases busy with entry | trim | flight
      · exact entry (Option.isNone_iff_eq_none.mp (Option.isSome_eq_false_iff.mp free))
      · simp [trim] at open_
      · exact quiet flight
    exact stands_of_same h.reads h.leaves (by rw [form, if_neg waits])

end

/-! ## The whole of a run's setpoint work -/

/-- What a run is that leaves `t` over `u`. -/
theorem runLeaves_run {kind : RunKind} (h : RunLeaves kind u t) : t = allocationRun kind u := by
  obtain ⟨rfl, run, rfl⟩ | ⟨rfl, s, live, running, mode, rfl, leaves⟩ := h
  · exact immediateRun_in run
  · have next : exec .periodicRun s = .next _ := whileRunning_live _ live
    rw [next, if_pos ⟨running, mode⟩] at leaves
    exact (Host.Outcome.next.inj leaves).symm

theorem allocationRun_around (k : RunKind) (ready : Ready u) (low : x < 36) : ∃ v, Around x u v (allocationRun k u) := by
  obtain ⟨w, before, run, behind, joins⟩ := allocationRun_cut k u
  have start := (before.kept ready).ready
  obtain ⟨v, atX, first, same, age, last, beside, age'⟩ := recomputeAll_cut low start
  refine ⟨v, atX, .of_run (run.trans first.run) (same.trans (before.work x)) (before.nextAge.symm.trans_le age),
    .of_work ((behind.work x).trans beside) (age'.trans_eq behind.nextAge.symm), ?_⟩
  rw [(joins x).2.2, last.target, (recompute_step x v).target]

theorem allocationRun_stands (k : RunKind) (u : State) (high : ¬ x < 36) : Stands x u (allocationRun k u) := by
  obtain ⟨w, before, run, behind, -⟩ := allocationRun_cut k u
  have work : workOf x (allocationRun k u) = workOf x u := by
    rw [behind.work, ← before.work]
    exact recomputes_beside berthNumbers (by simpa [berthNumbers] using high) w
  exact ⟨setpoint_of_work work, by rw [entryOf_work, entryOf_work, work], by rw [queuedOf_work, queuedOf_work, work]⟩

theorem allocationRun_follows (k : RunKind) (ready : Ready u) :
    (∃ joined : List Queued, joined.Pairwise (fun a b => a.berth < b.berth) ∧ (allocationRun k u).path.queue =
      (u.path.queue.filter fun q => decide ((allocationRun k u).target q.berth ≠ 0)) ++ joined) ∧
    (∃ created : List Entry, created.Pairwise (fun a b => a.berth < b.berth ∧ a.age < b.age) ∧
      (∀ e ∈ created, e.old = none ∧ u.path.nextAge ≤ e.age) ∧ (allocationRun k u).path.list =
        (u.path.list.filter fun e => e.old.isSome || ((allocationRun k u).queuedOf e.berth).isNone) ++ created) := by
  obtain ⟨w, before, run, behind, joins⟩ := allocationRun_cut k u
  have start := (before.kept ready).ready
  obtain ⟨⟨joined, up, -, queue⟩, ⟨created, up', new, list⟩, -⟩ := recomputeAll_follows start
  refine ⟨⟨joined, up, ?_⟩, ⟨created, up', fun e mem => ⟨(new e mem).2.1, before.nextAge.symm.trans_le (new e mem).2.2.1⟩, ?_⟩⟩
  · rw [behind.queue, queue, before.queue]
    refine congrArg (· ++ joined) (List.filter_congr fun q mem => ?_)
    have low : q.berth < 36 := by
      have place : (workOf q.berth u).queue ≠ [] := placesFor_ne_nil.mpr ⟨q, mem, rfl⟩
      exact (ready.carries_of_serving ((ready.work q.berth).serving place)).1
    rw [(joins q.berth).2.2, (recomputeAll_step w).target]
    simp [berthNumbers, show q.berth < Config.berths from low]
  · rw [behind.list, list, before.list]
    refine congrArg (· ++ created) (List.filter_congr fun e mem => ?_)
    have low : e.berth < 36 := (ready.work e.berth).low (List.ne_nil_of_mem (mem_entriesFor.mpr ⟨mem, rfl⟩))
    rw [queuedOf_congr behind.queue]
    cases old : e.old.isSome <;> cases place : (recomputeAll w).queuedOf e.berth <;>
      simp [berthNumbers, show e.berth < Config.berths from low]

/-- Settles O34: the records by the frame of a run, the setpoint work by the recompute of each berth. -/
theorem immediateRunsWriteOnlyTheirOutcome : Obligations.ImmediateRunsWriteOnlyTheirOutcome := by
  unfold Obligations.ImmediateRunsWriteOnlyTheirOutcome
  refine ⟨fun s out => immediateRun_out out, fun s mode => ?_, fun kind u t leaves granted path => ?_⟩
  · have frame := immediateRun_run s
    rw [immediateRun_in mode] at frame ⊢
    obtain ⟨-, -, -, -, -, rest⟩ := allocationRun_leaves .immediate s
    obtain ⟨state, coverage⟩ := rest (by simp)
    obtain ⟨none, some⟩ := interval_of_plain frame.interval
    obtain ⟨noRecord, record⟩ := allocationRun_records s
    obtain ⟨kind, count⟩ := allocationRun_counts s
    exact ⟨frame.only, state, coverage, none, some, noRecord, record, kind, count, frame.berth, frame.bus, frame.runs⟩
  · have ready := ready_of_granted granted path
    rw [runLeaves_run leaves]
    refine ⟨fun x => ?_, allocationRun_follows kind ready⟩
    by_cases low : x < 36
    · obtain ⟨v, around⟩ := allocationRun_around (x := x) kind ready low
      exact ⟨stands_outside around, fun serving own => ⟨active_followed around serving own, queued_followed around serving own,
        idle_joined around serving own, idle_trimmed around serving own⟩⟩
    · exact ⟨fun _ => allocationRun_stands kind u low,
        fun serving _ => absurd (ready.carries_of_serving serving).1 low⟩

end Sys2Proof.Machine.SetpointWork
end

