-- ==== Sys2Proof/Proofs/SessionWork.lean ====
section
/-! Proofs/SessionWork.lean: the session machine keeps the relation `Ready` and puts no berth in the start queue (R5 to R11, R38,
R151 to R157). -/

namespace Sys2Proof.Machine.SetpointWork

variable {s t u : State} {x y : Nat}

/-! ## Changes of one berth record -/

theorem SameWork.editAt {f : Berth → Berth} (h : coreOf (f (s.berth x)) = coreOf (s.berth x)) : SameWork s (s.editBerth x f) :=
  ⟨rfl, rfl, rfl, rfl, rfl, by simp, fun y => by
    rw [berth_editBerth]; split
    next own => rw [own.1]; exact h
    · rfl⟩

theorem editBerth_work (x : Nat) (f : Berth → Berth) (s : State) : WorkStep x s (s.editBerth x f) :=
  .of_same rfl rfl (by simp) fun y hy => by rw [berth_editBerth_ne _ _ hy]

theorem workOf_editBerth (f : Berth → Berth) (low : x < s.berths.length) :
    workOf x (s.editBerth x f) = { workOf x s with berth := coreOf (f (s.berth x)) } := by
  simp only [workOf, berth_editBerth_self _ _ low]; rfl

theorem editBerth_kept (ready : Ready s) {f : Berth → Berth} (low : x < 36)
    (fits : ({ workOf x s with berth := coreOf (f (s.berth x)) } : Work).Fits x) : Kept s (s.editBerth x f) := by
  have work := workOf_editBerth f (ready.index low)
  exact (editBerth_work x f s).kept ready (work ▸ fits) fun none => by rw [work]; exact none

/-- A berth out of the queue may change its session and its setpoint state. -/
theorem Work.Fits.newSession {w : Work} (h : w.Fits x) {b : BerthCore} (unqueued : w.queue = []) (carries : w.Carries x)
    (map : b.configured = w.berth.configured ∧ b.coupling = w.berth.coupling) (out : b.setpoint ≠ .startQueued)
    (raises : Line.Raises x w.line → b.session ≠ .serving ∨ b.setpoint = .active) : ({ w with berth := b } : Work).Fits x := by
  obtain ⟨configured, coupling⟩ := map
  refine { h with own := fun e mem old => ?_, queued := by simp [unqueued, out], serving := by simp [unqueued], commanded := by simp [unqueued]
                  attached := fun on => ?_, raises := raises, writes := fun on => ?_, carries := .inr (.inr ?_) }
  · rw [configured, coupling]; exact h.own e mem old
  · rw [configured, coupling]; exact h.attached on
  · rw [configured, coupling]; exact h.writes on
  · rw [configured, coupling]; exact carries.2

theorem session_kept (ready : Ready s) {f : Berth → Berth} (carries : (workOf x s).Carries x) (out : (s.berth x).session ≠ .serving)
    (map : ∀ b, (f b).configured = b.configured ∧ (f b).coupling = b.coupling)
    (setpoint : ∀ b, (f b).setpoint = b.setpoint ∨ (f b).setpoint = .idle)
    (raises : Line.Raises x s.bus.line → (f (s.berth x)).session ≠ .serving) : Kept s (s.editBerth x f) := by
  have unqueued := ready.unqueued_of_session out
  refine editBerth_kept ready carries.1 ((ready.work x).newSession unqueued carries (map _) ?_ fun on => .inl (raises on))
  have idle : (s.berth x).setpoint ≠ .startQueued := fun queued => (ready.work x).queued.mp queued unqueued
  change (f (s.berth x)).setpoint ≠ .startQueued
  rcases setpoint (s.berth x) with eq | eq <;> rw [eq]
  · exact idle
  · simp

/-! ## Leaving SERVING (R9, R64) -/

/-- The work of a berth is withdrawn as its session changes to one that is not SERVING, and the zero trim made. -/
theorem withdrawn_kept (ready : Ready s) {f : Berth → Berth} (carries : (workOf x s).Carries x)
    (map : ∀ b, (f b).configured = b.configured ∧ (f b).coupling = b.coupling) (out : ∀ b, (f b).session ≠ .serving) :
    Kept s (zeroTrim x (withdrawWork x (s.editBerth x f))) := by
  have index := ready.index carries.1
  obtain ⟨configured, coupling⟩ := map (s.berth x)
  have carried : (f (s.berth x)).configured = true ∧ (f (s.berth x)).coupling ≠ .follower := by
    rw [configured, coupling]; exact carries.2
  have withdrawn := withdrawWork_kept ready carries.1 (editBerth_work x f s) (workOf_editBerth f index)
    (map (s.berth x)) (fun _ => out _) (.inr (.inr carried))
  have work := workOf_withdrawWork (s := s.editBerth x f) (x := x) (by rw [(editBerth_work x f s).length]; exact index)
  refine withdrawn.trans (zeroTrim_kept withdrawn.ready ?_ ?_)
  · rw [work]
  · rw [work, workOf_editBerth f index]; exact ⟨carries.1, carried⟩

theorem leaveServing_kept (ready : Ready s) (serving : (s.berth x).session = .serving) {dest : Session} (out : dest ≠ .serving) :
    Kept s (leaveServing x dest s) := by
  have marked : Kept s (onLine (markLeft x s.bus.line) s) := markLeft_eq x s.bus.line ▸ mark_kept (leftBy_marks x) ready
  refine marked.trans ?_
  exact withdrawn_kept marked.ready (f := fun b =>
    { b with session := dest, grant := 0, request := none, done := false, doneByComplete := false, projectedShort := false })
    (ready.carries_of_serving serving) (fun _ => ⟨rfl, rfl⟩) fun _ => out

/-! ## Latching and clearing (R10, R151 to R157) -/

theorem faultSession_kept (x : Nat) (ready : Ready s) : Kept s (faultSession x s) := by
  unfold faultSession; split
  next serving => exact leaveServing_kept ready serving (by simp)
  next empty => exact withdrawn_kept ready (ready.carries_of_session (by simp [empty])) (fun _ => ⟨rfl, rfl⟩) (by simp)
  next connected => exact withdrawn_kept ready (ready.carries_of_session (by simp [connected])) (fun _ => ⟨rfl, rfl⟩) (by simp)
  · exact .refl ready

theorem SameWork.andThen (h : SameWork s t) (ready : Ready s) (h' : Ready t → Kept t u) : Kept s u :=
  (h.kept ready).trans (h' (h.kept ready).ready)

theorem Kept.andSame (h : Kept s t) (h' : SameWork t u) : Kept s u := h.trans (h'.kept h.ready)

theorem latchFault_kept (x : Nat) (flag : FaultFlag) (ready : Ready s) : Kept s (latchFault x flag s) := by
  have latched : SameWork s (s.editBerth x fun b => { b with flags := b.flags.latch flag }) := .edit fun _ => rfl
  unfold latchFault; dsimp only
  refine Kept.andSame ?_ (notify_same_work _ _)
  refine latched.andThen ready fun ready => ?_
  cases s.carrierOf x with
  | none => exact .refl ready
  | some l => exact faultSession_kept l ready

theorem detection_kept (x : Nat) (flag : FaultFlag) (ready : Ready s) : Kept s (detection x flag s) := by
  unfold detection; split
  · exact latchFault_kept x flag ready
  · exact .refl ready

theorem detectOvercurrent_kept (x : Nat) (trip : Bool) (ready : Ready s) : Kept s (detectOvercurrent x trip s) := by
  unfold detectOvercurrent; dsimp only
  split
  · exact .refl ready
  split
  · exact latchFault_kept x _ ready
  split
  · split
    · exact (editCounters_same_work x _ s).andThen ready fun ready => latchFault_kept x _ ready
    · exact (editCounters_same_work x _ s).kept ready
  · exact (editCounters_same_work x _ s).kept ready

theorem detectOpenPath_kept (x : Nat) (contactor : Bool) (ready : Ready s) : Kept s (detectOpenPath x contactor s) := by
  unfold detectOpenPath; dsimp only
  split
  · exact .refl ready
  split
  · split
    · exact (editCounters_same_work x _ s).andThen ready fun ready => latchFault_kept x _ ready
    · exact (editCounters_same_work x _ s).kept ready
  · exact (editCounters_same_work x _ s).kept ready

theorem detectIsolation_kept (x : Nat) (fault : Bool) (ready : Ready s) : Kept s (detectIsolation x fault s) := by
  unfold detectIsolation
  split
  · exact .refl ready
  split
  · exact (editCounters_same_work x _ s).andThen ready fun ready => latchFault_kept x _ ready
  · exact (editCounters_same_work x _ s).kept ready

theorem detectFaults_kept (x : Nat) (trip isolation contactor : Bool) (ready : Ready s) :
    Kept s (detectFaults x trip isolation contactor s) := by
  unfold detectFaults; split
  · have first := detectOvercurrent_kept x trip ready
    have second := detectOpenPath_kept x contactor first.ready
    exact (first.trans second).trans (detectIsolation_kept x isolation second.ready)
  · unfold breakCounters
    exact (editCounters_same_work x _ s).kept ready

theorem commMissOutcome_kept (c misses : Nat) (detected : Bool) (ready : Ready s) : Kept s (commMissOutcome c misses detected s) := by
  have counted : SameWork s
      ((s.cabinetBerths c).foldl (fun s x => editCounters x (fun k => { k with commMiss := misses }) s) s) :=
    SameWork.foldl _ (fun s x => editCounters_same_work x _ s) _ s
  unfold commMissOutcome; dsimp only
  refine counted.andThen ready fun ready => ?_
  generalize List.foldl _ s (s.cabinetBerths c) = v at ready ⊢
  split
  · have all : Kept v ((v.cabinetBerths c).foldl (fun s x => detection x .commMiss s) v) :=
      Kept.foldl _ _ (fun x _ t ready => detection_kept x .commMiss ready) ready
    exact all.trans (ageByBerth_kept all.ready (all.sent ready))
  · exact .refl ready

theorem countNoConfirm_kept (x : Nat) (ready : Ready s) : Kept s (countNoConfirm x s) := by
  unfold countNoConfirm; dsimp only
  split
  · exact (editCounters_same_work x _ s).andThen ready fun ready => detection_kept x .noConfirm ready
  · exact (editCounters_same_work x _ s).kept ready

theorem clearFaults_kept (x : Nat) (ready : Ready s) : Kept s (clearFaults x s) := by
  unfold clearFaults
  by_cases faulted : (s.berth x).session = .faulted
  · exact session_kept ready (ready.carries_of_session (by simp [faulted])) (by simp [faulted]) (fun _ => ⟨rfl, rfl⟩)
      (fun _ => .inl rfl) (fun _ => by simp [faulted])
  · exact (SameWork.editAt (by simp [coreOf, faulted])).kept ready

theorem clearPairFaults_kept (x : Nat) (ready : Ready s) : Kept s (clearPairFaults x s) := by
  unfold clearPairFaults; split
  · exact clearFaults_kept x ready
  · exact (clearFaults_kept x ready).trans (clearFaults_kept _ (clearFaults_kept x ready).ready)

/-! ## Enables (R5, R6) -/

theorem enableBerth_kept (x : Nat) (ready : Ready s) : Kept s (enableBerth x s) := by
  unfold enableBerth; split
  next disabled =>
    exact session_kept ready (ready.carries_of_session (by simp [disabled])) (by simp [disabled]) (fun _ => ⟨rfl, rfl⟩)
      (fun _ => .inl rfl) (fun _ => by dsimp only; split <;> simp)
  · exact .refl ready

theorem removeQueued_kept (ready : Ready s) (unqueued : (workOf x s).queue = []) : Kept s (removeQueued x s) := by
  have work := workOf_removeQueued x s
  rw [← unqueued] at work
  exact (removeQueued_work x s).kept ready (work ▸ ready.work x) fun none => by rw [work]; exact none

theorem disableBerth_kept (ready : Ready s) (carries : (workOf x s).Carries x) : Kept s (disableBerth x s) := by
  unfold disableBerth; dsimp only
  split
  · exact .refl ready
  have index := ready.index carries.1
  have left : ∃ v, (if (s.berth x).session = .serving then leaveServing x .disabled s else zeroTrim x (removeQueued x s)) = v ∧
      Kept s v ∧ (v.berth x).session ≠ .serving ∧ (workOf x v).Carries x := by
    refine ⟨_, rfl, ?_⟩
    split
    next serving =>
      refine ⟨leaveServing_kept ready serving (by simp), ?_⟩
      have berth := berth_leaveServing x x .disabled s
      rw [if_pos ⟨rfl, index⟩] at berth
      refine ⟨by simp [berth], carries.1, ?_⟩
      simp only [workOf, berth]; exact carries.2
    next out =>
      have unqueued := ready.unqueued_of_session out
      have removed := removeQueued_kept ready unqueued
      have trimmed := zeroTrim_kept (x := x) removed.ready (by rw [workOf_removeQueued]) (by rw [workOf_removeQueued]; exact carries)
      have berth : (zeroTrim x (removeQueued x s)).berth x = s.berth x := berth_congr (zeroTrim_berths x _) x
      exact ⟨removed.trans trimmed, by rw [berth]; exact out, carries.1, by simp only [workOf, berth]; exact carries.2⟩
  obtain ⟨v, form, kept, out, carries⟩ := left
  rw [form]
  refine kept.trans (Kept.andSame ?_ (dissociate_same_work x _))
  exact session_kept kept.ready carries out (fun _ => ⟨rfl, rfl⟩) (fun _ => .inl rfl) (fun _ => by simp)

/-! ## Reports (R7, R8, R37, R38) -/

/-- No SETPOINT is being sent. -/
def Quiet (l : Line) : Prop := ∀ tx, l ≠ .setpointSending tx

theorem Quiet.raises {l : Line} (h : Quiet l) : ¬ Line.Raises x l := fun ⟨tx, line, _⟩ => h tx line

theorem Kept.quiet (h : Kept s t) (quiet : Quiet s.bus.line) : Quiet t.bus.line := fun tx line => by
  obtain ⟨tx, line, -⟩ := h.line tx line
  exact quiet tx line

theorem enterServing_kept (ready : Ready s) (quiet : Quiet s.bus.line) (carries : (workOf x s).Carries x)
    (out : (s.berth x).session ≠ .serving) : Kept s (enterServing x s) :=
  session_kept ready carries out (fun _ => ⟨rfl, rfl⟩) (fun _ => .inr rfl) fun on => absurd on quiet.raises

theorem enterConnected_kept (ready : Ready s) (empty : (s.berth x).session = .empty) : Kept s (enterConnected x s) := by
  refine Kept.andSame ?_ (resolveTag_same_work x _)
  exact session_kept ready (ready.carries_of_session (by simp [empty])) (by simp [empty]) (fun _ => ⟨rfl, rfl⟩)
    (fun _ => .inl rfl) (fun _ => by simp)

theorem plugRule_kept (x : Nat) (ready : Ready s) (quiet : Quiet s.bus.line) : Kept s (plugRule x s) := by
  unfold plugRule; split
  · exact (unplug_same_work x s).kept ready
  next empty _ =>
    have carries := ready.carries_of_session (x := x) (by simp [empty])
    have connected := enterConnected_kept ready empty
    refine connected.trans (enterServing_kept connected.ready (connected.quiet quiet) ?_ ?_)
    · unfold enterConnected
      rw [(resolveTag_same_work x _).work, workOf_editBerth _ (ready.index carries.1)]
      exact carries
    · unfold enterConnected
      rw [berth_resolveTag, berth_editBerth_self _ _ (ready.index carries.1)]; simp
  next empty _ _ => exact enterConnected_kept ready empty
  next connected _ =>
    refine Kept.andSame ?_ (unplug_same_work x _)
    exact session_kept ready (ready.carries_of_session (by simp [connected])) (by simp [connected]) (fun _ => ⟨rfl, rfl⟩)
      (fun _ => .inl rfl) (fun _ => by simp)
  next connected _ =>
    exact enterServing_kept ready quiet (ready.carries_of_session (by simp [connected])) (by simp [connected])
  next serving _ => exact (leaveServing_kept ready serving (by simp)).andSame (unplug_same_work x _)
  next serving _ => exact (leaveServing_kept ready serving (by simp)).andSame (resolveTag_same_work x _)
  · exact (unplug_same_work x s).kept ready
  · exact .refl ready

theorem reportBerth_kept (x : Nat) (e : StatusEntry) (ready : Ready s) (quiet : Quiet s.bus.line) : Kept s (reportBerth x e s) := by
  have written : SameWork s (s.editBerth x (·.report e)) := .edit fun _ => rfl
  have ruled : Kept s (sessionRules x (s.berth x).tag (s.editBerth x (·.report e))) := by
    refine written.andThen ready fun ready => ?_
    exact ((plugRule_kept x ready (by exact quiet)).andSame (tagRules_same_work x _ _)).andSame (reportDone_same_work x _)
  have stored := ruled.andSame (storeEnergy_same_work x (s.berth x).session _)
  exact stored.trans (detectFaults_kept x _ _ _ stored.ready)

theorem Kept.foldl_quiet {α : Type} (f : State → α → State) (h : ∀ a t, Ready t → Quiet t.bus.line → Kept t (f t a)) (l : List α)
    (ready : Ready s) (quiet : Quiet s.bus.line) : Kept s (l.foldl f s) := by
  induction l generalizing s with
  | nil => exact .refl ready
  | cons a l ih =>
    have first := h a s ready quiet
    exact first.trans (ih first.ready (first.quiet quiet))

theorem reportEntry_kept (c : Nat) (e : StatusEntry) (ready : Ready s) (quiet : Quiet s.bus.line) : Kept s (reportEntry c e s) :=
  Kept.foldl_quiet _ (fun x _ ready quiet => reportBerth_kept x e ready quiet) _ ready quiet

theorem reportStatus_kept (c : Nat) (body : List Byte) (ready : Ready s) (quiet : Quiet s.bus.line) :
    Kept s (reportStatus c body s) := by
  have all : Kept s ((statusEntries body).foldl (fun s e => reportEntry c e s) s) :=
    Kept.foldl_quiet _ (fun e _ ready quiet => reportEntry_kept c e ready quiet) _ ready quiet
  have aged := all.trans (ageByBerth_kept all.ready (all.sent ready))
  exact aged.andSame (.of_eq rfl rfl rfl)

theorem slotOutcome_kept (c misses : Nat) (missed : Bool) (ready : Ready s) : Kept s (slotOutcome c misses missed s) := by
  have counted : SameWork s { s with bus := { s.bus with missCounts := s.bus.missCounts.set (c - 1) misses } } := .of_eq rfl rfl rfl
  exact counted.andThen ready fun ready => commMissOutcome_kept c misses _ ready

end Sys2Proof.Machine.SetpointWork
end

