-- ==== Sys2Proof/Proofs/MapWork.lean ====
section
/-! Proofs/MapWork.lean: the changes of the berth map and the end of an enrollment keep the relation `Ready` (R3, R4, R47, R178). -/

namespace Sys2Proof.Machine.SetpointWork

variable {s t u : State} {x y : Nat}

/-! ## A berth with nothing of its own (R3) -/

/-- Berth `x` has no work of its own, and nothing of it stands on the line: its map entry may change. -/
structure Bare (x : Nat) (w : Work) : Prop where
  free : ¬ w.Owns
  unqueued : w.queue = []
  detached : ¬ Line.Attached x w.line
  silent : ¬ Line.WritesAlso x w.line

theorem Work.Fits.remap {w : Work} (h : w.Fits x) (bare : Bare x w) {b : BerthCore} (setpoint : b.setpoint ≠ .startQueued)
    (carries : b.session = .unconfigured ∨ b.session = .follower ∨ (b.configured = true ∧ b.coupling ≠ .follower)) :
    ({ w with berth := b } : Work).Fits x :=
  { h with own := fun e mem old => absurd ⟨e, mem, old⟩ bare.free
           queued := by simp [bare.unqueued, setpoint]
           serving := by simp [bare.unqueued]
           commanded := by simp [bare.unqueued]
           attached := fun on => absurd on bare.detached
           raises := fun on => absurd on.attached bare.detached
           writes := fun on => absurd on bare.silent
           carries := carries }

theorem bare_of_unconfigured {w : Work} (h : w.Fits x) (out : w.berth.configured = false) : Bare x w := by
  refine ⟨fun ⟨e, mem, own⟩ => ?_, ?_, fun on => ?_, fun on => ?_⟩
  · simp [(h.own e mem own).1] at out
  · by_contra queued
    have serving := h.serving queued
    rcases h.carries with off | off | ⟨configured, -⟩
    · simp [serving] at off
    · simp [serving] at off
    · simp [out] at configured
  · simp [(h.attached on).1] at out
  · simp [(h.writes on).1] at out

/-- The map entry of a bare berth changes. -/
theorem remap_kept (ready : Ready s) {f : Berth → Berth} (low : x < 36) (bare : Bare x (workOf x s))
    (setpoint : ∀ b, (f b).setpoint = b.setpoint)
    (carries : (f (s.berth x)).session = .unconfigured ∨ (f (s.berth x)).session = .follower ∨
      ((f (s.berth x)).configured = true ∧ (f (s.berth x)).coupling ≠ .follower)) : Kept s (s.editBerth x f) := by
  refine editBerth_kept ready low ((ready.work x).remap bare ?_ carries)
  change (f (s.berth x)).setpoint ≠ .startQueued
  rw [setpoint]
  exact fun queued => (ready.work x).queued.mp queued bare.unqueued

theorem Bare.editBerth (bare : Bare x (workOf x s)) (f : Berth → Berth) (low : x < s.berths.length) :
    Bare x (workOf x (s.editBerth x f)) := by
  rw [workOf_editBerth f low]
  exact ⟨bare.free, bare.unqueued, bare.detached, bare.silent⟩

theorem remap_dissociate (ready : Ready s) {f : Berth → Berth} (low : x < 36) (bare : Bare x (workOf x s))
    (setpoint : ∀ b, (f b).setpoint = b.setpoint)
    (carries : (f (s.berth x)).session = .unconfigured ∨ (f (s.berth x)).session = .follower ∨
      ((f (s.berth x)).configured = true ∧ (f (s.berth x)).coupling ≠ .follower)) :
    Kept s (dissociate x (s.editBerth x f)) ∧ Bare x (workOf x (dissociate x (s.editBerth x f))) := by
  refine ⟨(remap_kept ready low bare setpoint carries).andSame (dissociate_same_work x _), ?_⟩
  rw [(dissociate_same_work x _).work]
  exact bare.editBerth f (ready.index low)

/-! ## Losing the old entry -/

theorem Work.Owns.trim {w : Work} {e : Entry} (trim : e.old.isSome = true) (h : ({ w with list := w.list ++ [e] } : Work).Owns) :
    w.Owns := by
  obtain ⟨f, mem, own⟩ := h
  have apart : f ≠ e := by rintro rfl; simp [own] at trim
  refine ⟨f, ?_, own⟩
  simp only [List.mem_append, List.mem_singleton] at mem ⊢
  tauto

theorem detachedTrim_kept (ready : Ready s) (low : x < 36) (bare : Bare x (workOf x s)) :
    Kept s (detachedTrim x s) ∧ Bare x (workOf x (detachedTrim x s)) := by
  unfold detachedTrim
  split
  next wants =>
    split
    · exact ⟨.refl ready, bare⟩
    next a _ =>
      have fits := ready.work x
      have open_ := trimWaits_eq_false_iff.mp wants.2
      have list := Work.list_nil bare.free open_
      have work := workOf_addTrim x a s
      have trim : (⟨x, 0, s.path.nextAge, some a⟩ : Entry).old.isSome = true := rfl
      have kept : Kept s (addTrim x a s) := (addTrim_work x a s).kept ready
        (fits.pushTrim (n := 0) trim low open_ (by rw [work, list]; rfl) (by rw [work]; exact bare.unqueued)
          (by rw [work, list, bare.unqueued]; simp) (by rw [work, bare.unqueued]; simp) (by rw [work]; exact bare.detached)
          (by rw [work]; exact id)) (fun none => by rw [work]; exact none)
      refine ⟨kept, ?_⟩
      rw [work]
      exact ⟨fun owns => bare.free (owns.trim trim), bare.unqueued, bare.detached, bare.silent⟩
  · exact ⟨.refl ready, bare⟩

theorem loseSession_kept (ready : Ready s) (low : x < 36) : Kept s (loseSession x s) ∧ Bare x (workOf x (loseSession x s)) := by
  have marked : Kept s (onLine (markDetached x s.bus.line) s) := markDetached_eq x s.bus.line ▸ mark_kept (detachFrom_marks x) ready
  have quiet : ¬ Line.Attached x (markDetached x s.bus.line) ∧ ¬ Line.WritesAlso x (markDetached x s.bus.line) := by
    rw [markDetached_eq]; exact detached_quiet x s.bus.line
  have withdrawn : Kept (onLine (markDetached x s.bus.line) s) (withdrawWork x (onLine (markDetached x s.bus.line) s)) :=
    withdrawWork_kept marked.ready low (.refl x _) rfl ⟨rfl, rfl⟩ (fun on => absurd on.attached quiet.1) (marked.ready.work x).carries
  have bare : Bare x (workOf x (withdrawWork x (onLine (markDetached x s.bus.line) s))) := by
    rw [workOf_withdrawWork (marked.ready.index low)]
    refine ⟨fun ⟨e, mem, own⟩ => ?_, rfl, quiet.1, quiet.2⟩
    rcases List.mem_append.mp mem with mem | mem <;> simp [own] at mem
  obtain ⟨trimmed, bare⟩ := detachedTrim_kept withdrawn.ready low bare
  have all := (marked.trans withdrawn).trans trimmed
  have cleared := remap_dissociate (f := fun b =>
    { b with grant := 0, commanded := 0, confirmed := 0, request := none, done := false, doneByComplete := false
             projectedShort := false, flags := .clear, counters := .zero, enable := false }) all.ready low bare (fun _ => rfl)
    (all.ready.work x).carries
  exact ⟨all.trans cleared.1, cleared.2⟩

/-! ## Map entries -/

theorem unmapBerth_kept (x : Nat) (ready : Ready s) : Kept s (unmapBerth x s) := by
  unfold unmapBerth; split
  next configured =>
    obtain ⟨lost, bare⟩ := loseSession_kept ready (ready.lt configured)
    refine lost.trans (remap_kept lost.ready (ready.lt configured) bare ?_ ?_)
    · exact fun _ => rfl
    · exact .inl rfl
  · exact .refl ready

theorem mapBerth_kept (ready : Ready s) (low : x < 36) (c outlet group : Nat) (coupling : Coupling) (partner : Option Nat)
    (figures : Outlet) : Kept s (mapBerth x c outlet group coupling partner figures s) := by
  have cleared : Kept s (if (s.berth x).configured then loseSession x s else s) ∧
      Bare x (workOf x (if (s.berth x).configured then loseSession x s else s)) := by
    split
    · exact loseSession_kept ready low
    next out => exact ⟨.refl ready, bare_of_unconfigured (ready.work x) (Bool.not_eq_true _ ▸ out)⟩
  obtain ⟨cleared, bare⟩ := cleared
  unfold mapBerth; dsimp only
  refine cleared.trans (remap_kept cleared.ready low bare ?_ ?_)
  · exact fun _ => rfl
  · by_cases follower : coupling = .follower
    · exact .inr (.inl (if_pos follower))
    · exact .inr (.inr ⟨rfl, follower⟩)

theorem takeMapEntry_kept (e : MapEntry) (ready : Ready s) : Kept s (takeMapEntry e s).1 := by
  unfold takeMapEntry
  split
  · exact .refl ready
  next low =>
  split
  · exact unmapBerth_kept _ ready
  split
  · split
    · exact .refl ready
    · exact mapBerth_kept ready (Nat.lt_of_not_le low) _ _ _ _ _ _
  · exact .refl ready

theorem takeEntries_kept {α : Type} (take : α → State → State × ReplyCode) (one : ∀ e s, Ready s → Kept s (take e s).1) (l : List α)
    (ready : Ready s) : Kept s (takeEntries take l s).1 :=
  takeEntries_inv (fun s t => Ready s → Kept s t) take (fun _ => Kept.refl) (fun _ _ _ h h' ready => (h ready).trans (h' (h ready).ready))
    one l s ready

theorem loadMap_kept (tag : Nat) (entries : List MapEntry) (ready : Ready s) : Kept s (loadMap tag entries s) := by
  unfold loadMap; dsimp only
  split
  · exact (reply_same_work _ _ _ _ s).kept ready
  · have taken := takeEntries_kept takeMapEntry (fun e s => takeMapEntry_kept e) entries ready
    exact (taken.trans (ageByBerth_kept taken.ready (taken.sent ready))).andSame (reply_same_work _ _ _ _ _)

theorem alignBerth_kept (x : Nat) (ready : Ready s) : Kept s (alignBerth x s) := by
  unfold alignBerth
  split
  · split
    · exact unmapBerth_kept x ready
    · exact SameWork.kept (.edit fun _ => rfl) ready
  · exact .refl ready

theorem autoMap_kept (slot : (Nat × Nat × Outlet) × Nat) (low : slot.2 < 36) (ready : Ready s) : Kept s (autoMap s slot) := by
  have mapped := mapBerth_kept ready low slot.1.1 slot.1.2.1 ((slot.1.1 - 1) % 6) .single none slot.1.2.2
  have berth := berth_mapBerth slot.2 slot.2 slot.1.1 slot.1.2.1 ((slot.1.1 - 1) % 6) .single none slot.1.2.2 s (ready.index low)
  rw [if_pos rfl] at berth
  refine mapped.trans (session_kept (f := fun b => { b with enable := true, session := .empty }) mapped.ready ?_ ?_
    (fun _ => ⟨rfl, rfl⟩) (fun _ => .inl rfl) fun _ => by simp)
  · exact ⟨low, by simp [workOf, coreOf, berth]⟩
  · simp [berth]

/-! ## Trims whose cabinets are gone (R29, R47) -/

theorem find_waiting (x : Nat) (s : State) : s.path.waiting.find? (·.ownOf x) = (workOf x s).wait.find? (·.old.isNone) := by
  simp only [workOf, entriesFor, List.find?_filter]
  congr 1; funext e
  by_cases own : e.old = none <;> simp [Entry.ownOf, own]

/-- The berth's waiting work leaves. -/
def dropWaiting (x : Nat) (s : State) : State :=
  { s with path := { s.path with waiting := s.path.waiting.filter fun e => !e.ownOf x } }

theorem dropWaiting_work (x : Nat) (s : State) : WorkStep x s (dropWaiting x s) :=
  ⟨rfl, rfl, fun y hy => by simp only [workOf, dropWaiting, entriesFor_unowned, hy, if_false]; rfl, id⟩

theorem workOf_dropWaiting (x : Nat) (s : State) :
    workOf x (dropWaiting x s) = { workOf x s with wait := (workOf x s).wait.filter (·.old.isSome) } := by
  simp only [workOf, dropWaiting, entriesFor_unowned, if_true]; rfl

theorem releaseWork_work (x : Nat) (s : State) : WorkStep x s (releaseWork x s) := by
  unfold releaseWork; split
  · exact .refl x s
  next e _ => exact (dropWaiting_work x s).trans (addEntry_work x e.tag _)

theorem releaseWork_queue (x : Nat) (s : State) : (releaseWork x s).path.queue = s.path.queue := by
  unfold releaseWork; split <;> rfl

/-- R3: the one piece of waiting work makes its entry. -/
theorem workOf_releaseWork (own : ∀ e ∈ (workOf x s).wait, e.old = none) (few : (workOf x s).wait.length ≤ 1) :
    ((workOf x s).wait = [] ∧ releaseWork x s = s) ∨
      (∃ w, (workOf x s).wait = [w]) ∧
        ∃ e, e.old = none ∧ workOf x (releaseWork x s) = ({ workOf x s with wait := [] } : Work).add e := by
  unfold releaseWork
  rw [find_waiting]
  match wait : (workOf x s).wait with
  | [] => exact .inl ⟨rfl, rfl⟩
  | [e] =>
    have old : e.old = none := own e (by simp [wait])
    refine .inr ⟨⟨e, rfl⟩, ⟨x, e.tag, s.path.nextAge, none⟩, rfl, ?_⟩
    have found : [e].find? (fun e => e.old.isNone) = some e := by simp [old]
    rw [found]
    have work := workOf_dropWaiting x s
    rw [wait, List.filter_eq_nil_iff.mpr (by simp [old])] at work
    exact (workOf_addEntry x e.tag (dropWaiting x s)).trans (by rw [work]; rfl)
  | _ :: _ :: _ => simp [wait] at few

/-- The relation, but that the trims of the berths in `gone` have left the list and their work still waits. -/
structure Loose (gone : List Nat) (s : State) : Prop where
  berths : s.berths.length = 36
  ages : AgesFit s.path.list s.path.nextAge s.bus.line
  line : Line.Fits s.bus.line
  rest : ∀ x, x ∉ gone → (workOf x s).Fits x
  stray : ∀ x ∈ gone, ∃ e : Entry, e.old.isSome = true ∧ ({ workOf x s with list := e :: (workOf x s).list } : Work).Fits x

theorem Loose.low {gone : List Nat} (h : Loose gone s) (configured : (s.berth x).configured = true) : x < 36 := by
  by_contra out
  rw [berth_out x (by rw [h.berths]; omega)] at configured
  simp [Berth.blank] at configured

/-- A trim leaves the list, and the work behind it. -/
theorem Work.Fits.dropTrim {w : Work} {e : Entry} (h : ({ w with list := e :: w.list } : Work).Fits x) (trim : e.old.isSome = true) :
    w.list = [] ∧ w.queue = [] ∧ (∀ f ∈ w.wait, f.old = none) ∧ w.wait.length ≤ 1 ∧ ({ w with wait := [] } : Work).Fits x ∧
      (w.wait = [] → w.Fits x) := by
  have lengths := h.shape.lengths
  have list : w.list = [] := by
    have := lengths.1; simpa using this
  have queue : w.queue = [] := by
    by_contra queued; simpa using (h.shape.apart queued).1
  have own : ∀ f ∈ w.wait, f.old = none := fun f mem => (h.shape.waits f mem).1
  have bare : ({ w with wait := [] } : Work).Fits x := by
    refine { h with shape := ?_, low := by simp [list], own := by simp [list], attached := fun on => ?_ }
    · dsimp only; rw [list, queue]; exact .none
    · have all := (h.attached on).2.2 e (by simp)
      simp [all] at trim
  exact ⟨list, queue, own, lengths.2.1, bare, fun none => by rw [← none] at bare; exact bare⟩

/-- What waited was work of berth `x`, and nothing else is. -/
theorem Loose.release {gone : List Nat} (h : Loose (x :: gone) s) (apart : x ∉ gone) : Loose gone (releaseWork x s) := by
  have step := releaseWork_work x s
  refine ⟨step.length.trans h.berths, step.ages h.ages, step.line ▸ h.line, fun y out => ?_, fun y mem => ?_⟩
  · by_cases hy : y = x
    · subst hy
      obtain ⟨e, trim, fits⟩ := h.stray y (by simp)
      obtain ⟨list, queue, own, few, bare, whole⟩ := fits.dropTrim trim
      obtain ⟨none, same⟩ | ⟨⟨w, waits⟩, f, old, form⟩ := workOf_releaseWork own few
      · rw [same]; exact whole none
      · have carried := fits.own w (by simp [waits]) (own w (by simp [waits]))
        rw [form]
        exact bare.add (by simp [Work.Owns, list]) queue ⟨h.low carried.1, carried⟩ old
    · rw [step.others y hy]; exact h.rest y (by simp [hy, out])
  · have hy : y ≠ x := fun e => apart (e ▸ mem)
    rw [step.others y hy]; exact h.stray y (by simp [mem])

theorem Loose.releases {gone : List Nat} (h : Loose gone s) (distinct : gone.Nodup) :
    Ready (gone.foldl (fun s x => releaseWork x s) s) := by
  induction gone generalizing s with
  | nil => exact ⟨h.berths, h.ages, h.line, fun x => h.rest x (by simp)⟩
  | cons x gone ih =>
    obtain ⟨apart, distinct⟩ := List.nodup_cons.mp distinct
    exact ih (h.release apart) distinct

theorem entriesFor_kept (x : Nat) (l : List Entry) : entriesFor x ((l.filter fun e => !s.strayTrim e).map s.relisted) =
    ((entriesFor x l).filter fun e => !s.strayTrim e).map s.relisted := by
  unfold entriesFor
  rw [List.filter_map, List.filter_comm]; rfl

theorem relisted_same (e : Entry) : (s.relisted e).berth = e.berth ∧ (s.relisted e).age = e.age ∧
    (s.relisted e).old.isSome = e.old.isSome := by
  refine ⟨rfl, rfl, ?_⟩
  cases old : e.old <;> simp [State.relisted, old]

theorem trim_of_stray {e : Entry} (stray : s.strayTrim e = true) : e.old.isSome = true := by
  unfold State.strayTrim at stray
  cases old : e.old <;> simp_all

/-- The list without the trims whose cabinets are gone. -/
def keptListed (s : State) : State :=
  { s with path := { s.path with list := (s.path.list.filter fun e => !s.strayTrim e).map s.relisted } }

theorem keptListed_loose (ready : Ready s) : Loose ((s.path.list.filter s.strayTrim).map (·.berth)) (keptListed s) := by
  have gone : ∀ x, x ∈ (s.path.list.filter s.strayTrim).map (·.berth) ↔ ∃ e ∈ entriesFor x s.path.list, s.strayTrim e = true := fun x => by
    simp only [List.mem_map, List.mem_filter, mem_entriesFor]
    exact ⟨fun ⟨e, ⟨mem, stray⟩, berth⟩ => ⟨e, ⟨mem, berth⟩, stray⟩, fun ⟨e, ⟨mem, berth⟩, stray⟩ => ⟨e, ⟨mem, stray⟩, berth⟩⟩
  have work : ∀ x, workOf x (keptListed s) = { workOf x s with
      list := ((workOf x s).list.filter fun e => !s.strayTrim e).map s.relisted } := fun x => by
    simp only [workOf, keptListed, entriesFor_kept]; rfl
  refine ⟨ready.berths, ready.ages.mono ?_, ready.line, fun x out => ?_, fun x mem => ?_⟩
  · have same : (keptListed s).path.list.map (·.age) = (s.path.list.filter fun e => !s.strayTrim e).map (·.age) := by
      simp only [keptListed, List.map_map]; exact List.map_congr_left fun e _ => (relisted_same e).2.1
    rw [same]
    exact List.filter_sublist.map _
  · have all : (workOf x s).list.filter (fun e => !s.strayTrim e) = (workOf x s).list :=
      List.filter_eq_self.mpr fun e mem => by
        have : ¬ s.strayTrim e = true := fun stray => out ((gone x).mpr ⟨e, mem, stray⟩)
        simpa using this
    rw [work, all]
    refine (ready.work x).relabel ?_ rfl
    rw [List.map_map]
    exact List.map_congr_left fun e _ => (relisted_same e).2.2
  · obtain ⟨e, mem, stray⟩ := (gone x).mp mem
    have list : (workOf x s).list = [e] := by
      have few := (ready.work x).shape.lengths.1
      have mem : e ∈ (workOf x s).list := mem
      match l : (workOf x s).list with
      | [] => simp [l] at mem
      | [f] => rw [l] at mem; rw [List.mem_singleton.mp mem]
      | _ :: _ :: _ => simp [l] at few
    refine ⟨e, trim_of_stray stray, ?_⟩
    have whole : ({ workOf x (keptListed s) with list := e :: (workOf x (keptListed s)).list } : Work) = workOf x s := by
      rw [work, list]; simp only [List.filter_cons, stray, List.filter_nil]
      simp only [Bool.not_true, Bool.false_eq_true, if_false, List.map_nil, ← list]
    rw [whole]; exact ready.work x

theorem dropStrayTrims_kept (ready : Ready s) : Kept s (dropStrayTrims s) := by
  have form : dropStrayTrims s = ((s.path.list.filter s.strayTrim).map (·.berth)).foldl (fun s x => releaseWork x s) (keptListed s) := by
    rw [List.foldl_map]; rfl
  have distinct : ((s.path.list.filter s.strayTrim).map (·.berth)).Nodup :=
    ready.pathOrdered.once.sublist (List.filter_sublist.map _)
  have queue : (dropStrayTrims s).path.queue = s.path.queue := by
    rw [form]
    exact foldl_keeps (·.path.queue) (fun s x => releaseWork x s) (fun s x => releaseWork_queue x s) _ (keptListed s)
  refine ⟨?_, fun y none => by rw [queuedOf_congr queue]; exact none, ?_⟩
  · rw [form]; exact (keptListed_loose ready).releases distinct
  · have same := (onlyPath_iff.mp (dropStrayTrims_step s).only).2.2.2.1
    rw [same]; exact .refl _

theorem dropStrayPasses_same_work (s : State) : SameWork s (dropStrayPasses s) := by
  unfold dropStrayPasses; dsimp only
  refine SameWork.trans ?_ (SameWork.foldl _ (fun s f => answer_same_work _ s) _ _)
  exact .of_eq rfl rfl rfl

/-! ## The end of an enrollment (R47, R178) -/

/-- The line is let go by a holder other than a SETPOINT being sent. -/
theorem freeLine_kept {l : Line} (ready : Ready s) (quiet : Quiet s.bus.line) (quiet' : Quiet l)
    (acks : ∀ tx, l = .setpointAck tx → s.bus.line = .setpointAck tx) : Kept s (onLine l s) := by
  have held : ∀ tx, l = .setpointSending tx ∨ l = .setpointAck tx → s.bus.line = .setpointSending tx ∨ s.bus.line = .setpointAck tx := by
    rintro tx (line | line)
    · exact absurd line (quiet' tx)
    · exact .inr (acks tx line)
  refine onLine_kept ready ⟨fun tx h => ready.line.low tx (held tx h), fun tx h => ready.line.trim tx (held tx h),
    fun tx h => ready.line.left tx (held tx h), fun tx h => absurd h (quiet' tx), fun tx h => absurd h (quiet' tx)⟩
    (.of_quiet quiet') ?_ ?_ ?_ ?_
  · exact fun x ⟨tx, line, _⟩ => absurd line (quiet tx)
  · exact fun x ⟨tx, line, rest⟩ => ⟨tx, held tx line, rest⟩
  · exact fun x ⟨tx, line, _⟩ => absurd line (quiet' tx)
  · exact fun x ⟨tx, line, _⟩ => absurd line (quiet' tx)

theorem changeMode_same_work (mode : Mode) (cause : ModeCause) (s : State) : SameWork s (changeMode mode cause s) := by
  unfold changeMode
  refine SameWork.trans ?_ (notify_same_work _ _)
  exact .of_eq rfl rfl rfl

theorem enterRun_joined (cause : ModeCause) (ready : Ready s) : Joined s (enterRun cause s) := by
  have running := changeMode_same_work .run cause s
  have started : SameWork s (reserveAvailable { changeMode .run cause s with
      alloc := { (changeMode .run cause s).alloc with periodRunning := (changeMode .run cause s).bus.stopWhole } }) := by
    refine SameWork.trans ?_ (.of_reserve (reserveAvailable_step _))
    exact running.trans (.of_eq rfl rfl rfl)
  exact started.thenRun ready

theorem autorunEnd_joined (ready : Ready s) : Joined s (autorunEnd s) := by
  unfold autorunEnd; split
  · dsimp only
    have stopped : SameWork s { s with ctl := { s.ctl with autorun := false } } := .of_eq rfl rfl rfl
    split
    · exact stopped.joined ready
    · refine (stopped.kept ready).andThen ?_
      have ready := (stopped.kept ready).ready
      generalize ({ s with ctl := { s.ctl with autorun := false } } : State) = v at ready ⊢
      have mapped : Kept v (((v.outletOrder.take Config.berths).zipIdx).foldl autoMap v) := by
        refine Kept.foldl _ _ (fun slot mem t ready => autoMap_kept slot ?_ ready) ready
        obtain ⟨-, low, -⟩ := List.mem_zipIdx mem
        exact low.trans_le (by simp [Config.berths])
      have enabled := mapped.andSame (t := ((v.outletOrder.take Config.berths).zipIdx).foldl autoMap v)
        (u := { ((v.outletOrder.take Config.berths).zipIdx).foldl autoMap v with
          groups := (((v.outletOrder.take Config.berths).zipIdx).foldl autoMap v).groups.map fun _ => ⟨Config.groupLimitMax, true⟩ })
        (.of_eq rfl rfl rfl)
      exact enabled.andThen (enterRun_joined .autorun enabled.ready)
  · exact (Kept.refl ready).joined

theorem endEnrollment_joined (ready : Ready s) (quiet : Quiet s.bus.line) : Joined s (endEnrollment s) := by
  have opened : SameWork s (closeReceiver { s with bus := { s.bus with chainOut := false } }) := .of_eq rfl rfl rfl
  have start := opened.kept ready
  unfold endEnrollment; dsimp only
  generalize closeReceiver { s with bus := { s.bus with chainOut := false } } = v at start ⊢
  have aligned : Kept v (v.configuredBerths.foldl (fun s x => alignBerth x s) v) :=
    Kept.foldl _ _ (fun x _ t ready => alignBerth_kept x ready) start.ready
  generalize v.configuredBerths.foldl (fun s x => alignBerth x s) v = w at aligned ⊢
  have settled := ((start.trans aligned).trans (dropStrayTrims_kept aligned.ready)).andSame (dropStrayPasses_same_work _)
  generalize dropStrayPasses (dropStrayTrims w) = a at settled ⊢
  have freed : Kept a { a with bus := { a.bus with nextKind := .full, quietCount := 0, recheck := true, line := .idle } } :=
    (freeLine_kept (l := .idle) settled.ready (settled.quiet quiet) (by simp [Quiet]) (by simp)).andSame (.of_eq rfl rfl rfl)
  have line : ({ a with bus := { a.bus with nextKind := .full, quietCount := 0, recheck := true, line := .idle } } : State).bus.line =
    .idle := rfl
  generalize ({ a with bus := { a.bus with nextKind := .full, quietCount := 0, recheck := true, line := .idle } } : State) = b
    at freed line ⊢
  have told := (settled.trans freed).andSame (notify_same_work (.enrolled a.bus.cabinets.length) b)
  have line : (notify (.enrolled a.bus.cabinets.length) b).bus.line = .idle := by rw [(notify_same _ _).2.2.1]; exact line
  generalize notify (.enrolled a.bus.cabinets.length) b = c at told line ⊢
  have ended := told.andThen (autorunEnd_joined told.ready)
  refine ended.andKept (ageByBerth_kept ended.ready fun tx sending => ?_) (.of_path (ageByBerth_step _ _))
  rw [autorunEnd_bus c line, line] at sending; cases sending

end Sys2Proof.Machine.SetpointWork
end

