-- ==== Sys2Proof/Proofs/LineWork.lean ====
section
/-! Proofs/LineWork.lean: a SETPOINT on the line, from its dequeue to its acknowledgement or abandonment, keeps the relation `Ready`
(R40 to R42, R55, R56, R64, R66, R67). -/

namespace Sys2Proof.Machine.SetpointWork

variable {s t u : State} {x y : Nat} {tx : SetpointTx}

/-! ## The dequeue (R40, R55, R56) -/

/-- Nothing is being sent: the line passes to a SETPOINT. -/
theorem Work.Fits.toLine {w : Work} (h : w.Fits x) {l : Line} (free : ¬ Line.SendsTrim x w.line)
    (attached : Line.Attached x l → w.berth.configured = true ∧ w.berth.coupling ≠ .follower ∧ ∀ e ∈ w.list, e.old = none)
    (raises : Line.Raises x l → w.berth.session ≠ .serving ∨ w.berth.setpoint = .active)
    (writes : Line.WritesAlso x l → w.berth.configured = true ∧ w.berth.coupling = .follower) : ({ w with line := l } : Work).Fits x := by
  refine { h with shape := ?_, attached := attached, raises := raises, writes := writes }
  refine shape_of h.shape.lengths (fun f mem => ?_) h.shape.apart
  obtain ⟨own, trim | ⟨sent, -⟩⟩ := h.shape.waits f mem
  · exact ⟨own, .inl trim⟩
  · exact absurd sent free

/-- The berth's entry has left the list for the line. -/
theorem Work.Fits.take {w : Work} (h : w.Fits x) {e : Entry} (list : w.list = [e]) {l : Line}
    (behind : e.old.isSome = true → Line.SendsTrim x l)
    (attached : Line.Attached x l → w.berth.configured = true ∧ w.berth.coupling ≠ .follower)
    (raises : Line.Raises x l → w.berth.session ≠ .serving ∨ w.berth.setpoint = .active)
    (writes : Line.WritesAlso x l → w.berth.configured = true ∧ w.berth.coupling = .follower) :
    ({ w with list := [], line := l } : Work).Fits x := by
  refine { h with shape := ?_, low := by simp, own := fun f mem => h.own f (List.mem_append_right _ (by simpa using mem))
                  attached := fun on => ⟨(attached on).1, (attached on).2, by simp⟩, raises := raises, writes := writes }
  have shape := h.shape
  rw [list] at shape
  dsimp only
  generalize w.wait = b, w.queue = q at shape ⊢
  cases shape with
  | own e own => exact .none
  | trim e trim => exact .none
  | held e f trim own => exact .behind f own (behind trim)

theorem followerOf_some {p : Nat} (h : s.followerOf x = some p) : (s.berth p).configured = true ∧ (s.berth p).coupling = .follower := by
  unfold State.followerOf at h
  split at h
  · cases h
  next q _ =>
    split at h
    next pair =>
      obtain ⟨-, configured, follower, -⟩ := pair
      obtain rfl := Option.some.inj h
      exact ⟨configured, follower⟩
    · cases h

theorem shares_berth {v : Int} {h : Share} (mem : h ∈ s.shares x v) (hy : h.berth = some y) :
    y = x ∨ ((s.berth y).configured = true ∧ (s.berth y).coupling = .follower) := by
  unfold State.shares at mem
  split at mem
  · rw [List.mem_singleton.mp mem] at hy
    exact .inl (Option.some.inj hy).symm
  next p follower =>
    rcases List.mem_cons.mp mem with rfl | mem
    · exact .inl (Option.some.inj hy).symm
    · rw [List.mem_singleton.mp mem] at hy
      obtain rfl := Option.some.inj hy
      exact .inr (followerOf_some follower)

theorem shares_zero {h : Share} (mem : h ∈ s.shares x 0) : h.value = 0 := by
  unfold State.shares at mem
  split at mem
  · rw [List.mem_singleton.mp mem]
  · rcases List.mem_cons.mp mem with rfl | mem
    · rfl
    · rw [List.mem_singleton.mp mem]; rfl

theorem setpointOf_own {e : Entry} (own : e.old = none) : s.setpointOf e =
    ⟨e.berth, e.tag, e.age, s.entryValue e, (s.berth e.berth).cabinet.getD 0, s.shares e.berth (s.entryValue e), false, false, false⟩ := by
  unfold State.setpointOf; rw [own]

theorem setpointOf_trim {e : Entry} {a : OldAddress} (old : e.old = some a) : s.setpointOf e =
    ⟨e.berth, e.tag, e.age, 0, a.cabinet, a.outlets.map (⟨·, 0, none⟩), true, true, false⟩ := by
  unfold State.setpointOf; rw [old]

theorem setpointOf_same (e : Entry) : (s.setpointOf e).berth = e.berth ∧ (s.setpointOf e).age = e.age ∧
    (s.setpointOf e).trim = e.old.isSome ∧ (s.setpointOf e).detached = e.old.isSome := by
  cases old : e.old with
  | none => rw [setpointOf_own old]; exact ⟨rfl, rfl, rfl, rfl⟩
  | some a => rw [setpointOf_trim old]; exact ⟨rfl, rfl, rfl, rfl⟩

theorem setpointOf_share {e : Entry} {h : Share} (mem : h ∈ (s.setpointOf e).shares) :
    ((s.setpointOf e).value = 0 → h.value = 0) ∧ (e.old.isSome = true → h.berth = none) ∧
      ∀ y, h.berth = some y → y = e.berth ∨ ((s.berth y).configured = true ∧ (s.berth y).coupling = .follower) := by
  cases old : e.old with
  | none =>
    rw [setpointOf_own old] at mem ⊢
    exact ⟨fun zero => shares_zero (by rw [← show s.entryValue e = 0 from zero]; exact mem), by simp, fun y => shares_berth mem⟩
  | some a =>
    rw [setpointOf_trim old] at mem
    obtain ⟨o, -, rfl⟩ := List.mem_map.mp mem
    exact ⟨fun _ => rfl, fun _ => rfl, by simp⟩

theorem entryValue_active {e : Entry} (value : s.entryValue e ≠ 0) : (s.berth e.berth).setpoint = .active := by
  unfold State.entryValue at value
  dsimp only at value
  split at value
  next h => exact h.2.2
  · simp at value

theorem nextEntry_mem {e : Entry} (h : s.nextEntry = some e) : e ∈ s.path.list := by
  unfold State.nextEntry at h
  split at h
  next found => exact Option.some.inj h ▸ List.mem_of_find?_eq_some found
  · exact List.mem_of_head? h

/-- R40: an entry leaves the list and its SETPOINT begins to be sent. -/
def sendEntry (e : Entry) (s : State) : State := onLine (.setpointSending (s.setpointOf e)) (dropEntry e s)

theorem sendEntry_fits {e : Entry} (ready : Ready s) (mem : e ∈ s.path.list) : Line.Fits (.setpointSending (s.setpointOf e)) := by
  obtain ⟨berth, -, trim, detached⟩ := setpointOf_same (s := s) e
  refine ⟨fun tx line => ?_, fun tx line => ?_, fun tx line => ?_, fun tx line => ?_, fun tx line => ?_⟩
  · obtain rfl : s.setpointOf e = tx := by simpa using line
    rw [berth]; exact ready.pathOrdered.berth e mem
  · obtain rfl : s.setpointOf e = tx := by simpa using line
    rw [trim, detached]; exact id
  · obtain rfl : s.setpointOf e = tx := by simpa using line
    rw [trim, detached]; exact fun own trim => by simp [own] at trim
  · obtain rfl : s.setpointOf e = tx := by simpa using line
    exact fun zero h mem => (setpointOf_share mem).1 zero
  · obtain rfl : s.setpointOf e = tx := by simpa using line
    rw [detached]; exact fun trim h mem => (setpointOf_share mem).2.1 trim

theorem entriesFor_dropEntry {e : Entry} (ready : Ready s) (mem : e ∈ s.path.list) (y : Nat) :
    entriesFor y (dropEntry e s).path.list = if y = e.berth then [] else entriesFor y s.path.list := by
  have form : entriesFor y (dropEntry e s).path.list = (entriesFor y s.path.list).filter fun f => decide (f ≠ e) := List.filter_comm ..
  rw [form]
  split
  next own =>
    have few : (entriesFor y s.path.list).length ≤ 1 := (ready.work y).shape.lengths.1
    have mem : e ∈ entriesFor y s.path.list := mem_entriesFor.mpr ⟨mem, own.symm⟩
    match l : entriesFor y s.path.list with
    | [] => rfl
    | [f] => rw [l] at mem; simp [List.mem_singleton.mp mem]
    | _ :: _ :: _ => simp [l] at few
  next apart =>
    refine List.filter_eq_self.mpr fun f listed => ?_
    have : f ≠ e := by rintro rfl; exact apart (mem_entriesFor.mp listed).2.symm
    simpa using this

theorem AgesFit.inj {l : List Entry} {n : Nat} {line : Line} (h : AgesFit l n line) {e f : Entry} (he : e ∈ l) (hf : f ∈ l)
    (same : e.age = f.age) : e = f := by
  have distinct : (l.map (·.age)).Nodup := (agesFit_iff.mp h).1.imp Nat.ne_of_lt
  exact List.inj_on_of_nodup_map distinct he hf same

theorem eq_singleton_of_mem {α : Type} {l : List α} {a : α} (few : l.length ≤ 1) (mem : a ∈ l) : l = [a] := by
  match l with
  | [] => cases mem
  | [b] => rw [List.mem_singleton.mp mem]
  | _ :: _ :: _ => simp at few

theorem sendEntry_ready {e : Entry} (ready : Ready s) (idle : s.bus.line = .idle) (mem : e ∈ s.path.list) : Ready (sendEntry e s) := by
  obtain ⟨berth, age, trim, detached⟩ := setpointOf_same (s := s) e
  refine ⟨ready.berths, ⟨ready.ages.rising.filter _, fun f listed => ready.ages.newest f (List.mem_filter.mp listed).1,
    fun tx line => ?_⟩, sendEntry_fits ready mem, fun x => ?_⟩
  · obtain rfl : s.setpointOf e = tx := by simpa [sendEntry, onLine] using line
    rw [age]
    refine ⟨ready.ages.newest e mem, fun f listed same => ?_⟩
    obtain ⟨listed, apart⟩ := List.mem_filter.mp listed
    have apart : f ≠ e := by simpa using apart
    exact apart (ready.ages.inj listed mem same)
  · have fits := ready.work x
    have work : workOf x (sendEntry e s) = { workOf x s with
        list := if x = e.berth then [] else (workOf x s).list, line := .setpointSending (s.setpointOf e) } := by
      simp only [workOf, sendEntry, ← entriesFor_dropEntry ready mem x]; rfl
    have raises : Line.Raises x (.setpointSending (s.setpointOf e)) → x = e.berth ∧ (s.berth x).setpoint = .active := by
      rintro ⟨tx, line, own, attached, value⟩
      obtain rfl : s.setpointOf e = tx := by simpa using line
      rw [berth] at own; subst own
      have old : e.old = none := by rw [detached] at attached; simpa using attached
      rw [setpointOf_own old] at value
      exact ⟨rfl, entryValue_active value⟩
    rw [work]
    by_cases own : x = e.berth
    · subst own
      have list := eq_singleton_of_mem fits.shape.lengths.1 (mem_entriesFor.mpr ⟨mem, rfl⟩)
      rw [if_pos rfl]
      refine fits.take list (fun old => ⟨_, rfl, trim.trans old, berth⟩) ?_ (fun on => .inr (raises on).2) ?_
      · rintro ⟨tx, line, -, attached⟩
        obtain rfl : s.setpointOf e = tx := by simpa using line
        exact fits.own e (by simp [list]) (by rw [detached] at attached; simpa using attached)
      · rintro ⟨tx, line, other, -⟩
        obtain rfl : s.setpointOf e = tx := by simpa using line
        exact absurd berth other
    · rw [if_neg own]
      refine fits.toLine ?_ ?_ (fun on => absurd (raises on).1 own) ?_
      · rintro ⟨tx, line, -⟩; simp [workOf, idle] at line
      · rintro ⟨tx, line, of, -⟩
        obtain rfl : s.setpointOf e = tx := by simpa using line
        exact absurd (of.symm.trans berth) own
      · rintro ⟨tx, line, -, h, shared, hx⟩
        obtain rfl : s.setpointOf e = tx := by simpa using line
        exact ((setpointOf_share shared).2.2 x hx).resolve_left own

theorem dequeueSetpoint_joined (ready : Ready s) : Joined s (dequeueSetpoint s) := by
  unfold dequeueSetpoint
  split
  next free =>
    have idle : s.bus.line = .idle := by simpa using (Bool.and_eq_true_iff.mp free.1).1
    split
    · exact (Kept.refl ready).joined
    next e next =>
      have sent : Joined s (sendEntry e s) :=
        ⟨sendEntry_ready ready idle (nextEntry_mem next), fun y none some => by
          have same : (sendEntry e s).queuedOf y = s.queuedOf y := rfl
          rw [same, none] at some; cases some⟩
      exact sent.andSame (.of_eq rfl rfl rfl) (.of_berths rfl)
  · exact (Kept.refl ready).joined

/-! ## The commanded fields (R40) -/

/-- A share of the SETPOINT being sent is written: no queued SINGLE berth takes a value other than 0. -/
theorem writeCommanded_kept (ready : Ready s) (line : s.bus.line = .setpointSending tx) {h : Share} (mem : h ∈ tx.shares) :
    Kept s (writeCommanded s h) := by
  unfold writeCommanded
  split
  · exact .refl ready
  next x hx =>
    by_cases low : x < 36
    swap
    · have same : SameWork s (s.editBerth x fun b => { b with commanded := h.value }) :=
        ⟨rfl, rfl, rfl, rfl, rfl, by simp, fun y => by
          rw [berth_editBerth, if_neg (by rw [ready.berths]; exact fun in_ => low in_.2)]⟩
      exact same.kept ready
    have fits := ready.work x
    refine editBerth_kept ready low { fits with commanded := fun queued single => ?_ }
    have zero : tx.value = 0 := by
      by_contra value
      have attached : tx.detached = false := by
        by_contra detached
        have := ready.line.loose tx line (by simpa using detached) h mem
        simp [hx] at this
      by_cases own : tx.berth = x
      · exact fits.queued_quiet queued ⟨tx, line, own, attached, value⟩
      · have follower := (fits.writes ⟨tx, line, own, h, mem, hx⟩).2
        exact absurd (follower.symm.trans single) (by simp)
    exact ready.line.zero tx line zero h mem

theorem writeCommanded_line (s : State) (h : Share) : (writeCommanded s h).bus.line = s.bus.line := by
  unfold writeCommanded; split <;> rfl

theorem writeShares_kept (ready : Ready s) (line : s.bus.line = .setpointSending tx) :
    Kept s (tx.shares.foldl writeCommanded s) ∧ (tx.shares.foldl writeCommanded s).bus.line = .setpointSending tx := by
  have gen : ∀ (l : List Share) (s : State), (∀ h ∈ l, h ∈ tx.shares) → Ready s → s.bus.line = .setpointSending tx →
      Kept s (l.foldl writeCommanded s) ∧ (l.foldl writeCommanded s).bus.line = .setpointSending tx := by
    intro l
    induction l with
    | nil => exact fun s _ ready line => ⟨.refl ready, line⟩
    | cons h l ih =>
      intro s all ready line
      have first := writeCommanded_kept ready line (all h (by simp))
      obtain ⟨rest, last⟩ := ih _ (fun g mem => all g (by simp [mem])) first.ready ((writeCommanded_line s h).trans line)
      exact ⟨first.trans rest, last⟩
  exact gen tx.shares s (fun _ => id) ready line

/-! ## The SETPOINT ends, or its window opens -/

/-- The relation, but for the work of berth `x`. -/
structure ReadyBut (x : Nat) (s : State) : Prop where
  berths : s.berths.length = 36
  ages : AgesFit s.path.list s.path.nextAge s.bus.line
  line : Line.Fits s.bus.line
  work : ∀ y, y ≠ x → (workOf y s).Fits y

theorem WorkStep.mend (h : WorkStep x s t) (but : ReadyBut x s) (fits : (workOf x t).Fits x) : Ready t :=
  ⟨h.length.trans but.berths, h.ages but.ages, h.line ▸ but.line, fun y => by
    by_cases hy : y = x
    · exact hy ▸ fits
    · rw [h.others y hy]; exact but.work y hy⟩

/-- What a SETPOINT that is no longer being sent has left on the line. -/
structure Ended (tx : SetpointTx) (l : Line) : Prop where
  quiet : Quiet l
  acks : ∀ tx', l = .setpointAck tx' → tx' = tx

theorem ended_idle (tx : SetpointTx) : Ended tx .idle := ⟨by simp [Quiet], by simp⟩
theorem ended_ack (tx : SetpointTx) : Ended tx (.setpointAck tx) := ⟨by simp [Quiet], by simp⟩

section
variable {l : Line} (ready : Ready s) (line : s.bus.line = .setpointSending tx) (ended : Ended tx l)
include line ended

theorem Ended.held {tx' : SetpointTx} (h : l = .setpointSending tx' ∨ l = .setpointAck tx') :
    s.bus.line = .setpointSending tx' ∨ s.bus.line = .setpointAck tx' := by
  rcases h with sending | ack
  · exact absurd sending (ended.quiet tx')
  · rw [ended.acks tx' ack]; exact .inl line

theorem Ended.attached (h : Line.Attached x l) : Line.Attached x s.bus.line := by
  obtain ⟨tx', on, rest⟩ := h
  exact ⟨tx', Ended.held line ended on, rest⟩

/-- Where no trim of the berth was being sent its work still fits. -/
theorem Work.Fits.lineEnded (fits : (workOf x s).Fits x) (free : tx.trim = true → x ≠ tx.berth) :
    ({ workOf x s with line := l } : Work).Fits x := by
  refine fits.toLine ?_ (fun on => fits.attached (ended.attached line on)) (fun ⟨tx', sending, _⟩ => absurd sending (ended.quiet tx'))
    (fun ⟨tx', sending, _⟩ => absurd sending (ended.quiet tx'))
  rintro ⟨tx', sending, trim, own⟩
  obtain rfl : tx = tx' := by simpa [workOf, line] using sending
  exact free trim own.symm

include ready

/-- But for what waited behind a trim the relation holds. -/
theorem ended_but : ReadyBut tx.berth (onLine l s) :=
  ⟨ready.berths, ready.ages.onLine fun tx' sending => absurd sending (ended.quiet tx'),
    ⟨fun tx h => ready.line.low tx (Ended.held line ended h), fun tx h => ready.line.trim tx (Ended.held line ended h),
      fun tx h => ready.line.left tx (Ended.held line ended h), fun tx h => absurd h (ended.quiet tx),
      fun tx h => absurd h (ended.quiet tx)⟩,
    fun y apart => Work.Fits.lineEnded (s := s) line ended (ready.work y) fun _ => apart⟩

theorem ended_kept (own : tx.trim = false) : Kept s (onLine l s) :=
  ⟨(WorkStep.refl tx.berth _).mend (ended_but ready line ended) (Work.Fits.lineEnded (s := s) line ended (ready.work tx.berth) (by simp [own])), fun _ => id,
    .of_quiet ended.quiet⟩

end

/-! ## What follows a SETPOINT sent whole (R40, R56, R64, R3) -/

theorem SameWork.but (h : SameWork s t) (but : ReadyBut x s) : ReadyBut x t :=
  ⟨h.length.trans but.berths, by rw [h.list, h.nextAge, h.line]; exact but.ages, h.line ▸ but.line,
    fun y apart => by rw [h.work]; exact but.work y apart⟩

/-- R3: what waited behind the trim makes its entry. -/
theorem releaseWork_kept {l : Line} {v : State} (ready : Ready s) (line : s.bus.line = .setpointSending tx) (ended : Ended tx l)
    (same : SameWork (onLine l s) v) : Kept s (releaseWork tx.berth v) := by
  have fits := ready.work tx.berth
  have work : workOf tx.berth v = { workOf tx.berth s with line := l } := same.work tx.berth
  have step := releaseWork_work tx.berth v
  have dropped : ({ workOf tx.berth v with wait := [] } : Work).Fits tx.berth := by
    rw [work]
    refine (fits.dropWait).onLine (by simp) (ended.attached line) ?_ ?_
    · exact fun ⟨tx', sending, _⟩ => absurd sending (ended.quiet tx')
    · exact fun ⟨tx', sending, _⟩ => absurd sending (ended.quiet tx')
  have held : ∀ w ∈ (workOf tx.berth v).wait, w.old = none := by rw [work]; exact fun e mem => (fits.shape.waits e mem).1
  refine ⟨step.mend (same.but (ended_but ready line ended)) ?_, fun y none => ?_, .of_quiet (step.line ▸ same.line ▸ ended.quiet)⟩
  · obtain ⟨none, same⟩ | ⟨⟨w, waits⟩, e, own, form⟩ := workOf_releaseWork held (by rw [work]; exact fits.shape.lengths.2.1)
    · rw [same]
      have whole : ({ workOf tx.berth v with wait := [] } : Work) = workOf tx.berth v := by rw [← none]
      rwa [whole] at dropped
    · rw [work] at waits
      have waits : (workOf tx.berth s).wait = [w] := waits
      have carried := fits.own w (by simp [waits]) (fits.shape.waits w (by simp [waits])).1
      obtain ⟨free, unqueued⟩ := fits.owns_dropWait (by simp [waits])
      rw [form]
      rw [work] at dropped ⊢
      exact dropped.add free unqueued (ready.carries carried.1 carried.2) own
  · rw [queuedOf_congr ((releaseWork_queue tx.berth v).trans same.queue)]; exact none

/-! ### Work held behind a trim -/

theorem entriesFor_of_berth {l : List Entry} (own : ∀ e ∈ l, e.berth = x) (y : Nat) : entriesFor y l = if y = x then l else [] := by
  unfold entriesFor
  split
  next e => exact List.filter_eq_self.mpr fun f mem => by simp [own f mem, e]
  next hy => exact List.filter_eq_nil_iff.mpr fun f mem => by simp [own f mem, Ne.symm hy]

theorem entriesFor_owned (x y : Nat) (l : List Entry) : entriesFor y (l.filter (·.ownOf x)) =
    if y = x then (entriesFor x l).filter (·.old.isNone) else [] := by
  rw [entriesFor_of_berth (x := x) fun e mem => ((ownOf_iff x e).mp (List.mem_filter.mp mem).2).1]
  have form : l.filter (·.ownOf x) = (entriesFor x l).filter (·.old.isNone) := by
    unfold entriesFor
    rw [List.filter_filter]
    refine List.filter_congr fun e _ => ?_
    by_cases own : e.old = none <;> simp [Entry.ownOf, own]
  rw [form]

/-- The entries in which the place of berth `x` waits. -/
def placeEntries (x : Nat) (s : State) : List Entry := (s.queuedOf x).toList.map fun q => ⟨x, q.tag, s.path.nextAge, none⟩

theorem entriesFor_placeEntries (x y : Nat) (s : State) :
    entriesFor y (placeEntries x s) = if y = x then placeEntries x s else [] := by
  refine entriesFor_of_berth (fun e mem => ?_) y
  obtain ⟨q, -, rfl⟩ := List.mem_map.mp mem
  rfl

theorem holdWork_berth (x y : Nat) (s : State) : (holdWork x s).berth y =
    if y = x ∧ x < s.berths.length ∧ (s.queuedOf x).isSome = true then { s.berth x with setpoint := .idle } else s.berth y := by
  rw [BerthBus.holdWork_eq]
  by_cases queued : (s.queuedOf x).isSome = true
  · simp only [queued, if_true, and_true]
    exact berth_setBerth s x y _
  · simp only [queued, Bool.false_eq_true, if_false, and_false]; rfl

theorem holdWork_work (x : Nat) (s : State) : WorkStep x s (holdWork x s) := by
  refine ⟨(holdWork_step x s).length, ?_, fun y hy => ?_, ?_⟩
  · rw [BerthBus.holdWork_eq]
  · have berth := holdWork_berth x y s
    rw [if_neg fun h => hy h.1] at berth
    have list : entriesFor y (holdWork x s).path.list = entriesFor y s.path.list := by
      rw [BerthBus.holdWork_eq]; simp only [entriesFor_unowned, hy, if_false]
    have waiting : entriesFor y (holdWork x s).path.waiting = entriesFor y s.path.waiting := by
      rw [BerthBus.holdWork_eq]
      have place := entriesFor_placeEntries x y s
      rw [if_neg hy] at place
      simp only [entriesFor_append, entriesFor_owned, hy, if_false]
      rw [show entriesFor y (List.map _ _) = [] from place]; simp
    have queue : placesFor y (holdWork x s).path.queue = placesFor y s.path.queue := by
      rw [BerthBus.holdWork_eq]; simp only [placesFor_unqueued, hy, if_false]
    have line : (holdWork x s).bus.line = s.bus.line := by rw [BerthBus.holdWork_eq]
    simp only [workOf, list, waiting, queue, berth, line]
  · rw [BerthBus.holdWork_eq]
    exact fun ages => ages.mono (List.filter_sublist.map _)

theorem placeEntries_work (few : (workOf x s).queue.length ≤ 1) :
    placeEntries x s = (workOf x s).queue.map fun q => ⟨x, q.tag, s.path.nextAge, none⟩ := by
  unfold placeEntries
  rw [queuedOf_work]
  match queue : (workOf x s).queue with
  | [] => rfl
  | [q] => rfl
  | _ :: _ :: _ => simp [queue] at few

theorem workOf_holdWork (low : x < s.berths.length) (few : (workOf x s).queue.length ≤ 1) : workOf x (holdWork x s) = { workOf x s with
    list := (workOf x s).list.filter (·.old.isSome), queue := []
    wait := (workOf x s).wait ++ (workOf x s).list.filter (·.old.isNone) ++
      (workOf x s).queue.map fun q => ⟨x, q.tag, s.path.nextAge, none⟩
    berth := { (workOf x s).berth with setpoint := if (workOf x s).queue = [] then (workOf x s).berth.setpoint else .idle } } := by
  have list : entriesFor x (holdWork x s).path.list = (entriesFor x s.path.list).filter (·.old.isSome) := by
    rw [BerthBus.holdWork_eq]; simp only [entriesFor_unowned, if_true]
  have waiting : entriesFor x (holdWork x s).path.waiting = entriesFor x s.path.waiting ++
      (entriesFor x s.path.list).filter (·.old.isNone) ++ placeEntries x s := by
    rw [BerthBus.holdWork_eq]
    have place := entriesFor_placeEntries x x s
    rw [if_pos rfl] at place
    simp only [entriesFor_append, entriesFor_owned, if_true]
    rw [show entriesFor x (List.map _ _) = _ from place]
  have queue : placesFor x (holdWork x s).path.queue = [] := by
    rw [BerthBus.holdWork_eq]; simp only [placesFor_unqueued, if_true]
  have line : (holdWork x s).bus.line = s.bus.line := by rw [BerthBus.holdWork_eq]
  have berth : coreOf ((holdWork x s).berth x) = { coreOf (s.berth x) with
      setpoint := if (workOf x s).queue = [] then (s.berth x).setpoint else .idle } := by
    rw [holdWork_berth, queuedOf_work]
    by_cases queued : (workOf x s).queue = []
    · simp [queued, coreOf]
    · simp [queued, coreOf, low]
  rw [placeEntries_work few] at waiting
  simp only [workOf] at waiting berth ⊢
  rw [list, waiting, queue, line, berth]; rfl

/-- R64, R3: the zero trim that follows a value to an outlet that its berth has lost. -/
theorem followDetached_kept (ready : Ready s) (low : tx.berth < 36) (detached : ¬ Line.Attached tx.berth s.bus.line) :
    Kept s (followDetached tx s) := by
  unfold followDetached; split
  · exact .refl ready
  next open_ =>
    have open_ : ¬ (workOf tx.berth s).Trimmed := fun trimmed => open_ (trimWaits_true_iff.mpr trimmed)
    have trims : (workOf tx.berth s).list.filter (·.old.isSome) = [] := List.filter_eq_nil_iff.mpr fun e mem old => open_ ⟨e, mem, old⟩
    have work := workOf_addTrim tx.berth ⟨tx.cabinet, tx.shares.map (·.outlet)⟩ (holdWork tx.berth s)
    rw [workOf_holdWork (ready.index low) (ready.work tx.berth).shape.lengths.2.2, trims] at work
    refine ((holdWork_work tx.berth s).trans (addTrim_work tx.berth _ _)).kept ready ?_ (fun _ => by rw [work])
    exact (ready.work tx.berth).pushTrim (n := s.path.nextAge) (e := ⟨tx.berth, 0, (holdWork tx.berth s).path.nextAge, _⟩) rfl low open_
      (by rw [work]; rfl) (by rw [work]) (by rw [work]) (by rw [work]) (by rw [work]; exact detached) (by rw [work]; exact id)

/-- A change of the setpoint state to IDLE of a berth that is not queued, while nothing is being sent. -/
theorem idled_kept (ready : Ready s) (carries : (workOf x s).Carries x) (unqueued : (workOf x s).queue = []) (quiet : Quiet s.bus.line) :
    Kept s (setSetpointState x .idle s) :=
  editBerth_kept ready carries.1 ((ready.work x).newSession unqueued carries ⟨rfl, rfl⟩ (by simp [coreOf])
    fun on => absurd on quiet.raises)

/-- R56: a setpoint of 0 has been sent whole. -/
theorem zeroSent_joined (ready : Ready s) (carries : (workOf x s).Carries x) (quiet : Quiet s.bus.line) : Joined s (zeroSent x s) := by
  unfold zeroSent; split
  next joins =>
    obtain ⟨serving, target, commanded⟩ := joins
    have joins : Joins s x := ⟨serving, commanded, target⟩
    have index := ready.index carries.1
    by_cases queued : (workOf x s).queue = []
    · have idle := idled_kept ready carries queued quiet
      refine idle.andThen (joinQueue_joined idle.ready 0 (joins.same (.of_path (setSetpointState_step x .idle s))) ?_)
      simp [setSetpointState, index]
    · have alone := (ready.work x).queued_alone queued
      have place : (setSetpointState x .idle s).queuedOf x ≠ none := fun none => queued (queuedOf_none_iff.mp none)
      have work := workOf_setSetpointState (s := s) (x := x) .idle index
      have form := workOf_enqueue (s := setSetpointState x .idle s) (x := x) 0 (by simpa [setSetpointState] using index)
        (by rw [work]; exact (ready.work x).shape.lengths.2.2)
      rw [joinQueue_eq, if_neg fun h => place h.2]
      refine ((setSetpointState_work x .idle s).trans (enqueue_work x 0 _)).joined ?_ ?_
      · refine ((setSetpointState_work x .idle s).trans (enqueue_work x 0 _)).ready ready ?_
        rw [form, work]
        exact (ready.work x).enqueue alone.2 _ serving (fun single => (pairCommanded_single single).symm.trans commanded) quiet.raises
      · have step : PathStep s (joinQueue x 0 (setSetpointState x .idle s)) :=
          (setSetpointState_step x .idle s).trans (joinQueue_step x 0 _)
        rw [joinQueue_eq, if_neg fun h => place h.2] at step
        exact joins.same (.of_path step)
  · exact (leaveQueue_kept ready carries fun on => absurd on quiet.raises).joined

theorem Ready.attached_carries (ready : Ready s) (attached : Line.Attached x s.bus.line) : (workOf x s).Carries x := by
  obtain ⟨configured, own, -⟩ := (ready.work x).attached attached
  exact ready.carries configured own

/-- R40, R56, R64, R3: what the end of the transmission does, its ack window being open. -/
theorem afterSent_joined (ready : Ready s) (line : s.bus.line = .setpointAck tx) (own : tx.trim = false) : Joined s (afterSent tx s) := by
  have quiet : Quiet s.bus.line := by rw [line]; simp [Quiet]
  unfold afterSent
  rw [own, if_neg (by simp)]
  split
  next detached =>
    split
    · exact (Kept.refl ready).joined
    · refine (followDetached_kept ready (ready.line.low tx (.inr line)) ?_).joined
      rintro ⟨tx', on, -, attached⟩
      obtain rfl : tx = tx' := by simpa [line] using on
      simp [detached] at attached
  next attached =>
    have carries := ready.attached_carries (x := tx.berth) ⟨tx, .inr line, rfl, by simpa using attached⟩
    split
    · exact zeroSent_joined ready carries quiet
    · split
      next left => exact (zeroTrim_kept ready (ready.unqueued_of_session left.2) carries).joined
      · exact (Kept.refl ready).joined

theorem setInFlight_same_work (x : Nat) (v : Bool) (s : State) : SameWork s (setInFlight x v s) := .edit fun _ => rfl

theorem finishSetpoint_joined (ready : Ready s) : Joined s (finishSetpoint s) := by
  unfold finishSetpoint
  split
  next tx line =>
    obtain ⟨written, sending⟩ := writeShares_kept ready line
    refine written.andThen ?_
    have ready := written.ready
    generalize tx.shares.foldl writeCommanded s = v at ready sending ⊢
    have closed : SameWork (onLine (.setpointAck tx) v) (setInFlight tx.berth true (setLine (.setpointAck tx) (closeReceiver v))) := by
      refine SameWork.trans ?_ (setInFlight_same_work _ _ _)
      exact .of_eq rfl rfl rfl
    cases trim : tx.trim with
    | false =>
      have opened := (ended_kept ready sending (ended_ack tx) trim).andSame closed
      exact opened.andThen (afterSent_joined opened.ready rfl trim)
    | true =>
      rw [afterSent, if_pos trim]
      exact (releaseWork_kept ready sending (ended_ack tx) closed).joined
  · exact (Kept.refl ready).joined

end Sys2Proof.Machine.SetpointWork
end

