-- ==== Sys2Proof/Proofs/ReturnedWork.lean ====
section
/-! Proofs/ReturnedWork.lean: the acknowledgement of a SETPOINT, its window's expiry, and the entry that an abandonment returns, keep
the relation `Ready` (R30, R41, R42, R65 to R67). -/

namespace Sys2Proof.Machine.SetpointWork

variable {s t u v : State} {x y : Nat} {tx : SetpointTx} {e : Entry}

/-! ## Acknowledgements (R41, R42) -/

theorem writeConfirmed_same_work (entries : List AckEntry) (s : State) (h : Share) : SameWork s (writeConfirmed entries s h) := by
  unfold writeConfirmed; split
  · exact .edit fun _ => rfl
  · exact .refl s

theorem forwardAck_same_work (tx : SetpointTx) (entries : List AckEntry) (s : State) : SameWork s (forwardAck tx entries s) := by
  unfold forwardAck; split
  · exact .refl s
  · exact answer_same_work _ s

/-- The line of a SETPOINT's window becomes free. -/
theorem freed_kept (ready : Ready s) (line : s.bus.line = .setpointAck tx) : Kept s (setLine .idle (closeReceiver s)) :=
  (freeLine_kept (l := .idle) ready (by rw [line]; simp [Quiet]) (by simp [Quiet]) (by simp)).andSame (.of_eq rfl rfl rfl)

theorem acceptAck_kept (body : List Byte) (ready : Ready s) : Kept s (acceptAck body s) := by
  unfold acceptAck; dsimp only
  split
  next tx line =>
    have freed := freed_kept ready line
    generalize setLine .idle (closeReceiver s) = v at freed ⊢
    have written : SameWork v (tx.shares.foldl (writeConfirmed (ackEntries body)) v) :=
      SameWork.foldl _ (fun s h => writeConfirmed_same_work _ s h) _ v
    generalize tx.shares.foldl (writeConfirmed (ackEntries body)) v = w at written ⊢
    exact (((freed.andSame written).andSame (setInFlight_same_work _ _ _)).andSame (editCounters_same_work _ _ _)).andSame
      (forwardAck_same_work _ _ _)
  · exact .refl ready

theorem freshEntry_kept (x : Nat) (ready : Ready s) : Kept s (freshEntry x s) := by
  unfold freshEntry; split
  next fresh =>
    obtain ⟨-, none, out, configured, own⟩ := fresh
    obtain ⟨-, free⟩ := Bool.or_eq_false_iff.mp none
    have free := Option.isNone_iff_eq_none.mp (Option.isSome_eq_false_iff.mp free)
    exact addEntry_kept ready 0 (entryOf_none_iff.mp free) (queuedOf_none_iff.mp (Option.isNone_iff_eq_none.mp out))
      (ready.carries configured own)
  · exact .refl ready

theorem expireAck_kept (ready : Ready s) : Kept s (expireAck s) := by
  unfold expireAck; dsimp only
  split
  next tx line =>
    have freed := (freed_kept ready line).andSame (setInFlight_same_work tx.berth false _)
    generalize setInFlight tx.berth false _ = v at freed ⊢
    have answered : SameWork v (if tx.tag = 0 then v else reply (berthParty tx.berth) tx.tag .noConfirm .none v) := by
      split
      · exact .refl v
      · exact reply_same_work _ _ _ _ v
    have counted := (freed.andSame answered).trans (countNoConfirm_kept tx.berth (freed.andSame answered).ready)
    exact counted.trans (freshEntry_kept tx.berth counted.ready)
  · exact .refl ready

/-! ## A returned entry (R67) -/

theorem entriesFor_insertBy (before : Entry → Entry → Bool) (apart : y ≠ e.berth) (l : List Entry) :
    entriesFor y (insertBy before e l) = entriesFor y l := by
  induction l with
  | nil => simp [insertBy, entriesFor_cons, apart.symm]
  | cons f l ih =>
    unfold insertBy; split
    · rw [entriesFor_cons, if_neg apart.symm]
    · rw [entriesFor_cons, ih, entriesFor_cons]

theorem returnEntry_waits (open_ : ¬ (workOf e.berth s).Trimmed) : (e.old.isNone && s.trimWaits e.berth) = false := by
  rw [trimWaits_eq_false_iff.mpr open_, Bool.and_false]

theorem returnEntry_work (e : Entry) (open_ : ¬ (workOf e.berth s).Trimmed) (old : e.age < s.path.nextAge)
    (fresh : ∀ f ∈ s.path.list, f.age ≠ e.age) (quiet : Quiet s.bus.line) : WorkStep e.berth s (returnEntry e s) := by
  unfold returnEntry
  rw [returnEntry_waits open_]
  refine ⟨rfl, rfl, fun y hy => ?_, fun ages => ages.insert e old fresh quiet⟩
  simp only [workOf, Bool.false_eq_true, if_false, entriesFor_insertBy _ hy]; rfl

theorem workOf_returnEntry (e : Entry) (empty : (workOf e.berth s).list = []) :
    workOf e.berth (returnEntry e s) = { workOf e.berth s with list := [e] } := by
  have open_ : ¬ (workOf e.berth s).Trimmed := by simp [Work.Trimmed, empty]
  have one : entriesFor e.berth (insertBy (fun a b => decide (a.age < b.age)) e s.path.list) = [e] := by
    have perm := (insertBy_perm (fun a b => decide (a.age < b.age)) e s.path.list).filter fun f => decide (f.berth = e.berth)
    have none : s.path.list.filter (fun f => decide (f.berth = e.berth)) = [] := empty
    rw [List.filter_cons, none] at perm
    simpa [entriesFor] using List.perm_singleton.mp (by simpa using perm)
  unfold returnEntry
  rw [returnEntry_waits open_]
  simp only [workOf, Bool.false_eq_true, if_false, one]; rfl

/-- R67: the entry that stands takes the older of the two ages. -/
theorem mergedEntry_kept (ready : Ready v) (wait : (workOf tx.berth v).wait = [])
    (sent : tx.age < v.path.nextAge ∧ ∀ f ∈ v.path.list, f.age ≠ tx.age) (quiet : Quiet v.bus.line) (entry : v.entryOf tx.berth = some e)
    (tag : Nat) : Kept v (returnEntry ⟨tx.berth, tag, min e.age tx.age, none⟩ (removeEntry tx.berth v)) := by
  obtain ⟨berth, old⟩ := entryOf_own entry
  have fits := ready.work tx.berth
  have listed : e ∈ (workOf tx.berth v).list := by
    rw [entryOf_work, wait, List.append_nil] at entry
    exact List.mem_of_find?_eq_some entry
  have stands : e ∈ v.path.list := (mem_entriesFor.mp listed).1
  have list := eq_singleton_of_mem fits.shape.lengths.1 listed
  have removed := workOf_removeEntry tx.berth v
  rw [list, wait] at removed
  have empty : (workOf tx.berth (removeEntry tx.berth v)).list = [] := by rw [removed]; simp [old]
  have work := workOf_returnEntry (s := removeEntry tx.berth v) ⟨tx.berth, tag, min e.age tx.age, .none⟩ empty
  have returned := returnEntry_work (s := removeEntry tx.berth v) ⟨tx.berth, tag, min e.age tx.age, .none⟩
    (by simp [Work.Trimmed, empty]) (by have := sent.1; exact (Nat.min_le_right _ _).trans_lt this) (fun f mem => ?_) quiet
  · refine ((removeEntry_work tx.berth v).trans returned).kept ready ?_ fun none => ?_
    · have relabeled := fits.relabel (a := [⟨tx.berth, tag, min e.age tx.age, .none⟩]) (b := []) (by simp [list, old]) (by simp [wait])
      rw [work, removed]; exact relabeled
    · rw [work, removed]; exact none
  · obtain ⟨mem, apart⟩ := List.mem_filter.mp mem
    dsimp only
    rcases Nat.le_total e.age tx.age with le | le
    · rw [Nat.min_eq_left le]
      intro same
      rw [ready.ages.inj mem stands same, (ownOf_iff tx.berth e).mpr ⟨berth, old⟩] at apart
      simp at apart
    · rw [Nat.min_eq_right le]; exact sent.2 f mem

section
variable (ready : Ready s) (line : s.bus.line = .setpointSending tx)
include ready line

/-- R67, R3: the trim of a map change goes back, the berth's work waiting for it, unless a later one stands. -/
theorem trimReturned_kept (trim : tx.trim = true) : Kept s (placeReturned tx (onLine .idle s)) := by
  have fits := ready.work tx.berth
  have ended := ended_idle tx
  have but := ended_but ready line ended
  have low := ready.line.low tx (.inl line)
  have quiet : Quiet (onLine .idle s).bus.line := ended.quiet
  by_cases waits : (workOf tx.berth s).Trimmed
  · rw [BerthBus.placeReturned_trim_stands trim (trimWaits_true_iff (s := onLine .idle s).mpr waits)]
    refine ⟨(WorkStep.refl tx.berth _).mend but ?_, fun _ => id, .of_quiet quiet⟩
    refine fits.onLine (fun _ none => ?_) (ended.attached line) ?_ ?_
    · obtain ⟨e, mem, -⟩ := waits; simp [none] at mem
    · exact fun ⟨tx', sending, _⟩ => absurd sending (ended.quiet tx')
    · exact fun ⟨tx', sending, _⟩ => absurd sending (ended.quiet tx')
  · have trims : (workOf tx.berth s).list.filter (·.old.isSome) = [] :=
      List.filter_eq_nil_iff.mpr fun e mem old => waits ⟨e, mem, old⟩
    have held : workOf tx.berth (holdWork tx.berth (onLine .idle s)) = _ :=
      workOf_holdWork (s := onLine .idle s) (ready.index low) fits.shape.lengths.2.2
    rw [workOf_onLine] at held
    dsimp only at held
    rw [trims] at held
    have empty : (workOf (BerthBus.trimEntry tx).berth (holdWork tx.berth (onLine .idle s))).list = [] := by
      rw [show (BerthBus.trimEntry tx).berth = tx.berth from rfl, held]
    have work := workOf_returnEntry (BerthBus.trimEntry tx) empty
    have returned := returnEntry_work (BerthBus.trimEntry tx) (s := holdWork tx.berth (onLine .idle s)) (by simp [Work.Trimmed, empty])
      (by rw [BerthBus.holdWork_eq]; exact (ready.ages.sent tx line).1)
      (fun f mem => by
        rw [BerthBus.holdWork_eq] at mem
        exact (ready.ages.sent tx line).2 f (List.mem_filter.mp mem).1) (by rw [BerthBus.holdWork_eq]; exact quiet)
    have step := (holdWork_work tx.berth (onLine .idle s)).trans returned
    rw [BerthBus.placeReturned_trim trim (trimWaits_eq_false_iff (s := onLine .idle s).mpr waits)]
    rw [show (BerthBus.trimEntry tx).berth = tx.berth from rfl, held] at work
    refine ⟨step.mend but ?_, fun y none => ?_, .of_quiet (step.line ▸ quiet)⟩
    · refine fits.pushTrim (n := s.path.nextAge) (e := BerthBus.trimEntry tx) rfl low waits (by rw [work]) (by rw [work])
        (by rw [work]; rfl) (by rw [work]) (by rw [work]; exact fun ⟨tx', on, _⟩ => by rcases on with on | on <;> simp at on)
        (by rw [work]; exact fun ⟨tx', on, _⟩ => by simp at on)
    · rw [queuedOf_none_iff] at none ⊢
      by_cases hy : y = tx.berth
      · rw [hy, work]
      · rw [step.others y hy]; exact none

/-- R67: the entry of a berth that has not left SERVING goes back, or its place takes the tag. -/
theorem ownReturned_kept (own : tx.trim = false) (stays : tx.left = false) : Kept s (placeReturned tx (onLine .idle s)) := by
  have fits := ready.work tx.berth
  have attached : tx.detached = false := by
    by_contra detached
    have := ready.line.left tx (.inl line) own (by simpa using detached)
    simp [stays] at this
  obtain ⟨configured, carrier, free⟩ := fits.attached ⟨tx, .inl line, rfl, attached⟩
  have carries := ready.carries configured carrier
  have freed := ended_kept ready line (ended_idle tx) own
  have quiet : Quiet (onLine .idle s).bus.line := (ended_idle tx).quiet
  have sent := ready.ages.sent tx line
  refine freed.trans ?_
  have ready := freed.ready
  have fits := ready.work tx.berth
  have open_ : ¬ (workOf tx.berth (onLine .idle s)).Trimmed := by
    rintro ⟨e, mem, trim⟩; simp [free e mem] at trim
  have wait : (workOf tx.berth (onLine .idle s)).wait = [] := by
    by_contra some
    obtain ⟨e, mem⟩ := List.exists_mem_of_ne_nil _ some
    obtain ⟨-, trim | ⟨⟨tx', sending, -⟩, -⟩⟩ := fits.shape.waits e mem
    · exact open_ trim
    · exact quiet tx' sending
  have sent : tx.age < (onLine .idle s).path.nextAge ∧ ∀ e ∈ (onLine .idle s).path.list, e.age ≠ tx.age := sent
  have carries : (workOf tx.berth (onLine .idle s)).Carries tx.berth := carries
  generalize onLine .idle s = v at ready fits open_ wait sent quiet carries
  cases queued : v.queuedOf tx.berth with
  | some q =>
    have some : (workOf tx.berth v).queue ≠ [] := fun none => by simp [queuedOf_none_iff.mpr none] at queued
    rw [BerthBus.placeReturned_queued own stays queued]
    split
    · have form : takePlace tx.berth tx.tag v = { v with path := { v.path with
          queue := v.path.queue.map fun r => if r.berth = tx.berth then ⟨tx.berth, tx.tag⟩ else r } } := by
        simp only [takePlace, queued]
      have work := workOf_takePlace (x := tx.berth) (s := v) tx.tag fits.shape.lengths.2.2
      rw [← form]
      refine (takePlace_work tx.berth tx.tag v).kept ready ?_ fun none => absurd none some
      obtain ⟨list, wait⟩ := fits.shape.apart some
      rw [work]
      refine { fits with shape := ?_, queued := ?_, serving := fun _ => fits.serving some, commanded := fun _ => fits.commanded some }
      · dsimp only; rw [list, wait]; exact .queued _
      · simpa using fits.queued.mpr some
    · exact supersede_kept _ _ ready
  | none =>
    have unqueued := queuedOf_none_iff.mp queued
    cases entry : v.entryOf tx.berth with
    | none =>
      have list := Work.list_nil (entryOf_none_iff.mp entry) open_
      have work := workOf_returnEntry (s := v) ⟨tx.berth, tx.tag, tx.age, .none⟩ list
      rw [BerthBus.placeReturned_fresh own stays queued entry]
      refine (returnEntry_work ⟨tx.berth, tx.tag, tx.age, .none⟩ open_ sent.1 sent.2 quiet).kept ready ?_
        fun none => by rw [work]; exact none
      have added := fits.add (entryOf_none_iff.mp entry) unqueued carries (e := ⟨tx.berth, tx.tag, tx.age, .none⟩) rfl
      rw [Work.add, if_neg fun trimmed => open_ (Work.trimmed_iff.mp trimmed), list] at added
      rw [work]; exact added
    | some e =>
      rw [BerthBus.placeReturned_entry own stays queued entry]
      split
      · exact mergedEntry_kept ready wait sent quiet entry _
      · have same : SameWork v (supersede tx.berth tx.tag v) :=
          .of_eq (supersede_berths _ _ v) (supersede_path _ _ v) (supersede_line _ _ v)
        refine same.andThen ready fun ready => ?_
        refine mergedEntry_kept ready ?_ ?_ ?_ ?_ _
        · rw [same.work]; exact wait
        · rw [supersede_path]; exact sent
        · rw [supersede_line]; exact quiet
        · rw [entryOf_congr_path (supersede_path _ _ v)]; exact entry

theorem placeReturned_kept : Kept s (placeReturned tx (onLine .idle s)) := by
  cases trim : tx.trim with
  | true => exact trimReturned_kept ready line trim
  | false =>
    cases left : tx.left with
    | true =>
      have freed := ended_kept ready line (ended_idle tx) trim
      rw [BerthBus.placeReturned_left trim left]
      exact freed.trans (supersede_kept _ _ freed.ready)
    | false => exact ownReturned_kept ready line trim left

end

theorem abandonSetpoint_kept (x : Nat) (ready : Ready s) : Kept s (abandonSetpoint x s) := by
  have counted := countNoConfirm_kept x ready
  unfold abandonSetpoint; dsimp only
  split
  next tx line => exact counted.trans (placeReturned_kept counted.ready line)
  · exact counted

end Sys2Proof.Machine.SetpointWork
end

