-- ==== Sys2Proof/Proofs/BusEventWork.lean ====
section
/-! Proofs/BusEventWork.lean: the events of the berth bus keep the relation `Ready`, and those of them that put a berth in the start
queue (R27 to R48, R60). -/

namespace Sys2Proof.Machine.SetpointWork

variable {s t u v : State} {x y : Nat}

/-! ## The line passes between holders that are no SETPOINT -/

/-- A holder of the line that is no SETPOINT. -/
def Neutral (l : Line) : Prop := Quiet l ∧ ∀ tx, l ≠ .setpointAck tx

theorem passed_kept {l : Line} (ready : Ready s) (quiet : Quiet s.bus.line) (neutral : Neutral l) (same : SameWork (onLine l s) t) :
    Kept s t :=
  (freeLine_kept ready quiet neutral.1 fun tx ack => absurd ack (neutral.2 tx)).andSame same

theorem quiet_of_open (h : s.lineOpen = true) : Quiet s.bus.line := by
  have idle : s.bus.line = .idle := by simpa using (Bool.and_eq_true_iff.mp h).1
  rw [idle]; simp [Quiet]

/-! ## Surveys (R31 to R38) -/

theorem expireSurveyTimer_kept (ready : Ready s) : Kept s (expireSurveyTimer s) := by
  unfold expireSurveyTimer
  split
  · exact .refl ready
  split
  next held => exact passed_kept (l := .stopSending) ready (by rw [held]; simp [Quiet]) (by simp [Neutral, Quiet]) (.of_eq rfl rfl rfl)
  split
  · exact SameWork.kept (.of_eq rfl rfl rfl) ready
  · exact .refl ready

theorem beginSurvey_kept (ready : Ready s) : Kept s (beginSurvey s) := by
  unfold beginSurvey; split
  next free =>
    exact passed_kept (l := .surveyOpen s.bus.nextKind) ready (quiet_of_open free.1) (by simp [Neutral, Quiet]) (.of_eq rfl rfl rfl)
  · exact .refl ready

theorem nextSlot_kept (k : SurveyKind) (c : Nat) (ready : Ready s) (quiet : Quiet s.bus.line) : Kept s (nextSlot k c s) := by
  unfold nextSlot; dsimp only
  split
  · exact passed_kept (l := .surveySlot k (c + 1) false) ready quiet (by simp [Neutral, Quiet]) (.of_eq rfl rfl rfl)
  · exact passed_kept (l := (beginClose k (closeReceiver s)).bus.line) ready quiet
      (by simp [beginClose, sendFrame, Neutral, Quiet]) (.of_eq rfl rfl rfl)

theorem openSurvey_kept (ready : Ready s) : Kept s (openSurvey s) := by
  unfold openSurvey; split
  next k line =>
    have quiet : Quiet s.bus.line := by rw [line]; simp [Quiet]
    have cleared : SameWork s (if k = .full then { s with bus := { s.bus with recheck := false } } else s) := by
      split
      · exact .of_eq rfl rfl rfl
      · exact .refl s
    exact cleared.andThen ready fun ready => nextSlot_kept k 0 ready (cleared.line ▸ quiet)
  · exact .refl ready

theorem expireSlot_kept (k : SurveyKind) (c : Nat) (corrupt : Bool) (ready : Ready s) : Kept s (expireSlot k c corrupt s) := by
  have marked : SameWork s { s with bus := { s.bus with recheck := true } } := .of_eq rfl rfl rfl
  unfold expireSlot
  split
  · exact marked.andThen ready fun ready => slotOutcome_kept c _ true ready
  · split
    · exact marked.andThen ready fun ready => slotOutcome_kept c _ false ready
    · exact slotOutcome_kept c _ false ready

theorem expireSlotTimer_kept (ready : Ready s) : Kept s (expireSlotTimer s) := by
  unfold expireSlotTimer; split
  next k c corrupt line =>
    have ended := expireSlot_kept k c (corrupt || !s.bus.rx.isEmpty) ready
    exact ended.trans (nextSlot_kept k c ended.ready (ended.quiet (by rw [line]; simp [Quiet])))
  · exact .refl ready

theorem closeSurvey_kept (ready : Ready s) : Kept s (closeSurvey s) := by
  unfold closeSurvey; split
  next line => exact passed_kept (l := .idle) ready (by rw [line]; simp [Quiet]) (by simp [Neutral, Quiet]) (.of_eq rfl rfl rfl)
  · exact .refl ready

theorem answerSlot_kept (body : List Byte) (ready : Ready s) : Kept s (answerSlot body s) := by
  unfold answerSlot; split
  next k c _ line =>
    have quiet : Quiet s.bus.line := by rw [line]; simp [Quiet]
    have met := slotOutcome_kept c 0 false ready
    have reported := met.trans (reportStatus_kept c body met.ready (met.quiet quiet))
    exact reported.trans (nextSlot_kept k c reported.ready (reported.quiet quiet))
  · exact .refl ready

theorem discardFrame_kept (ready : Ready s) : Kept s (discardFrame s) := by
  unfold discardFrame; dsimp only
  split
  next k c _ line =>
    have line : s.bus.line = _ := line
    exact passed_kept (l := .surveySlot k c true) ready (by rw [line]; simp [Quiet]) (by simp [Neutral, Quiet]) (.of_eq rfl rfl rfl)
  · exact SameWork.kept (.of_eq rfl rfl rfl) ready

theorem receiveBytes_kept (bytes : List Byte) (ready : Ready s) : Kept s (receiveBytes bytes s) := by
  unfold receiveBytes; dsimp only
  refine Kept.andSame (t := if busComplete bytes = [] then s else discardFrame s) ?_ (.of_eq rfl rfl rfl)
  split
  · exact .refl ready
  · exact discardFrame_kept ready

/-! ## Pass-through (R44) -/

theorem dequeuePass_kept (ready : Ready s) : Kept s (dequeuePass s) := by
  unfold dequeuePass; split
  · exact .refl ready
  next f rest _ =>
    split
    next free => exact passed_kept (l := .passSending f) ready (quiet_of_open free.1) (by simp [Neutral, Quiet]) (.of_eq rfl rfl rfl)
    · exact .refl ready

theorem idled_line {f : PassFrame} (code : ReplyCode) (body : ReplyBody) (v : State) (freed : SameWork (onLine .idle s) v) :
    SameWork (onLine .idle s) (passReply f code body v) := freed.trans (answer_same_work _ v)

theorem finishPass_kept (ready : Ready s) : Kept s (finishPass s) := by
  unfold finishPass; split
  next f line =>
    have quiet : Quiet s.bus.line := by rw [line]; simp [Quiet]
    split
    · exact passed_kept (l := .passAck f) ready quiet (by simp [Neutral, Quiet]) (.of_eq rfl rfl rfl)
    · exact passed_kept (l := .idle) ready quiet (by simp [Neutral, Quiet]) (idled_line _ _ _ (.of_eq rfl rfl rfl))
  · exact .refl ready

theorem answerPass_kept (body : List Byte) (ready : Ready s) : Kept s (answerPass body s) := by
  unfold answerPass; split
  next line =>
    exact passed_kept (l := .idle) ready (by rw [line]; simp [Quiet]) (by simp [Neutral, Quiet]) (idled_line _ _ _ (.of_eq rfl rfl rfl))
  · exact .refl ready

theorem expirePass_kept (ready : Ready s) : Kept s (expirePass s) := by
  unfold expirePass; split
  next line =>
    exact passed_kept (l := .idle) ready (by rw [line]; simp [Quiet]) (by simp [Neutral, Quiet]) (idled_line _ _ _ (.of_eq rfl rfl rfl))
  · exact .refl ready

/-! ## Enrollment (R45 to R47) -/

theorem sendForget_kept (n : Nat) (ready : Ready s) (quiet : Quiet s.bus.line) : Kept s (sendForget n s) :=
  passed_kept (l := .enrollForget n) ready quiet (by simp [Neutral, Quiet]) (.of_eq rfl rfl rfl)

theorem sendAssign_kept (k n : Nat) (ready : Ready s) (quiet : Quiet s.bus.line) : Kept s (sendAssign k n s) :=
  passed_kept (l := .enrollAssign k n) ready quiet (by simp [Neutral, Quiet]) (.of_eq rfl rfl rfl)

theorem beginEnrollment_kept (ready : Ready s) : Kept s (beginEnrollment s) := by
  unfold beginEnrollment; split
  next free =>
    exact passed_kept (l := .enrollForget 0) ready (by rw [free.1]; simp [Quiet]) (by simp [Neutral, Quiet]) (.of_eq rfl rfl rfl)
  · exact .refl ready

theorem finishForget_kept (ready : Ready s) : Kept s (finishForget s) := by
  unfold finishForget; split
  next line => exact sendAssign_kept 1 0 ready (by rw [line]; simp [Quiet])
  · exact .refl ready

theorem finishAssign_kept (ready : Ready s) : Kept s (finishAssign s) := by
  unfold finishAssign; split
  next k _ line =>
    exact passed_kept (l := .enrollReply k) ready (by rw [line]; simp [Quiet]) (by simp [Neutral, Quiet]) (.of_eq rfl rfl rfl)
  · exact .refl ready

theorem takeReport_joined (k : Nat) (record : Cabinet) (ready : Ready s) (quiet : Quiet s.bus.line) : Joined s (takeReport k record s) := by
  have listed : SameWork s (closeReceiver { s with bus := { s.bus with cabinets := s.bus.cabinets ++ [record] } }) := .of_eq rfl rfl rfl
  have kept := listed.kept ready
  unfold takeReport; dsimp only
  split
  · exact endEnrollment_joined ready quiet
  split
  · exact kept.andThen (endEnrollment_joined kept.ready quiet)
  · exact (kept.trans (sendAssign_kept _ 0 kept.ready quiet)).joined

theorem acceptReport_joined (cabinet : Nat) (body : List Byte) (ready : Ready s) : Joined s (acceptReport cabinet body s) := by
  unfold acceptReport; split
  next taken =>
    have quiet : Quiet s.bus.line := fun tx line => by simp [State.reportTaken, line] at taken
    split
    · exact (Kept.refl ready).joined
    · exact takeReport_joined cabinet _ ready quiet
  · exact (discardFrame_kept ready).joined

theorem expireReply_joined (ready : Ready s) : Joined s (expireReply s) := by
  unfold expireReply; split
  next line => exact endEnrollment_joined ready (by rw [line]; simp [Quiet])
  · exact (Kept.refl ready).joined

theorem retryEnroll_joined (n : Nat) (again : Nat → State → State) (ready : Ready s) (quiet : Quiet s.bus.line)
    (sends : Kept s (again n s)) : Joined s (retryEnroll n again s) := by
  unfold retryEnroll; split
  · exact endEnrollment_joined ready quiet
  · exact sends.joined

/-! ## The echo check (R30) -/

theorem abandonFrame_joined (ready : Ready s) : Joined s (abandonFrame s) := by
  unfold abandonFrame; split
  next tx _ => exact (abandonSetpoint_kept tx.berth ready).joined
  next f line =>
    exact (passed_kept (l := .idle) ready (by rw [line]; simp [Quiet]) (by simp [Neutral, Quiet])
      (idled_line _ _ _ (.of_eq rfl rfl rfl))).joined
  next line =>
    refine Kept.joined ?_
    exact passed_kept (l := .idle) ready (by rw [line]; simp [Quiet]) (by simp [Neutral, Quiet]) (.of_eq rfl rfl rfl)
  next line =>
    refine Kept.joined ?_
    exact passed_kept (l := .idle) ready (by rw [line]; simp [Quiet]) (by simp [Neutral, Quiet]) (.of_eq rfl rfl rfl)
  next n line =>
    have quiet : Quiet s.bus.line := by rw [line]; simp [Quiet]
    exact retryEnroll_joined _ _ ready quiet (sendForget_kept _ ready quiet)
  next k n line =>
    have quiet : Quiet s.bus.line := by rw [line]; simp [Quiet]
    exact retryEnroll_joined _ _ ready quiet (sendAssign_kept k _ ready quiet)
  next line =>
    refine Kept.joined ?_
    exact passed_kept (l := .stopHeld) ready (by rw [line]; simp [Quiet]) (by simp [Neutral, Quiet]) (.of_eq rfl rfl rfl)
  · exact (Kept.refl ready).joined

/-! ## The start-up stop and the start gate (R48, R60) -/

theorem berth_map (f : Berth → Berth) (blank : f Berth.blank = Berth.blank) (s : State) (y : Nat) :
    ({ s with berths := s.berths.map f } : State).berth y = f (s.berth y) := by
  simp only [State.berth, List.getD_eq_getElem?_getD, List.getElem?_map]
  by_cases low : y < s.berths.length
  · simp [low]
  · simp [low, blank]

/-- R48: the part knows that nothing is commanded. -/
theorem stopped_kept (ready : Ready s) (line : s.bus.line = .stopSending) (path : t.path.list = s.path.list)
    (waiting : t.path.waiting = s.path.waiting) (queue : t.path.queue = s.path.queue) (age : t.path.nextAge = s.path.nextAge)
    (free : t.bus.line = .idle) (berths : t.berths = s.berths.map fun b => { b with commanded := 0, confirmed := 0 }) : Kept s t := by
  have quiet : Quiet t.bus.line := by rw [free]; simp [Quiet]
  have berth : ∀ y, t.berth y = { s.berth y with commanded := 0, confirmed := 0 } := fun y =>
    (berth_congr (t := { s with berths := s.berths.map fun b => { b with commanded := 0, confirmed := 0 } }) berths y).trans
      (berth_map _ rfl s y)
  refine ⟨⟨by rw [berths, List.length_map]; exact ready.berths, ?_, ⟨?_, ?_, ?_, ?_, ?_⟩, fun x => ?_⟩, fun y none => ?_, .of_quiet quiet⟩
  · rw [path, age]; exact ready.ages.onLine fun tx sending => absurd sending (quiet tx)
  iterate 5 (rw [free]; simp)
  · have fits := ready.work x
    have work : workOf x t = { workOf x s with line := .idle, berth := { (workOf x s).berth with commanded := 0 } } := by
      simp only [workOf, path, waiting, queue, free, berth]; rfl
    have freed := fits.toLine (l := .idle) (by rintro ⟨tx, sending, -⟩; simp [workOf, line] at sending)
      (fun ⟨tx, on, _⟩ => by rcases on with on | on <;> simp at on) (fun ⟨tx, on, _⟩ => by simp at on) (fun ⟨tx, on, _⟩ => by simp at on)
    rw [work]
    exact { freed with commanded := fun _ _ => rfl }
  · rw [queuedOf_congr queue]; exact none

theorem finishStop_kept (ready : Ready s) : Kept s (finishStop s) := by
  unfold finishStop; split
  next line => exact stopped_kept ready line rfl rfl rfl rfl rfl rfl
  · exact .refl ready

theorem releaseStart_kept (ready : Ready s) : Kept s (releaseStart s) := by
  unfold releaseStart; split
  · exact .refl ready
  next q rest queue =>
    have head : ({ s with path := { s.path with queue := rest } } : State) = removeQueued q.berth s := by
      have once := ready.pathOrdered.queuedOnce
      rw [queue, List.map_cons, List.nodup_cons] at once
      have kept : rest.filter (fun r => decide (r.berth ≠ q.berth)) = rest := List.filter_eq_self.mpr fun r mem => by
        have : r.berth ≠ q.berth := fun same => once.1 (same ▸ List.mem_map_of_mem mem)
        simpa using this
      simp only [removeQueued, queue]
      rw [List.filter_cons, if_neg (by simp), kept]
    have fits := ready.work q.berth
    have queued : (workOf q.berth s).queue ≠ [] := placesFor_ne_nil.mpr ⟨q, by simp [queue], rfl⟩
    have carries := ready.carries_of_serving (fits.serving queued)
    have released : ∀ p : SetpointState, p ≠ .startQueued → Kept s (unqueue q.berth p s) ∧ Kept s (addEntry q.berth q.tag (unqueue q.berth p s)) := by
      intro p out
      have first := unqueue_kept ready out carries.1 fun on => absurd on (fits.queued_quiet queued)
      have work := workOf_unqueue (s := s) p (ready.index carries.1)
      refine ⟨first, first.trans (addEntry_kept first.ready q.tag ?_ (by rw [work]) (by rw [work]; exact carries))⟩
      rw [work]; exact (fits.queued_alone queued).1
    rw [head]
    dsimp only
    split
    · exact (released .active (by simp)).2
    · split
      · exact (released .idle (by simp)).1
      · exact (released .idle (by simp)).2

theorem expireStartSlot_kept (ready : Ready s) : Kept s (expireStartSlot s) := by
  unfold expireStartSlot; split
  · exact (releaseStart_kept ready).andSame (⟨rfl, rfl, rfl, rfl, rfl, rfl, fun _ => rfl⟩)
  · exact .refl ready

end Sys2Proof.Machine.SetpointWork
end

