-- ==== Sys2Proof/Proofs/CommandWork.lean ====
section
/-! Proofs/CommandWork.lean: the supervisor's requests, SERVICE entries and mode changes keep the relation `Ready`, and those of them
that put a berth in the start queue (R5, R6, R22, R24, R49, R58, R157, R174 to R179). -/

namespace Sys2Proof.Machine.SetpointWork

variable {s t u : State} {x y : Nat}

/-! ## Requests (R49, R58) -/

/-- R58: a queued berth with a target keeps its place; one without leaves the queue. -/
theorem carryRequest_queued_joined (ready : Ready s) (tag : Nat) (queued : (s.berth x).setpoint = .startQueued) :
    Joined s (carryRequest x tag s) := by
  have fits := ready.work x
  have some := fits.queued.mp queued
  have serving := fits.serving some
  have carries := ready.carries_of_serving serving
  simp only [carryRequest, queued]
  split
  · refine ⟨joinQueue_ready ready tag serving (fits.commanded some) (fits.queued_quiet some), fun y none some' => ?_⟩
    by_cases own : y = x
    · subst own; exact absurd (queuedOf_none_iff.mp none) some
    · rw [queuedOf_work] at none some'
      rw [(joinQueue_work x tag s).others y own, none] at some'; cases some'
  · have left := leaveQueue_queued_kept ready queued
    have same : ((leaveQueue x s).berth x).configured = (s.berth x).configured ∧
        ((leaveQueue x s).berth x).coupling = (s.berth x).coupling := by
      rw [(leaveQueue_step x s).berth x]; exact ⟨rfl, rfl⟩
    refine (left.trans (requestEntry_kept left.ready tag ?_ ⟨carries.1, ?_⟩)).joined
    · rw [workOf, leaveQueue_queue, placesFor_eq_nil]; simp
    · exact ⟨same.1.trans carries.2.1, fun follower => carries.2.2 (same.2.symm.trans follower)⟩

theorem carryRequest_joined (ready : Ready s) (tag : Nat) (serving : (s.berth x).session = .serving) :
    Joined s (carryRequest x tag s) := by
  have carries := ready.carries_of_serving serving
  cases setpoint : (s.berth x).setpoint with
  | startQueued => exact carryRequest_queued_joined ready tag setpoint
  | active =>
    simp only [carryRequest, setpoint]
    exact (requestEntry_kept ready tag (ready.unqueued (by simp [setpoint])) carries).joined
  | idle =>
    simp only [carryRequest, setpoint]
    split
    next starts => exact joinQueue_joined ready tag ⟨serving, starts.2, starts.1⟩ (by simp [setpoint])
    · exact (requestEntry_kept ready tag (ready.unqueued (by simp [setpoint])) carries).joined

theorem takeSetpointReq_joined (tag : Nat) (body : List Byte) (ready : Ready s) : Joined s (takeSetpointReq x tag body s) := by
  unfold takeSetpointReq; split
  · exact (reply_same_work _ _ _ _ s).joined ready
  next accepted =>
    have serving : (s.berth x).session = .serving := by
      by_contra out
      simp only [State.setpointRefusal, out, ne_eq, not_false_eq_true, or_true, if_true] at accepted
      repeat' split at accepted
      all_goals cases accepted
    have low := ready.index (ready.carries_of_serving serving).1
    have stored : SameWork s (s.editBerth x fun b => { b with request := some (s.requestOf body) }) := .edit fun _ => rfl
    have kept := stored.kept ready
    refine kept.andThen (carryRequest_joined kept.ready tag ?_)
    rw [berth_editBerth_self _ _ low]; exact serving

/-! ## Grants forced to 0, and leaving RUN (R64, R175) -/

theorem zeroGrants_kept (xs : List Nat) (ready : Ready s) : Kept s (zeroGrants xs s) := by
  have zeroed : SameWork s (xs.foldl (fun s x => s.editBerth x fun b => { b with grant := 0 }) s) :=
    SameWork.foldl (fun s x => s.editBerth x fun b => { b with grant := 0 }) (fun s x => .edit fun _ => rfl) xs s
  exact zeroed.andThen ready fun ready => Kept.foldl _ xs (fun x _ t ready => pathGrantZeroed_kept x ready) ready

theorem SameWork.of_map {f : Berth → Berth} (core : ∀ b, coreOf (f b) = coreOf b) (blank : f Berth.blank = Berth.blank) :
    SameWork s { s with berths := s.berths.map f } :=
  ⟨rfl, rfl, rfl, rfl, rfl, List.length_map .., fun y => by rw [berth_map f blank]; exact core _⟩

theorem leaveRun_kept (mode : Mode) (cause : ModeCause) (ready : Ready s) : Kept s (leaveRun mode cause s) := by
  have changed := changeMode_same_work mode cause s
  unfold leaveRun; dsimp only
  generalize changeMode mode cause s = v at changed ⊢
  have stopped : SameWork v { v with alloc := { v.alloc with periodRunning := false } } := .of_eq rfl rfl rfl
  refine (changed.trans stopped).andThen ready fun ready => ?_
  refine Kept.andSame (Kept.andSame (zeroGrants_kept berthNumbers ready) ?_) (.of_reserve (reserveUnavailable_step _ _))
  exact .of_map (fun _ => rfl) rfl

/-! ## SERVICE entries (R165) -/

theorem serviceEntry_joined (pos : EntryPos) {effect : State → State × ReplyCode} (ready : Ready s)
    (joined : ∀ t, Ready t → Joined t (effect t).1) : Joined s (serviceEntry pos effect s) := by
  have taken := (entryTaken_same_work pos s).kept ready
  have done := taken.andThen (joined _ taken.ready)
  refine done.andSame (serviceResult_same_work pos _ _) (.of_berths ?_)
  show (serviceResult pos _ _).berths = _
  unfold serviceResult; dsimp only; split
  · exact reply_berths ..
  · rfl

/-! ## Session commands on their targets (R5, R6, R22, R157) -/

/-- The map entries, as far as the relation reads them, have not changed. -/
def SameMap (s t : State) : Prop :=
  ∀ y, (t.berth y).configured = (s.berth y).configured ∧ (t.berth y).coupling = (s.berth y).coupling

theorem SameMap.trans (h : SameMap s t) (h' : SameMap t u) : SameMap s u := fun y =>
  ⟨(h' y).1.trans (h y).1, (h' y).2.trans (h y).2⟩

theorem SameWork.map (h : SameWork s t) : SameMap s t := fun y =>
  ⟨congrArg BerthCore.configured (h.berth y), congrArg BerthCore.coupling (h.berth y)⟩

theorem SameMap.of_berths (h : t.berths = s.berths) : SameMap s t := fun y => by rw [berth_congr h]; exact ⟨rfl, rfl⟩

theorem SameMap.edit {f : Berth → Berth} (h : ∀ b, (f b).configured = b.configured ∧ (f b).coupling = b.coupling) :
    SameMap s (s.editBerth x f) := fun y =>
  ⟨berth_editBerth_field (·.configured) s x y f fun b => (h b).1, berth_editBerth_field (·.coupling) s x y f fun b => (h b).2⟩

theorem disableBerth_map (x : Nat) (s : State) : SameMap s (disableBerth x s) := by
  unfold disableBerth; dsimp only
  split
  · exact fun y => ⟨rfl, rfl⟩
  refine SameMap.trans ?_ (dissociate_same_work x _).map
  refine SameMap.trans (t := if (s.berth x).session = .serving then leaveServing x .disabled s else zeroTrim x (removeQueued x s)) ?_
    (.edit fun _ => ⟨rfl, rfl⟩)
  split
  · intro y
    rw [berth_leaveServing]; split
    next own => rw [own.1]; exact ⟨rfl, rfl⟩
    · exact ⟨rfl, rfl⟩
  · exact .of_berths (zeroTrim_berths x _)

theorem mem_sessionBerths : x ∈ s.sessionBerths ↔
    x < 36 ∧ (s.berth x).configured = true ∧ (s.berth x).coupling ≠ .follower := by
  simp [State.sessionBerths, berthNumbers, Config.berths, Berth.carriesSession]

/-- The berth a session command names carries a session. -/
theorem sessionTarget_carries {n : Nat} (named : s.sessionTarget n = some x) :
    (s.berth x).configured = true ∧ (s.berth x).coupling ≠ .follower := by
  unfold State.sessionTarget at named
  repeat' split at named
  · cases named
  · unfold State.leaderOf at named
    repeat' split at named
    · cases named
    next leads =>
      cases named
      exact ⟨leads.2.1, by simp [leads.2.2.1]⟩
    · cases named
  next inside own =>
    cases named
    exact ⟨by simpa using (not_or.mp inside).2, own⟩

theorem disableEach_kept (xs : List Nat) (carries : ∀ x ∈ xs, (s.berth x).configured = true ∧ (s.berth x).coupling ≠ .follower)
    (ready : Ready s) : Kept s (xs.foldl (fun s x => disableBerth x s) s) := by
  induction xs generalizing s with
  | nil => exact .refl ready
  | cons x xs ih =>
    obtain ⟨configured, own⟩ := carries x (by simp)
    have first := disableBerth_kept ready (ready.carries configured own)
    refine first.trans (ih (fun y mem => ?_) first.ready)
    have same := disableBerth_map x s y
    rw [same.1, same.2]; exact carries y (by simp [mem])

theorem disableTarget_kept (target : Target) (ready : Ready s) : Kept s (onSessionTarget target disableBerth s).1 := by
  unfold onSessionTarget; split
  · exact disableEach_kept _ (fun x mem => (mem_sessionBerths.mp mem).2) ready
  · split
    · exact .refl ready
    next named =>
      obtain ⟨configured, own⟩ := sessionTarget_carries named
      exact disableBerth_kept ready (ready.carries configured own)

/-- A session command that any berth may have. -/
theorem onSessionTarget_kept {effect : Nat → State → State} (target : Target) (kept : ∀ x t, Ready t → Kept t (effect x t))
    (ready : Ready s) : Kept s (onSessionTarget target effect s).1 := by
  unfold onSessionTarget; split
  · exact Kept.foldl _ _ (fun x _ t => kept x t) ready
  · split
    · exact .refl ready
    · exact kept _ _ ready

theorem clearFaultTarget_kept (target : Target) (ready : Ready s) : Kept s (clearFaultTarget target s).1 := by
  unfold clearFaultTarget; split
  · exact Kept.foldl _ _ (fun x _ t => clearFaults_kept x) ready
  · exact onSessionTarget_kept _ (fun x t => clearPairFaults_kept x) ready

theorem setNoticeEnable_target_same_work (v : Bool) (target : Target) (s : State) :
    SameWork s (onEachRecord target (setNoticeEnable v) s).1 := by
  have one : ∀ s x, SameWork s (setNoticeEnable v x s) := fun s x => .edit fun _ => rfl
  unfold onEachRecord; split
  · exact SameWork.foldl _ one _ s
  · split
    · exact .refl s
    · exact one s _

theorem setClassEnables_same_work (target : Target) (v : Bool) (s : State) : SameWork s (setClassEnables target v s).1 := by
  unfold setClassEnables; split <;> exact .of_eq rfl rfl rfl

theorem setRouting_same_work (target : Target) (v : Bool) (s : State) : SameWork s (setRouting target v s).1 := by
  unfold setRouting; split <;> exact .of_eq rfl rfl rfl

/-! ## Groups (R24) -/

theorem immediateRun_bus (s : State) : (immediateRun s).bus = s.bus := (onlyRun_iff.mp (immediateRun_run s).only).2.2.2.1

theorem setGroupEnables_joined (target : Target) (v : Bool) (ready : Ready s) : Joined s (setGroupEnables target v s).1 := by
  unfold setGroupEnables
  split
  · exact (Kept.refl ready).joined
  dsimp only
  split
  · exact (Kept.refl ready).joined
  generalize List.filter _ _ = changed
  have written : SameWork s (writeGroupEnables changed v s) := .of_eq rfl rfl rfl
  have start := written.kept ready
  generalize writeGroupEnables changed v s = w at start ⊢
  have zeroed : Kept w (if v then w else zeroGrants (w.members changed) w) := by
    split
    · exact .refl start.ready
    · exact zeroGrants_kept _ start.ready
  have run := immediateRun_joined zeroed.ready
  refine (start.trans zeroed).andThen (run.andKept (ageByBerth_kept run.ready ?_) (.of_path (ageByBerth_step _ _)))
  rw [immediateRun_bus]
  exact zeroed.sent start.ready

/-! ## The clock, the day set, runs and buses (R15, R103 to R108, R172) -/

theorem judgeApplication_same_work (s : State) : SameWork s (judgeApplication s).1 := .of_reserve (judgeApplication_step s)

theorem applyTables_same_work (s : State) : SameWork s (applyTables s) := by
  have merged : SameWork s (mergeRuns s) := SameWork.trans (t := editActive (fun _ =>
    s.runs.pending.runs.map fun rec => clearPin (mergedRun (s.recordBus rec) rec (s.run? rec.runId))) s)
    (.of_eq rfl rfl rfl) (.of_table (rederiveAll_table _))
  unfold applyTables; dsimp only
  refine SameWork.trans ?_ (notify_same_work _ _)
  exact merged.trans (.of_eq rfl rfl rfl)

theorem applyDaySet_same_work (s : State) : SameWork s (applyDaySet s).1 :=
  (applyTables_same_work s).trans (judgeApplication_same_work _)

theorem setTime_joined (second : Nat) (ready : Ready s) : Joined s (setTime second s).1 := by
  unfold setTime; split
  · exact (Kept.refl ready).joined
  dsimp only
  have told : SameWork s (newInterval true (dropStamps { s with link := { s.link with second := second, clockSet := true } })) :=
    .of_eq rfl rfl rfl
  have judged := (told.trans (.of_reserve (judgeWindows_step _))).kept ready
  exact judged.andThen (immediateIf_joined _ judged.ready)

theorem applyDayCommand_same_work (s : State) : SameWork s (applyDayCommand s).1 := by
  unfold applyDayCommand; split
  · exact .of_eq rfl rfl rfl
  · exact applyDaySet_same_work s

theorem dissociateBus_same_work (b : Nat) (s : State) : SameWork s (dissociateBus b s) := by
  unfold dissociateBus; split
  · exact .refl s
  · exact dissociate_same_work _ s

theorem deleteBus_same_work (target : Target) (s : State) : SameWork s (deleteBus target s).1 := by
  unfold deleteBus; split
  · exact .refl s
  · split
    · exact .refl s
    · dsimp only
      exact ((dissociateBus_same_work _ s).trans (.of_table (runsLoseBus_table _ _))).trans (editBus_same_work _ _ _)

/-! ## Modes (R45, R173 to R179) -/

theorem enrollCommand_same_work (s : State) : SameWork s (enrollCommand s).1 := by
  unfold enrollCommand; repeat' split
  all_goals exact .of_eq rfl rfl rfl

theorem startRunCommand_joined (ready : Ready s) : Joined s (startRunCommand s).1 := by
  unfold startRunCommand; repeat' split
  · exact (Kept.refl ready).joined
  · exact (Kept.refl ready).joined
  · exact (Kept.refl ready).joined
  · exact enterRun_joined _ ready

theorem commissionCommand_kept (ready : Ready s) : Kept s (commissionCommand s).1 := by
  unfold commissionCommand; split
  · exact .refl ready
  · dsimp only
    exact leaveRun_kept _ _ ready
  · exact (changeMode_same_work _ _ s).kept ready

theorem safeHoldCommand_kept (ready : Ready s) : Kept s (safeHoldCommand s).1 := by
  unfold safeHoldCommand; split
  · exact .refl ready
  · dsimp only
    exact leaveRun_kept _ _ ready
  · exact .refl ready

theorem resumeCommand_joined (ready : Ready s) : Joined s (resumeCommand s).1 := by
  unfold resumeCommand; repeat' split
  · exact (Kept.refl ready).joined
  · exact (Kept.refl ready).joined
  · have settled : SameWork s { s with meter := { s.meter with escalation := 0 } } := .of_eq rfl rfl rfl
    exact (settled.kept ready).andThen (enterRun_joined _ (settled.kept ready).ready)

end Sys2Proof.Machine.SetpointWork
end

