-- ==== Sys2Proof/Proofs/FrameWork.lean ====
section
/-! Proofs/FrameWork.lean: the depot link's frames, the meter's samples, the clock, the periodic run and the resets keep the relation
`Ready`, and those of them that put a berth in the start queue (R43, R49, R69, R72, R131, R136, R140 to R149, R163 to R172, R177,
R179). -/

namespace Sys2Proof.Machine.SetpointWork

variable {s t u : State} {x y : Nat}

/-! ## Frames refused, passed on and answered (R43, R163 to R168) -/

theorem refuseFrame_same_work (party tag : Nat) (refusal : Option ReplyCode) (s : State) :
    SameWork s (refuseFrame party tag refusal s) := by
  unfold refuseFrame; split
  · exact .refl s
  · exact (linkTaken_same_work s).trans (reply_same_work _ _ _ _ _)

theorem takePass_same_work (f : PassFrame) (s : State) : SameWork s (takePass f s) := by
  unfold takePass; split
  · exact reply_same_work _ _ _ _ s
  · exact .of_eq rfl rfl rfl

theorem answerQuery_same_work (tag : Nat) (look : State → Answer) (s : State) : SameWork s (answerQuery tag look s) :=
  (linkTaken_same_work s).trans (reply_same_work _ _ _ _ _)

theorem queryStatusAnswer_same_work (tag index : Nat) (s : State) : SameWork s (queryStatusAnswer tag index s) := by
  unfold queryStatusAnswer; split
  · have cleared : SameWork s (clearLost s) := .of_eq rfl rfl rfl
    exact cleared.trans (reply_same_work _ _ _ _ _)
  all_goals exact reply_same_work _ _ _ _ s

theorem transmit_same_work (s : State) : SameWork s (transmit s) := by
  unfold transmit; repeat' split
  all_goals exact .of_eq rfl rfl rfl

/-! ## Reserve calls (R131, R136) -/

theorem callRequest_joined (tag callId reduction duration : Nat) (ready : Ready s) :
    Joined s (let out := callRequest tag callId reduction duration (linkTaken s); immediateIf out.2 out.1) := by
  have asked := ((linkTaken_same_work s).trans (.of_reserve (callRequest_step tag callId reduction duration _))).kept ready
  exact asked.andThen (immediateIf_joined _ asked.ready)

theorem endRequest_joined (tag callId : Nat) (ready : Ready s) :
    Joined s (let out := endRequest tag callId (linkTaken s); immediateIf out.2 out.1) := by
  have asked := ((linkTaken_same_work s).trans (.of_reserve (endRequest_step tag callId _))).kept ready
  exact asked.andThen (immediateIf_joined _ asked.ready)

theorem expireCall_joined (ready : Ready s) : Joined s (expireCall s) := by
  unfold expireCall; split
  · exact (SameWork.of_reserve (endCall_step _ _ ReserveStep.refl s)).thenRun ready
  · exact (Kept.refl ready).joined

/-! ## Tables (R3, R14, R23, R105, R117, R125, R167) -/

theorem takeEntries_same_work {α : Type} (take : α → State → State × ReplyCode) (one : ∀ e s, SameWork s (take e s).1)
    (l : List α) (s : State) : SameWork s (takeEntries take l s).1 :=
  takeEntries_inv SameWork take .refl (fun _ _ _ h h' => h.trans h') one l s

theorem answerEntries_same_work {α : Type} (tag : Nat) (take : α → State → State × ReplyCode) (one : ∀ e s, SameWork s (take e s).1)
    (l : List α) (s : State) : SameWork s (answerEntries tag (takeEntries take l s)) :=
  (takeEntries_same_work take one l s).trans (reply_same_work _ _ _ _ _)

theorem takeGroupEntry_same_work (e : GroupEntry) (s : State) : SameWork s (takeGroupEntry e s).1 := by
  unfold takeGroupEntry; split <;> exact .of_eq rfl rfl rfl

theorem takeParam_same_work (e : ParamEntry) (s : State) : SameWork s (takeParam e s).1 := by
  unfold takeParam; split <;> exact .of_eq rfl rfl rfl

theorem takeRunEntry_same_work (e : RunEntry) (s : State) : SameWork s (takeRunEntry e s).1 := by
  unfold takeRunEntry; dsimp only; repeat' split
  all_goals exact .of_eq rfl rfl rfl

theorem takeDemandEntry_same_work (e : DemandEntry) (s : State) : SameWork s (takeDemandEntry e s).1 := by
  unfold takeDemandEntry; dsimp only; repeat' split
  all_goals exact .of_eq rfl rfl rfl

theorem takeReserveEntry_same_work (e : ReserveEntry) (s : State) : SameWork s (takeReserveEntry e s).1 := by
  unfold takeReserveEntry; dsimp only; repeat' split
  all_goals exact .of_eq rfl rfl rfl

theorem loadGroups_joined (tag : Nat) (entries : List GroupEntry) (ready : Ready s) : Joined s (loadGroups tag entries s) := by
  have loaded := (answerEntries_same_work tag takeGroupEntry takeGroupEntry_same_work entries s).kept ready
  exact loaded.andThen (immediateIf_joined _ loaded.ready)

theorem writeBus_same_work (e : FleetEntry) (s : State) : SameWork s (writeBus e s) := by
  unfold writeBus; dsimp only
  split
  · exact editBus_same_work _ _ s
  split
  · exact editBus_same_work _ _ s
  · refine SameWork.trans ?_ (editBus_same_work _ _ _)
    split
    · exact .refl s
    · exact dissociate_same_work _ s

theorem loadFleet_same_work (tag : Nat) (e : FleetEntry) (s : State) : SameWork s (loadFleet tag e s) := by
  unfold loadFleet; split
  · exact reply_same_work _ _ _ _ s
  · exact (writeBus_same_work e s).trans (reply_same_work _ _ _ _ _)

theorem loadCold_same_work (tag : Nat) (points : List ColdPoint) (s : State) : SameWork s (loadCold tag points s) := by
  have edited : SameWork s (editPending (fun q => { q with cold := points }) s) := .of_eq rfl rfl rfl
  unfold loadCold; split
  · exact reply_same_work _ _ _ _ s
  split
  · exact reply_same_work _ _ _ _ s
  · exact edited.trans (reply_same_work _ _ _ _ _)

/-! ## The clock, the tick and the periodic run (R69, R72, R171) -/

theorem endDay_same_work (s : State) : SameWork s (endDay s).1 := by
  have closed : SameWork s (closeDay s) := .of_table (closeDay_table s)
  unfold endDay; dsimp only
  refine SameWork.trans ?_ (notify_same_work _ _)
  refine SameWork.trans ?_ (.of_table (renewRuns_table _))
  split
  · exact closed.trans (applyDaySet_same_work _)
  · exact closed

theorem runAdvance_same_work (s : State) : SameWork s (runAdvance s).1 := by
  have resolved : SameWork s (resolveRuns s) := .of_table (resolveRuns_table s)
  unfold runAdvance; dsimp only; split
  · exact resolved.trans (endDay_same_work _)
  · exact resolved

theorem advanceInterval_same_work (s : State) : SameWork s (advanceInterval s) := by
  have closed : SameWork s (closeInterval s) := by unfold closeInterval; split <;> exact .of_eq rfl rfl rfl
  unfold advanceInterval; dsimp only; split
  · refine closed.trans ?_
    split <;> exact .of_eq rfl rfl rfl
  · exact .refl s

theorem advanceClock_joined (ready : Ready s) : Joined s (advanceClock s) := by
  have moved : SameWork s { s with link := { s.link with second := nextSecond s.link.second } } := .of_eq rfl rfl rfl
  unfold advanceClock; dsimp only
  split
  · have judged := (((moved.trans (runAdvance_same_work _)).trans (advanceInterval_same_work _)).trans
      (.of_reserve (judgeWindows_step _))).kept ready
    exact judged.andThen (immediateIf_joined _ judged.ready)
  · exact moved.joined ready

theorem tickAll_same_work (s : State) : SameWork s (tickAll s) := by
  rw [tickAll_eq]
  have ticked : SameWork s { s with berths := s.berths.map Berth.tick } := .of_map (fun _ => rfl) rfl
  exact ticked.trans (.of_eq rfl rfl rfl)

theorem expireRequest_same_work (x : Nat) (s : State) : SameWork s (expireRequest x s) := by
  unfold expireRequest; split
  · exact .edit fun _ => rfl
  · exact .refl s

theorem stageZero_same_work (s : State) : SameWork s (stageZero s) := by
  have applied : SameWork s (if s.runs.pending.armed then (applyDaySet s).1 else s) := by
    split
    · exact applyDaySet_same_work s
    · exact .refl s
  exact (applied.trans (.of_table (assignRuns_table _))).trans (.of_table (swapRuns_table _))

theorem periodicAllocation_joined (ready : Ready s) : Joined s (periodicAllocation s) := by
  have staged := ((stageZero_same_work s).trans (.of_reserve (reboundStep_step _))).kept ready
  exact staged.andThen (allocationRun_joined _ staged.ready)

/-! ## The meter (R140 to R149) -/

theorem accountSample_same_work (power : Int) (s : State) : SameWork s (accountSample power s) := by
  have demand : SameWork s (accountDemand power s) := by unfold accountDemand; split <;> exact .of_eq rfl rfl rfl
  unfold accountSample; split
  · exact demand.trans (.of_reserve (accountCall_step _ _))
  · exact .refl s

theorem feedRing_same_work (power : Int) (s : State) : SameWork s (feedRing power s) := by
  rw [feedRing_only]; exact .of_eq rfl rfl rfl

theorem normalSample_same_work (power : Int) (s : State) : SameWork s (normalSample power s).1 := by
  unfold normalSample; dsimp only
  generalize (if s.meter.overCount = 0 then power - s.feederLimit else max s.meter.overExcess (power - s.feederLimit)) = excess
  repeat' split
  · refine SameWork.trans ?_ (notify_same_work _ _)
    exact .of_eq rfl rfl rfl
  · exact .of_eq rfl rfl rfl
  · exact .of_eq rfl rfl rfl

theorem escalate_kept (ready : Ready s) : Kept s (escalate s) := by
  unfold escalate; repeat' split
  · have settled : SameWork s { s with meter := { s.meter with escalation := 0 } } := .of_eq rfl rfl rfl
    exact settled.andThen ready (leaveRun_kept .safeHold .overrun)
  · exact SameWork.kept (.of_eq rfl rfl rfl) ready
  · exact .refl ready

theorem overrunSample_kept (power : Int) (ready : Ready s) : Kept s (overrunSample power s) := by
  have metered : ∀ m : Meter, SameWork s { s with meter := m } := fun m => .of_eq rfl rfl rfl
  unfold overrunSample; dsimp only; repeat' split
  · exact (metered _).andThen ready escalate_kept
  · exact ((metered _).trans (notify_same_work _ _)).kept ready
  · exact (metered _).andThen ready escalate_kept

theorem overrunImport_kept (power : Int) (ready : Ready s) : Kept s (overrunImport power s).1 := by
  unfold overrunImport; repeat' split
  · exact (normalSample_same_work power s).kept ready
  · exact overrunSample_kept power ready
  · exact .refl ready

theorem acceptSample_joined (sample : MeterSample) (ready : Ready s) : Joined s (acceptSample sample s) := by
  have moved : SameWork s { s with meter := acceptMove (s.meter.accept sample s.now) } := .of_eq rfl rfl rfl
  have fed := ((moved.trans (accountSample_same_work sample.power _)).trans (feedRing_same_work sample.power _)).kept ready
  have imported := fed.trans (overrunImport_kept sample.power fed.ready)
  have reported := (imported.andSame (.of_reserve (reportMeter_step s.meterValid _))).andSame
    (.of_reserve (frequencySample_step sample.frequency _))
  exact reported.andThen (immediateIf_joined _ reported.ready)

theorem missSample_joined (ready : Ready s) : Joined s (missSample s) := by
  unfold missSample; split
  · have missed : SameWork s { s with meter := missMove s.meter } := .of_eq rfl rfl rfl
    have told := missed.trans (.of_reserve (reportMeter_step s.meterValid _))
    dsimp only
    generalize reportMeter s.meterValid { s with meter := missMove s.meter } = report at told ⊢
    have accounted := (told.trans (accountSample_same_work (report.1.meter.power.getD 0) _)).kept ready
    exact accounted.andThen (immediateIf_joined _ accounted.ready)
  · exact (Kept.refl ready).joined

/-! ## Resets (R2, R48, R177, R179) -/

/-- The Setpoint Path as a reset leaves it: no work, and the stop on the line. -/
structure Cleared (s : State) : Prop where
  berths : s.berths.length = 36
  list : s.path.list = []
  waiting : s.path.waiting = []
  queue : s.path.queue = []
  line : s.bus.line = .stopSending
  idle : ∀ y, (s.berth y).setpoint ≠ .startQueued
  carries : ∀ y, (s.berth y).session = .unconfigured ∨ (s.berth y).session = .follower ∨
    ((s.berth y).configured = true ∧ (s.berth y).coupling ≠ .follower)

theorem Cleared.ready (h : Cleared s) : Ready s := by
  refine ⟨h.berths, ?_, ?_, fun x => ?_⟩
  · rw [h.list, h.line]; exact ⟨.nil, by simp, by simp⟩
  · rw [h.line]; exact ⟨by simp, by simp, by simp, by simp, by simp⟩
  · have work : workOf x s = ⟨[], [], [], coreOf (s.berth x), .stopSending⟩ := by
      simp only [workOf, h.list, h.waiting, h.queue, h.line]; rfl
    rw [work]
    exact { shape := .none, low := by simp, own := by simp, queued := by simpa [coreOf] using h.idle x, serving := by simp
            commanded := by simp, attached := by simp [Line.Attached], raises := by simp [Line.Raises]
            writes := by simp [Line.WritesAlso], carries := h.carries x }

theorem Cleared.joined (h : Cleared t) : Joined s t :=
  ⟨h.ready, fun y _ some => by simp [State.queuedOf, h.queue] at some⟩

theorem afterFullReset_cleared (straps : Straps) (pending : List Instr) :
    Cleared { State.afterFullReset straps with pending := pending } := by
  have blank : ∀ y, ({ State.afterFullReset straps with pending := pending } : State).berth y = Berth.blank := fun y => by
    simp [State.berth, State.afterFullReset, List.getD_eq_getElem?_getD, List.getElem?_replicate]
    split <;> rfl
  exact ⟨List.length_replicate .., rfl, rfl, rfl, rfl, fun y => by rw [blank]; simp [Berth.blank],
    fun y => by rw [blank]; exact .inl rfl⟩

theorem restartInterval_same_work (s : State) : SameWork s (restartInterval (restartRuns (restartReserve s))) := by
  have closed : SameWork s (restartReserve s) := by
    unfold restartReserve; dsimp only; split
    · exact .of_eq rfl rfl rfl
    · exact (SameWork.of_reserve (closeCall_step _ .restart none s)).trans (.of_eq rfl rfl rfl)
  refine (closed.trans (.of_table (restartRuns_table _))).trans ?_
  unfold restartInterval; split <;> exact .of_eq rfl rfl rfl

theorem restarted_carries (b : Berth) : b.restarted.session = .unconfigured ∨ b.restarted.session = .follower ∨
    (b.restarted.configured = true ∧ b.restarted.coupling ≠ .follower) := by
  unfold Berth.restarted; dsimp only
  by_cases configured : b.configured = false
  · exact .inl (if_pos configured)
  · rw [if_neg configured]
    by_cases follower : b.coupling = .follower
    · exact .inr (.inl (if_pos follower))
    · exact .inr (.inr ⟨by simpa using configured, follower⟩)

theorem restartState_cleared (ready : Ready s) : Cleared (restartState s) := by
  have same := restartInterval_same_work s
  unfold restartState; dsimp only
  generalize restartInterval (restartRuns (restartReserve s)) = v at same ⊢
  have berth := berth_map Berth.restarted rfl v
  refine ⟨(List.length_map ..).trans (same.length.trans ready.berths), rfl, rfl, rfl, rfl, fun y => ?_, fun y => ?_⟩
  · show (({ v with berths := v.berths.map Berth.restarted } : State).berth y).setpoint ≠ .startQueued
    rw [berth]; simp [Berth.restarted, Berth.blank]
  · show (({ v with berths := v.berths.map Berth.restarted } : State).berth y).session = .unconfigured ∨ _
    exact berth y ▸ restarted_carries (v.berth y)

theorem restartCommand_joined (pos : EntryPos) (ready : Ready s) : Joined s (restartCommand pos s) := by
  have cleared := restartState_cleared ready
  unfold restartCommand; dsimp only
  generalize restartState s = v at cleared ⊢
  have same : SameWork v { v with link := { v.link with results := [] } } := .of_eq rfl rfl rfl
  exact (cleared.joined.andSame same (.of_berths rfl)).andSame (reply_same_work _ _ _ _ _)
    (.of_berths (reply_berths ..))

end Sys2Proof.Machine.SetpointWork
end

