-- ==== Sys2Proof/Proofs/SetpointOrder.lean ====
section
/-! Proofs/SetpointOrder.lean: every step keeps the setpoint path in order (R3, R54, R59). -/

namespace Sys2Proof.Machine.SetpointWork

variable {s t u : State} {x y : Nat}

/-! ## One command -/

/-- The relation holds behind a command, and the berths that it has put in the start queue are those R59 names. -/
def Orderly (out : Host.Outcome State Fault Refusal) (s : State) : Prop := ∀ t, out = .next t → Joined s t

theorem orderly_running {effect : State → State} (ready : Ready s) (joined : ∀ s, Ready s → Joined s (effect s)) :
    Orderly (whileRunning effect s) s := by
  rintro t out
  unfold whileRunning at out
  cases out
  split
  · exact (Kept.refl ready).joined
  · exact joined s ready

/-- A command that may do what keeps the relation and puts no berth in the queue. -/
theorem orderly_kept {effect : State → State} (ready : Ready s) (kept : ∀ s, Ready s → Kept s (effect s)) :
    Orderly (whileRunning effect s) s := orderly_running ready fun s ready => (kept s ready).joined

/-- A command that changes nothing the relation reads. -/
theorem orderly_same {effect : State → State} (ready : Ready s) (same : ∀ s, SameWork s (effect s)) :
    Orderly (whileRunning effect s) s := orderly_running ready fun s ready => (same s).joined ready

/-- A frame answered once its bytes have been taken. -/
theorem orderly_frame {effect : State → State} (ready : Ready s) (joined : ∀ s, Ready s → Joined s (effect s)) :
    Orderly (whileRunning (fun s => effect (linkTaken s)) s) s := orderly_running ready fun s ready =>
  have taken := (linkTaken_same_work s).kept ready
  taken.andThen (joined _ taken.ready)

theorem orderly_frame_same {effect : State → State} (ready : Ready s) (same : ∀ s, SameWork s (effect s)) :
    Orderly (whileRunning (fun s => effect (linkTaken s)) s) s :=
  orderly_frame ready fun s ready => (same s).joined ready

/-- A SERVICE entry. -/
theorem orderly_entry (pos : EntryPos) {effect : State → State × ReplyCode} (ready : Ready s)
    (joined : ∀ s, Ready s → Joined s (effect s).1) : Orderly (whileRunning (serviceEntry pos effect) s) s :=
  orderly_running ready fun _ ready => serviceEntry_joined pos ready joined

theorem orderly_entry_kept (pos : EntryPos) {effect : State → State × ReplyCode} (ready : Ready s)
    (kept : ∀ s, Ready s → Kept s (effect s).1) : Orderly (whileRunning (serviceEntry pos effect) s) s :=
  orderly_entry pos ready fun s ready => (kept s ready).joined

theorem orderly_entry_same (pos : EntryPos) {effect : State → State × ReplyCode} (ready : Ready s)
    (same : ∀ s, SameWork s (effect s).1) : Orderly (whileRunning (serviceEntry pos effect) s) s :=
  orderly_entry pos ready fun s ready => (same s).joined ready

/-- A bus frame that a slot or window takes has its effect; any other is discarded. -/
theorem orderly_taken {taken : State → Bool} {effect : State → State} (ready : Ready s) (kept : ∀ s, Ready s → Kept s (effect s)) :
    Orderly (whileRunning (fun s => if taken s then effect s else discardFrame s) s) s :=
  orderly_kept ready fun s ready => by
    split
    · exact kept s ready
    · exact discardFrame_kept ready

/-- The depot link's framer hunts again (R163). -/
def framerLeft (gap : Bool) (bytes : List Byte) (s : State) : State :=
  { s with link := { s.link with rx := linkRehunt gap s.link.rx bytes } }

theorem exec_orderly (c : Instr) (ready : Ready s) : Orderly (exec c s) s := by
  cases c with
  | fullReset => rintro t ⟨⟩; exact (afterFullReset_cleared _ _).joined
  | resetPinAsserted => rintro t ⟨⟩; exact SameWork.joined (.of_eq rfl rfl rfl) ready
  | linkFrameGapAbandon bytes => exact orderly_same (effect := framerLeft true bytes) ready fun _ => .of_eq rfl rfl rfl
  | linkFrameDropped bytes => exact orderly_same (effect := framerLeft false bytes) ready fun _ => .of_eq rfl rfl rfl
  | depotFrameRefused | serviceFrameRefused | tableFrameRefused => exact orderly_same ready (refuseFrame_same_work _ _ _)
  | setpointReq berth tag body => exact orderly_frame ready fun _ => takeSetpointReq_joined tag body
  | pass => exact orderly_frame_same ready (takePass_same_work _)
  | serviceNoop pos | serviceUnknownCommand pos => exact orderly_entry_same pos ready SameWork.refl
  | berthEnableSet pos target =>
    exact orderly_entry_kept pos ready fun _ => onSessionTarget_kept target fun x _ => enableBerth_kept x
  | berthEnableClear pos target => exact orderly_entry_kept pos ready fun _ => disableTarget_kept target
  | doneClear pos target =>
    exact orderly_entry_kept pos ready fun _ => onSessionTarget_kept target fun x t => (clearDone_same_work x t).kept
  | noticeEnableSet pos target | noticeEnableClear pos target =>
    exact orderly_entry_same pos ready (setNoticeEnable_target_same_work _ target)
  | classEnableSet pos target | classEnableClear pos target => exact orderly_entry_same pos ready (setClassEnables_same_work target _)
  | alertRouteSet pos target | alertRouteClear pos target => exact orderly_entry_same pos ready (setRouting_same_work target _)
  | faultClear pos target => exact orderly_entry_kept pos ready fun _ => clearFaultTarget_kept target
  | groupEnableSet pos target | groupEnableClear pos target => exact orderly_entry pos ready fun _ => setGroupEnables_joined target _
  | timeSet pos second => exact orderly_entry pos ready fun _ => setTime_joined second
  | applyDay pos => exact orderly_entry_same pos ready applyDayCommand_same_work
  | pendingClear pos => exact orderly_entry_same pos ready fun _ => .of_eq rfl rfl rfl
  | runAssign pos runId bus pin => exact orderly_entry_same pos ready fun s => .of_table (assignCommand_table runId bus pin s)
  | runCancel pos runId => exact orderly_entry_same pos ready fun s => .of_table (cancelCommand_table runId s)
  | fleetDelete pos target => exact orderly_entry_same pos ready (deleteBus_same_work target)
  | enroll pos => exact orderly_entry_same pos ready enrollCommand_same_work
  | startRun pos => exact orderly_entry pos ready fun _ => startRunCommand_joined
  | enterCommission pos => exact orderly_entry_kept pos ready fun _ => commissionCommand_kept
  | safeHold pos => exact orderly_entry_kept pos ready fun _ => safeHoldCommand_kept
  | resume pos => exact orderly_entry pos ready fun _ => resumeCommand_joined
  | restart pos =>
    exact orderly_running ready fun s ready =>
      have taken := (entryTaken_same_work pos s).kept ready
      taken.andThen (restartCommand_joined pos taken.ready)
  | berthMap tag entries => exact orderly_frame ready fun _ ready => (loadMap_kept tag entries ready).joined
  | group tag entries => exact orderly_frame ready fun _ => loadGroups_joined tag entries
  | fleet tag entry => exact orderly_frame_same ready (loadFleet_same_work tag entry)
  | params tag entries => exact orderly_frame_same ready (answerEntries_same_work tag _ takeParam_same_work entries)
  | runPending tag entries => exact orderly_frame_same ready (answerEntries_same_work tag _ takeRunEntry_same_work entries)
  | coldPending tag points => exact orderly_frame_same ready (loadCold_same_work tag points)
  | demandPending tag entries => exact orderly_frame_same ready (answerEntries_same_work tag _ takeDemandEntry_same_work entries)
  | reservePending tag entries => exact orderly_frame_same ready (answerEntries_same_work tag _ takeReserveEntry_same_work entries)
  | queryStatus tag index => exact orderly_frame_same ready (queryStatusAnswer_same_work tag index)
  | queryBerth tag | queryBus tag | queryRun tag | queryGroups tag | queryCalls tag | queryDemand tag =>
    exact orderly_same ready (answerQuery_same_work tag _)
  | reserveCall tag callId reduction duration => exact orderly_running ready fun _ => callRequest_joined tag callId reduction duration
  | reserveEnd tag callId => exact orderly_running ready fun _ => endRequest_joined tag callId
  | upstreamTransmit => exact orderly_same ready transmit_same_work
  | clockAdvance => exact orderly_running ready fun _ => advanceClock_joined
  | oneSecondTick => exact orderly_same ready tickAll_same_work
  | requestLifetimeExpiry berth => exact orderly_same ready (expireRequest_same_work berth)
  | callDurationExpiry => exact orderly_running ready fun _ => expireCall_joined
  | periodicRun =>
    refine orderly_running (effect := fun s => if s.alloc.periodRunning ∧ s.ctl.mode = .run then periodicAllocation s else s) ready
      fun s ready => ?_
    split
    · exact periodicAllocation_joined ready
    · exact (Kept.refl ready).joined
  | startSlotExpiry => exact orderly_kept ready fun _ => expireStartSlot_kept
  | surveyTimerExpiry => exact orderly_kept ready fun _ => expireSurveyTimer_kept
  | surveyStart => exact orderly_kept ready fun _ => beginSurvey_kept
  | surveyOpenSent => exact orderly_kept ready fun _ => openSurvey_kept
  | slotTimerExpiry => exact orderly_kept ready fun _ => expireSlotTimer_kept
  | closeSent => exact orderly_kept ready fun _ => closeSurvey_kept
  | status cabinet body => exact orderly_taken (taken := (·.statusTaken cabinet body)) ready fun _ => answerSlot_kept body
  | berthBusFrameDiscarded bytes =>
    refine orderly_kept (effect := fun s => if s.frameTaken bytes then s else receiveBytes bytes s) ready fun s ready => ?_
    split
    · exact .refl ready
    · exact receiveBytes_kept bytes ready
  | setpointDequeue => exact orderly_running ready fun _ => dequeueSetpoint_joined
  | setpointSent => exact orderly_running ready fun _ => finishSetpoint_joined
  | ack cabinet body => exact orderly_taken (taken := (·.ackTaken cabinet body)) ready fun _ => acceptAck_kept body
  | ackWindowExpiry => exact orderly_kept ready fun _ => expireAck_kept
  | echoMismatch => exact orderly_running ready fun _ => abandonFrame_joined
  | passDequeue => exact orderly_kept ready fun _ => dequeuePass_kept
  | passSent => exact orderly_kept ready fun _ => finishPass_kept
  | passAnswer cabinet body => exact orderly_taken (taken := (·.passTaken cabinet)) ready fun _ => answerPass_kept body
  | passAckWindowExpiry => exact orderly_kept ready fun _ => expirePass_kept
  | enrollLineTaken => exact orderly_kept ready fun _ => beginEnrollment_kept
  | enrollForgetSent => exact orderly_kept ready fun _ => finishForget_kept
  | enrollAssignSent => exact orderly_kept ready fun _ => finishAssign_kept
  | enrollReport cabinet body => exact orderly_running ready fun _ => acceptReport_joined cabinet body
  | enrollReplyWindowExpiry => exact orderly_running ready fun _ => expireReply_joined
  | stopSent => exact orderly_kept ready fun _ => finishStop_kept
  | meterFrameGapAbandon | meterFrameCrcFail | meterSampleInvalidFlag | meterSampleDuplicate =>
    exact orderly_same ready fun _ => .of_eq rfl rfl rfl
  | meterSampleAccepted sample =>
    refine orderly_running (effect := fun s => if s.meter.lastSequence = some sample.sequence then s else acceptSample sample s) ready
      fun s ready => ?_
    split
    · exact (Kept.refl ready).joined
    · exact acceptSample_joined sample ready
  | sampleTimerExpiry => exact orderly_running ready fun _ => missSample_joined

/-! ## One step -/

theorem step_orderly (ready : Ready s) : Orderly (step s) s := by
  unfold step; split
  · rintro t ⟨⟩; exact (Kept.refl ready).joined
  next c rest _ =>
    have taken : SameWork s { s with pending := rest } := .of_eq rfl rfl rfl
    exact fun t out => (taken.kept ready).andThen (exec_orderly c (taken.kept ready).ready t out)

/-! ## How much work there can be -/

/-- Numbers below 36, each at most once, are at most 36. -/
theorem length_le_berths {α : Type} (f : α → Nat) {l : List α} (once : (l.map f).Nodup) (low : ∀ a ∈ l, f a < 36) : l.length ≤ 36 := by
  have sub : l.map f ⊆ List.range 36 := fun n mem => by
    obtain ⟨a, held, rfl⟩ := List.mem_map.mp mem
    exact List.mem_range.mpr (low a held)
  simpa using (once.subperm sub).length_le

theorem Ready.lengths (ready : Ready s) : s.path.queue.length ≤ 36 ∧ s.path.list.length ≤ 36 ∧ s.path.waiting.length ≤ 36 := by
  have path := ready.pathOrdered
  exact ⟨length_le_berths _ path.queuedOnce fun q mem => (ready.carries_of_serving (path.serving q mem)).1,
    length_le_berths _ path.once path.berth, length_le_berths _ path.waitingOnce fun w mem => (path.waits w mem).2.1⟩

/-- Settles O7: the relation, with what R3 and R11 say of the sessions, is kept by every command, and only the joins of R59 put a
berth in the start queue. -/
theorem setpointPathStaysOrdered : Obligations.SetpointPathStaysOrdered := by
  unfold Obligations.SetpointPathStaysOrdered
  refine ⟨fun s t granted path stepped => ?_, fun s granted path => (ready_of_granted granted path).lengths⟩
  have joined := step_orderly (ready_of_granted granted path) t stepped
  exact ⟨joined.ready.pathOrdered, joined.joins⟩

end Sys2Proof.Machine.SetpointWork
end

