-- ==== Sys2Proof/Proofs/RunReadings.lean ====
section
/-! Proofs/RunReadings.lean: the stages of an allocation run read the state as the run found it (R71 to R82): what stage 1 writes,
the two energies of each bus and DONE of each served berth, is read by none of them but pass 3, which reads DONE. -/

namespace Sys2Proof.Machine

variable {s t u a : State}

/-! ## What a run leaves of the readings -/

section
variable (h : RunStep u a)
include h

theorem RunStep.ctl : a.ctl = u.ctl := (onlyRun_iff.mp h.only).2.1
theorem RunStep.meter : a.meter = u.meter := (onlyRun_iff.mp h.only).2.2.2.2.1
theorem RunStep.groups : a.groups = u.groups := (onlyRun_iff.mp h.only).2.2.2.2.2.1
theorem RunStep.link : a.link = { u.link with fifo := a.link.fifo, answerLost := a.link.answerLost } :=
  (onlyRun_iff.mp h.only).2.2.1
theorem RunStep.clockSet : a.link.clockSet = u.link.clockSet := by rw [h.link]
theorem RunStep.now : a.now = u.now := by unfold State.now; rw [h.link]
theorem RunStep.stampedSecond : a.stampedSecond = u.stampedSecond := by unfold State.stampedSecond; rw [h.link]
theorem RunStep.param (id : Nat) : a.param id = u.param id := by unfold State.param; rw [h.link]
theorem RunStep.inRun : a.inRun = u.inRun := by unfold State.inRun; rw [h.ctl]
theorem RunStep.meterValid : a.meterValid = u.meterValid := by unfold State.meterValid; rw [h.meter]
theorem RunStep.groupEntry (g : Nat) : a.groupEntry g = u.groupEntry g := by unfold State.groupEntry; rw [h.groups]

/-- The fields of a berth record that stage 1 reads. -/
theorem RunStep.record (x : Nat) : (a.berth x).configured = (u.berth x).configured ∧ (a.berth x).session = (u.berth x).session ∧
    (a.berth x).coupling = (u.berth x).coupling ∧ (a.berth x).partner = (u.berth x).partner ∧
    (a.berth x).group = (u.berth x).group ∧ (a.berth x).bus = (u.berth x).bus ∧ (a.berth x).soc = (u.berth x).soc ∧
    (a.berth x).plug = (u.berth x).plug ∧ (a.berth x).measured = (u.berth x).measured ∧
    (a.berth x).hwCharge = (u.berth x).hwCharge ∧ (a.berth x).acceptMax = (u.berth x).acceptMax ∧
    (a.berth x).hwDischarge = (u.berth x).hwDischarge := by
  rw [h.berth x]; exact ⟨rfl, rfl, rfl, rfl, rfl, rfl, rfl, rfl, rfl, rfl, rfl, rfl⟩

/-- The fields of a bus record that the stages read: the two energies are not among them. -/
theorem RunStep.slot (b : Nat) : (a.fleetBus b).used = (u.fleetBus b).used ∧ (a.fleetBus b).capacity = (u.fleetBus b).capacity ∧
    (a.fleetBus b).rate = (u.fleetBus b).rate ∧ (a.fleetBus b).arrivalFloor = (u.fleetBus b).arrivalFloor ∧
    (a.fleetBus b).maxCharge = (u.fleetBus b).maxCharge ∧ (a.fleetBus b).permitted = (u.fleetBus b).permitted ∧
    (a.fleetBus b).dischargeMax = (u.fleetBus b).dischargeMax ∧ (a.fleetBus b).stored = (u.fleetBus b).stored ∧
    (a.fleetBus b).stamp = (u.fleetBus b).stamp := by
  rw [h.bus b]; exact ⟨rfl, rfl, rfl, rfl, rfl, rfl, rfl, rfl, rfl⟩

theorem RunStep.followerOf (x : Nat) : a.followerOf x = u.followerOf x :=
  followerOf_congr (fun y => by simp only [h.record y, and_self]) x

theorem RunStep.chargeCap (x : Nat) : a.chargeCap x = u.chargeCap x := by
  simp only [State.chargeCap, State.pairNat, State.guestCap, h.followerOf, h.record, h.param]

theorem RunStep.dischargeCap (x : Nat) : a.dischargeCap x = u.dischargeCap x := by
  simp only [State.dischargeCap, State.pairNat, h.followerOf, h.record, h.slot]

theorem RunStep.fresh (b : Nat) : a.fresh b = u.fresh b := by simp only [State.fresh, h.slot, h.now]

theorem RunStep.siteLoad : a.siteLoad = u.siteLoad := by
  simp only [State.siteLoad, State.fallbackLoad, h.record, h.param, h.meter, h.meterValid]

theorem RunStep.servedBerths : a.servedBerths = u.servedBerths := by
  simp only [State.servedBerths, Berth.carriesSession, h.record]

end

/-! ## States that read alike -/

/-- `a` is `u` as the first stage of a run may have left it: with the run table, the accounts and the Reserve Unit as they were. -/
structure ReadsAlike (u a : State) : Prop where
  run : RunStep u a
  runs : a.runs = u.runs
  storage : a.storage = u.storage
  reserve : a.reserve = u.reserve

theorem ReadsAlike.refl (u : State) : ReadsAlike u u := ⟨.refl u, rfl, rfl, rfl⟩

theorem ReadsAlike.trans (h : ReadsAlike s t) (h' : ReadsAlike t u) : ReadsAlike s u :=
  ⟨h.run.trans h'.run, h'.runs.trans h.runs, h'.storage.trans h.storage, h'.reserve.trans h.reserve⟩

theorem ReadsAlike.foldl {α : Type} (f : State → α → State) (h : ∀ s a, ReadsAlike s (f s a)) (l : List α) (s : State) :
    ReadsAlike s (l.foldl f s) := by
  induction l generalizing s with
  | nil => exact .refl s
  | cons a l ih => exact (h s a).trans (ih _)

theorem setDone_alike (x : Nat) (s : State) : ReadsAlike s (setDone x s) := by
  refine ⟨setDone_run x s, ?_, ?_, (setDone_fleet x s).2⟩ <;> unfold setDone <;> split <;> simp

theorem alignDone_alike (v : Served) (s : State) : ReadsAlike s (alignDone v s) := by
  have edited : ∀ f : Berth → Berth, (∀ b, f b = { b with
      grant := (f b).grant, setpoint := (f b).setpoint, done := (f b).done
      doneByComplete := (f b).doneByComplete, projectedShort := (f b).projectedShort }) → ReadsAlike s (s.editBerth v.berth f) :=
    fun f kept => ⟨editBerth_run v.berth f s kept, rfl, rfl, rfl⟩
  unfold alignDone; dsimp only
  generalize (if v.bus.isSome = true then decide (v.need = 0) else _) = atTarget
  split
  · exact (edited _ fun _ => rfl).trans (setDone_alike _ _)
  · split
    · exact edited _ fun _ => rfl
    · exact .refl s

theorem writeEnergies_alike (s : State) : ReadsAlike s (writeEnergies s) := by
  refine .foldl _ (fun t b => ?_) _ s
  split
  · exact ⟨editBus_run _ _ t fun _ => rfl, by simp, by simp, by simp⟩
  · exact .refl t

section
variable (h : ReadsAlike u a)
include h

theorem ReadsAlike.currentRun (b : Nat) : a.currentRun b = u.currentRun b := by unfold State.currentRun; rw [h.runs]

theorem ReadsAlike.liveRun (b : Nat) : a.liveRun b = u.liveRun b := by unfold State.liveRun; rw [h.currentRun]

theorem ReadsAlike.energyTarget (r : RunRecord) (b : Nat) : a.energyTarget r b = u.energyTarget r b := by
  simp only [State.energyTarget, energyFor, h.run.slot, h.runs, h.run.meter]

theorem ReadsAlike.ceiling (b : Nat) : (a.fleetBus b).ceiling = (u.fleetBus b).ceiling := by simp only [Bus.ceiling, h.run.slot]

theorem ReadsAlike.targetEnergy (b : Nat) (r : Option Run) : a.targetEnergy b r = u.targetEnergy b r := by
  simp only [State.targetEnergy, State.chargingTarget, State.storageTargetEnergy, State.storageTarget, h.energyTarget, h.ceiling,
    h.run.slot, h.run.param]

theorem ReadsAlike.timeToDeadline (r : RunRecord) : a.timeToDeadline r = u.timeToDeadline r := by
  simp only [State.timeToDeadline, State.readyLead, h.run.param, h.run.now]

theorem ReadsAlike.preconditions (r : RunRecord) : a.preconditions r = u.preconditions r := by
  simp only [State.preconditions, State.preconditionWindow, State.preconditionThreshold, h.run.param, h.run.now, h.run.clockSet,
    h.run.meter] <;> rfl

theorem ReadsAlike.availableOf (b : Nat) : a.availableOf b = u.availableOf b := by
  simp only [State.availableOf, State.protectedOf, State.storageFloorEnergy, State.storageFloor, State.credit, State.guardHorizon,
    State.rechargePower, State.efficiency, h.liveRun, h.energyTarget, h.timeToDeadline, h.run.slot, h.run.param, h.run.clockSet]
    <;> rfl

theorem ReadsAlike.dischargeEligible (x dcap : Nat) (guarded : Bool) :
    a.dischargeEligible x dcap guarded = u.dischargeEligible x dcap guarded := by
  simp only [State.dischargeEligible, h.run.inRun, h.run.meterValid, h.run.record, h.run.slot, h.run.fresh, h.availableOf]

theorem ReadsAlike.inputs (x : Nat) : a.inputs x = u.inputs x := by
  have live : a.liveRun = u.liveRun := funext h.liveRun
  simp only [State.inputs, State.slackOf, State.needOver, State.storedOrZero, State.guestBelow, State.guestTarget, State.efficiency,
    State.guardHorizon, State.preconditionPower, h.run.chargeCap, h.run.dischargeCap, h.run.record, h.run.slot, h.run.param,
    h.run.clockSet, live, h.targetEnergy, h.timeToDeadline, h.preconditions, h.energyTarget, h.ceiling, h.dischargeEligible,
    h.availableOf] <;> rfl

theorem ReadsAlike.holdWindow : a.holdWindow = u.holdWindow := by
  simp only [State.holdWindow, State.demandWindow, State.importCeiling, State.feederLimit, State.margin, State.exportLimit,
    h.run.param, h.run.meterValid, h.run.clockSet, h.run.now, h.storage]
    <;> rfl

theorem ReadsAlike.holdTarget : a.holdTarget = u.holdTarget := by
  simp only [State.holdTarget, State.importCeiling, State.feederLimit, State.margin, State.exportLimit, h.run.param, h.holdWindow,
    h.storage]

theorem ReadsAlike.clampTarget (n : Int) : a.clampTarget n = u.clampTarget n := by
  simp only [State.clampTarget, State.importCeiling, State.feederLimit, State.margin, State.exportLimit, h.run.param]

theorem ReadsAlike.reserveTerm : a.reserveTerm = u.reserveTerm := by
  have call : a.callTarget = u.callTarget := funext fun c => h.clampTarget _
  have recovery : a.clampTarget = u.clampTarget := funext h.clampTarget
  simp only [State.reserveTerm, h.reserve, call, recovery]

theorem ReadsAlike.budgets : a.budgets = u.budgets := by
  simp only [State.budgets, State.importCeiling, State.feederLimit, State.margin, State.exportLimit, h.run.param, h.run.meter,
    h.run.meterValid, h.run.siteLoad, h.holdTarget, h.reserveTerm]

theorem ReadsAlike.horizon : a.horizon = u.horizon := by simp only [State.horizon, h.reserve]

end

/-! ## Stage 1 -/

theorem runInputs_alike (u : State) : ReadsAlike u (runInputs u).1 :=
  (writeEnergies_alike u).trans (.foldl _ (fun s v => alignDone_alike v s) _ _)

theorem servedBerths_eq (u : State) : u.servedBerths =
    (List.range 36).filter fun x => decide ((u.berth x).session = .serving ∧ (u.berth x).coupling ≠ .follower) := by
  simp [State.servedBerths, Berth.carriesSession, berthNumbers]

/-- The served berths of a run, with the inputs as the run found them. -/
theorem runInputs_served (u : State) : (runInputs u).2 = u.servedInputs := by
  have energies := writeEnergies_alike u
  have inputs : (writeEnergies u).inputs = u.inputs := funext energies.inputs
  unfold runInputs State.servedInputs; dsimp only
  rw [energies.run.servedBerths, servedBerths_eq, inputs]

theorem mem_servedInputs {v : Served} : v ∈ u.servedInputs ↔
    ∃ x, x < 36 ∧ (u.berth x).session = .serving ∧ (u.berth x).coupling ≠ .follower ∧ u.inputs x = v := by
  simp [State.servedInputs, and_assoc]

@[simp] theorem inputs_berth (u : State) (x : Nat) : (u.inputs x).berth = x := rfl

theorem servedInputs_low {v : Served} (mem : v ∈ u.servedInputs) : v.berth < 36 := by
  obtain ⟨x, low, -, -, rfl⟩ := mem_servedInputs.mp mem
  exact low

theorem servedInputs_rising (u : State) : u.servedInputs.Pairwise fun v w => v.berth < w.berth := by
  refine List.pairwise_map.mpr ?_
  exact (List.pairwise_lt_range.filter _).imp fun h => h

theorem servedInputs_nodup (u : State) : (u.servedInputs.map (·.berth)).Nodup :=
  List.pairwise_map.mpr ((servedInputs_rising u).imp fun h => Nat.ne_of_lt h)

end Sys2Proof.Machine
end

