-- ==== Sys2Proof/Proofs/RunOutcomes.lean ====
section
/-! Proofs/RunOutcomes.lean: what an allocation run leaves, in terms of the state it finds (R71, R88 to R92): the records behind its
passes, its totals, and that the passes read of the state the groups, DONE and the horizon alone. -/

namespace Sys2Proof.Machine

open SetpointWork (allocationRun_tail runInputs_alloc runLeaves_run)

variable {s t u a : State} {kind : RunKind} {x : Nat}

/-! ## What the passes read -/

section
variable (groups : a.groups = u.groups) (done : ∀ x, (a.berth x).done = (u.berth x).done) (horizon : a.horizon = u.horizon)
include groups

theorem groupEntry_congr (g : Nat) : a.groupEntry g = u.groupEntry g := by unfold State.groupEntry; rw [groups]

theorem groupRoom_congr (served : List Served) (grants : List Int) (g : Nat) :
    a.groupRoom served grants g = u.groupRoom served grants g := by
  simp only [State.groupRoom, groupEntry_congr groups]

include done in
theorem fillEligible_congr (served : List Served) (grants : List Int) (v : Served) :
    a.fillEligible served grants v = u.fillEligible served grants v := by
  simp only [State.fillEligible, State.fillRoom, groupRoom_congr groups, done] <;> rfl

include done in
theorem fillRounds_congr (served : List Served) (n : Nat) (p : Passing) : fillRounds a served n p = fillRounds u served n p := by
  have step : fillStep a served = fillStep u served := by
    funext most p v; simp only [fillStep, State.fillRoom, groupRoom_congr groups]
  have eligible : a.fillEligible served = u.fillEligible served := by
    funext grants v; exact fillEligible_congr groups done served grants v
  induction n generalizing p with
  | zero => rfl
  | succ n ih => unfold fillRounds; simp only [step, eligible, ih]

include done horizon in
theorem passes_congr (b : Budgets) (served : List Served) : a.passes b served = u.passes b served := by
  have guards : guardStep a = guardStep u := by funext served p v; simp only [guardStep, groupRoom_congr groups]
  have floors : floorStep a = floorStep u := by funext served soft p v; simp only [floorStep, groupRoom_congr groups]
  have fills : fillRounds a = fillRounds u := by
    funext served n p; exact fillRounds_congr groups done served n p
  have discharges : dischargeStep a = dischargeStep u := by
    funext p v; simp only [dischargeStep, State.powerAvailable, groupEntry_congr groups, horizon]
  simp only [State.passes, guards, floors, fills, discharges]

end

/-! ## The stages behind the passes -/

/-- R90: the berths that a run projects short. -/
def shortBerths (served : List Served) (filled : List Int) : List Nat :=
  (served.filter fun v => (v.projection (grantOf filled v.berth)).isSome).map (·.berth)

/-- R88, R89, R62: the state in which the runs are handed over. -/
def handedOver (a : State) (served : List Served) (o : Outcomes) : State :=
  writeProjections (shortBerths served o.filled) (recomputeAll (writeGrants o.grants (handShortfall o.shortfall a.budgets a)))

theorem runTail_eq (a : State) (served : List Served) (o : Outcomes) : runTail kind a served o =
    (let u := handRuns served o.filled (handedOver a served o)
     handCoverage kind served o.grants { u with alloc := { u.alloc with
       totals := a.totalsOf kind a.budgets served o (shortBerths served o.filled).length } }) := by
  delta runTail handedOver shortBerths; dsimp only

theorem handedOver_berth (a : State) (served : List Served) (o : Outcomes) (low : x < a.berths.length) :
    ∃ p, (handedOver a served o).berth x = { a.berth x with
      grant := grantOf o.grants x, setpoint := p, projectedShort := (shortBerths served o.filled).contains x } := by
  have handed := (handShortfall_same o.shortfall a.budgets a).2.1
  have step := recomputeAll_step (writeGrants o.grants (handShortfall o.shortfall a.budgets a))
  have given : (writeGrants o.grants (handShortfall o.shortfall a.budgets a)).berth x = { a.berth x with grant := grantOf o.grants x } := by
    unfold writeGrants
    rw [berth_mapIdx, handed, if_pos low, berth_congr handed]
  have length : x < (recomputeAll (writeGrants o.grants (handShortfall o.shortfall a.budgets a))).berths.length := by
    rw [step.length]; simpa [writeGrants, handed] using low
  unfold handedOver writeProjections
  rw [berth_mapIdx, if_pos length, step.berth x, given]
  exact ⟨_, rfl⟩

theorem runTail_berths (a : State) (served : List Served) (o : Outcomes) :
    (runTail kind a served o).berths = (handedOver a served o).berths := by
  rw [runTail_eq]; dsimp only
  rw [(handCoverage_same kind served o.grants _).2.1]; dsimp only
  rw [(handRuns_same served o.filled _).2.1]

theorem handedOver_reserve (a : State) (served : List Served) (o : Outcomes) :
    (handedOver a served o).reserve = (handShortfall o.shortfall a.budgets a).reserve := by
  unfold handedOver writeProjections; dsimp only
  rw [(recomputeAll_same _).2.1]; rfl

theorem recomputeAll_frame (s : State) : (recomputeAll s).runs = s.runs ∧ (recomputeAll s).storage = s.storage ∧
    (recomputeAll s).alloc = s.alloc := by
  obtain ⟨-, -, -, -, -, -, -, runs, alloc, -, storage, -⟩ := onlyPath_iff.mp (recomputeAll_step s).only
  exact ⟨runs, storage, alloc⟩

theorem handedOver_storage (a : State) (served : List Served) (o : Outcomes) :
    (handedOver a served o).storage = (handShortfall o.shortfall a.budgets a).storage := by
  unfold handedOver writeProjections; dsimp only
  rw [(recomputeAll_frame _).2.1]; rfl

theorem handShortfall_runs (n : Int) (b : Budgets) (s : State) : (handShortfall n b s).runs = s.runs := by
  unfold handShortfall reserveShortfall peakShortfall editRecord
  repeat' split
  all_goals simp

theorem handedOver_runs (a : State) (served : List Served) (o : Outcomes) : (handedOver a served o).runs = a.runs := by
  unfold handedOver writeProjections; dsimp only
  rw [(recomputeAll_frame _).1]
  exact handShortfall_runs o.shortfall a.budgets a

/-! ## What a run leaves -/

theorem totalsOf_alike (h : ReadsAlike u a) (alloc : a.alloc = u.alloc) (kind : RunKind) (b : Budgets) (served : List Served)
    (o : Outcomes) (short : Nat) : a.totalsOf kind b served o short = u.totalsOf kind b served o short := by
  simp only [State.totalsOf, h.run.stampedSecond, h.run.siteLoad, h.run.meter, alloc]

/-- What a run is: the stages behind the passes, over the state that stage 1 leaves. -/
theorem RunLeaves.tail (h : RunLeaves kind u t) : t = runTail kind (runInputs u).1 u.servedInputs (runOutcome u) := by
  rw [runLeaves_run h, allocationRun_tail, runInputs_served]

theorem RunLeaves.step (h : RunLeaves kind u t) : RunStep u t := by
  rw [runLeaves_run h]; exact allocationRun_run kind u

theorem RunLeaves.totals (h : RunLeaves kind u t) : t.alloc.totals = u.totalsOf kind u.budgets u.servedInputs (runOutcome u)
    (shortBerths u.servedInputs (runOutcome u).filled).length := by
  rw [h.tail, runTail_eq]; dsimp only
  rw [(handCoverage_same kind _ _ _).2.2.1]; dsimp only
  rw [(runInputs_alike u).budgets, totalsOf_alike (runInputs_alike u) (runInputs_alloc u)]

theorem RunLeaves.berth (h : RunLeaves kind u t) (low : x < u.berths.length) : ∃ p, t.berth x = { (runInputs u).1.berth x with
    grant := grantOf (runOutcome u).grants x, setpoint := p
    projectedShort := (shortBerths u.servedInputs (runOutcome u).filled).contains x } := by
  rw [h.tail, berth_congr (runTail_berths ..)]
  exact handedOver_berth _ _ _ (by rw [(runInputs_run u).length]; exact low)

theorem RunLeaves.blank (h : RunLeaves kind u t) (high : u.berths.length ≤ x) : t.berth x = Berth.blank :=
  berth_out x (by rw [h.step.length]; exact high)

theorem RunLeaves.done (h : RunLeaves kind u t) (x : Nat) : (t.berth x).done = ((runInputs u).1.berth x).done := by
  by_cases low : x < u.berths.length
  · obtain ⟨p, record⟩ := h.berth low
    rw [record]
  · rw [h.blank (Nat.le_of_not_lt low), berth_out x (by rw [(runInputs_run u).length]; exact Nat.le_of_not_lt low)]

/-- The passes of a run, over the state it finds with the records it leaves. -/
theorem RunLeaves.outcome (h : RunLeaves kind u t) :
    runOutcome u = { u with berths := t.berths }.passes u.budgets u.servedInputs := by
  unfold runOutcome
  rw [runInputs_served, (runInputs_alike u).budgets]
  exact passes_congr (u := { u with berths := t.berths }) (runInputs_run u).groups (fun x => (h.done x).symm)
    (runInputs_alike u).horizon _ _

end Sys2Proof.Machine
end

