-- ==== Sys2Proof/Proofs/Budgets.lean ====
section
/-! Proofs/Budgets.lean: the site load, the demand and reserve terms, and the budgets of every run (R81, R82, R118, R122, R133,
R146, R147). -/

namespace Sys2Proof.Machine.ChargeRuns

variable {s u t : State}

/-! ## The site load (R146) -/

theorem meterValid_iff : s.meterValid = true ↔ s.MeterValid := by simp [State.meterValid, State.MeterValid]

theorem siteLoad_valid {p : Int} (valid : s.MeterValid) (power : s.meter.power = some p) :
    s.siteLoad = max 0 (p - (((List.range 36).filter fun x =>
      decide ((s.berth x).session = .serving ∨ (s.berth x).session = .follower)).map fun x => (s.berth x).measured).sum) := by
  rw [State.siteLoad, if_pos (meterValid_iff.mpr valid), power, sumOf_eq]; rfl

theorem siteLoad_invalid (invalid : ¬ s.MeterValid) : s.siteLoad = s.fallbackLoad := by
  rw [State.siteLoad, if_neg (mt meterValid_iff.mp invalid)]

/-! ## The terms (R118, R122, R133) -/

/-- The clamp between ends that have not crossed. -/
theorem clampTo_of_le {low high : Int} (ordered : low ≤ high) (v : Int) : clampTo low high v = max low (min high v) := by
  unfold clampTo
  split_ifs <;> omega

theorem importCeiling_eq : s.importCeiling = s.feederLimit - s.margin := rfl

theorem demandWindow_eq : s.demandWindow = if s.link.clockSet = true then s.storage.windows.find? fun w =>
    decide (w.start * 60 ≤ s.link.second ∧ s.link.second < w.stop * 60) else none := rfl

/-- R118: the window peak hold is active under. -/
theorem holdWindow_some {w : DemandWindow} (clock : s.link.clockSet = true) (valid : s.MeterValid)
    (ordered : -s.exportLimit ≤ s.feederLimit - s.margin)
    (window : (s.storage.windows.find? fun w => decide (w.start * 60 ≤ s.link.second ∧ s.link.second < w.stop * 60)) = some w) :
    s.holdWindow = some w := by
  rw [State.holdWindow, if_pos ⟨meterValid_iff.mpr valid, by rw [importCeiling_eq]; omega⟩, demandWindow_eq, if_pos clock, window]

theorem holdWindow_none (h : s.link.clockSet = false ∨
    (s.storage.windows.find? fun w => decide (w.start * 60 ≤ s.link.second ∧ s.link.second < w.stop * 60)) = none ∨
    ¬ s.MeterValid ∨ s.feederLimit - s.margin < -s.exportLimit) : s.holdWindow = none := by
  unfold State.holdWindow
  split
  next active =>
    obtain ⟨valid, ordered⟩ := active
    rw [demandWindow_eq]
    split
    next clock =>
      rcases h with unset | none | invalid | crossed
      · simp [unset] at clock
      · exact none
      · exact absurd (meterValid_iff.mp valid) invalid
      · exact absurd crossed ordered
    · rfl
  · rfl

theorem holdTarget_none (h : s.holdWindow = none) : s.holdTarget = none := by rw [State.holdTarget, h]

theorem holdTarget_some {w : DemandWindow} {i : Interval} (window : s.holdWindow = some w) (interval : s.storage.interval = some i) :
    s.holdTarget = some (holdTargetOf w.hold i.sum i.count (-s.exportLimit) s.importCeiling) := by
  rw [State.holdTarget, window, interval]

theorem holdTarget_isSome : s.holdTarget.isSome = s.holdWindow.isSome := by
  unfold State.holdTarget
  cases s.holdWindow <;> cases s.storage.interval <;> rfl

theorem holdTargetOf_eq {low high : Int} (ordered : low ≤ high) (hold sum : Int) (count : Nat) :
    holdTargetOf hold sum count low high = if count < 9000
      then max low (min high ((hold * 9000 - sum) / (9000 - (count : Int)))) else if 0 ≤ hold * 9000 - sum then high else low := by
  unfold holdTargetOf
  split
  · exact clampTo_of_le ordered _
  · rw [clampTo_of_le ordered]; split <;> omega

theorem reserveTerm_called {c : Call} (called : s.reserve.state = .called) (call : s.reserve.call = some c) :
    s.reserveTerm = some (s.clampTarget (c.baseline - c.reduction)) := by
  rw [State.reserveTerm, called, call]; rfl

theorem reserveTerm_recovery (recovery : s.reserve.state = .recovery) :
    s.reserveTerm = s.reserve.recoveryTarget.map s.clampTarget := by
  rw [State.reserveTerm, recovery]

theorem reserveTerm_other (called : s.reserve.state ≠ .called) (recovery : s.reserve.state ≠ .recovery) : s.reserveTerm = none := by
  unfold State.reserveTerm
  split
  next isCalled => exact absurd isCalled called
  next isRecovery => exact absurd isRecovery recovery
  next => rfl

/-! ## The budgets (R81, R82, R147) -/

/-- R82: the smallest of the terms present and the binding one, an absent term standing at the feeder term. -/
theorem leastTerm_eq (feeder : Int) (demand reserve : Option Int) :
    let least := min (min feeder (demand.getD feeder)) (reserve.getD feeder)
    leastTerm feeder demand reserve =
      (least, if reserve = some least then .reserve else if demand = some least then .demand else .feeder) := by
  unfold leastTerm
  cases demand <;> cases reserve <;> grind

theorem budgets_valid (valid : s.MeterValid) :
    let feeder := s.feederLimit - s.margin - s.meter.squeeze
    let least := min (min feeder (s.holdTarget.getD feeder)) (s.reserveTerm.getD feeder)
    s.budgets.softLimit = max (-s.exportLimit) least ∧
    s.budgets.binding = if s.reserveTerm = some least then .reserve else if s.holdTarget = some least then .demand else .feeder := by
  have terms := leastTerm_eq (s.importCeiling - s.meter.squeeze) s.holdTarget s.reserveTerm
  simp only [State.budgets, if_pos (meterValid_iff.mpr valid)]
  rw [terms]
  exact ⟨rfl, rfl⟩

theorem budgets_invalid (invalid : ¬ s.MeterValid) : s.budgets.softLimit = s.feederLimit - s.margin - s.meter.squeeze ∧
    s.budgets.soft = s.budgets.hard ∧ s.budgets.binding = .feeder := by
  have feederAlone : s.budgets = ⟨s.importCeiling - s.meter.squeeze - s.siteLoad, s.importCeiling - s.meter.squeeze,
      s.importCeiling - s.meter.squeeze - s.siteLoad, .feeder⟩ := by
    rw [State.budgets, if_neg (mt meterValid_iff.mp invalid)]
  rw [feederAlone]
  exact ⟨rfl, rfl, rfl⟩

/-- Settles O38: the readings by their definitions, and the totals of a run by the budgets of the state it finds. -/
theorem budgetsFollowTheTerms : Obligations.BudgetsFollowTheTerms := by
  unfold Obligations.BudgetsFollowTheTerms
  refine ⟨fun s => ⟨fun p => siteLoad_valid, siteLoad_invalid⟩, fun s => ?_, fun kind u t leaves => ?_⟩
  · refine ⟨fun h => holdTarget_none (holdWindow_none h), fun w i clock window valid ordered interval => ?_, reserveTerm_other,
      fun recovery none => ?_, fun n term ordered => ?_⟩
    · rw [holdTarget_some (holdWindow_some clock valid ordered window) interval, importCeiling_eq, holdTargetOf_eq ordered]
    · rw [reserveTerm_recovery recovery, none]; rfl
    · have clamped : s.clampTarget n = max (-s.exportLimit) (min (s.feederLimit - s.margin) n) := clampTo_of_le ordered n
      rw [← clamped]
      rcases term with ⟨c, called, call, rfl⟩ | ⟨recovery, target⟩
      · exact reserveTerm_called called call
      · rw [reserveTerm_recovery recovery, target]; rfl
  · rw [leaves.totals]
    exact ⟨rfl, rfl, rfl, rfl, budgets_valid, budgets_invalid⟩

end Sys2Proof.Machine.ChargeRuns
end

