-- ==== Sys2Proof/Proofs/RunLaws.lean ====
section
/-! Proofs/RunLaws.lean: what stage 0 of a periodic run leaves alone (R69, R72), and the three laws of R89 over what a run leaves:
the budgets, the berths that may hold a grant, and those that may discharge (R115). -/

namespace Sys2Proof.Machine

variable {s t u : State}

/-! ## The periodic run (R69, R72) -/

theorem exec_periodicRun (live : s.Live) : exec .periodicRun s =
    .next (if s.alloc.periodRunning = true ∧ s.ctl.mode = .run then periodicAllocation s else s) := whileRunning_live _ live

/-- What stage 0 and the rebound step may do to the part: the run table, the demand windows and the Reserve Unit change, and notices
are placed. -/
def StagedStep (s t : State) : Prop := t = { s with
  link := { s.link with fifo := t.link.fifo, answerLost := t.link.answerLost }
  runs := t.runs
  storage := { s.storage with windows := t.storage.windows }
  reserve := t.reserve
  faults := { s.faults with noticeLost := t.faults.noticeLost } }

theorem StagedStep.refl (s : State) : StagedStep s s := rfl

theorem StagedStep.trans (h : StagedStep s t) (h' : StagedStep t u) : StagedStep s u := by
  unfold StagedStep at *
  rw [h] at h'; exact h'

theorem ReserveStep.staged (h : ReserveStep s t) : StagedStep s t := by
  have same := h.same
  have only := h.only
  unfold StagedStep
  rw [same.2.2.2.1, same.2.2.2.2.2.2.1]; exact only

theorem TableStep.staged (h : TableStep s t) : StagedStep s t := by
  have only := h.only
  have storage : t.storage = s.storage := by rw [only]
  have reserve : t.reserve = s.reserve := by rw [only]
  have runs : t.runs = { s.runs with active := t.runs.active } := by rw [only]
  unfold StagedStep
  rw [storage, reserve, runs]; exact only

theorem notify_staged (b : NoticeBody) (s : State) : StagedStep s (notify b s) := (notify_table b s).staged

theorem applyTables_staged (s : State) : StagedStep s (applyTables s) := by
  have merged : StagedStep s (mergeRuns s) :=
    StagedStep.trans (t := editActive (fun _ => s.runs.pending.runs.map fun rec =>
      clearPin (mergedRun (s.recordBus rec) rec (s.run? rec.runId))) s) rfl (rederiveAll_table _).staged
  unfold applyTables; dsimp only
  refine StagedStep.trans ?_ (notify_staged _ _)
  refine merged.trans ?_
  rfl

theorem applyDaySet_staged (s : State) : StagedStep s (applyDaySet s).1 :=
  (applyTables_staged s).trans (judgeApplication_step _).staged

theorem stageZero_staged (s : State) : StagedStep s (stageZero s) := by
  have applied : StagedStep s (if s.runs.pending.armed then (applyDaySet s).1 else s) := by
    split
    · exact applyDaySet_staged s
    · exact .refl s
  exact (applied.trans (assignRuns_table _).staged).trans (swapRuns_table _).staged

/-- The state in which a periodic run begins its stage 1. -/
def staged (s : State) : State := reboundStep (stageZero s)

theorem staged_step (s : State) : StagedStep s (staged s) := (stageZero_staged s).trans (reboundStep_step _).staged

/-- Stage 0 leaves the records, the groups, the mode, the totals and the clock as they were. -/
theorem staged_same (s : State) : (staged s).berths = s.berths ∧ (staged s).groups = s.groups ∧ (staged s).ctl = s.ctl ∧
    (staged s).alloc = s.alloc ∧ (staged s).stampedSecond = s.stampedSecond := by
  have step := staged_step s
  unfold StagedStep at step
  rw [step]; exact ⟨rfl, rfl, rfl, rfl, rfl⟩

theorem exec_periodicRun_leaves (live : s.Live) (running : s.alloc.periodRunning = true) (mode : s.ctl.mode = .run) :
    exec .periodicRun s = .next (allocationRun .periodic (staged s)) ∧
      RunLeaves .periodic (staged s) (allocationRun .periodic (staged s)) := by
  have next : exec .periodicRun s = .next (allocationRun .periodic (staged s)) := by
    rw [exec_periodicRun live, if_pos ⟨running, mode⟩]; rfl
  exact ⟨next, .inr ⟨rfl, s, live, running, mode, rfl, next⟩⟩

theorem exec_periodicRun_idle (live : s.Live) (idle : s.alloc.periodRunning = false ∨ s.ctl.mode ≠ .run) :
    exec .periodicRun s = .next s := by
  rw [exec_periodicRun live, if_neg (by rcases idle with h | h <;> simp [h])]

theorem immediateRun_leaves (mode : s.ctl.mode = .run) : RunLeaves .immediate s (immediateRun s) := .inl ⟨rfl, mode, rfl⟩

/-! ## The grants of a run (R89) -/

theorem runOutcome_eq (u : State) : runOutcome u = (runInputs u).1.passes (runInputs u).1.budgets u.servedInputs := by
  rw [runOutcome, runInputs_served]

theorem runOutcome_length (u : State) : (runOutcome u).grants.length = 36 := by
  rw [runOutcome_eq]; exact (passes_ok _ _ _ (servedInputs_nodup u) fun _ => servedInputs_low).1

theorem RunLeaves.grant {kind : RunKind} (h : RunLeaves kind u t) (length : u.berths.length = 36) (x : Nat) :
    (t.berth x).grant = grantOf (runOutcome u).grants x := by
  by_cases low : x < u.berths.length
  · obtain ⟨p, record⟩ := h.berth low
    rw [record]
  · rw [h.blank (Nat.le_of_not_lt low)]
    simp [grantOf, runOutcome_length u, Nat.le_of_not_lt (length ▸ low), Berth.blank]

end Sys2Proof.Machine

namespace Sys2Proof.Machine.ChargeRuns

variable {s t u : State} {kind : RunKind} {x : Nat}

/-! ## The sums over the berths -/

theorem sumOf_grants_range (f : Int → Int) (l : List Int) :
    sumOf f l = ((List.range l.length).map fun x => f (grantOf l x)).sum := by
  rw [sumOf_eq]
  refine congrArg List.sum (List.ext_getElem (by simp) fun i low _ => ?_)
  have low : i < l.length := by simpa using low
  simp [grantOf, low]

theorem sumOf_filter {α : Type} (f : α → Int) (p : α → Bool) (l : List α) :
    sumOf f (l.filter p) = sumOf (fun a => if p a then f a else 0) l := by
  induction l with
  | nil => rfl
  | cons a l ih => rw [List.filter_cons, sumOf_cons, ← ih]; split <;> simp [sumOf_cons]

theorem sumOf_map {α β : Type} (f : β → Int) (g : α → β) (l : List α) : sumOf f (l.map g) = sumOf (fun a => f (g a)) l := by
  rw [sumOf_eq, sumOf_eq, List.map_map]; rfl

/-! ## The budgets and the group limits (R89 Law 1) -/

section
variable (h : RunLeaves kind u t) (length : u.berths.length = 36)
include h length

theorem sum_of_grants (f : Int → Int) :
    sumOf f (runOutcome u).grants = ((List.range 36).map fun x => f (t.berth x).grant).sum := by
  rw [sumOf_grants_range, runOutcome_length]
  simp only [h.grant length]

theorem chargeSum_eq : t.alloc.totals.chargeSum = ((List.range 36).map fun x => max 0 (t.berth x).grant).sum := by
  rw [h.totals]; simp only [State.totalsOf, grantedSum]
  exact sum_of_grants h length fun g => max 0 g

theorem dischargeSum_eq : t.alloc.totals.dischargeSum = ((List.range 36).map fun x => max 0 (-(t.berth x).grant)).sum := by
  rw [h.totals]; simp only [State.totalsOf]
  exact sum_of_grants h length fun g => max 0 (-g)

omit length in
theorem hard_eq : t.alloc.totals.hard = t.feederLimit - t.margin - t.meter.squeeze - t.alloc.totals.siteLoad := by
  have limit : t.feederLimit = u.feederLimit := h.step.param 1
  have margin : t.margin = u.margin := h.step.param 2
  rw [limit, margin, h.step.meter, h.totals]; rfl

omit length in
theorem chargeSum_le : t.alloc.totals.chargeSum ≤ max 0 t.alloc.totals.hard := by
  have bound := (passes_ok (runInputs u).1 (runInputs u).1.budgets _ (servedInputs_nodup u) fun _ => servedInputs_low).2.1
  rw [← runOutcome_eq, (runInputs_alike u).budgets] at bound
  rw [h.totals]; simp only [State.totalsOf]
  exact bound

/-- R89 Law 2: a berth with a grant was served, in an enabled group. -/
theorem served_of_grant (some : (t.berth x).grant ≠ 0) : x < 36 ∧ (u.berth x).session = .serving ∧
    (u.berth x).coupling ≠ .follower ∧ (u.groupEntry ((u.berth x).group.getD 0)).enable = true := by
  obtain ⟨-, -, -, law, -⟩ := passes_ok (runInputs u).1 (runInputs u).1.budgets _ (servedInputs_nodup u) fun _ => servedInputs_low
  rw [← runOutcome_eq] at law
  rw [h.grant length] at some
  obtain ⟨v, mem, rfl, enabled⟩ := law x some
  obtain ⟨y, low, serving, own, rfl⟩ := mem_servedInputs.mp mem
  exact ⟨low, serving, own, by rw [← (runInputs_run u).groupEntry]; exact enabled⟩

theorem groupLoad_le_groupSum (g : Nat) : t.groupLoad g ≤ groupSum u.servedInputs (runOutcome u).grants g := by
  rw [State.groupLoad, groupSum, State.servedInputs, List.filter_map, sumOf_map, List.filter_filter, sumOf_filter, sumOf_filter]
  refine sumOf_le fun x mem => ?_
  have low : x < 36 := by simpa [berthNumbers] using mem
  simp only [inputs_berth, ← h.grant length]
  have nonneg : 0 ≤ max 0 (t.berth x).grant := Int.le_max_left ..
  split
  next member =>
    have member : (t.berth x).group = some g := of_decide_eq_true (Bool.and_eq_true_iff.mp member).2
    by_cases positive : 0 < (t.berth x).grant
    · obtain ⟨-, serving, own, -⟩ := served_of_grant h length (Int.ne_of_gt positive)
      have inGroup : (u.inputs x).group = g := by
        change (u.berth x).group.getD 0 = g
        rw [← (h.step.record x).2.2.2.2.1, member]; rfl
      rw [if_pos (by simp [inGroup, serving, own])]
    · have zero : max 0 (t.berth x).grant = 0 := by omega
      simp [zero]
  next =>
    split
    · exact nonneg
    · exact Int.le_refl 0

theorem groupLoad_le (limits : ∀ g, 0 ≤ (u.groupEntry g).limit) (g : Nat) : t.groupLoad g ≤ (t.groupEntry g).limit := by
  obtain ⟨-, -, group, -⟩ := passes_ok (runInputs u).1 (runInputs u).1.budgets _ (servedInputs_nodup u) fun _ => servedInputs_low
  have bound := group g
  rw [← runOutcome_eq, (runInputs_run u).groupEntry, Int.max_eq_right (limits g)] at bound
  rw [h.step.groupEntry]
  exact (groupLoad_le_groupSum h length g).trans bound

end

/-! ## Discharging (R89 Law 3, R115) -/

theorem inputs_eligible (eligible : (u.inputs x).eligible = true) : u.MeterValid ∧ (u.inputs x).guarded = false ∧
    ∃ b, (u.berth x).bus = some b ∧ (u.fleetBus b).permitted = true ∧ u.fresh b = true := by
  change u.dischargeEligible x (u.inputs x).dcap (u.inputs x).guarded = true at eligible
  unfold State.dischargeEligible at eligible
  simp only [Bool.and_eq_true, Bool.not_eq_true'] at eligible
  obtain ⟨⟨⟨⟨-, valid⟩, -⟩, unguarded⟩, bus⟩ := eligible
  cases known : (u.berth x).bus with
  | none => simp [known] at bus
  | some b =>
    simp only [known, Bool.and_eq_true] at bus
    exact ⟨meterValid_iff.mp valid, unguarded, b, rfl, bus.1.1, bus.1.2⟩

theorem inputs_need {b : Nat} {r : Run} (bus : (u.berth x).bus = some b) (run : u.liveRun b = some r) :
    (u.inputs x).need = u.chargingTarget r.toRunRecord b - u.storedOrZero b := by
  simp [State.inputs, bus, run, State.targetEnergy]

theorem inputs_guarded {b : Nat} {r : Run} (bus : (u.berth x).bus = some b) (run : u.liveRun b = some r)
    (clock : u.link.clockSet = true) : (u.inputs x).guarded = (decide (u.timeToDeadline r.toRunRecord ≤ u.guardHorizon) &&
      (decide (0 < (u.inputs x).need) || u.preconditions r.toRunRecord)) := by
  simp [State.inputs, bus, run, clock]

/-- R78: a bus whose run is near its deadline is unguarded with its charging target reached and no precondition add. -/
theorem charged_of_unguarded {b : Nat} {r : Run} (bus : (u.berth x).bus = some b) (run : u.liveRun b = some r)
    (clock : u.link.clockSet = true) (near : u.timeToDeadline r.toRunRecord ≤ u.guardHorizon)
    (unguarded : (u.inputs x).guarded = false) :
    u.chargingTarget r.toRunRecord b ≤ u.storedOrZero b ∧ u.preconditions r.toRunRecord = false := by
  rw [inputs_guarded bus run clock, inputs_need bus run] at unguarded
  simp only [near, decide_true, Bool.true_and, Bool.or_eq_false_iff, decide_eq_false_iff_not] at unguarded
  exact ⟨by omega, unguarded.2⟩

theorem RunLeaves_horizon (h : RunLeaves kind u t) : t.horizon = u.horizon := by
  rw [SetpointWork.runLeaves_run h]
  obtain ⟨-, -, -, call, called, -⟩ := allocationRun_leaves kind u
  unfold State.horizon
  rw [call]
  by_cases state : u.reserve.state = .called
  · rw [state, called.mpr state]
  · have after := mt called.mp state
    split
    next c isCalled _ => exact absurd isCalled after
    next =>
      split
      next c isCalled _ => exact absurd isCalled state
      next => rfl

/-- R114: the available energy of the bus at a served berth, as the run has written it. -/
theorem availableEnergy_written (h : RunLeaves kind u t) {b : Nat} (used : (t.fleetBus b).used = true) (low : b ≤ 64)
    (fleet : b ≤ t.fleet.length) : (t.fleetBus b).availableEnergy = some (u.availableOf b) := by
  have written : t.fleet = (writeEnergies u).fleet := by
    rw [SetpointWork.runLeaves_run h]; exact (allocationRun_leaves kind u).2.2.1
  have positive : 1 ≤ b := by
    rcases b with _ | b
    · simp [State.fleetBus, Bus.unused] at used
    · omega
  rw [fleetBus_congr written, fleetBus_writeEnergies,
    if_pos ⟨positive, low, by rw [← h.step.fleetLength]; exact fleet, by rw [← (h.step.slot b).1]; exact used⟩]

theorem discharge_lawful (h : RunLeaves kind u t) (length : u.berths.length = 36) (negative : (t.berth x).grant < 0) :
    t.MeterValid ∧ ∃ b, (t.berth x).bus = some b ∧ (t.fleetBus b).permitted = true ∧
      t.fresh b = true ∧ -(t.berth x).grant ≤ t.dischargeCap x ∧
      (∀ r, u.link.clockSet = true → u.liveRun b = some r → u.timeToDeadline r.toRunRecord ≤ u.guardHorizon →
        u.chargingTarget r.toRunRecord b ≤ u.storedOrZero b ∧ u.preconditions r.toRunRecord = false) ∧
      ((t.fleetBus b).used = true → b ≤ 64 → b ≤ t.fleet.length →
        ∃ e : Nat, (t.fleetBus b).availableEnergy = some e ∧ -(t.berth x).grant ≤ (e * 36 / t.horizon : Nat)) := by
  obtain ⟨-, -, -, -, fits⟩ := passes_ok (runInputs u).1 (runInputs u).1.budgets _ (servedInputs_nodup u) fun _ => servedInputs_low
  rw [← runOutcome_eq] at fits
  have grant := h.grant length x
  rw [grant] at negative
  obtain ⟨v, mem, rfl, eligible, -, cap, power⟩ := fits x negative
  obtain ⟨y, low, -, -, rfl⟩ := mem_servedInputs.mp mem
  rw [inputs_berth] at *
  obtain ⟨valid, unguarded, b, bus, permitted, fresh⟩ := inputs_eligible eligible
  have available : (u.inputs y).available = u.availableOf b := by simp [State.inputs, bus]
  rw [← grant] at cap power
  refine ⟨by unfold State.MeterValid; rw [h.step.meter]; exact valid, b, (h.step.record y).2.2.2.2.2.1.trans bus,
    (h.step.slot b).2.2.2.2.2.1.trans permitted, (h.step.fresh b).trans fresh, ?_,
    fun r clock run near => charged_of_unguarded bus run clock near unguarded, fun used high fleet => ?_⟩
  · rw [h.step.dischargeCap]; exact cap
  · refine ⟨u.availableOf b, availableEnergy_written h used high fleet, ?_⟩
    rw [RunLeaves_horizon h, ← (runInputs_alike u).horizon, ← available]
    exact power

/-! ## The laws (R89) -/

/-- The three laws of R89, over the state `u` that a run finds and the state `t` that it leaves. -/
def KeepsLaws (u t : State) : Prop :=
  t.alloc.totals.chargeSum = ((List.range 36).map fun x => max 0 (t.berth x).grant).sum ∧
  t.alloc.totals.dischargeSum = ((List.range 36).map fun x => max 0 (-(t.berth x).grant)).sum ∧
  t.alloc.totals.hard = t.feederLimit - t.margin - t.meter.squeeze - t.alloc.totals.siteLoad ∧
  t.alloc.totals.chargeSum ≤ max 0 t.alloc.totals.hard ∧
  (∀ g, g < 6 → t.groupLoad g ≤ (t.groupEntry g).limit) ∧
  ∀ x, (t.berth x).grant ≠ 0 → t.ctl.mode = .run ∧ (t.berth x).session = .serving ∧ (t.berth x).coupling ≠ .follower ∧
    (∀ g, (t.berth x).group = some g → (t.groupEntry g).enable = true) ∧
    ((t.berth x).grant < 0 → t.MeterValid ∧ ∃ b, (t.berth x).bus = some b ∧ (t.fleetBus b).permitted = true ∧
      t.fresh b = true ∧ -(t.berth x).grant ≤ t.dischargeCap x ∧
      (∀ r, u.link.clockSet = true → u.liveRun b = some r → u.timeToDeadline r.toRunRecord ≤ u.guardHorizon →
        u.chargingTarget r.toRunRecord b ≤ u.storedOrZero b ∧ u.preconditions r.toRunRecord = false) ∧
      ((t.fleetBus b).used = true → b ≤ 64 → b ≤ t.fleet.length →
        ∃ e : Nat, (t.fleetBus b).availableEnergy = some e ∧ -(t.berth x).grant ≤ (e * 36 / t.horizon : Nat)))

theorem run_keepsLaws (h : RunLeaves kind u t) (mode : u.ctl.mode = .run) (length : u.berths.length = 36)
    (limits : ∀ g, 0 ≤ (u.groupEntry g).limit) : KeepsLaws u t := by
  refine ⟨chargeSum_eq h length, dischargeSum_eq h length, hard_eq h, chargeSum_le h, fun g _ => groupLoad_le h length limits g,
    fun x some => ?_⟩
  obtain ⟨-, serving, own, enabled⟩ := served_of_grant h length some
  obtain ⟨-, session, coupling, -, group, -⟩ := h.step.record x
  refine ⟨by rw [h.step.ctl]; exact mode, session.trans serving, coupling ▸ own, fun g member => ?_, discharge_lawful h length⟩
  rw [h.step.groupEntry, ← show (u.berth x).group.getD 0 = g by rw [← group, member]; rfl]
  exact enabled

/-- Settles O33: the laws hold of what every run leaves, and a periodic run finds what stage 0 has left. -/
theorem allocationRunsKeepTheLaws : Obligations.AllocationRunsKeepTheLaws := by
  unfold Obligations.AllocationRunsKeepTheLaws
  refine ⟨fun s live running mode length limits => ?_, fun s mode length limits => ?_, fun s live idle =>
    exec_periodicRun_idle live idle⟩
  · obtain ⟨next, leaves⟩ := exec_periodicRun_leaves live running mode
    obtain ⟨berths, groups, ctl, alloc, stamped⟩ := staged_same s
    have laws := run_keepsLaws leaves (by rw [ctl]; exact mode) (by rw [berths]; exact length)
      fun g => by unfold State.groupEntry; rw [groups]; exact limits g
    refine ⟨_, next, laws, ?_, ?_, ?_⟩ <;> rw [leaves.totals]
    · rfl
    · rw [← alloc]; rfl
    · exact stamped
  · exact run_keepsLaws (immediateRun_leaves mode) mode length limits

end Sys2Proof.Machine.ChargeRuns
end

