-- ==== Sys2Proof/Proofs/HandedRuns.lean ====
section
/-! Proofs/HandedRuns.lean: which served berths are projected short, how a run hands the live runs over, and where a discharge
shortfall goes (R80, R88, R90, R98). -/

namespace Sys2Proof.Machine.ChargeRuns

open SetpointWork (runInputs_alloc)

variable {s t u a : State} {kind : RunKind} {x : Nat} {v : Served} {r : Run}

/-! ## Projections (R80) -/

theorem projection_unplanned {filled : Int} (run : v.run = none) : v.projection filled = none := by simp [Served.projection, run]

theorem projection_capacity {filled : Int} (run : v.run ≠ none) (limited : v.capacityLimited = true) :
    v.projection filled = some .capacity := by
  obtain ⟨r, run⟩ := Option.ne_none_iff_exists'.mp run
  simp [Served.projection, run, limited]

theorem projection_untimed {filled : Int} (run : v.run ≠ none) (room : v.capacityLimited = false) (time : v.time = none) :
    v.projection filled = none := by
  obtain ⟨r, run⟩ := Option.ne_none_iff_exists'.mp run
  simp [Served.projection, run, room, time]

theorem late_iff (l : Slack) : l.late = true ↔ ∃ m, l = .time m ∧ m < 0 := by cases l <;> simp [Slack.late]

/-- R80: a served berth with `n` seconds to its deadline cannot be ready in time. -/
def Late (v : Served) (n filled : Int) : Prop := 0 < v.need ∧ (n ≤ 0 ∨ v.cap = 0 ∨ (∃ m, v.slack = .time m ∧ m < 0) ∨
  (v.guarded = true ∧ filled < v.energyFloor))

theorem projection_timed {n filled : Int} (run : v.run ≠ none) (room : v.capacityLimited = false) (time : v.time = some n) :
    (Late v n filled → v.projection filled = some .time) ∧ (¬ Late v n filled → v.projection filled = none) := by
  obtain ⟨r, run⟩ := Option.ne_none_iff_exists'.mp run
  have same : (0 < v.need ∧ (v.slack.late = true ∨ n ≤ 0 ∨ v.cap = 0 ∨
      (v.guarded = true ∧ 0 < n ∧ filled < (v.energyFloor : Int)))) ↔ Late v n filled := by
    unfold Late
    rw [late_iff]
    generalize (∃ m, v.slack = .time m ∧ m < 0) = behind
    by_cases ahead : 0 < n
    · simp only [ahead, true_and]; tauto
    · simp only [not_lt.mp ahead, true_or, or_true]
  simp only [Served.projection, run, room, time, Bool.false_eq_true, if_false]
  exact ⟨fun late => if_pos (same.mpr late), fun early => if_neg (mt same.mp early)⟩

/-! ## The hand-over (R98) -/

/-- A run takes a state and a short reason, where it has this id. -/
def movedRun (id : Nat) (state : RunState) (reason : Option ShortReason) (q : Run) : Run :=
  if q.runId = id then { q with state := state, reason := reason } else q

/-- The run of this id in the active table takes a state and a short reason. -/
def moveRun (id : Nat) (state : RunState) (reason : Option ShortReason) (s : State) : State :=
  { s with runs := { s.runs with active := s.runs.active.map (movedRun id state reason) } }

theorem map_movedRun_other {id : Nat} {l : List Run} (other : id ∉ l.map (·.runId)) (state : RunState)
    (reason : Option ShortReason) : l.map (movedRun id state reason) = l := by
  refine (List.map_congr_left fun q mem => ?_).trans (List.map_id l)
  exact if_neg fun same => other (List.mem_map.mpr ⟨q, mem, same⟩)

/-- R98: the RUN_SHORT notice of a run that enters SHORT. -/
def tellShort (r : Run) (b need : Nat) (reason : Option ShortReason) (s : State) : State :=
  match reason with
  | none => s
  | some reason => if r.state = .short then s else notify (.runShort r.runId b reason need) s

theorem handOver_eq (r : Run) (b need : Nat) (p : Option ShortReason) (s : State) :
    handOver r b need p s = moveRun r.runId (handedState p need).1 (handedState p need).2
      (tellShort r b need (handedState p need).2 s) := rfl

theorem handedState_ready {p : Option ShortReason} (other : p ≠ some .capacity) : handedState p 0 = (.ready, none) := by
  simp [handedState, other]

theorem handedState_time {need : Nat} (wants : 0 < need) : handedState (some .time) need = (.short, some .time) := by
  simp [handedState, Nat.ne_of_gt wants]

theorem handedState_charging {need : Nat} (wants : 0 < need) : handedState none need = (.charging, none) := by
  simp [handedState, Nat.ne_of_gt wants]

/-- R98: the state and the reason of the hand-over, as R98's list has them. -/
theorem handedState_eq (p : Option ShortReason) (need : Nat) : handedState p need =
    (if p = some .capacity then .short else if need = 0 then .ready else if p = some .time then .short else .charging,
      if p = some .capacity then some .capacity else if need = 0 then none else p) := by
  unfold handedState
  rcases p with _ | _ | _ <;> simp <;> split <;> rfl

theorem tellShort_runs (r : Run) (b need : Nat) (reason : Option ShortReason) (s : State) :
    (tellShort r b need reason s).runs = s.runs := by
  unfold tellShort; repeat' split
  all_goals simp

/-! ## Where a shortfall goes (R88) -/

theorem handShortfall_nowhere {amount : Int} {b : Budgets}
    (h : amount ≤ 0 ∨ b.binding = .feeder ∨ (b.binding = .reserve ∧ s.reserve.state ≠ .called)) : handShortfall amount b s = s := by
  unfold handShortfall
  split
  next => rfl
  next positive =>
    rcases h with zero | feeder | ⟨reserve, uncalled⟩
    · exact absurd zero positive
    · rw [feeder]
    · simp only [reserve, reserveShortfall]
      split
      next called _ _ => exact absurd called uncalled
      next => rfl

theorem handShortfall_called {amount : Int} {b : Budgets} {c : Call} {record : CallRecord} {older : List CallRecord}
    (positive : 0 < amount) (reserve : b.binding = .reserve) (called : s.reserve.state = .called) (call : s.reserve.call = some c)
    (records : s.reserve.records = record :: older) :
    handShortfall amount b s = if record.shortfall = true then s else notify (.reserveShortfall c.callId amount)
      { s with reserve := { s.reserve with records := { record with shortfall := true } :: older } } := by
  simp only [handShortfall, if_neg (not_le.mpr positive), reserve, reserveShortfall, called, call, records, editRecord]

theorem handShortfall_demand {amount : Int} {b : Budgets} {i : Interval} {w : DemandWindow} (positive : 0 < amount)
    (demand : b.binding = .demand) (interval : s.storage.interval = some i) (window : s.holdWindow = some w) :
    handShortfall amount b s = if i.shortfall = true then s
      else notify (.peakShortfall amount i.start w.hold (s.holdTarget.getD 0))
        { s with storage := { s.storage with interval := some { i with shortfall := true } } } := by
  simp only [handShortfall, if_neg (not_le.mpr positive), demand, peakShortfall, interval, window]

/-! ## The runs that are handed over -/

/-- R98: a run of the table with what the run of its served berth gives it. -/
def handedRun (served : List Served) (filled : List Int) (r : Run) : Run :=
  match served.find? (fun v => decide (v.run.map (·.runId) = some r.runId)) with
  | none => r
  | some v => { r with
    state := (handedState (v.projection (grantOf filled v.berth)) v.need).1
    reason := (handedState (v.projection (grantOf filled v.berth)) v.need).2 }

theorem handedRun_id (served : List Served) (filled : List Int) (r : Run) : (handedRun served filled r).runId = r.runId := by
  unfold handedRun; split <;> rfl

/-- One run of the hand-over. -/
def handStep (served : List Served) (filled : List Int) (s : State) (r : Run) : State :=
  match served.find? (fun v => decide (v.run.map (·.runId) = some r.runId)) with
  | none => s
  | some v => handOver r (v.bus.getD 0) v.need (v.projection (grantOf filled v.berth)) s

theorem handRuns_eq (served : List Served) (filled : List Int) (s : State) :
    handRuns served filled s = s.runs.active.foldl (handStep served filled) s := rfl

/-- With the runs before it handed over already, a run's own hand-over changes its record alone. -/
theorem handStep_active {served : List Served} {filled : List Int} {front back : List Run}
    (ids : ((front ++ r :: back).map (·.runId)).Nodup)
    (active : s.runs.active = front.map (handedRun served filled) ++ r :: back) :
    (handStep served filled s r).runs = { s.runs with
      active := front.map (handedRun served filled) ++ handedRun served filled r :: back } := by
  unfold handStep
  split
  next missing =>
    have kept : handedRun served filled r = r := by simp only [handedRun, missing]
    rw [kept, ← active]
  next v found =>
    rw [List.map_append, List.map_cons, List.nodup_middle, List.nodup_cons, List.mem_append, not_or] at ids
    obtain ⟨⟨before, behind⟩, -⟩ := ids
    have before : r.runId ∉ (front.map (handedRun served filled)).map (·.runId) := by
      simpa [handedRun_id] using before
    have own : movedRun r.runId (handedState (v.projection (grantOf filled v.berth)) v.need).1
        (handedState (v.projection (grantOf filled v.berth)) v.need).2 r = handedRun served filled r := by
      simp only [movedRun, handedRun, found, if_true]
    rw [handOver_eq]
    simp only [moveRun, tellShort_runs, active, List.map_append, List.map_cons, map_movedRun_other before,
      map_movedRun_other behind, own]

theorem handSteps_runs {served : List Served} {filled : List Int} (back : List Run) : ∀ (front : List Run) (s : State),
    ((front ++ back).map (·.runId)).Nodup → s.runs.active = front.map (handedRun served filled) ++ back →
    (back.foldl (handStep served filled) s).runs = { s.runs with active := (front ++ back).map (handedRun served filled) } := by
  induction back with
  | nil => intro front s _ active; simp only [List.foldl_nil, List.append_nil] at *; rw [← active]
  | cons r back ih =>
    intro front s ids active
    have stepped := handStep_active ids active
    rw [List.foldl_cons, ih (front ++ [r]) _ (by simpa using ids) (by rw [stepped]; simp), stepped]
    simp

/-- R98: with each run id once in the table, each run takes its own hand-over. -/
theorem handRuns_runs (served : List Served) (filled : List Int) (ids : (s.runs.active.map (·.runId)).Nodup) :
    (handRuns served filled s).runs = { s.runs with active := s.runs.active.map (handedRun served filled) } :=
  handSteps_runs s.runs.active [] s ids rfl

theorem inputs_run_mem (run : (u.inputs x).run = some r) : r ∈ u.runs.active := by
  obtain ⟨b, -, live⟩ := Option.bind_eq_some_iff.mp run
  exact List.mem_of_find?_eq_some (Option.filter_eq_some_iff.mp live).1

/-- With each run id once in the table, a served berth's run is known by its id. -/
theorem find_served (ids : (u.runs.active.map (·.runId)).Nodup) (mem : r ∈ u.runs.active) :
    u.servedInputs.find? (fun v => decide (v.run.map (·.runId) = some r.runId)) =
      u.servedInputs.find? (fun v => decide (v.run = some r)) := by
  refine List.find?_congr fun v served => ?_
  obtain ⟨x, -, -, -, rfl⟩ := mem_servedInputs.mp served
  cases run : (u.inputs x).run with
  | none => simp
  | some q =>
    have once : q.runId = r.runId → q = r := List.inj_on_of_nodup_map ids (inputs_run_mem run) mem
    have same : q.runId = r.runId ↔ q = r := ⟨once, fun e => by rw [e]⟩
    simp [same]

/-! ## What a run writes of it -/

theorem handRuns_storage (served : List Served) (filled : List Int) (s : State) :
    (handRuns served filled s).storage = s.storage := by
  rw [handRuns_eq]
  refine foldl_keeps (·.storage) _ (fun s r => ?_) _ s
  unfold handStep; split
  · rfl
  · rw [handOver_eq]; unfold moveRun tellShort; repeat' split
    all_goals simp

theorem storeCoverage_records (n : Int) (w : ReserveWindow) (s : State) :
    (storeCoverage n w s).reserve.records = s.reserve.records := by
  unfold storeCoverage; dsimp only
  repeat' split
  all_goals simp [changeReserve_same]

theorem handCoverage_frame (served : List Served) (grants : List Int) (s : State) :
    (handCoverage kind served grants s).runs = s.runs ∧ (handCoverage kind served grants s).storage = s.storage ∧
      (handCoverage kind served grants s).reserve.records = s.reserve.records := by
  unfold handCoverage; split
  · split
    · exact ⟨rfl, rfl, rfl⟩
    · have same := (storeCoverage_step (coverageOf ‹_› served grants) ‹_› s).same
      exact ⟨same.2.2.2.1, same.2.2.2.2.2.2.1, storeCoverage_records ..⟩
  · exact ⟨rfl, rfl, rfl⟩

theorem runTail_runs (a : State) (served : List Served) (o : Outcomes) (ids : (a.runs.active.map (·.runId)).Nodup) :
    (runTail kind a served o).runs = { a.runs with active := a.runs.active.map (handedRun served o.filled) } := by
  rw [runTail_eq]; dsimp only
  rw [(handCoverage_frame served o.grants _).1]; dsimp only
  have runs := handedOver_runs a served o
  rw [handRuns_runs served o.filled (by rw [runs]; exact ids), runs]

theorem runTail_storage (a : State) (served : List Served) (o : Outcomes) :
    (runTail kind a served o).storage = (handShortfall o.shortfall a.budgets a).storage := by
  rw [runTail_eq]; dsimp only
  rw [(handCoverage_frame served o.grants _).2.1]; dsimp only
  rw [handRuns_storage, handedOver_storage]

theorem runTail_records (a : State) (served : List Served) (o : Outcomes) :
    (runTail kind a served o).reserve.records = (handShortfall o.shortfall a.budgets a).reserve.records := by
  rw [runTail_eq]; dsimp only
  rw [(handCoverage_frame served o.grants _).2.2]; dsimp only
  rw [(handRuns_same served o.filled _).2.2, handedOver_reserve]

/-- The demand term binds only in an active window. -/
theorem holdWindow_of_binding (demand : s.budgets.binding = .demand) : ∃ w, s.holdWindow = some w := by
  refine Option.isSome_iff_exists.mp ?_
  rw [← holdTarget_isSome]
  by_cases valid : s.MeterValid
  · rw [(budgets_valid valid).2] at demand
    split at demand
    · cases demand
    · split at demand
      next some => rw [some]; rfl
      · cases demand
  · rw [(budgets_invalid valid).2.2] at demand; cases demand

theorem handShortfall_interval (amount : Int) {b : Budgets} (window : b.binding = .demand → ∃ w, s.holdWindow = some w) :
    (handShortfall amount b s).storage.interval = s.storage.interval.map fun i =>
      { i with shortfall := i.shortfall || decide (0 < amount ∧ b.binding = .demand) } := by
  by_cases bound : 0 < amount ∧ b.binding = .demand
  · obtain ⟨positive, demand⟩ := bound
    obtain ⟨w, window⟩ := window demand
    cases interval : s.storage.interval with
    | none => simp [handShortfall, not_le.mpr positive, demand, peakShortfall, interval]
    | some i =>
      rw [handShortfall_demand positive demand interval window]
      split
      next flagged => cases i; simp_all
      · simp [positive, demand]
  · have kept : (handShortfall amount b s).storage = s.storage := by
      unfold handShortfall; split
      · rfl
      next positive =>
        split
        · exact (reserveShortfall_step amount s).same.2.2.2.2.2.2.1
        next demand => exact absurd ⟨not_le.mp positive, demand⟩ bound
        · rfl
    rw [kept]; simp [bound]

theorem handShortfall_record (amount : Int) (b : Budgets) {c : Call} {record : CallRecord} {older : List CallRecord}
    (call : s.reserve.call = some c) (records : s.reserve.records = record :: older) :
    (handShortfall amount b s).reserve.records = { record with
      shortfall := record.shortfall || decide (0 < amount ∧ b.binding = .reserve ∧ s.reserve.state = .called) } :: older := by
  by_cases bound : 0 < amount ∧ b.binding = .reserve ∧ s.reserve.state = .called
  · obtain ⟨positive, reserve, called⟩ := bound
    rw [handShortfall_called positive reserve called call records]
    split
    next flagged => cases record; simp_all
    · simp [positive, reserve, called]
  · have kept : (handShortfall amount b s).reserve = s.reserve := by
      by_cases reserve : b.binding = .reserve
      · rw [handShortfall_nowhere]
        by_cases positive : 0 < amount
        · exact .inr (.inr ⟨reserve, fun called => bound ⟨positive, reserve, called⟩⟩)
        · exact .inl (not_lt.mp positive)
      · unfold handShortfall peakShortfall; repeat' split
        all_goals simp_all
    rw [kept, records]; simp [bound]

theorem mem_shortBerths (served : List Served) (filled : List Int) : x ∈ shortBerths served filled ↔
    ∃ v ∈ served, v.berth = x ∧ v.projection (grantOf filled v.berth) ≠ none := by
  simp only [shortBerths, List.mem_map, List.mem_filter, ← Option.isSome_iff_ne_none]
  exact ⟨fun ⟨v, ⟨mem, short⟩, at_⟩ => ⟨v, mem, at_, short⟩, fun ⟨v, mem, at_, short⟩ => ⟨v, ⟨mem, short⟩, at_⟩⟩

section
variable (h : RunLeaves kind u t)
include h

theorem run_runs (ids : (u.runs.active.map (·.runId)).Nodup) : t.runs = { u.runs with
    active := u.runs.active.map (handedRun u.servedInputs (runOutcome u).filled) } := by
  have runs := (runInputs_alike u).runs
  rw [h.tail, runTail_runs _ _ _ (by rw [runs]; exact ids), runs]

theorem run_shortfall : t.alloc.totals.shortfall = (runOutcome u).shortfall := by rw [h.totals]; simp only [State.totalsOf]

theorem run_binding : t.alloc.totals.binding = u.budgets.binding := by rw [h.totals]; simp only [State.totalsOf]

theorem run_interval : t.storage.interval = u.storage.interval.map fun i => { i with
    shortfall := i.shortfall || decide (0 < t.alloc.totals.shortfall ∧ t.alloc.totals.binding = .demand) } := by
  have alike := runInputs_alike u
  rw [run_shortfall h, run_binding h, h.tail, runTail_storage, handShortfall_interval _ holdWindow_of_binding, alike.storage,
    alike.budgets]

theorem run_record {c : Call} {record : CallRecord} {older : List CallRecord} (call : u.reserve.call = some c)
    (records : u.reserve.records = record :: older) :
    let flagged := decide (0 < t.alloc.totals.shortfall ∧ t.alloc.totals.binding = .reserve ∧ u.reserve.state = .called)
    t.reserve.records = { record with shortfall := record.shortfall || flagged } :: older := by
  have alike := runInputs_alike u
  rw [run_shortfall h, run_binding h, h.tail, runTail_records,
    handShortfall_record _ _ (alike.reserve ▸ call) (alike.reserve ▸ records), alike.reserve, alike.budgets]

theorem run_projectedShort (length : u.berths.length = 36) (x : Nat) : (t.berth x).projectedShort = true ↔
    ∃ v ∈ u.servedInputs, v.berth = x ∧ v.projection (grantOf (runOutcome u).filled v.berth) ≠ none := by
  rw [← mem_shortBerths]
  by_cases low : x < u.berths.length
  · obtain ⟨p, record⟩ := h.berth low
    rw [record, List.contains_iff_mem]
  · rw [h.blank (Nat.le_of_not_lt low)]
    refine iff_of_false (by simp [Berth.blank]) fun mem => ?_
    obtain ⟨v, served, rfl, -⟩ := (mem_shortBerths _ _).mp mem
    exact low (length ▸ servedInputs_low served)

/-- The passes of a run, over the budgets that its totals hold. -/
theorem run_passes : { u with berths := t.berths }.passes ⟨t.alloc.totals.hard, t.alloc.totals.softLimit, t.alloc.totals.soft,
    t.alloc.totals.binding⟩ u.servedInputs = runOutcome u := by
  rw [h.totals]; exact h.outcome.symm

end

/-- Settles O40: the projections, the hand-over and the shortfall by their cases, and each run's by those of its own berths. -/
theorem runsAreHandedOver : Obligations.RunsAreHandedOver := by
  unfold Obligations.RunsAreHandedOver
  refine ⟨fun v filled => ⟨projection_unplanned, projection_capacity, projection_untimed, fun n => projection_timed⟩,
    fun s r b need => ?_, fun s served filled => rfl, fun s amount b => ⟨handShortfall_nowhere, fun c record older positive reserve
      called call records => handShortfall_called positive reserve called call records, fun i w positive demand interval window =>
      handShortfall_demand positive demand interval window⟩, fun kind u t leaves length => ?_⟩
  · refine ⟨rfl, fun reason none other => ?_, fun wants => ?_, fun wants => ?_⟩ <;> rw [handOver_eq]
    · rw [none, handedState_ready other]; rfl
    · rw [handedState_time wants]; rfl
    · rw [handedState_charging wants]; rfl
  · dsimp only
    rw [run_passes leaves]
    refine ⟨?_, run_projectedShort leaves length, fun ids => ?_, run_interval leaves, fun c record older => run_record leaves⟩
    · rw [leaves.totals]; exact List.length_map ..
    · rw [run_runs leaves ids]
      refine congrArg (fun l => { u.runs with active := l }) (List.map_congr_left fun r mem => ?_)
      rw [handedRun, find_served ids mem]
      cases u.servedInputs.find? (fun v => decide (v.run = some r)) with
      | none => rfl
      | some v => simp only [handedState_eq]; rfl

end Sys2Proof.Machine.ChargeRuns
end

