-- ==== Sys2Proof/Proofs/Overruns.lean ====
section
/-! Proofs/Overruns.lean: an accepted sample with the meter valid: what it writes before its overrun is judged, the steps of the
overrun, and what the hand-overs behind them leave (R145, R148, R149, R173, R175). -/

namespace Sys2Proof.Machine.ChargeRuns

open SetpointWork (notify_setReserve)

variable {s t u : State} {sample : MeterSample}

/-! ## The sample before its overrun is judged (R143, R145) -/

/-- The state in which the overrun of a sample is judged: the meter has taken it, and ring and accounts have its import. -/
def sampled (s : State) (sample : MeterSample) : State :=
  feedRing sample.power (accountSample sample.power { s with meter := acceptMove (s.meter.accept sample s.now) })

/-- The part with the sample entered everywhere but in the overrun's counts and the trip counts, `m` being the meter it found. -/
def entered (s : State) (sample : MeterSample) (m : Meter) : State := { s with
  meter := { m with
    rx := [], sequence := some sample.sequence, power := some sample.power, frequency := some sample.frequency
    ambient := some (max (-60) (min sample.ambient 60)), lastSequence := some sample.sequence
    lastSecond := some s.link.second, timerRunning := true, state := .valid
    missCount := if s.meter.state = .holding then 0 else m.missCount
    ring := if s.reserve.state = .called ∨ s.reserve.state = .recovery then m.ring
      else (m.ring ++ [sample.power]).drop (m.ring.length + 1 - 50) }
  storage := { s.storage with interval := s.storage.interval.map fun i =>
    { i with sum := i.sum + sample.power, count := i.count + 1 } }
  reserve := { s.reserve with
    call := s.reserve.call.map fun c => { c with sum := c.sum + sample.power, count := c.count + 1 } } }

theorem clampAmbient_eq (a : Int) : clampAmbient a = max (-60) (min a 60) := by
  unfold clampAmbient; split_ifs <;> omega

theorem accountDemand_eq (power : Int) (s : State) : accountDemand power s = { s with
    storage := { s.storage with interval := s.storage.interval.map fun i => { i with sum := i.sum + power, count := i.count + 1 } } } := by
  unfold accountDemand
  split
  next none => rw [none, Option.map_none, ← none]
  next i some => rw [some]; rfl

theorem accountCall_eq (power : Int) (s : State) : accountCall power s = { s with
    reserve := { s.reserve with call := s.reserve.call.map fun c => { c with sum := c.sum + power, count := c.count + 1 } } } := by
  unfold accountCall
  split
  next none => rw [none, Option.map_none, ← none]
  next c some => rw [some]; rfl

theorem feedRing_eq (power : Int) (s : State) : feedRing power s = { s with meter := { s.meter with
    ring := if s.reserve.state = .called ∨ s.reserve.state = .recovery then s.meter.ring
      else (s.meter.ring ++ [power]).drop (s.meter.ring.length + 1 - 50) } } := by
  unfold feedRing
  split
  · rfl
  · simp [Config.baselineSamples]

theorem acceptMove_valid {m : Meter} (h : m.state = .valid ∨ m.state = .holding ∨ (m.state = .recovering ∧ 20 ≤ m.recoverCount + 1)) :
    (acceptMove m).state = .valid := by
  unfold acceptMove
  rcases h with valid | holding | ⟨recovering, many⟩
  · simp [valid]
  · simp [holding]
  · simp [recovering, many]

/-- R143: the meter of a sample, by its state alone; the overrun stands. -/
theorem acceptMove_overrun (m : Meter) : (acceptMove m).overrun = m.overrun ∧ (acceptMove m).squeeze = m.squeeze ∧
    (acceptMove m).overCount = m.overCount ∧ (acceptMove m).overExcess = m.overExcess ∧
    (acceptMove m).underCount = m.underCount ∧ (acceptMove m).escalation = m.escalation := by
  unfold acceptMove; repeat' split
  all_goals exact ⟨rfl, rfl, rfl, rfl, rfl, rfl⟩

/-- The meter's sample makes or leaves it VALID (R143). -/
def BecomesValid (m : Meter) : Prop := m.state = .valid ∨ m.state = .holding ∨ (m.state = .recovering ∧ 20 ≤ m.recoverCount + 1)

theorem sampled_eq (valid : BecomesValid s.meter) : sampled s sample = { s with
    meter := (feedRing sample.power { s with meter := acceptMove (s.meter.accept sample s.now) }).meter
    storage := { s.storage with interval := s.storage.interval.map fun i =>
      { i with sum := i.sum + sample.power, count := i.count + 1 } }
    reserve := { s.reserve with
      call := s.reserve.call.map fun c => { c with sum := c.sum + sample.power, count := c.count + 1 } } } := by
  have state : (acceptMove (s.meter.accept sample s.now)).state = .valid := acceptMove_valid valid
  unfold sampled accountSample
  rw [if_pos (by simp [State.meterValid, state]), accountDemand_eq, accountCall_eq, feedRing_eq, feedRing_eq]

theorem sampled_entered (valid : s.meter.state = .valid ∨ s.meter.state = .holding) :
    sampled s sample = entered s sample s.meter := by
  rw [sampled_eq (valid.imp_right .inl), feedRing_eq]
  unfold entered acceptMove
  rcases valid with valid | holding
  · simp [Meter.accept, valid, clampAmbient_eq, State.now]
  · simp [Meter.accept, holding, clampAmbient_eq, State.now]

/-- What judging the overrun reads of the state, as the sample has left it. -/
theorem sampled_same (valid : BecomesValid s.meter) : (sampled s sample).meter.state = .valid ∧
    (sampled s sample).meter.overrun = s.meter.overrun ∧ (sampled s sample).meter.squeeze = s.meter.squeeze ∧
    (sampled s sample).meter.overCount = s.meter.overCount ∧ (sampled s sample).meter.overExcess = s.meter.overExcess ∧
    (sampled s sample).meter.underCount = s.meter.underCount ∧ (sampled s sample).meter.escalation = s.meter.escalation ∧
    (sampled s sample).ctl = s.ctl ∧ (sampled s sample).link = s.link ∧ (sampled s sample).faults = s.faults ∧
    (sampled s sample).berths = s.berths := by
  have state : (acceptMove (s.meter.accept sample s.now)).state = .valid := acceptMove_valid valid
  obtain ⟨overrun, squeeze, above, excess, under, escalation⟩ := acceptMove_overrun (s.meter.accept sample s.now)
  rw [sampled_eq valid, feedRing_eq]
  exact ⟨state, overrun, squeeze, above, excess, under, escalation, rfl, rfl, rfl, rfl⟩

/-! ## One sample's step of the overrun (R148, R149) -/

variable {power : Int}

theorem normalSample_below (below : power - u.feederLimit ≤ u.overrunMargin) :
    normalSample power u = ({ u with meter := { u.meter with overCount := 0, overExcess := 0 } }, false) :=
  if_neg (by omega)

theorem normalSample_counts (above : u.overrunMargin < power - u.feederLimit) (few : u.meter.overCount + 1 < 30) :
    normalSample power u = ({ u with meter := { u.meter with
      overCount := u.meter.overCount + 1
      overExcess := if u.meter.overCount = 0 then power - u.feederLimit else max u.meter.overExcess (power - u.feederLimit) } }, false) :=
  (if_pos (by omega)).trans (if_neg (by omega))

theorem normalSample_enters (above : u.overrunMargin < power - u.feederLimit) (many : 30 ≤ u.meter.overCount + 1) :
    normalSample power u = (
      let most := if u.meter.overCount = 0 then power - u.feederLimit else max u.meter.overExcess (power - u.feederLimit)
      (notify (.overrun true most power u.feederLimit) { u with meter := { u.meter with
        overrun := .overrun, squeeze := most, overCount := 0, overExcess := 0, underCount := 0, escalation := 0 } }, true)) :=
  (if_pos (by omega)).trans (if_pos many)

theorem overrunSample_ends (low : power - u.feederLimit ≤ 0) (many : 20 ≤ u.meter.underCount + 1) :
    overrunSample power u = notify (.overrun false 0 power u.feederLimit) { u with meter := { u.meter with
      overrun := .normal, squeeze := 0, underCount := 0, escalation := 0 } } :=
  (if_neg (by omega)).trans (if_pos many)

theorem normalSample_ctl (power : Int) (u : State) : (normalSample power u).1.ctl = u.ctl := by
  unfold normalSample
  dsimp only
  split
  · split
    · simp
    · rfl
  · rfl

/-- R149: the overrun goes on, with the squeeze and the count of low samples it then has. -/
def squeezed (power : Int) (u : State) : State := { u with meter := { u.meter with
  squeeze := max u.meter.squeeze (power - u.feederLimit)
  underCount := if 0 < power - u.feederLimit then 0 else u.meter.underCount + 1 } }

theorem overrunSample_lasts (lasts : ¬ (power - u.feederLimit ≤ 0 ∧ 20 ≤ u.meter.underCount + 1)) :
    overrunSample power u = escalate (squeezed power u) := by
  unfold overrunSample squeezed
  by_cases high : 0 < power - u.feederLimit
  · simp only [if_pos high]
  · have few : ¬ 20 ≤ u.meter.underCount + 1 := fun many => lasts ⟨by omega, many⟩
    simp only [if_neg high, if_neg few]

theorem escalate_out (out : u.ctl.mode ≠ .run) : escalate u = u := by simp [escalate, State.inRun, out]

theorem escalate_counts (run : u.ctl.mode = .run) (few : u.meter.escalation + 1 < 100) :
    escalate u = { u with meter := { u.meter with escalation := u.meter.escalation + 1 } } := by
  have few' : ¬ 100 ≤ u.meter.escalation + 1 := by omega
  simp [escalate, State.inRun, run, few']

theorem escalate_leaves (run : u.ctl.mode = .run) (many : 100 ≤ u.meter.escalation + 1) :
    escalate u = leaveRun .safeHold .overrun { u with meter := { u.meter with escalation := 0 } } := by
  simp [escalate, State.inRun, run, many]

/-! ## The hand-overs behind the overrun (R70, R145, Log 22) -/

/-- What follows the overrun's step: the meter's report, the frequency and the one immediate run. -/
def settleSample (before : Bool) (frequency : Nat) (out : State × Bool) : State :=
  let report := reportMeter before out.1
  let judged := frequencySample frequency report.1
  immediateIf (out.2 || report.2 || judged.2) judged.1

theorem acceptSample_eq (sample : MeterSample) (s : State) : acceptSample sample s =
    settleSample s.meterValid sample.frequency (overrunImport sample.power (sampled s sample)) := rfl

theorem settleSample_same (before : Bool) (frequency : Nat) (out : State × Bool) :
    (settleSample before frequency out).meter = out.1.meter ∧ (settleSample before frequency out).ctl = out.1.ctl := by
  have judged := (reportMeter_step before out.1).trans (frequencySample_step frequency _)
  have run := immediateIf_run (out.2 || (reportMeter before out.1).2 || (frequencySample frequency (reportMeter before out.1).1).2)
    (frequencySample frequency (reportMeter before out.1).1).1
  exact ⟨run.meter.trans judged.same.2.2.2.2.1, run.ctl.trans judged.same.1⟩

/-- No frequency counts: no call of the frequency trigger is in progress and the window judged active is without frequency. -/
def Unwatched (r : Reserve) : Prop := (∀ c, r.call = some c → c.source = .frame) ∧ ∀ w, r.judged = some w → w.frequency = false

/-- A state whose two frequency counts are 0. -/
def uncounted (u : State) : State := { u with reserve := { u.reserve with tripCount := 0, recoverCount := 0 } }

theorem frequencySample_unwatched (quiet : Unwatched u.reserve) (frequency : Nat) :
    frequencySample frequency u = (uncounted u, false) := by
  obtain ⟨calls, windows⟩ := quiet
  have manned : u.autonomous = false := by
    unfold State.autonomous
    split
    · rfl
    · next c call => rw [calls c call]; rfl
  have still : u.tripCounts = false := by
    unfold State.tripCounts
    cases judged : u.reserve.judged with
    | none => simp
    | some w => simp [windows w judged]
  unfold frequencySample
  simp only [manned, still, Bool.false_eq_true, and_false, if_false]
  rfl

theorem settleSample_quiet {before : Bool} {out : State × Bool} (same : out.1.meterValid = before) (quiet : Unwatched out.1.reserve)
    (frequency : Nat) : settleSample before frequency out = immediateIf out.2 (uncounted out.1) := by
  have report : reportMeter before out.1 = (out.1, false) := if_pos same
  unfold settleSample
  simp only [report, frequencySample_unwatched quiet, Bool.or_false]

theorem notify_uncounted (b : NoticeBody) (u : State) : uncounted (notify b u) = notify b (uncounted u) := by
  have same : (notify b u).reserve = u.reserve := by simp
  exact ((congrArg (fun r => { notify b u with reserve := { r with tripCount := 0, recoverCount := 0 } }) same).trans
    (notify_setReserve b _ u).symm)

/-! ## The part out of RUN (R173, R175) -/

/-- The upstream FIFO keeps what stands in it, in its order. -/
def FifoGrows (s t : State) : Prop := s.link.fifo <+: t.link.fifo

theorem FifoGrows.of_link (h : t.link = s.link) : FifoGrows s t := by unfold FifoGrows; rw [h]

theorem FifoGrows.trans (h : FifoGrows s t) (h' : FifoGrows t u) : FifoGrows s u := List.IsPrefix.trans h h'

theorem FifoGrows.foldl {α : Type} {f : State → α → State} (h : ∀ s a, FifoGrows s (f s a)) (l : List α) (s : State) :
    FifoGrows s (l.foldl f s) := by
  induction l generalizing s with
  | nil => exact .of_link rfl
  | cons a l ih => exact (h s a).trans (ih _)

theorem notify_grows (b : NoticeBody) (s : State) : FifoGrows s (notify b s) := by
  unfold notify
  split
  · split
    · exact List.prefix_append _ _
    · exact .of_link rfl
  · exact .of_link rfl

theorem supersede_grows (x tag : Nat) (s : State) : FifoGrows s (supersede x tag s) := by
  obtain ⟨more, fifo, _⟩ := BerthBus.supersede_only_superseded x tag s
  exact ⟨more, fifo.symm⟩

theorem requestEntry_grows (x tag : Nat) (s : State) : FifoGrows s (requestEntry x tag s) := by
  unfold requestEntry
  split
  · exact .of_link rfl
  · exact (supersede_grows _ _ s).trans (.of_link rfl)

theorem leaveQueue_grows (x : Nat) (s : State) : FifoGrows s (leaveQueue x s) := by
  unfold leaveQueue
  dsimp only
  split
  · exact .of_link rfl
  · exact requestEntry_grows x _ (setSetpointState x .idle (removeQueued x s))

theorem originateEntry_grows (x : Nat) (s : State) : FifoGrows s (originateEntry x s) := by
  unfold originateEntry
  split <;> exact .of_link rfl

theorem pathGrantZeroed_grows (x : Nat) (s : State) : FifoGrows s (pathGrantZeroed x s) := by
  unfold pathGrantZeroed
  dsimp only
  split
  · exact .of_link rfl
  · split
    · exact leaveQueue_grows x s
    · split
      · exact originateEntry_grows x s
      · exact .of_link rfl
    · exact .of_link rfl

theorem zeroGrants_grows (xs : List Nat) (s : State) : FifoGrows s (zeroGrants xs s) :=
  (FifoGrows.foldl (f := fun s x => s.editBerth x fun b => { b with grant := 0 }) (fun _ _ => .of_link rfl) xs s).trans
    (.foldl (fun s x => pathGrantZeroed_grows x s) xs _)

theorem changeReserve_grows (st : ReserveState) (s : State) : FifoGrows s (changeReserve st s) := by
  unfold changeReserve
  split
  · exact .of_link rfl
  · exact notify_grows _ { s with reserve := { s.reserve with state := st } }

theorem closeCall_link (c : Call) (cause : CallCause) (target : Option Int) (s : State) :
    (closeCall c cause target s).link = s.link := by
  unfold closeCall editRecord
  dsimp only
  split <;> rfl

theorem reserveUnavailable_grows (cause : CallCause) (s : State) : FifoGrows s (reserveUnavailable cause s) := by
  unfold reserveUnavailable
  dsimp only
  refine .trans (.trans ?_ (.of_link rfl)) (changeReserve_grows _ _)
  split
  · exact .of_link rfl
  · exact .trans (.of_link (closeCall_link _ _ _ s)) (notify_grows _ _)

/-- What leaving RUN leaves, beside what `leaveRun_leaves` says: the meter, the map's length and the order of the upstream FIFO. -/
theorem leaveRun_frame (m : Mode) (c : ModeCause) (s : State) : (leaveRun m c s).meter = s.meter ∧
    (leaveRun m c s).berths.length = s.berths.length ∧ FifoGrows (notify (.mode s.ctl.mode m c) s) (leaveRun m c s) := by
  have told : (changeMode m c s).link = (notify (.mode s.ctl.mode m c) s).link :=
    (BerthBus.notify_congr (s := s) (t := { s with ctl := { s.ctl with mode := m } }) (b := .mode s.ctl.mode m c) rfl rfl rfl).1
  unfold leaveRun
  dsimp only
  generalize stopped : ({ changeMode m c s with alloc := { (changeMode m c s).alloc with periodRunning := false } } : State) = v
  have meter : v.meter = s.meter := by rw [← stopped, changeMode_only]
  have berths : v.berths = s.berths := by rw [← stopped, changeMode_only]
  have link : v.link = (notify (.mode s.ctl.mode m c) s).link := by rw [← stopped, ← told]
  have zeroed := zeroGrants_run berthNumbers v
  have grows := zeroGrants_grows berthNumbers v
  generalize zeroGrants berthNumbers v = z at zeroed grows
  have settled := (reserveUnavailable_step .mode { z with berths := z.berths.map fun b => { b with request := none } }).same
  refine ⟨settled.2.2.2.2.1.trans (zeroed.meter.trans meter), ?_, ?_⟩
  · rw [settled.2.1, List.length_map, zeroed.length, berths]
  · exact .trans (.trans (.of_link link) grows)
      (reserveUnavailable_grows .mode { z with berths := z.berths.map fun b => { b with request := none } })

/-- Out of RUN, the reserve UNAVAILABLE: behind the overrun a sample places at most the meter's notice. -/
theorem settleSample_unavailable {before : Bool} {out : State × Bool} (mode : out.1.ctl.mode ≠ .run)
    (state : out.1.reserve.state = .unavailable) (valid : out.1.meterValid = true) (frequency : Nat) :
    (settleSample before frequency out).berths = out.1.berths ∧ (settleSample before frequency out).alloc = out.1.alloc ∧
    (settleSample before frequency out).reserve = { out.1.reserve with tripCount := 0, recoverCount := 0 } ∧
    FifoGrows out.1 (settleSample before frequency out) := by
  have report : ∃ told : State, (reportMeter before out.1).1 = told ∧ told.berths = out.1.berths ∧ told.alloc = out.1.alloc ∧
      told.reserve = out.1.reserve ∧ told.ctl = out.1.ctl ∧ FifoGrows out.1 told := by
    refine ⟨_, rfl, ?_⟩
    unfold reportMeter
    rw [valid, if_pos rfl]
    split
    · exact ⟨rfl, rfl, rfl, rfl, .of_link rfl⟩
    · have stays : reserveAvailable (notify (.meterState out.1.meter.state none) out.1) =
          notify (.meterState out.1.meter.state none) out.1 :=
        if_neg fun h => mode (by simpa [State.inRun] using h.2.2)
      rw [stays]
      exact ⟨by simp, by simp, by simp, by simp, notify_grows _ _⟩
  obtain ⟨told, eq, berths, alloc, reserve, ctl, grows⟩ := report
  have still : told.tripCounts = false := by simp [State.tripCounts, reserve, state]
  have judged : frequencySample frequency told = (uncounted told, false) := by
    unfold frequencySample
    simp only [reserve, state, still, reduceCtorEq, false_and, Bool.false_eq_true, if_false, uncounted]
  have rest : settleSample before frequency out = uncounted told := by
    unfold settleSample
    dsimp only
    rw [eq, judged]
    unfold immediateIf
    split
    · exact SetpointWork.immediateRun_out (by rw [show (uncounted told).ctl = told.ctl from rfl, ctl]; exact mode)
    · rfl
  rw [rest]
  exact ⟨berths, alloc, by rw [uncounted, reserve], grows⟩

/-! ## The obligation -/

/-- What judging the overrun keeps of the parameters it reads. -/
theorem sampled_params (valid : BecomesValid s.meter) : (sampled s sample).feederLimit = s.feederLimit ∧
    (sampled s sample).overrunMargin = s.overrunMargin := by
  obtain ⟨-, -, -, -, -, -, -, -, link, -, -⟩ := sampled_same (sample := sample) valid
  unfold State.feederLimit State.overrunMargin State.param
  rw [link]
  exact ⟨rfl, rfl⟩

theorem overrunImport_normal (valid : BecomesValid s.meter) (normal : s.meter.overrun = .normal) :
    overrunImport power (sampled s sample) = normalSample power (sampled s sample) := by
  obtain ⟨state, overrun, -⟩ := sampled_same (sample := sample) valid
  unfold overrunImport
  rw [if_pos (by simp [State.meterValid, state]), overrun, normal]

theorem overrunImport_overrun (valid : BecomesValid s.meter) (overrun : s.meter.overrun = .overrun) :
    overrunImport power (sampled s sample) = (overrunSample power (sampled s sample), false) := by
  obtain ⟨state, same, -⟩ := sampled_same (sample := sample) valid
  unfold overrunImport
  rw [if_pos (by simp [State.meterValid, state]), same, overrun]

theorem entered_unwatched (quiet : Unwatched s.reserve) (m : Meter) : Unwatched (entered s sample m).reserve := by
  refine ⟨fun c call => ?_, quiet.2⟩
  obtain ⟨c', call', rfl⟩ := Option.map_eq_some_iff.mp call
  exact quiet.1 c' call'

/-- Where no frequency counts, a sample with a meter that was valid hands on nothing but what its overrun asks for. -/
theorem settleSample_entered (held : s.meter.state = .valid ∨ s.meter.state = .holding) (quiet : Unwatched s.reserve) (m : Meter)
    (asked : Bool) : settleSample s.meterValid sample.frequency (entered s sample m, asked) =
      immediateIf asked (uncounted (entered s sample m)) :=
  settleSample_quiet (out := (entered s sample m, asked)) (by simp [State.meterValid, entered, held]) (entered_unwatched quiet m) _

theorem settleSample_told (held : s.meter.state = .valid ∨ s.meter.state = .holding) (quiet : Unwatched s.reserve) (m : Meter)
    (asked : Bool) (b : NoticeBody) : settleSample s.meterValid sample.frequency (notify b (entered s sample m), asked) =
      immediateIf asked (notify b (uncounted (entered s sample m))) := by
  rw [← notify_uncounted]
  exact settleSample_quiet (out := (notify b (entered s sample m), asked))
    (by simp [State.meterValid, entered, held]) (by simpa using entered_unwatched (sample := sample) quiet m) _

theorem held_of_quiet (valid : BecomesValid s.meter) (settled : s.meter.state ≠ .recovering) :
    s.meter.state = .valid ∨ s.meter.state = .holding :=
  valid.imp_right fun h => h.resolve_right fun recovering => settled recovering.1

/-- R149: an overrun that goes on changes nothing of the meter but the escalation count behind the squeeze. -/
theorem escalate_meter (u : State) : (escalate u).meter = { u.meter with escalation := (escalate u).meter.escalation } := by
  by_cases run : u.ctl.mode = .run
  · by_cases many : 100 ≤ u.meter.escalation + 1
    · rw [escalate_leaves run many, (leaveRun_frame _ _ _).1]
    · rw [escalate_counts run (by omega)]
  · rw [escalate_out run]

/-- R149: the sample that escalates: SAFE_HOLD, with the one MODE notice before what else the sample places. -/
theorem settleSample_escalates {before : Bool} (run : u.ctl.mode = .run) (many : 100 ≤ u.meter.escalation + 1)
    (valid : u.meter.state = .valid) (link : u.link = s.link) (faults : u.faults = s.faults) (frequency : Nat)
    (left : settleSample before frequency (escalate u, false) = t) :
    t.ctl.mode = .safeHold ∧ t.meter.escalation = 0 ∧ t.alloc.periodRunning = false ∧ t.reserve.state = .unavailable ∧
    t.reserve.call = none ∧ FifoGrows (notify (.mode .run .safeHold .overrun) s) t ∧
    (u.berths.length = 36 → ∀ x, (t.berth x).grant = 0 ∧ (t.berth x).request = none) := by
  subst left
  obtain ⟨meter, mode⟩ := settleSample_same before frequency (escalate u, false)
  rw [escalate_leaves run many] at meter mode ⊢
  obtain ⟨ctl, grants, requests, period, state, call⟩ :=
    leaveRun_leaves .safeHold .overrun { u with meter := { u.meter with escalation := 0 } }
  obtain ⟨kept, length, grows⟩ := leaveRun_frame .safeHold .overrun { u with meter := { u.meter with escalation := 0 } }
  generalize leaveRun .safeHold .overrun { u with meter := { u.meter with escalation := 0 } } = v at *
  obtain ⟨berths, alloc, reserve, behind⟩ := settleSample_unavailable (before := before) (out := (v, false))
    (by simp [ctl]) state (by simp [State.meterValid, kept, valid]) frequency
  have told := (BerthBus.notify_congr (s := s) (t := { u with meter := { u.meter with escalation := 0 } })
    (b := .mode .run .safeHold .overrun) rfl link faults).1
  refine ⟨by rw [mode, ctl], by rw [meter, kept], by rw [alloc, period], by rw [reserve]; exact state,
    by rw [reserve]; exact call, ?_, fun all x => ?_⟩
  · rw [show ({ u with meter := { u.meter with escalation := 0 } } : State).ctl.mode = .run from run] at grows
    exact .trans (.of_link told) (.trans grows behind)
  · replace length : v.berths.length = 36 := length.trans all
    rw [berth_congr berths]
    by_cases lt : x < 36
    · have mem : v.berth x ∈ v.berths := by
        rw [State.berth, List.getD_eq_getElem _ _ (by rw [length]; omega)]
        exact List.getElem_mem _
      exact ⟨grants x lt, requests _ mem⟩
    · rw [State.berth, List.getD_eq_default _ _ (by rw [length]; omega)]
      exact ⟨rfl, rfl⟩

/-- Settles O59: the overrun's step decides meter and mode, and the hand-overs behind it add what the sample asks for. -/
theorem overrunsAreSqueezedAndEscalated : Obligations.OverrunsAreSqueezedAndEscalated := by
  unfold Obligations.OverrunsAreSqueezedAndEscalated
  intro s sample t live fresh valid next
  dsimp only
  rw [BerthBus.exec_meterSampleAccepted live, if_neg fresh, acceptSample_eq] at next
  obtain rfl := Host.Outcome.next.inj next
  obtain ⟨-, -, squeeze, count, most, low, escalation, ctl, link, faults, berths⟩ := sampled_same (sample := sample) valid
  obtain ⟨limit, margin⟩ := sampled_params (sample := sample) valid
  refine ⟨fun normal => ?_, fun overrun => ?_⟩
  · obtain ⟨meter, mode⟩ := settleSample_same s.meterValid sample.frequency (normalSample sample.power (sampled s sample))
    rw [overrunImport_normal valid normal]
    refine ⟨by rw [mode, normalSample_ctl, ctl], fun below => ?_, fun above few => ?_, fun above many => ?_⟩
    · rw [meter, normalSample_below (by rw [limit, margin]; exact below)]
      refine ⟨by simp [sampled_same valid, normal], rfl, squeeze, fun ⟨settled, quiet⟩ => ?_⟩
      have held := held_of_quiet valid settled
      rw [sampled_entered held]
      exact settleSample_entered held quiet { s.meter with overCount := 0, overExcess := 0 } false
    · rw [meter, normalSample_counts (by rw [limit, margin]; exact above) (by rw [count]; exact few), limit, count, most]
      refine ⟨by simp [sampled_same valid, normal], rfl, rfl, squeeze, fun ⟨settled, quiet⟩ => ?_⟩
      have held := held_of_quiet valid settled
      rw [sampled_entered held]
      exact settleSample_entered held quiet { s.meter with
        overCount := s.meter.overCount + 1
        overExcess := if s.meter.overCount = 0 then sample.power - s.feederLimit
          else max s.meter.overExcess (sample.power - s.feederLimit) } false
    · rw [meter, normalSample_enters (by rw [limit, margin]; exact above) (by rw [count]; exact many), limit, count, most]
      dsimp only
      refine ⟨by simp, by simp, by simp, by simp, by simp, fun ⟨settled, quiet⟩ => ?_⟩
      have held := held_of_quiet valid settled
      rw [sampled_entered held]
      exact settleSample_told held quiet { s.meter with
        overrun := .overrun
        squeeze := if s.meter.overCount = 0 then sample.power - s.feederLimit
          else max s.meter.overExcess (sample.power - s.feederLimit)
        overCount := 0, overExcess := 0, underCount := 0, escalation := 0 } true _
  · obtain ⟨meter, mode⟩ := settleSample_same s.meterValid sample.frequency (overrunSample sample.power (sampled s sample), false)
    rw [overrunImport_overrun valid overrun]
    refine ⟨fun ends => ?_, fun lasts => ?_⟩
    · rw [meter, mode, overrunSample_ends (by rw [limit]; exact ends.1) (by rw [low]; exact ends.2), limit]
      refine ⟨by simp, by simp, by simp, by simp, by simp [ctl], fun ⟨settled, quiet⟩ => ?_⟩
      have held := held_of_quiet valid settled
      rw [sampled_entered held]
      exact settleSample_told held quiet { s.meter with overrun := .normal, squeeze := 0, underCount := 0, escalation := 0 } false _
    · have goes := overrunSample_lasts (power := sample.power) (u := sampled s sample) (by rw [limit, low]; exact lasts)
      have held (settled : s.meter.state ≠ .recovering) : squeezed sample.power (sampled s sample) = entered s sample { s.meter with
          squeeze := max s.meter.squeeze (sample.power - s.feederLimit)
          underCount := if 0 < sample.power - s.feederLimit then 0 else s.meter.underCount + 1 } := by
        rw [sampled_entered (held_of_quiet valid settled)]; rfl
      have count : (squeezed sample.power (sampled s sample)).meter.escalation = s.meter.escalation := escalation
      have mode' : (squeezed sample.power (sampled s sample)).ctl.mode = s.ctl.mode := by rw [← ctl]; rfl
      rw [goes] at meter mode ⊢
      have kept := escalate_meter (squeezed sample.power (sampled s sample))
      refine ⟨?_, ?_, ?_, fun out => ?_, fun run few => ?_, fun ⟨settled, quiet⟩ stays => ?_, fun run many => ?_⟩
      · rw [meter, kept]; exact (sampled_same valid).2.1.trans overrun
      · rw [meter, kept]; simp only [squeezed, squeeze, limit]
      · rw [meter, kept]; simp only [squeezed, low, limit]
      · rw [meter, mode, escalate_out (by rw [mode']; exact out)]; exact ⟨mode', count⟩
      · rw [meter, mode, escalate_counts (mode'.trans run) (by rw [count]; exact few)]
        exact ⟨mode'.trans run, congrArg (· + 1) count⟩
      · by_cases run : s.ctl.mode = .run
        · rw [escalate_counts (mode'.trans run) (by rw [count]; exact stays.resolve_left (not_not_intro run)), held settled, if_pos run]
          exact settleSample_entered (held_of_quiet valid settled) quiet { s.meter with
            squeeze := max s.meter.squeeze (sample.power - s.feederLimit)
            underCount := if 0 < sample.power - s.feederLimit then 0 else s.meter.underCount + 1
            escalation := s.meter.escalation + 1 } false
        · rw [escalate_out (by rw [mode']; exact run), held settled, if_neg run]
          exact settleSample_entered (held_of_quiet valid settled) quiet _ false
      · obtain ⟨safe, zero, period, state, call, ⟨more, fifo⟩, berth⟩ := settleSample_escalates
          (u := squeezed sample.power (sampled s sample)) (before := s.meterValid) (mode'.trans run) (by rw [count]; exact many)
          (sampled_same valid).1 link faults sample.frequency rfl
        exact ⟨safe, zero, period, state, call, ⟨more, fifo.symm⟩, fun all => berth ((congrArg List.length berths).trans all)⟩

end Sys2Proof.Machine.ChargeRuns
end

