-- ==== Sys2Proof/Proofs/FloorPasses.lean ====
section
/-! Proofs/FloorPasses.lean: the pass order, and what passes 1 and 2 give each served berth as the berths before it leave it
(R79, R83 to R85). -/

namespace Sys2Proof.Machine.ChargeRuns

variable {s : State} {b : Budgets} {served l front back order : List Served} {v w : Served}

/-! ## A sort that keeps the order of equals (R79, R87) -/

section
variable {α : Type} {before : α → α → Bool} {key : α → Nat}

/-- `a` stands before `b` by the order sorted by or, where that leaves both orders open, by its smaller key. -/
def Precedes (before : α → α → Bool) (key : α → Nat) (a b : α) : Prop :=
  before a b = true ∨ (before b a = false ∧ key a < key b)

variable (cotrans : ∀ a b c, before a b = true → before a c = true ∨ before c b = true)
  (asymm : ∀ a b, before a b = true → before b a = false)
include cotrans asymm

theorem before_of_precedes {a b c : α} (first : before a b = true) (behind : Precedes before key b c) : before a c = true :=
  (cotrans a b c first).resolve_right fun back => by
    rcases behind with less | ⟨open', -⟩
    · exact Bool.false_ne_true ((asymm _ _ less).symm.trans back)
    · exact Bool.false_ne_true (open'.symm.trans back)

theorem insertBy_precedes {a : α} {l : List α} (sorted : l.Pairwise (Precedes before key)) (newest : ∀ b ∈ l, key b < key a) :
    (insertBy before a l).Pairwise (Precedes before key) := by
  induction l with
  | nil => exact List.pairwise_singleton _ _
  | cons b l ih =>
    obtain ⟨head, tail⟩ := List.pairwise_cons.mp sorted
    unfold insertBy
    split
    next first =>
      refine List.pairwise_cons.mpr ⟨fun c mem => .inl ?_, sorted⟩
      rcases List.mem_cons.mp mem with rfl | mem
      · exact first
      · exact before_of_precedes cotrans asymm first (head c mem)
    next later =>
      refine List.pairwise_cons.mpr ⟨fun c mem => ?_, ih tail fun c mem => newest c (List.mem_cons_of_mem b mem)⟩
      rcases SetpointWork.mem_insertBy.mp mem with rfl | mem
      · exact .inr ⟨Bool.eq_false_iff.mpr later, newest b List.mem_cons_self⟩
      · exact head c mem

/-- A list in ascending order of the keys is sorted with the smaller key first among equals. -/
theorem sortBy_precedes {l : List α} (rising : l.Pairwise fun a b => key a < key b) :
    (sortBy before l).Pairwise (Precedes before key) := by
  have grow (l sorted : List α) (rising : l.Pairwise fun a b => key a < key b) (behind : ∀ b ∈ sorted, ∀ a ∈ l, key b < key a)
      (start : sorted.Pairwise (Precedes before key)) :
      (l.foldl (fun sorted a => insertBy before a sorted) sorted).Pairwise (Precedes before key) := by
    induction l generalizing sorted with
    | nil => exact start
    | cons a l ih =>
      obtain ⟨head, tail⟩ := List.pairwise_cons.mp rising
      refine ih _ tail (fun b mem c behind' => ?_)
        (insertBy_precedes cotrans asymm start fun b mem => behind b mem a List.mem_cons_self)
      rcases SetpointWork.mem_insertBy.mp mem with rfl | mem
      · exact head c behind'
      · exact behind b mem c (List.mem_cons_of_mem a behind')
  exact grow l [] rising (fun _ mem => absurd mem List.not_mem_nil) .nil

end

/-- R79: `v` stands ahead of `w` in the pass order. -/
def Ahead (v w : Served) : Prop := match v.slack, w.slack with
  | .noCap, .time _ => True
  | .noCap, .absent => True
  | .time _, .absent => True
  | .time m, .time n => m < n ∨ (m = n ∧ v.berth < w.berth)
  | .noCap, .noCap => v.berth < w.berth
  | .absent, .absent => v.berth < w.berth
  | _, _ => False

/-- The three kinds of slack in their order (R79). -/
def slackRank : Slack → Nat
  | .noCap => 0
  | .time _ => 1
  | .absent => 2

/-- The minutes of a slack that has them. -/
def slackMinutes : Slack → Int
  | .time n => n
  | _ => 0

theorem slack_before_iff (a b : Slack) : a.before b = true ↔
    slackRank a < slackRank b ∨ (slackRank a = slackRank b ∧ slackMinutes a < slackMinutes b) := by
  cases a <;> cases b <;> simp [Slack.before, slackRank, slackMinutes]

theorem ahead_iff (v w : Served) : Ahead v w ↔ slackRank v.slack < slackRank w.slack ∨ (slackRank v.slack = slackRank w.slack ∧
    (slackMinutes v.slack < slackMinutes w.slack ∨
      (slackMinutes v.slack = slackMinutes w.slack ∧ v.berth < w.berth))) := by
  unfold Ahead
  cases v.slack <;> cases w.slack <;> simp [slackRank, slackMinutes]

theorem slack_before_cotrans (a b c : Slack) (first : a.before b = true) : a.before c = true ∨ c.before b = true := by
  rw [slack_before_iff] at *
  rw [slack_before_iff]
  omega

theorem slack_before_asymm (a b : Slack) (first : a.before b = true) : b.before a = false := by
  rw [← Bool.not_eq_true, slack_before_iff]
  rw [slack_before_iff] at first
  omega

theorem ahead_of_precedes (h : Precedes (fun v w : Served => v.slack.before w.slack) (·.berth) v w) : Ahead v w := by
  unfold Precedes at h
  rw [← Bool.not_eq_true, slack_before_iff, slack_before_iff] at h
  rw [ahead_iff]
  dsimp only at h
  omega

theorem passOrder_perm (served : List Served) : (passOrder served).Perm served := sortBy_perm _ _

theorem passOrder_ahead (rising : served.Pairwise fun v w => v.berth < w.berth) : (passOrder served).Pairwise Ahead :=
  (sortBy_precedes (fun a b c => slack_before_cotrans a.slack b.slack c.slack)
    (fun a b => slack_before_asymm a.slack b.slack) rising).imp ahead_of_precedes

theorem apart_of_nodup (nodup : ((v :: l).map (·.berth)).Nodup) : ∀ w ∈ l, w.berth ≠ v.berth := fun w mem e =>
  (List.nodup_cons.mp nodup).1 (List.mem_map.mpr ⟨w, mem, e⟩)

/-! ## A pass that hands an amount to each berth in turn -/

section
variable {amount : Passing → Served → Int} {put : Int → Int} {p : Passing}

/-- A berth of a pass: its working grant is written with the amount, and the rest goes down by it. -/
def handOut (put : Int → Int) (amount : Passing → Served → Int) (p : Passing) (v : Served) : Passing :=
  ⟨p.grants.set v.berth (put (amount p v)), p.rest - amount p v⟩

theorem handOut_length (l : List Served) (p : Passing) : (l.foldl (handOut put amount) p).grants.length = p.grants.length := by
  induction l generalizing p with
  | nil => rfl
  | cons v l ih => rw [List.foldl_cons, ih, handOut, List.length_set]

theorem handOut_outside {x : Nat} (outside : ∀ v ∈ l, v.berth ≠ x) (low : ∀ v ∈ l, v.berth < p.grants.length) :
    grantOf (l.foldl (handOut put amount) p).grants x = grantOf p.grants x := by
  induction l generalizing p with
  | nil => rfl
  | cons v l ih =>
    have here := low v List.mem_cons_self
    rw [List.foldl_cons, ih (fun w mem => outside w (List.mem_cons_of_mem v mem))
      (fun w mem => by rw [handOut, List.length_set]; exact low w (List.mem_cons_of_mem v mem)), handOut, grantOf_set _ _ _ _ here,
      if_neg fun e => outside v List.mem_cons_self e.symm]

/-- What is left behind a pass is what was there less all that its berths have. -/
theorem handOut_rest {taken : Int → Int} (inverse : ∀ n, taken (put n) = n) (nodup : (l.map (·.berth)).Nodup)
    (low : ∀ v ∈ l, v.berth < p.grants.length) : (l.foldl (handOut put amount) p).rest =
      p.rest - sumOf (fun v => taken (grantOf (l.foldl (handOut put amount) p).grants v.berth)) l := by
  induction l generalizing p with
  | nil => exact (Int.sub_zero _).symm
  | cons v l ih =>
    have tail := (List.nodup_cons.mp nodup).2
    have low' : ∀ w ∈ l, w.berth < (handOut put amount p v).grants.length := fun w mem => by
      rw [handOut, List.length_set]; exact low w (List.mem_cons_of_mem v mem)
    have own : grantOf (l.foldl (handOut put amount) (handOut put amount p v)).grants v.berth = put (amount p v) := by
      rw [handOut_outside (apart_of_nodup nodup) low', handOut,
        grantOf_set _ _ _ _ (low v List.mem_cons_self), if_pos rfl]
    rw [List.foldl_cons, ih tail low', sumOf_cons, own, inverse]
    dsimp only [handOut]
    omega

/-- At its turn a berth finds the grants that the berths before it end with, and takes its own. -/
theorem handOut_cut (nodup : ((front ++ v :: back).map (·.berth)).Nodup) (low : ∀ w ∈ front ++ v :: back, w.berth < p.grants.length) :
    grantOf ((front ++ v :: back).foldl (handOut put amount) p).grants v.berth =
      put (amount (front.foldl (handOut put amount) p) v) ∧
    ∀ w ∈ front, grantOf (front.foldl (handOut put amount) p).grants w.berth =
      grantOf ((front ++ v :: back).foldl (handOut put amount) p).grants w.berth := by
  rw [List.map_append, List.map_cons, List.nodup_append] at nodup
  obtain ⟨-, later, apart⟩ := nodup
  have mid : (front.foldl (handOut put amount) p).grants.length = p.grants.length := handOut_length _ _
  rw [List.foldl_append]
  refine ⟨?_, fun w mem => (handOut_outside (fun u behind e => ?_) fun u behind => ?_).symm⟩
  · rw [List.foldl_cons, handOut_outside (apart_of_nodup later), handOut, grantOf_set, if_pos rfl]
    · rw [mid]; exact low v (by simp)
    · intro w mem
      rw [handOut, List.length_set, mid]; exact low w (by simp [mem])
  · exact apart _ (List.mem_map_of_mem mem) _ (by rw [← List.map_cons]; exact List.mem_map_of_mem behind) e.symm
  · rw [mid]; exact low u (List.mem_append_right _ behind)

end

/-! ## Sums over the working grants (R83) -/

theorem sumOf_eq_zero {α : Type} {f : α → Int} {l : List α} (zero : ∀ a ∈ l, f a = 0) : sumOf f l = 0 := by
  rw [sumOf_congr zero, sumOf_eq]; simp

theorem sumOf_append {α : Type} (f : α → Int) (l m : List α) : sumOf f (l ++ m) = sumOf f l + sumOf f m := by
  rw [sumOf_eq, sumOf_eq, sumOf_eq, List.map_append, List.sum_append]

/-- The working grants, summed over the berths outside which they are 0. -/
theorem sumOf_grants_over {f : Int → Int} (none : f 0 = 0) {grants : List Int} (nodup : (l.map (·.berth)).Nodup)
    (low : ∀ v ∈ l, v.berth < grants.length) (outside : ∀ x, (∀ v ∈ l, v.berth ≠ x) → grantOf grants x = 0) :
    sumOf f grants = sumOf (fun v => f (grantOf grants v.berth)) l := by
  induction l generalizing grants with
  | nil =>
    rw [sumOf_grants_range, sumOf_nil, ← sumOf_eq]
    exact sumOf_eq_zero fun x _ => by rw [outside x fun _ mem => absurd mem List.not_mem_nil, none]
  | cons v l ih =>
    have tail := (List.nodup_cons.mp nodup).2
    have here := low v List.mem_cons_self
    have others := apart_of_nodup nodup
    have set := sumOf_set f grants v.berth 0 here
    have rest := ih (grants := grants.set v.berth 0) tail (fun w mem => by rw [List.length_set]; exact low w (List.mem_cons_of_mem v mem))
      fun x free => by
        rw [grantOf_set _ _ _ _ here]
        split
        next => rfl
        next ne => exact outside x (List.forall_mem_cons.mpr ⟨fun e => ne e.symm, free⟩)
    have kept : sumOf (fun w => f (grantOf (grants.set v.berth 0) w.berth)) l = sumOf (fun w => f (grantOf grants w.berth)) l :=
      sumOf_congr fun w mem => by rw [grantOf_set _ _ _ _ here, if_neg (others w mem)]
    rw [sumOf_cons, ← kept, ← rest, set, none]
    unfold grantOf
    omega

/-! ## Passes 1 and 2 (R84, R85) -/

/-- No berth has a working grant yet, and the hard budget is whole. -/
def ungiven (b : Budgets) : Passing := ⟨List.replicate Config.berths 0, max 0 b.hard⟩

theorem grantOf_ungiven (b : Budgets) (x : Nat) : grantOf (ungiven b).grants x = 0 := by
  simp only [ungiven, grantOf, List.getD_eq_getElem?_getD, List.getElem?_replicate]
  split <;> rfl

/-- The working state behind pass 2. -/
def floored (s : State) (b : Budgets) (served : List Served) : Passing :=
  (passOrder served).foldl (floorStep s served b.soft) ((passOrder served).foldl (guardStep s served) (ungiven b))

/-- What berth `v` takes of passes 1 and 2 at its turn. -/
def floorAmount (s : State) (served : List Served) (soft : Int) (p : Passing) (v : Served) : Int :=
  let within := min (min (v.floor : Int) (s.groupRoom served p.grants v.group)) p.rest
  if v.guarded then within else min within (max 0 (soft - grantedSum p.grants))

/-- The berths in the order in which passes 1 and 2 come to them. -/
def floorOrder (order : List Served) : List Served := order.filter (·.guarded) ++ order.filter (!·.guarded)

theorem floorOrder_perm (order : List Served) : (floorOrder order).Perm order := List.filter_append_perm _ _

theorem floored_eq (s : State) (b : Budgets) (served : List Served) : floored s b served =
    (floorOrder (passOrder served)).foldl (handOut id (floorAmount s served b.soft)) (ungiven b) := by
  rw [floorOrder, List.foldl_append, List.foldl_filter, List.foldl_filter]
  have guard : guardStep s served = fun p v => if v.guarded = true then handOut id (floorAmount s served b.soft) p v else p := by
    funext p v
    unfold guardStep handOut floorAmount
    split <;> rfl
  have floor : floorStep s served b.soft = fun p v =>
      if (!v.guarded) = true then handOut id (floorAmount s served b.soft) p v else p := by
    funext p v
    unfold floorStep handOut floorAmount
    cases v.guarded <;> rfl
  rw [floored, guard, floor]

theorem floored_ok (nodup : (served.map (·.berth)).Nodup) (low : ∀ v ∈ served, v.berth < 36) (s : State) (b : Budgets) :
    PassOk s served (max 0 b.hard) (floored s b served) := by
  have perm := passOrder_perm served
  have sub : ∀ v ∈ passOrder served, v ∈ served := fun v mem => perm.mem_iff.mp mem
  have nodup' : ((passOrder served).map (·.berth)).Nodup := (perm.map _).nodup_iff.mpr nodup
  have sum : grantedSum (ungiven b).grants = 0 := by
    change grantedSum (List.replicate Config.berths 0) = 0
    decide
  have start : PassOk s served (max 0 b.hard) (ungiven b) := by
    refine ⟨by simp [ungiven], Int.le_max_left .., by rw [sum]; exact Int.zero_add _, fun x => (grantOf_ungiven b x).ge, fun g => ?_,
      fun v _ some => absurd (grantOf_ungiven b _) some, fun x _ => grantOf_ungiven b x⟩
    have empty : groupSum served (ungiven b).grants g = 0 := sumOf_eq_zero fun v _ => by rw [grantOf_ungiven]; rfl
    rw [empty]
    exact Int.le_max_left ..
  obtain ⟨first, free⟩ := PassOk.guards nodup low _ sub nodup' _ start fun v _ => grantOf_ungiven b _
  exact PassOk.floors nodup low _ sub nodup' _ first free

/-- What passes 1 and 2 give berth `v`. -/
def givenTo (s : State) (b : Budgets) (served : List Served) (v : Served) : Int := grantOf (floored s b served).grants v.berth

/-- What the berths `l` leave of group `g`, each with what `f` says (R83). -/
def roomBehind (s : State) (l : List Served) (f : Served → Int) (g : Nat) : Int :=
  if (s.groupEntry g).enable = true then
    max 0 ((s.groupEntry g).limit - ((l.filter fun v => decide (v.group = g)).map fun v => max 0 (f v)).sum)
  else 0

theorem groupRoom_eq (s : State) (l : List Served) (grants : List Int) (g : Nat) :
    s.groupRoom l grants g = roomBehind s l (fun v => grantOf grants v.berth) g := by
  unfold State.groupRoom roomBehind; rw [sumOf_eq]

theorem groupRoom_perm {m : List Served} (perm : l.Perm m) (s : State) (grants : List Int) (g : Nat) :
    s.groupRoom l grants g = s.groupRoom m grants g := by
  unfold State.groupRoom; rw [sumOf_perm _ (perm.filter _)]

/-- R84, R85: what a berth is given, the berths of passes 1 and 2 before it being `front`. -/
theorem givenTo_turn (nodup : (served.map (·.berth)).Nodup) (low : ∀ v ∈ served, v.berth < 36)
    (cut : floorOrder (passOrder served) = front ++ v :: back) :
    let sum := (front.map (givenTo s b served)).sum
    let within := min (min (v.floor : Int) (roomBehind s front (givenTo s b served) v.group)) (max 0 b.hard - sum)
    givenTo s b served v = if v.guarded = true then within else min within (max 0 (b.soft - sum)) := by
  intro sum within
  have perm : (front ++ v :: back).Perm served := cut ▸ (floorOrder_perm _).trans (passOrder_perm served)
  have nodup' : ((front ++ v :: back).map (·.berth)).Nodup := (perm.map _).nodup_iff.mpr nodup
  have low' : ∀ w ∈ front ++ v :: back, w.berth < (ungiven b).grants.length := fun w mem => by
    simpa [ungiven, Config.berths] using low w (perm.mem_iff.mp mem)
  have lowFront : ∀ w ∈ front, w.berth < (ungiven b).grants.length := fun w mem => low' w (List.mem_append_left _ mem)
  have nodupFront : (front.map (·.berth)).Nodup := by
    rw [List.map_append] at nodup'
    exact (List.nodup_append.mp nodup').1
  obtain ⟨own, found⟩ := handOut_cut (put := id) (amount := floorAmount s served b.soft) nodup' low'
  have rest := handOut_rest (put := id) (amount := floorAmount s served b.soft) (taken := id) (fun _ => rfl) nodupFront lowFront
  have outside (x : Nat) (free : ∀ w ∈ front, w.berth ≠ x) :=
    (handOut_outside (put := id) (amount := floorAmount s served b.soft) free lowFront).trans (grantOf_ungiven b x)
  have length := handOut_length (put := id) (amount := floorAmount s served b.soft) front (ungiven b)
  rw [← cut, ← floored_eq] at own found
  generalize front.foldl (handOut id (floorAmount s served b.soft)) (ungiven b) = mid at own found rest outside length
  have nonneg := (floored_ok nodup low s b).nonneg
  have spent : sumOf (fun w => grantOf mid.grants w.berth) front = sum := by
    rw [sumOf_congr found, sumOf_eq]; rfl
  have granted : grantedSum mid.grants = sum := by
    rw [← spent, grantedSum, sumOf_grants_over (l := front) rfl nodupFront (fun w mem => by rw [length]; exact lowFront w mem) outside]
    exact sumOf_congr fun w mem => by rw [found w mem]; exact Int.max_eq_right (nonneg _)
  have room : s.groupRoom served mid.grants v.group = roomBehind s front (givenTo s b served) v.group := by
    have behind : ∀ w ∈ v :: back, ∀ u ∈ front, u.berth ≠ w.berth := fun w mem u ahead => by
      rw [List.map_append] at nodup'
      exact (List.nodup_append.mp nodup').2.2 _ (List.mem_map_of_mem ahead) _ (List.mem_map_of_mem mem)
    rw [← groupRoom_perm perm]
    unfold State.groupRoom roomBehind
    rw [List.filter_append, sumOf_append, sumOf_eq_zero (l := (v :: back).filter _) fun w mem => by
        rw [outside _ (behind w (List.mem_of_mem_filter mem))]; rfl,
      Int.add_zero, sumOf_congr fun w mem => by rw [found w (List.mem_of_mem_filter mem)], sumOf_eq]
    rfl
  have left : mid.rest = max 0 b.hard - sum := by rw [rest, ← spent]; rfl
  have amount : givenTo s b served v = floorAmount s served b.soft mid v := own
  rw [amount, floorAmount, room, left, granted]

/-- R84, R85: what a berth of the pass order is given. -/
theorem givenTo_eq (nodup : (served.map (·.berth)).Nodup) (low : ∀ v ∈ served, v.berth < 36)
    (cut : passOrder served = front ++ v :: back) :
    let earlier := if v.guarded = true then front.filter (·.guarded)
      else (passOrder served).filter (·.guarded) ++ front.filter (!·.guarded)
    let sum := (earlier.map (givenTo s b served)).sum
    let within := min (min (v.floor : Int) (roomBehind s earlier (givenTo s b served) v.group)) (max 0 b.hard - sum)
    givenTo s b served v = if v.guarded = true then within else min within (max 0 (b.soft - sum)) := by
  by_cases guarded : v.guarded = true
  · have turn := givenTo_turn (s := s) (b := b) (front := front.filter (·.guarded)) (v := v)
      (back := back.filter (·.guarded) ++ (passOrder served).filter (!·.guarded)) nodup low
      (by rw [floorOrder]; simp [guarded, cut])
    simpa only [guarded, if_true] using turn
  · have turn := givenTo_turn (s := s) (b := b) (front := (passOrder served).filter (·.guarded) ++ front.filter (!·.guarded)) (v := v)
      (back := back.filter (!·.guarded)) nodup low (by rw [floorOrder]; simp [guarded, cut])
    simpa only [guarded, Bool.false_eq_true, if_false] using turn

end Sys2Proof.Machine.ChargeRuns
end

