-- ==== Sys2Proof/Proofs/SharedPower.lean ====
section
/-! Proofs/SharedPower.lean: the rounds of pass 3 end, what pass 4 takes from each berth, and that a run writes what the four
passes leave (R83 to R87, R91). -/

namespace Sys2Proof.Machine.ChargeRuns

variable {s u t : State} {b : Budgets} {served l front back order : List Served} {v w : Served} {p : Passing} {total most : Int}

/-! ## One berth of a round (R86) -/

theorem fillStep_ok (nodup : (order.map (·.berth)).Nodup) (low : ∀ v ∈ order, v.berth < 36) (ok : PassOk s order total p)
    (mem : v ∈ order) (most : Int) : PassOk s order total (fillStep s order most p v) := by
  have rest := ok.rest
  have room := groupRoom_nonneg s order p.grants v.group
  unfold fillStep State.fillRoom
  exact ok.gain nodup low mem (by omega) (by omega) (by omega)

theorem fillFold_ok (nodup : (order.map (·.berth)).Nodup) (low : ∀ v ∈ order, v.berth < 36) (ok : PassOk s order total p)
    (sub : ∀ v ∈ l, v ∈ order) (most : Int) : PassOk s order total (l.foldl (fillStep s order most) p) := by
  induction l generalizing p with
  | nil => exact ok
  | cons v l ih =>
    exact ih (fillStep_ok nodup low ok (sub v List.mem_cons_self) most) fun w mem => sub w (List.mem_cons_of_mem v mem)

theorem fillStep_grows (here : v.berth < p.grants.length) (s : State) (order : List Served) (most : Int) (x : Nat) :
    grantOf p.grants x ≤ grantOf (fillStep s order most p v).grants x := by
  unfold fillStep
  rw [grantOf_set _ _ _ _ here]
  split
  next same => rw [same]; omega
  next => exact Int.le_refl _

theorem fillFold_grows (nodup : (order.map (·.berth)).Nodup) (low : ∀ v ∈ order, v.berth < 36) (ok : PassOk s order total p)
    (sub : ∀ v ∈ l, v ∈ order) (most : Int) (x : Nat) :
    grantOf p.grants x ≤ grantOf (l.foldl (fillStep s order most) p).grants x := by
  induction l generalizing p with
  | nil => exact Int.le_refl _
  | cons v l ih =>
    have mem := sub v List.mem_cons_self
    exact (fillStep_grows (by rw [ok.length]; exact low v mem) s order most x).trans
      (ih (fillStep_ok nodup low ok mem most) fun w mem => sub w (List.mem_cons_of_mem v mem))

/-- R86: what a berth can still take only shrinks as grants grow. -/
theorem fillRoom_antitone {grants grants' : List Int} (grow : ∀ x, grantOf grants x ≤ grantOf grants' x) (s : State)
    (order : List Served) (v : Served) : s.fillRoom order grants' v ≤ s.fillRoom order grants v := by
  have sum := sumOf_le (l := order.filter fun w => decide (w.group = v.group)) (f := fun w => max 0 (grantOf grants w.berth))
    (g := fun w => max 0 (grantOf grants' w.berth)) fun w _ => by have := grow w.berth; omega
  have own := grow v.berth
  unfold State.fillRoom State.groupRoom
  split <;> omega

theorem fillRoom_of_enabled (enabled : (s.groupEntry v.group).enable = true) (order : List Served) (grants : List Int) :
    s.fillRoom order grants v =
      min ((v.cap : Int) - grantOf grants v.berth) (max 0 ((s.groupEntry v.group).limit - groupSum order grants v.group)) := by
  unfold State.fillRoom State.groupRoom
  rw [if_pos enabled]
  rfl

theorem enabled_of_fillRoom {grants : List Int} (room : 0 < s.fillRoom order grants v) : (s.groupEntry v.group).enable = true := by
  by_contra disabled
  unfold State.fillRoom State.groupRoom at room
  rw [if_neg disabled] at room
  omega

/-- A berth that can take more after its turn has gained all that the round lets it have. -/
theorem fillStep_rest (nodup : (order.map (·.berth)).Nodup) (low : ∀ v ∈ order, v.berth < 36) (ok : PassOk s order total p)
    (mem : v ∈ order) (positive : 0 < most) (more : 0 < s.fillRoom order (fillStep s order most p v).grants v) :
    (fillStep s order most p v).rest = max 0 (p.rest - most) := by
  have here : v.berth < p.grants.length := by rw [ok.length]; exact low v mem
  have rest := ok.rest
  have own := ok.nonneg v.berth
  have sum (n : Int) := groupSum_set nodup mem p.grants n here v.group
  have enabled := enabled_of_fillRoom more
  rw [fillRoom_of_enabled enabled, fillStep, grantOf_set _ _ _ _ here, sum] at more
  rw [fillStep]
  rw [if_pos rfl, if_pos rfl] at more
  rw [fillRoom_of_enabled enabled] at more ⊢
  dsimp only
  omega

/-- A round after which every berth of `l` can take more has given each of them its share, as far as the rest went. -/
theorem fillFold_rest (nodup : (order.map (·.berth)).Nodup) (low : ∀ v ∈ order, v.berth < 36) (ok : PassOk s order total p)
    (sub : ∀ v ∈ l, v ∈ order) (positive : 0 < most)
    (more : ∀ v ∈ l, 0 < s.fillRoom order (l.foldl (fillStep s order most) p).grants v) :
    (l.foldl (fillStep s order most) p).rest = max 0 (p.rest - l.length * most) := by
  induction l generalizing p with
  | nil => have := ok.rest; simp; omega
  | cons v l ih =>
    have mem := sub v List.mem_cons_self
    have sub' : ∀ w ∈ l, w ∈ order := fun w mem => sub w (List.mem_cons_of_mem v mem)
    have ok' := fillStep_ok nodup low ok mem most
    have turn := fillStep_rest nodup low ok mem positive
      ((more v List.mem_cons_self).trans_le (fillRoom_antitone (fillFold_grows nodup low ok' sub' most) s order v))
    have behind := ih ok' sub' fun w mem => more w (List.mem_cons_of_mem v mem)
    have shares : ((v :: l).length : Int) * most = l.length * most + most := by rw [List.length_cons]; push_cast; ring
    have nonneg : 0 ≤ (l.length : Int) * most := Int.mul_nonneg (Int.natCast_nonneg _) positive.le
    rw [List.foldl_cons, behind, turn, shares]
    omega

/-! ## The rounds (R86) -/

/-- The fill-eligible berths. -/
def filling (s : State) (order : List Served) (p : Passing) : List Served := order.filter (s.fillEligible order p.grants)

def fillShare (s : State) (order : List Served) (p : Passing) : Int := p.rest / ((filling s order p).length : Int)

/-- One round of pass 3. -/
def fillRound (s : State) (order : List Served) (p : Passing) : Passing :=
  (filling s order p).foldl (fillStep s order (if 0 < fillShare s order p then fillShare s order p else 1)) p

/-- Pass 3 is over. -/
def Filled (s : State) (order : List Served) (p : Passing) : Prop := p.rest ≤ 0 ∨ filling s order p = []

theorem fillRounds_filled (filled : Filled s order p) (n : Nat) : fillRounds s order n p = p := by
  cases n with
  | zero => rfl
  | succ n => exact if_pos filled

theorem fillRounds_succ (open' : ¬ Filled s order p) (n : Nat) :
    fillRounds s order (n + 1) p = fillRounds s order n (fillRound s order p) := if_neg open'

section
variable (nodup : (order.map (·.berth)).Nodup) (low : ∀ v ∈ order, v.berth < 36)
include nodup low

theorem fillRound_ok (ok : PassOk s order total p) : PassOk s order total (fillRound s order p) :=
  fillFold_ok nodup low ok (fun _ mem => List.mem_of_mem_filter mem) _

theorem filling_shrinks (ok : PassOk s order total p) :
    (filling s order (fillRound s order p)).Sublist (filling s order p) := by
  refine List.monotone_filter_right order fun v eligible => ?_
  have room := fillRoom_antitone (fillFold_grows nodup low ok (l := filling s order p) (fun _ mem => List.mem_of_mem_filter mem)
    (if 0 < fillShare s order p then fillShare s order p else 1)) s order v
  unfold State.fillEligible at *
  rw [Bool.and_eq_true, decide_eq_true_eq] at *
  exact ⟨eligible.1, eligible.2.trans_le room⟩

/-- What every round that leaves a rest makes smaller: the berths of the fill and, by those, whether the rest is a share for each. -/
def fillLoad (s : State) (order : List Served) (p : Passing) : Nat :=
  2 * (filling s order p).length + if 0 < fillShare s order p then 1 else 0

theorem fillRound_progress (ok : PassOk s order total p) (open' : ¬ Filled s order p) :
    (fillRound s order p).rest ≤ 0 ∨ fillLoad s order (fillRound s order p) < fillLoad s order p := by
  obtain ⟨rest, some⟩ := not_or.mp open'
  have shrinks := filling_shrinks nodup low ok
  have count : 0 < ((filling s order p).length : Int) := by
    exact_mod_cast List.length_pos_iff.mpr some
  by_cases fewer : (filling s order (fillRound s order p)).length < (filling s order p).length
  · right
    unfold fillLoad
    split <;> split <;> omega
  · have same := shrinks.eq_of_length_le (Nat.le_of_not_lt fewer)
    have more : ∀ v ∈ filling s order p, 0 < s.fillRoom order (fillRound s order p).grants v := fun v mem => by
      rw [← same] at mem
      have eligible := (List.mem_filter.mp mem).2
      unfold State.fillEligible at eligible
      exact of_decide_eq_true (Bool.and_eq_true_iff.mp eligible).2
    have left := fillFold_rest (l := filling s order p) nodup low ok (fun _ mem => List.mem_of_mem_filter mem)
      (by split <;> omega : 0 < if 0 < fillShare s order p then fillShare s order p else 1) more
    change (fillRound s order p).rest = _ at left
    by_cases share : 0 < fillShare s order p
    · right
      rw [if_pos share] at left
      have parts := Int.mul_ediv_add_emod p.rest ((filling s order p).length : Int)
      have under := Int.emod_lt_of_pos p.rest count
      have nonneg := Int.emod_nonneg p.rest (Int.ne_of_gt count)
      have next : fillShare s order (fillRound s order p) = 0 := by
        unfold fillShare
        rw [same]
        exact Int.ediv_eq_zero_of_lt (by omega) (by rw [left]; unfold fillShare; omega)
      unfold fillLoad
      rw [next, same, if_pos share, if_neg (lt_irrefl _)]
      omega
    · left
      have short : p.rest < 1 * ((filling s order p).length : Int) :=
        (Int.ediv_lt_iff_lt_mul count).mp (by unfold fillShare at share; omega)
      rw [if_neg share] at left
      omega

/-- R86: with rounds enough the fill ends, and every round before found something to give to a berth that could take it. -/
theorem fillRounds_end (n : Nat) (ok : PassOk s order total p) (enough : Filled s order p ∨ fillLoad s order p < n) :
    ∃ k, (∀ j, j < k → ¬ Filled s order ((fillRound s order)^[j] p)) ∧
      (fillRound s order)^[k] p = fillRounds s order n p ∧ Filled s order (fillRounds s order n p) := by
  induction n generalizing p with
  | zero =>
    have filled := enough.resolve_right (Nat.not_lt_zero _)
    exact ⟨0, fun _ none => absurd none (Nat.not_lt_zero _), rfl, filled⟩
  | succ n ih =>
    by_cases filled : Filled s order p
    · exact ⟨0, fun _ none => absurd none (Nat.not_lt_zero _), (fillRounds_filled filled _).symm,
        by rw [fillRounds_filled filled]; exact filled⟩
    · have less := enough.resolve_left filled
      obtain ⟨k, before, last, ended⟩ := ih (fillRound_ok nodup low ok)
        ((fillRound_progress nodup low ok filled).imp .inl fun less' => by omega)
      rw [fillRounds_succ filled]
      refine ⟨k + 1, fun j lt => ?_, last, ended⟩
      cases j with
      | zero => exact filled
      | succ j => exact before j (by omega)

end

/-! ## Pass 4 (R87) -/

/-- What the berth `v` discharges at its turn of pass 4. -/
def dischargeAmount (s : State) (p : Passing) (v : Served) : Int := min (min (v.dcap : Int) (s.powerAvailable v)) p.rest

/-- The berths of pass 4 without a grant in an enabled group, `filled` being the working grants that it finds. -/
def parked (s : State) (filled : List Int) (l : List Served) : List Served :=
  l.filter fun v => decide (grantOf filled v.berth = 0) && (s.groupEntry v.group).enable

/-- Pass 4 hands its amounts to the parked berths alone. -/
theorem dischargeFold_eq (nodup : (l.map (·.berth)).Nodup) (low : ∀ v ∈ l, v.berth < p.grants.length) {filled : List Int}
    (found : ∀ v ∈ l, grantOf p.grants v.berth = grantOf filled v.berth) :
    l.foldl (dischargeStep s) p = (parked s filled l).foldl (handOut Neg.neg (dischargeAmount s)) p := by
  induction l generalizing p with
  | nil => rfl
  | cons v l ih =>
    have tail := (List.nodup_cons.mp nodup).2
    have own := found v List.mem_cons_self
    unfold parked
    rw [List.foldl_cons, List.filter_cons, dischargeStep, own]
    by_cases takes : grantOf filled v.berth = 0 ∧ (s.groupEntry v.group).enable = true
    · rw [if_pos takes, if_pos (by simpa using takes), List.foldl_cons]
      refine ih tail (fun w mem => ?_) fun w mem => ?_
      · rw [List.length_set]; exact low w (List.mem_cons_of_mem v mem)
      · rw [grantOf_set _ _ _ _ (low v List.mem_cons_self), if_neg (apart_of_nodup nodup w mem)]
        exact found w (List.mem_cons_of_mem v mem)
    · rw [if_neg takes, if_neg (by simpa using takes)]
      exact ih tail (fun w mem => low w (List.mem_cons_of_mem v mem)) fun w mem => found w (List.mem_cons_of_mem v mem)

/-- With nothing to take back pass 4 changes nothing. -/
theorem dischargeFold_none (low : ∀ v ∈ l, v.berth < p.grants.length) (rest : p.rest = 0) : l.foldl (dischargeStep s) p = p := by
  induction l with
  | nil => rfl
  | cons v l ih =>
    have here := low v List.mem_cons_self
    have still : dischargeStep s p v = p := by
      unfold dischargeStep
      split
      next takes =>
        have none : min (min (v.dcap : Int) (s.powerAvailable v)) p.rest = 0 := by omega
        have zero : p.grants[v.berth] = 0 := by
          rw [← takes.1, grantOf, List.getD_eq_getElem _ _ here]
        dsimp only
        rw [none, Int.neg_zero, ← zero, List.set_getElem_self, zero, Int.sub_zero]
      next => rfl
    rw [List.foldl_cons, still]
    exact ih fun w mem => low w (List.mem_cons_of_mem v mem)

theorem dischargeOrder_perm (served : List Served) : (dischargeOrder served).Perm (served.filter (·.eligible)) := sortBy_perm _ _

theorem dischargeOrder_sorted (rising : served.Pairwise fun v w => v.berth < w.berth) : (dischargeOrder served).Pairwise fun v w =>
    w.available < v.available ∨ (v.available = w.available ∧ v.berth < w.berth) := by
  refine (sortBy_precedes (before := fun a b : Served => decide (b.available < a.available)) (key := (·.berth)) (fun a b c first => ?_)
    (fun a b first => ?_) (rising.filter _)).imp fun {v w} precedes => ?_
  · simp only [decide_eq_true_eq] at *; omega
  · simp only [decide_eq_true_eq, decide_eq_false_iff_not] at *; omega
  · simp only [Precedes, decide_eq_true_eq, decide_eq_false_iff_not] at precedes
    omega

/-! ## The four passes -/

/-- The working state that pass 3 begins with. -/
def fillStart (s : State) (b : Budgets) (served : List Served) : Passing :=
  ⟨(floored s b served).grants, max 0 (min b.soft b.hard - grantedSum (floored s b served).grants)⟩

/-- The working state behind pass 3. -/
def fillEnd (s : State) (b : Budgets) (served : List Served) : Passing :=
  fillRounds s (passOrder served) (2 * (passOrder served).length + 2) (fillStart s b served)

theorem passOrder_nodup (nodup : (served.map (·.berth)).Nodup) : ((passOrder served).map (·.berth)).Nodup :=
  ((passOrder_perm served).map _).nodup_iff.mpr nodup

theorem passOrder_low (low : ∀ v ∈ served, v.berth < 36) : ∀ v ∈ passOrder served, v.berth < 36 := fun v mem =>
  low v ((passOrder_perm served).mem_iff.mp mem)

section
variable (nodup : (served.map (·.berth)).Nodup) (low : ∀ v ∈ served, v.berth < 36)
include nodup low

theorem fillStart_ok (s : State) (b : Budgets) : PassOk s (passOrder served)
    (grantedSum (floored s b served).grants + max 0 (min b.soft b.hard - grantedSum (floored s b served).grants))
    (fillStart s b served) := by
  have ok := floored_ok nodup low s b
  have perm := passOrder_perm served
  refine ⟨ok.length, Int.le_max_left .., rfl, ok.nonneg, fun g => ?_, fun v mem => ok.enabled v (perm.mem_iff.mp mem),
    fun x free => ok.outside x fun v mem => free v (perm.mem_iff.mpr mem)⟩
  exact (sumOf_perm _ (perm.filter _)).trans_le (ok.group g)

theorem fillEnd_ok (s : State) (b : Budgets) : PassOk s (passOrder served)
    (grantedSum (floored s b served).grants + max 0 (min b.soft b.hard - grantedSum (floored s b served).grants))
    (fillEnd s b served) :=
  PassOk.fills (passOrder_nodup nodup) (passOrder_low low) _ (fun _ mem => mem) (fun _ _ => rfl) _ _ (fillStart_ok nodup low s b)

theorem fillStart_rest (s : State) (b : Budgets) : (fillStart s b served).rest =
    max 0 (min b.soft b.hard - ((passOrder served).map (givenTo s b served)).sum) := by
  have ok := fillStart_ok nodup low s b
  have granted : grantedSum (floored s b served).grants = ((passOrder served).map (givenTo s b served)).sum := by
    rw [← sumOf_eq]
    exact (sumOf_grants_over (f := fun g => max 0 g) rfl (passOrder_nodup nodup)
      (fun v mem => by rw [ok.length]; exact passOrder_low low v mem) ok.outside).trans
        (sumOf_congr fun v _ => Int.max_eq_right (ok.nonneg _))
  rw [fillStart, granted]

/-- R86: pass 3 is rounds of fill until it is over. -/
theorem fillEnd_rounds (s : State) (b : Budgets) : ∃ n,
    (∀ k, k < n → ¬ Filled s (passOrder served) ((fillRound s (passOrder served))^[k] (fillStart s b served))) ∧
    (fillRound s (passOrder served))^[n] (fillStart s b served) = fillEnd s b served ∧
    Filled s (passOrder served) (fillEnd s b served) := by
  refine fillRounds_end (passOrder_nodup nodup) (passOrder_low low) _ (fillStart_ok nodup low s b) (.inr ?_)
  have few : (filling s (passOrder served) (fillStart s b served)).length ≤ (passOrder served).length := List.length_filter_le _ _
  unfold fillLoad
  split <;> omega

theorem passes_demand (s : State) (b : Budgets) : (s.passes b served).demand =
    max 0 (((passOrder served).map fun v => max 0 (grantOf (s.passes b served).filled v.berth)).sum - b.soft) := by
  have ok := fillEnd_ok nodup low s b
  have sum : grantedSum (fillEnd s b served).grants =
      ((passOrder served).map fun v => max 0 (grantOf (fillEnd s b served).grants v.berth)).sum := by
    rw [grantedSum, sumOf_grants_over (l := passOrder served) rfl (passOrder_nodup nodup)
      (fun v mem => by rw [ok.length]; exact passOrder_low low v mem) ok.outside, sumOf_eq]
  change max 0 (grantedSum (fillEnd s b served).grants - b.soft) = _
  rw [sum]
  rfl

/-- R87: pass 4 over the parked berths. -/
theorem passes_discharge (s : State) (b : Budgets) :
    (⟨(s.passes b served).grants, (s.passes b served).shortfall⟩ : Passing) =
      (parked s (s.passes b served).filled (dischargeOrder served)).foldl (handOut Neg.neg (dischargeAmount s))
        ⟨(s.passes b served).filled, (s.passes b served).demand⟩ := by
  have ok := fillEnd_ok nodup low s b
  have sub : ∀ v ∈ dischargeOrder served, v ∈ served := fun v mem =>
    List.mem_of_mem_filter ((dischargeOrder_perm served).mem_iff.mp mem)
  have nodup' : ((dischargeOrder served).map (·.berth)).Nodup :=
    ((dischargeOrder_perm served).map _).nodup_iff.mpr (nodup.sublist (List.filter_sublist.map _))
  have low' : ∀ v ∈ dischargeOrder served, v.berth < (s.passes b served).filled.length := fun v mem => by
    change v.berth < (fillEnd s b served).grants.length
    rw [ok.length]; exact low v (sub v mem)
  rw [← dischargeFold_eq (s := s) (p := ⟨(s.passes b served).filled, (s.passes b served).demand⟩) nodup' low' fun _ _ => rfl]
  change (if 0 < (s.passes b served).demand then
    (dischargeOrder served).foldl (dischargeStep s) ⟨(s.passes b served).filled, (s.passes b served).demand⟩
    else ⟨(s.passes b served).filled, 0⟩) = _
  split
  next => rfl
  next none =>
    have zero : (s.passes b served).demand = 0 := Int.le_antisymm (Int.not_lt.mp none) (Int.le_max_left ..)
    rw [dischargeFold_none (p := ⟨(s.passes b served).filled, (s.passes b served).demand⟩) low' zero, zero]

end

/-! ## The obligation -/

/-- R87: what a parked berth gives back at its turn, and what is left behind all of them. -/
theorem discharge_turns (nodup : (served.map (·.berth)).Nodup) (low : ∀ v ∈ served, v.berth < 36) (s : State) (b : Budgets) :
    let o := s.passes b served
    let drawn (v : Served) : Int := -grantOf o.grants v.berth
    (∀ front v back, parked s o.filled (dischargeOrder served) = front ++ v :: back →
      drawn v = min (min (v.dcap : Int) (s.powerAvailable v)) (o.demand - (front.map drawn).sum)) ∧
    o.shortfall = o.demand - ((parked s o.filled (dischargeOrder served)).map drawn).sum ∧
    ∀ x, (∀ v ∈ parked s o.filled (dischargeOrder served), v.berth ≠ x) → grantOf o.grants x = grantOf o.filled x := by
  intro o drawn
  have pass := passes_discharge nodup low s b
  have grants : o.grants = _ := congrArg Passing.grants pass
  have shortfall : o.shortfall = _ := congrArg Passing.rest pass
  have sub : ∀ v ∈ parked s o.filled (dischargeOrder served), v ∈ served := fun v mem =>
    List.mem_of_mem_filter ((dischargeOrder_perm served).mem_iff.mp (List.mem_of_mem_filter mem))
  have low' : ∀ v ∈ parked s o.filled (dischargeOrder served), v.berth < o.filled.length := fun v mem => by
    change v.berth < (fillEnd s b served).grants.length
    rw [(fillEnd_ok nodup low s b).length]
    exact low v (sub v mem)
  have nodup' : ((parked s o.filled (dischargeOrder served)).map (·.berth)).Nodup :=
    (((dischargeOrder_perm served).map _).nodup_iff.mpr (nodup.sublist (List.filter_sublist.map _))).sublist
      (List.filter_sublist.map _)
  refine ⟨fun front v back cut => ?_, ?_, fun x free => ?_⟩
  · rw [cut] at grants low' nodup'
    obtain ⟨own, found⟩ := handOut_cut (put := Neg.neg) (amount := dischargeAmount s) (p := ⟨o.filled, o.demand⟩) nodup' low'
    have nodupFront : (front.map (·.berth)).Nodup := by
      rw [List.map_append] at nodup'
      exact (List.nodup_append.mp nodup').1
    have rest := handOut_rest (put := Neg.neg) (amount := dischargeAmount s) (taken := Neg.neg) (p := ⟨o.filled, o.demand⟩)
      Int.neg_neg nodupFront fun w mem => low' w (List.mem_append_left _ mem)
    rw [← grants] at own found
    rw [sumOf_congr (g := drawn) fun w mem => by rw [found w mem], sumOf_eq] at rest
    change -grantOf o.grants v.berth = _
    rw [own, Int.neg_neg, dischargeAmount, rest]
  · rw [shortfall, handOut_rest (p := ⟨o.filled, o.demand⟩) (taken := Neg.neg) Int.neg_neg nodup' low', ← grants, sumOf_eq]
  · rw [grants, handOut_outside (p := ⟨o.filled, o.demand⟩) free low']

theorem horizon_called {c : Call} (called : s.reserve.state = .called) (call : s.reserve.call = some c) :
    s.horizon = max 60 c.left := by
  unfold State.horizon; rw [called, call]

theorem horizon_idle (idle : s.reserve.state ≠ .called) : s.horizon = 900 := by
  unfold State.horizon
  split
  next called _ => exact absurd called idle
  next => rfl

/-- Settles O39: the order and the passes one by one; a run's grants and totals are those of its passes. -/
theorem passesShareThePower : Obligations.PassesShareThePower := by
  unfold Obligations.PassesShareThePower
  refine ⟨fun s b served rising low => ?_, fun s => ⟨fun c => horizon_called, horizon_idle⟩, fun kind u t leaves length => ?_⟩
  · have nodup : (served.map (·.berth)).Nodup := List.pairwise_map.mpr (rising.imp Nat.ne_of_lt)
    refine ⟨passOrder served, givenTo s b served, passOrder_perm served, passOrder_ahead rising,
      fun front v back => givenTo_eq nodup low, ?_, ?_⟩
    · intro holds most open' round
      have opens (p : Passing) : open' p = filling s (passOrder served) p := by
        unfold filling State.fillEligible State.fillRoom
        simp only [groupRoom_eq]
        rfl
      have rounds : round = fillRound s (passOrder served) := by
        funext p
        change (open' p).foldl _ p = _
        unfold fillRound fillShare fillStep State.fillRoom
        simp only [groupRoom_eq, ← opens]
        rfl
      obtain ⟨n, before, last, ended⟩ := fillEnd_rounds nodup low s b
      have start := fillStart_ok nodup low s b
      have nonneg := (fillEnd_ok nodup low s b).rest
      rw [rounds]
      refine ⟨fillStart s b served, n, start.length, fun v _ => rfl, start.outside, fillStart_rest nodup low s b, fun k lt => ?_, last,
        ended.imp (fun le => Int.le_antisymm le nonneg) fun none => (opens _).trans none⟩
      obtain ⟨rest, some⟩ := not_or.mp (before k lt)
      exact ⟨Int.not_le.mp rest, by rw [opens]; exact some⟩
    · obtain ⟨turns, shortfall, others⟩ := discharge_turns nodup low s b
      refine ⟨passes_demand nodup low s b, parked s (s.passes b served).filled (dischargeOrder served), ?_,
        (dischargeOrder_sorted rising).filter _, turns, shortfall, others⟩
      refine ((dischargeOrder_perm served).filter _).trans (List.Perm.of_eq ?_)
      rw [List.filter_filter]
      exact List.filter_congr fun v _ => by rw [Bool.and_comm, Bool.and_assoc]; rfl
  · intro served y o
    have outcome : o = runOutcome u := run_passes leaves
    have totals := leaves.totals
    rw [outcome]
    refine ⟨leaves.grant length, ?_⟩
    change t.alloc.totals = _ at totals
    simp only [y, totals, State.totalsOf, State.stampedSecond]
    simp [served]

end Sys2Proof.Machine.ChargeRuns
end

