-- ==== Sys2Proof/Proofs/StageZero.lean ====
section
/-! Proofs/StageZero.lean: what applying the day set makes of the reserve's window and of a call in progress, which bus a run is
given or moved to, and the rebound step (R72, R101, R102, R107, R126, R138). -/

namespace Sys2Proof.Machine.ChargeRuns

open SetpointWork (notify_setReserve changeReserve_of_ne endCall_called)

variable {s t u v : State} {w : ReserveWindow} {r : Run} {n b : Nat}

/-! ## The tables of the day set (R107, R108) -/

theorem rederiveAll_frame (s : State) : (rederiveAll s).link = s.link ∧ (rederiveAll s).faults = s.faults := by
  unfold rederiveAll
  induction busNumbers generalizing s with
  | nil => exact ⟨rfl, rfl⟩
  | cons b l ih => exact ih (rederive b s)

theorem mergeRuns_frame (s : State) : (mergeRuns s).link = s.link ∧ (mergeRuns s).faults = s.faults ∧
    (mergeRuns s).reserve = s.reserve ∧ (mergeRuns s).runs.pending = s.runs.pending := by
  have only := (rederiveAll_table (editActive (fun _ =>
    s.runs.pending.runs.map fun rec => clearPin (mergedRun (s.recordBus rec) rec (s.run? rec.runId))) s)).only
  refine ⟨(rederiveAll_frame _).1, (rederiveAll_frame _).2, ?_, ?_⟩
  · unfold mergeRuns; rw [only]; rfl
  · unfold mergeRuns; rw [only]; rfl

/-- The DAY_APPLIED notice of the armed set, placed over the state that the application finds. -/
def dayTold (s : State) : State := notify (.dayApplied s.runs.pending.runs.length s.runs.pending.cold.length
  s.runs.pending.demand.length s.runs.pending.reserve.length) s

/-- What applying the tables leaves of the parts it does not write. -/
theorem applyTables_frame (s : State) : (applyTables s).reserve = { s.reserve with windows := s.runs.pending.reserve } ∧
    (applyTables s).link = (dayTold s).link ∧ (applyTables s).faults = (dayTold s).faults := by
  obtain ⟨link, faults, reserve, pending⟩ := mergeRuns_frame s
  have length : (mergeRuns s).runs.active.length = s.runs.pending.runs.length := by
    simpa using congrArg List.length (mergeRuns_plan s)
  unfold applyTables dayTold
  dsimp only
  rw [pending, reserve, length]
  exact ⟨by simp, BerthBus.notify_congr (t := { mergeRuns s with
    runs := { (mergeRuns s).runs with cold := s.runs.pending.cold, pending := PendingSet.empty }
    storage := { (mergeRuns s).storage with windows := s.runs.pending.demand }
    reserve := { s.reserve with windows := s.runs.pending.reserve } }) rfl link faults⟩

theorem applyTables_ids (s : State) : (applyTables s).runs.active.map (·.runId) = s.runs.pending.runs.map (·.runId) := by
  have plan := congrArg (List.map (·.runId)) (applyTables_leaves s).1
  simp only [List.map_map] at plan
  exact plan

/-! ## The window judged active (R126, R128) -/

theorem windowNow_of_reserveStep (h : ReserveStep s t) : t.windowNow = s.windowNow := by
  have only := h.only
  have windows := h.windows
  unfold State.windowNow State.now
  rw [windows]
  rw [only]

theorem settleTrip_frame (s : State) : (settleTrip s).link = s.link ∧ (settleTrip s).reserve.judged = s.reserve.judged ∧
    (settleTrip s).reserve.state = s.reserve.state ∧ (settleTrip s).reserve.call = s.reserve.call ∧
    (settleTrip s).reserve.recoveryTarget = s.reserve.recoveryTarget ∧ (settleTrip s).reserve.records = s.reserve.records := by
  unfold settleTrip
  split <;> exact ⟨rfl, rfl, rfl, rfl, rfl, rfl⟩

theorem closeCall_judged (c : Call) (cause : CallCause) (target : Option Int) (s : State) :
    (closeCall c cause target s).reserve.judged = s.reserve.judged := by
  unfold closeCall editRecord
  dsimp only
  split <;> rfl

theorem endCall_judged (cause : CallCause) (s : State) : (endCall cause id s).reserve.judged = s.reserve.judged := by
  unfold endCall
  split
  · rfl
  · rw [(changeReserve_same _ _).2.2.2]
    simp only [notify_same, id, closeCall_judged]

theorem closeWindow_judged (s : State) : (closeWindow s).1.reserve.judged = none := by
  unfold closeWindow
  dsimp only
  split
  · rw [(changeReserve_same _ _).2.2.2]
  · rw [(changeReserve_same _ _).2.2.2]
  · exact endCall_judged _ _
  · rfl

theorem closeWindow_unavailable (state : s.reserve.state = .unavailable) :
    (closeWindow s).1 = { s with reserve := { s.reserve with judged := none } } := by
  unfold closeWindow
  simp only [state]

theorem closeWindow_called (state : s.reserve.state = .called) :
    (closeWindow s).1 = endCall .windowEnd id { s with reserve := { s.reserve with judged := none } } := by
  unfold closeWindow
  simp only [state]

theorem openWindow_judged (w : ReserveWindow) (s : State) : (openWindow w s).reserve.judged = some w := by
  unfold openWindow
  dsimp only
  split
  · rw [(changeReserve_same _ _).2.2.2]
  · rfl

theorem openWindow_unavailable (w : ReserveWindow) (state : s.reserve.state = .unavailable) :
    openWindow w s = { s with reserve := { s.reserve with judged := some w, coverage := none } } := by
  unfold openWindow
  simp only [state, reduceCtorEq, if_false]

/-- The state with the window that was judged active closed, before another opens. -/
def windowClosed (s : State) : State := if s.reserve.judged.isSome then settleTrip (closeWindow s).1 else s

theorem windowClosed_step (s : State) : ReserveStep s (windowClosed s) := by
  unfold windowClosed
  split
  · exact (closeWindow_step s).trans (settleTrip_step _)
  · exact .refl s

theorem replaceWindow_closed (s : State) :
    (if s.reserve.judged.isSome then (settleTrip (closeWindow s).1, (closeWindow s).2) else (s, false)).1 = windowClosed s := by
  unfold windowClosed
  split <;> rfl

theorem replaceWindow_none (none : s.windowNow = none) : (replaceWindow s).1 = settleTrip (windowClosed s) := by
  unfold replaceWindow
  simp only [replaceWindow_closed, windowNow_of_reserveStep (windowClosed_step s), none]

theorem replaceWindow_some (some : s.windowNow = some w) : (replaceWindow s).1 = settleTrip (openWindow w (windowClosed s)) := by
  unfold replaceWindow
  simp only [replaceWindow_closed, windowNow_of_reserveStep (windowClosed_step s), some]

theorem windowClosed_judged (s : State) : (windowClosed s).reserve.judged = none := by
  unfold windowClosed
  split
  · rw [(settleTrip_frame _).2.1, closeWindow_judged]
  · next none => simpa using none

theorem replaceWindow_judged (s : State) : (replaceWindow s).1.reserve.judged = s.windowNow := by
  cases window : s.windowNow with
  | none => rw [replaceWindow_none window, (settleTrip_frame _).2.1, windowClosed_judged]
  | some w => rw [replaceWindow_some window, (settleTrip_frame _).2.1, openWindow_judged]

/-- R126: a call in progress, its record being the newest, under the window of an applied table. -/
theorem rebindCall_eq {c : Call} {record : CallRecord} {older : List CallRecord} (records : s.reserve.records = record :: older)
    (w : ReserveWindow) : rebindCall c w s = { s with reserve := { s.reserve with
      judged := some w, call := some { c with reduction := min c.reduction w.reduction, left := min c.left w.maxDuration }
      records := { record with
        reduction := min c.reduction w.reduction, target := s.clampTarget (c.baseline - min c.reduction w.reduction) } :: older } } := by
  unfold rebindCall editRecord
  simp only [records]
  rfl

theorem rebindCall_judged (c : Call) (w : ReserveWindow) (s : State) : (rebindCall c w s).reserve.judged = some w := by
  unfold rebindCall editRecord
  dsimp only
  split <;> rfl

theorem judgeApplication_judged (s : State) : (judgeApplication s).1.reserve.judged = s.windowNow := by
  unfold judgeApplication
  split
  next c w _ window => rw [(settleTrip_frame _).2.1, rebindCall_judged, window]
  next => exact replaceWindow_judged s

theorem judgeApplication_uncalled (none : s.reserve.call = none) : judgeApplication s = replaceWindow s := by
  unfold judgeApplication; rw [none]

theorem judgeApplication_windowless (none : s.windowNow = none) : judgeApplication s = replaceWindow s := by
  unfold judgeApplication
  split
  next window => rw [none] at window; cases window
  next => rfl

theorem judgeApplication_rebinds {c : Call} (call : s.reserve.call = some c) (window : s.windowNow = some w) :
    judgeApplication s = (settleTrip (rebindCall c w s), false) := by
  unfold judgeApplication; rw [call, window]

/-! ## The application of the day set -/

theorem applyDaySet_windowNow (s : State) : (applyDaySet s).1.windowNow = (applyTables s).windowNow :=
  windowNow_of_reserveStep (judgeApplication_step _)

theorem applyDaySet_unavailable (none : s.reserve.call = none) (state : s.reserve.state = .unavailable) :
    (applyDaySet s).1.link = (dayTold s).link ∧ (applyDaySet s).1.reserve.state = .unavailable := by
  obtain ⟨reserve, link, -⟩ := applyTables_frame s
  have state' : (applyTables s).reserve.state = .unavailable := by rw [reserve]; exact state
  have closed : (windowClosed (applyTables s)).link = (dayTold s).link ∧
      (windowClosed (applyTables s)).reserve.state = .unavailable := by
    unfold windowClosed
    split
    · obtain ⟨link', -, state'', -⟩ := settleTrip_frame (closeWindow (applyTables s)).1
      rw [link', state'', closeWindow_unavailable state']
      exact ⟨link, state'⟩
    · exact ⟨link, state'⟩
  have eq : (applyDaySet s).1 = (replaceWindow (applyTables s)).1 :=
    congrArg Prod.fst (judgeApplication_uncalled (s := applyTables s) (by rw [reserve]; exact none))
  rw [eq]
  cases window : (applyTables s).windowNow with
  | none => rw [replaceWindow_none window, (settleTrip_frame _).1, (settleTrip_frame _).2.2.1]; exact closed
  | some w =>
    rw [replaceWindow_some window, (settleTrip_frame _).1, (settleTrip_frame _).2.2.1, openWindow_unavailable w closed.2]
    exact closed

theorem clampTarget_applied (s : State) (x : Int) : (applyTables s).clampTarget x = s.clampTarget x := by
  have only := applyTables_staged s
  unfold StagedStep at only
  unfold State.clampTarget State.importCeiling State.exportLimit State.feederLimit State.margin State.param
  rw [only]

section
variable {c : Call} {record : CallRecord} {older : List CallRecord} (called : s.reserve.state = .called)
  (call : s.reserve.call = some c) (records : s.reserve.records = record :: older)
include called call records

/-- R126: the call goes on under the window of the new table. -/
theorem applyDaySet_rebinds (window : (applyDaySet s).1.windowNow = some w) : (applyDaySet s).1.link = (dayTold s).link ∧
    (applyDaySet s).1.reserve.state = .called ∧ (applyDaySet s).1.reserve.call =
      some { c with reduction := min c.reduction w.reduction, left := min c.left w.maxDuration } ∧
    (applyDaySet s).1.reserve.records = { record with
      reduction := min c.reduction w.reduction, target := s.clampTarget (c.baseline - min c.reduction w.reduction) } :: older := by
  obtain ⟨reserve, link, -⟩ := applyTables_frame s
  rw [applyDaySet_windowNow] at window
  have eq : (applyDaySet s).1 = settleTrip (rebindCall c w (applyTables s)) :=
    congrArg Prod.fst (judgeApplication_rebinds (by rw [reserve]; exact call) window)
  obtain ⟨link', -, state', call', -, records'⟩ := settleTrip_frame (rebindCall c w (applyTables s))
  rw [eq, link', state', call', records', rebindCall_eq (by rw [reserve]; exact records), clampTarget_applied]
  exact ⟨link, by rw [reserve]; exact called, rfl, rfl⟩

/-- R128: the call of a window that closes. -/
theorem windowClosed_called (judged : s.reserve.judged ≠ none) :
    (windowClosed s).link = (notify (.reserveState .called .recovery (s.reserve.coverage.map (·.value)))
      (notify (.callEnd c.callId .windowEnd (callMean c)) s)).link ∧
    (windowClosed s).reserve.state = .recovery ∧ (windowClosed s).reserve.call = none ∧
    (windowClosed s).reserve.recoveryTarget = some (s.clampTarget (c.baseline - c.reduction)) ∧
    (windowClosed s).reserve.records =
      { record with finish := some s.link.second, mean := callMean c, cause := some .windowEnd } :: older := by
  have ended := endCall_called (s := { s with reserve := { s.reserve with judged := none } }) .windowEnd call called records
  obtain ⟨link, -, state, call', target, records'⟩ := settleTrip_frame (closeWindow s).1
  rw [windowClosed, if_pos (Option.isSome_iff_ne_none.mpr judged), link, state, call', target, records', closeWindow_called called, ended]
  refine ⟨?_, by simp only [notify_same], by simp only [notify_same], by simp only [notify_same]; rfl, by simp only [notify_same]⟩
  have first := BerthBus.notify_congr (b := .callEnd c.callId .windowEnd (callMean c)) (s := s) (t := { s with reserve := { s.reserve with
    judged := none, state := .recovery, call := none
    recoveryTarget := some (s.clampTarget (c.baseline - c.reduction)), tripCount := 0, recoverCount := 0
    records := { record with finish := some s.link.second, mean := callMean c, cause := some .windowEnd } :: older } }) rfl rfl rfl
  exact (BerthBus.notify_congr rfl first.1 first.2).1

/-- R128: the call ends with its window. -/
theorem applyDaySet_ends (window : (applyDaySet s).1.windowNow = none) (judged : s.reserve.judged ≠ none) :
    (applyDaySet s).1.link = (notify (.reserveState .called .recovery (s.reserve.coverage.map (·.value)))
      (notify (.callEnd c.callId .windowEnd (callMean c)) (dayTold s))).link ∧
    (applyDaySet s).1.reserve.state = .recovery ∧ (applyDaySet s).1.reserve.call = none ∧
    (applyDaySet s).1.reserve.recoveryTarget = some (s.clampTarget (c.baseline - c.reduction)) ∧
    (applyDaySet s).1.reserve.records =
      { record with finish := some s.link.second, mean := callMean c, cause := some .windowEnd } :: older := by
  obtain ⟨reserve, link, faults⟩ := applyTables_frame s
  rw [applyDaySet_windowNow] at window
  have eq : (applyDaySet s).1 = (replaceWindow (applyTables s)).1 := congrArg Prod.fst (judgeApplication_windowless window)
  obtain ⟨link', state, call', target, records'⟩ := windowClosed_called (s := applyTables s) (c := c) (record := record)
    (older := older) (by rw [reserve]; exact called) (by rw [reserve]; exact call) (by rw [reserve]; exact records)
    (by rw [reserve]; exact judged)
  have first := BerthBus.notify_congr (b := .callEnd c.callId .windowEnd (callMean c)) (s := dayTold s) rfl link faults
  have second := BerthBus.notify_congr (b := .reserveState .called .recovery (s.reserve.coverage.map (·.value)))
    (s := notify (.callEnd c.callId .windowEnd (callMean c)) (dayTold s)) rfl first.1 first.2
  have clock : (applyTables s).link.second = s.link.second := by
    rw [link, dayTold, notify_only]
  rw [clampTarget_applied] at target
  rw [clock] at records'
  rw [reserve] at link'
  obtain ⟨link'', -, state'', call'', target'', records''⟩ := settleTrip_frame (windowClosed (applyTables s))
  rw [eq, replaceWindow_none window, link'', state'', call'', target'', records'']
  exact ⟨link'.trans second.1, state, call', target, records'⟩

end

/-! ## The rebound step (R138) -/

theorem reboundStep_idle (idle : s.reserve.state ≠ .recovery ∨ s.reserve.recoveryTarget = none) : reboundStep s = s := by
  unfold reboundStep
  split
  next state target =>
    rcases idle with other | none
    · exact absurd state other
    · rw [none] at target; cases target
  next => rfl

section
variable {target : Int} (recovery : s.reserve.state = .recovery) (some' : s.reserve.recoveryTarget = some target)
include recovery some'

theorem reboundStep_raises (low : target + s.reboundStep < s.feederLimit - s.margin) :
    reboundStep s = { s with reserve := { s.reserve with recoveryTarget := some (target + s.reboundStep) } } := by
  unfold reboundStep
  rw [recovery, some']
  exact if_pos low

theorem reboundStep_drops (high : s.feederLimit - s.margin ≤ target + s.reboundStep) (judged : s.reserve.judged ≠ none) :
    reboundStep s = { s with reserve := { s.reserve with recoveryTarget := none } } := by
  unfold reboundStep
  rw [recovery, some']
  exact (if_neg (Int.not_lt.mpr high)).trans (if_neg (by simpa using judged))

theorem reboundStep_ends (high : s.feederLimit - s.margin ≤ target + s.reboundStep) (judged : s.reserve.judged = none) :
    reboundStep s = notify (.reserveState .recovery .idle (s.reserve.coverage.map (·.value)))
      { s with reserve := { s.reserve with state := .idle, recoveryTarget := none } } := by
  have changes := changeReserve_of_ne (s := { s with reserve := { s.reserve with recoveryTarget := none } }) (st := .idle)
    (by simp [recovery])
  unfold reboundStep
  rw [recovery, some']
  refine ((if_neg (Int.not_lt.mpr high)).trans (if_pos (by simp [judged]))).trans (changes.trans ?_)
  rw [recovery]

end

/-! ## The bus of greatest surplus (R101) -/

/-- Bus `b` is chosen before bus `c`, or is bus `c`. -/
def Beats (s : State) (r : RunRecord) (b c : Nat) : Prop :=
  s.surplus r c < s.surplus r b ∨ (s.surplus r c = s.surplus r b ∧ b ≤ c)

/-- One bus of the search, `best` being the choice so far. -/
def better (s : State) (r : RunRecord) (best : Option Nat) (b : Nat) : Option Nat :=
  match best with
  | none => some b
  | some c => if s.surplus r c < s.surplus r b then some b else some c

theorem bestBus_eq (s : State) (r : RunRecord) (test : Nat → Bool) :
    s.bestBus r test = (busNumbers.filter test).foldl (better s r) none := rfl

theorem foldl_better (s : State) (r : RunRecord) {l : List Nat} (rising : l.Pairwise (· < ·)) {c : Nat} (ahead : ∀ d ∈ l, c < d) :
    ∃ b, l.foldl (better s r) (some c) = some b ∧ (b = c ∨ b ∈ l) ∧ Beats s r b c ∧ ∀ d ∈ l, Beats s r b d := by
  induction l generalizing c with
  | nil => exact ⟨c, rfl, .inl rfl, .inr ⟨rfl, Nat.le_refl c⟩, fun _ none => absurd none List.not_mem_nil⟩
  | cons d l ih =>
    obtain ⟨head, tail⟩ := List.pairwise_cons.mp rising
    have above := ahead d List.mem_cons_self
    by_cases less : s.surplus r c < s.surplus r d
    · obtain ⟨b, fold, mem, first, rest⟩ := ih tail head
      refine ⟨b, ?_, ?_, ?_, List.forall_mem_cons.mpr ⟨first, rest⟩⟩
      · rw [List.foldl_cons, better, if_pos less, fold]
      · exact .inr (List.mem_cons.mpr mem)
      · unfold Beats at *; omega
    · obtain ⟨b, fold, mem, first, rest⟩ := ih tail fun e mem => ahead e (List.mem_cons_of_mem d mem)
      refine ⟨b, ?_, mem.imp_right (List.mem_cons_of_mem d), first, List.forall_mem_cons.mpr ⟨?_, rest⟩⟩
      · rw [List.foldl_cons, better, if_neg less, fold]
      · unfold Beats at *; omega

theorem mem_busNumbers : b ∈ busNumbers ↔ 1 ≤ b ∧ b ≤ 64 := by
  simp only [busNumbers, Config.buses, List.mem_map, List.mem_range]
  exact ⟨fun ⟨a, lt, eq⟩ => by omega, fun ⟨low, high⟩ => ⟨b - 1, by omega, by omega⟩⟩

theorem busNumbers_rising : busNumbers.Pairwise (· < ·) :=
  List.pairwise_map.mpr (List.pairwise_lt_range.imp fun lt => Nat.succ_lt_succ lt)

/-- A bus that fits and beats every other that does is the choice. -/
theorem bestBus_some {rec : RunRecord} {test : Nat → Bool} (low : 1 ≤ b) (high : b ≤ 64) (fits : test b = true)
    (best : ∀ c, 1 ≤ c → c ≤ 64 → test c = true → Beats s rec b c) : s.bestBus rec test = some b := by
  have mem : b ∈ busNumbers.filter test := List.mem_filter.mpr ⟨mem_busNumbers.mpr ⟨low, high⟩, fits⟩
  have all : ∀ c ∈ busNumbers.filter test, Beats s rec b c := fun c mem => by
    obtain ⟨number, passes⟩ := List.mem_filter.mp mem
    obtain ⟨low', high'⟩ := mem_busNumbers.mp number
    exact best c low' high' passes
  have rising := busNumbers_rising.filter test
  rw [bestBus_eq]
  generalize busNumbers.filter test = l at *
  cases l with
  | nil => exact absurd mem List.not_mem_nil
  | cons c l =>
    obtain ⟨head, tail⟩ := List.pairwise_cons.mp rising
    obtain ⟨d, fold, among, first, rest⟩ := foldl_better s rec tail head
    have wins : Beats s rec d b := List.forall_mem_cons.mpr ⟨first, rest⟩ b mem
    have loses : Beats s rec b d := all d (List.mem_cons.mpr among)
    have same : d = b := by unfold Beats at wins loses; omega
    rw [← same]
    exact fold

theorem bestBus_none {rec : RunRecord} {test : Nat → Bool} (nobody : ∀ b, 1 ≤ b → b ≤ 64 → test b = false) :
    s.bestBus rec test = none := by
  have empty : busNumbers.filter test = [] := List.filter_eq_nil_iff.mpr fun b mem => by
    obtain ⟨low, high⟩ := mem_busNumbers.mp mem
    simp [nobody b low high]
  rw [bestBus_eq, empty]
  rfl

/-! ## Assignment and swap (R101, R102) -/

/-- Bus `b` is associated with berth `x` in SERVING. -/
def ServesAt (s : State) (b x : Nat) : Prop := (s.fleetBus b).berth = some x ∧ (s.berth x).session = .serving

theorem servingBerth_iff {x : Nat} : s.servingBerth b = some x ↔ ServesAt s b x := by
  unfold State.servingBerth ServesAt
  rw [Option.filter_eq_some_iff]
  simp

theorem candidate_iff (r : Run) : s.candidate r.toRunRecord b = true ↔ (s.fleetBus b).used = true ∧ (∃ x, ServesAt s b x) ∧
    (∀ q ∈ s.runs.active, q.bus = some b → q.state.unfinished = false) ∧
    s.energyTarget r.toRunRecord b ≤ (s.fleetBus b).capacity * (s.fleetBus b).maxCharge / 1000 := by
  have served : (s.servingBerth b).isSome = true ↔ ∃ x, ServesAt s b x := by
    rw [Option.isSome_iff_exists]
    exact exists_congr fun x => servingBerth_iff
  have free : (s.currentRun b).isNone = true ↔ ∀ q ∈ s.runs.active, q.bus = some b → q.state.unfinished = false := by
    rw [Option.isNone_iff_eq_none, State.currentRun, List.find?_eq_none]
    simp [Run.unfinishedOf]
  unfold State.candidate
  rw [Bool.and_eq_true, Bool.and_eq_true, Bool.and_eq_true, served, free, decide_eq_true_eq, Bus.ceiling]
  simp only [and_assoc]

theorem feasible_iff (r : Run) : s.feasible r.toRunRecord b = true ↔ 0 ≤ s.surplus r.toRunRecord b ∨
    ∃ x, ServesAt s b x ∧ 0 < s.chargeCap x ∧
      ((ceilDiv ((s.energyTarget r.toRunRecord b - s.storedOrZero b) * 36000) (s.chargeCap x * s.efficiency) : Nat) : Int) ≤
        s.timeToDeadline r.toRunRecord := by
  unfold State.feasible
  dsimp only
  rw [Bool.or_eq_true, decide_eq_true_eq]
  refine or_congr_right ?_
  cases berth : s.servingBerth b with
  | none =>
    have nowhere : ∀ x, ¬ ServesAt s b x := fun x at' => by rw [servingBerth_iff.mpr at'] at berth; cases berth
    simp [nowhere]
  | some x =>
    have only : ∀ y, ServesAt s b y ↔ y = x := fun y => by
      rw [← servingBerth_iff, berth]
      exact ⟨fun e => (Option.some.inj e).symm, fun e => e ▸ rfl⟩
    simp only [only, exists_eq_left, Bool.and_eq_true, decide_eq_true_eq, Int.sub_nonneg]

/-- R101: an OPEN run whose departure is near enough. -/
def Near (s : State) (r : Run) : Prop := r.state = .opened ∧ s.link.clockSet = true ∧
  (r.departure : Int) * 60 - s.link.second ≤ s.assignmentHorizon ∧ s.link.second < r.departure * 60 + 900

/-- R102: the run may be swapped. -/
def Movable (s : State) (r : Run) : Prop := r.state = .short ∧ r.pinned = false ∧ r.swapAllowed = true ∧ s.link.clockSet = true ∧
  s.swapCutoff ≤ (r.departure : Int) * 60 - s.link.second

/-- R102: the buses that a swap may take. -/
def swapFits (s : State) (r : Run) (freed : List Nat) (b : Nat) : Bool :=
  s.candidate r.toRunRecord b && s.feasible r.toRunRecord b && !freed.contains b

section
variable (run : s.run? n = some r)
include run

theorem assignRun_far (far : ¬ Near s r) : assignRun s n = s := by
  unfold assignRun
  simp only [run]
  exact if_neg far

theorem assignRun_nobody (nobody : s.bestBus r.toRunRecord (s.candidate r.toRunRecord) = none) : assignRun s n = s := by
  unfold assignRun
  simp only [run, nobody, ite_self]

theorem assignRun_takes (near : Near s r) (chosen : s.bestBus r.toRunRecord (s.candidate r.toRunRecord) = some b) :
    assignRun s n = giveBus n b false (notify (.runAssigned n b (s.surplus r.toRunRecord b)) s) := by
  unfold assignRun
  simp only [run, chosen]
  exact if_pos near

theorem swapRun_fixed {freed : List Nat} (fixed : ¬ Movable s r) : swapRun (s, freed) n = (s, freed) := by
  unfold swapRun
  simp only [run]
  exact if_neg fun ⟨short, free, rest⟩ => fixed ⟨short, by simpa using free, rest⟩

theorem swapRun_nobody {freed : List Nat} (nobody : s.bestBus r.toRunRecord (swapFits s r freed) = none) :
    swapRun (s, freed) n = (s, freed) := by
  unfold swapFits at nobody
  unfold swapRun
  simp only [run, nobody, ite_self]

theorem swapRun_takes {freed : List Nat} (movable : Movable s r)
    (chosen : s.bestBus r.toRunRecord (swapFits s r freed) = some b) : swapRun (s, freed) n =
      (rederiveOpt r.bus (giveBus n b false (notify (.runReassigned n (r.bus.getD 0) b) s)), r.bus.getD 0 :: freed) := by
  obtain ⟨short, free, rest⟩ := movable
  unfold swapFits at chosen
  unfold swapRun
  simp only [run, chosen, free]
  exact if_pos ⟨short, by simp, rest⟩

end

end Sys2Proof.Machine.ChargeRuns
end

