-- ==== Sys2Proof/Proofs/Coverage.lean ====
section
/-! Proofs/Coverage.lean: what the write-out of a periodic run stores as the coverage of the reserve window, and what it makes of
the reserve state; the stages of a periodic run together (R72, R92, R129). -/

namespace Sys2Proof.Machine.ChargeRuns

variable {s t u v : State} {w : ReserveWindow} {kind : RunKind} {value : Int}

/-! ## The coverage stored (R129) -/

/-- R129: the state that a coverage gives. -/
def coverState (value : Int) (w : ReserveWindow) : ReserveState := if w.reduction ≤ value then .armed else .undercovered

theorem storeCoverage_frame (value : Int) (w : ReserveWindow) (s : State) :
    (storeCoverage value w s).reserve.coverage = some ⟨value, s.stampedSecond, w.reduction⟩ ∧
    (storeCoverage value w s).reserve.judged = s.reserve.judged := by
  unfold storeCoverage
  dsimp only
  repeat' split
  all_goals simp only [changeReserve_same, and_self]

theorem storeCoverage_judges (judges : s.reserve.state = .armed ∨ s.reserve.state = .undercovered ∨
    (s.reserve.state = .recovery ∧ s.reserve.recoveryTarget = none)) :
    (storeCoverage value w s).reserve.state = coverState value w := by
  unfold storeCoverage coverState
  rcases judges with state | state | ⟨state, target⟩
  · simp only [state, changeReserve_same]
  · simp only [state, changeReserve_same]
  · simp only [state, target, Option.isNone_none, if_true, changeReserve_same]

theorem storeCoverage_keeps (keeps : s.reserve.state = .idle ∨ s.reserve.state = .called ∨
    (s.reserve.state = .recovery ∧ s.reserve.recoveryTarget ≠ none)) :
    (storeCoverage value w s).reserve.state = s.reserve.state := by
  unfold storeCoverage
  rcases keeps with state | state | ⟨state, target⟩
  · simp only [state]
  · simp only [state]
  · simp only [state, Option.isNone_iff_eq_none, target, if_false]

/-! ## The write-out of a run -/

theorem handShortfall_window (n : Int) (b : Budgets) (s : State) : (handShortfall n b s).reserve.judged = s.reserve.judged ∧
    (handShortfall n b s).reserve.recoveryTarget = s.reserve.recoveryTarget := by
  unfold handShortfall reserveShortfall peakShortfall editRecord
  repeat' split
  all_goals simp

/-- What a run's coverage finds of the Reserve Unit and of the clock. -/
theorem RunLeaves_covers (h : RunLeaves kind u t) : ∃ v, t = handCoverage kind u.servedInputs (runOutcome u).grants v ∧
    v.reserve.state = u.reserve.state ∧ v.reserve.judged = u.reserve.judged ∧ v.reserve.coverage = u.reserve.coverage ∧
    v.reserve.recoveryTarget = u.reserve.recoveryTarget ∧ v.stampedSecond = u.stampedSecond := by
  have tail := h.tail
  rw [runTail_eq] at tail
  dsimp only at tail
  obtain ⟨-, -, state, -, coverage⟩ := handShortfall_same (runOutcome u).shortfall (runInputs u).1.budgets (runInputs u).1
  obtain ⟨judged, target⟩ := handShortfall_window (runOutcome u).shortfall (runInputs u).1.budgets (runInputs u).1
  have reserve := (handRuns_same u.servedInputs (runOutcome u).filled (handedOver (runInputs u).1 u.servedInputs (runOutcome u))).2.2
  rw [handedOver_reserve] at reserve
  rw [(runInputs_alike u).reserve] at state coverage judged target
  refine ⟨_, tail, ?_, ?_, ?_, ?_, ?_⟩
  · dsimp only; rw [reserve, state]
  · dsimp only; rw [reserve, judged]
  · dsimp only; rw [reserve, coverage]
  · dsimp only; rw [reserve, target]
  · rw [← h.step.stampedSecond]
    conv_rhs => rw [tail]
    exact (handCoverage_run ..).stampedSecond.symm

theorem dischargePart_eq (maxDuration dcap available : Nat) (grant : Int) : dischargePart maxDuration dcap available grant =
    max 0 (min (dcap : Int) ((available * 36 / maxDuration : Nat) : Int) - max 0 (-grant)) := by
  have power : ((available * 36 / maxDuration : Nat) : Int) = (available : Int) * 36 / maxDuration := by push_cast; rfl
  unfold dischargePart mag
  rw [power]
  dsimp only
  split <;> omega

/-- R92, R129: a run's coverage, from the grants that it leaves. -/
theorem coverageOf_left (h : RunLeaves kind u t) (length : u.berths.length = 36) (w : ReserveWindow) :
    coverageOf w u.servedInputs (runOutcome u).grants =
      ((u.servedInputs.filter fun v => !v.guarded).map fun v => max 0 (t.berth v.berth).grant).sum +
      ((u.servedInputs.filter fun v => v.eligible).map fun v =>
        max 0 (min (v.dcap : Int) ((v.available * 36 / w.maxDuration : Nat) : Int) - max 0 (-(t.berth v.berth).grant))).sum := by
  unfold coverageOf
  simp only [sumOf_eq, dischargePart_eq, h.grant length]

theorem handCoverage_nothing {served : List Served} {grants : List Int}
    (nothing : v.reserve.judged = none ∨ v.reserve.state = .unavailable) : handCoverage .periodic served grants v = v := by
  unfold handCoverage
  cases judged : v.reserve.judged with
  | none => rfl
  | some w => exact if_pos (nothing.resolve_left (by rw [judged]; exact Option.some_ne_none w))

theorem handCoverage_stores {served : List Served} {grants : List Int} (judged : v.reserve.judged = some w)
    (available : v.reserve.state ≠ .unavailable) :
    handCoverage .periodic served grants v = storeCoverage (coverageOf w served grants) w v := by
  unfold handCoverage
  rw [judged]
  exact if_neg available

theorem run_judged (h : RunLeaves .periodic u t) : t.reserve.judged = u.reserve.judged := by
  obtain ⟨v, left, -, judged, -⟩ := RunLeaves_covers h
  rw [← judged, left]
  by_cases nothing : v.reserve.judged = none ∨ v.reserve.state = .unavailable
  · rw [handCoverage_nothing nothing]
  · obtain ⟨some', available⟩ := not_or.mp nothing
    obtain ⟨w, window⟩ := Option.ne_none_iff_exists'.mp some'
    rw [handCoverage_stores window available, (storeCoverage_frame _ _ v).2]

theorem run_uncovered (h : RunLeaves .periodic u t) (nothing : u.reserve.judged = none ∨ u.reserve.state = .unavailable) :
    t.reserve.coverage = u.reserve.coverage ∧ t.reserve.state = u.reserve.state := by
  obtain ⟨v, left, state, judged, coverage, -⟩ := RunLeaves_covers h
  rw [← judged, ← state] at nothing
  rw [left, handCoverage_nothing nothing]
  exact ⟨coverage, state⟩

/-- R92, R129: the coverage that a periodic run stores, and the state that it gives. -/
theorem run_covered (h : RunLeaves .periodic u t) (length : u.berths.length = 36) (window : u.reserve.judged = some w)
    (available : u.reserve.state ≠ .unavailable) :
    let value : Int := ((u.servedInputs.filter fun v => !v.guarded).map fun v => max 0 (t.berth v.berth).grant).sum +
      ((u.servedInputs.filter fun v => v.eligible).map fun v =>
        max 0 (min (v.dcap : Int) ((v.available * 36 / w.maxDuration : Nat) : Int) - max 0 (-(t.berth v.berth).grant))).sum
    t.reserve.coverage = some ⟨value, u.stampedSecond, w.reduction⟩ ∧
    (u.reserve.state = .armed ∨ u.reserve.state = .undercovered ∨
      (u.reserve.state = .recovery ∧ u.reserve.recoveryTarget = none) → t.reserve.state = coverState value w) ∧
    (u.reserve.state = .idle ∨ u.reserve.state = .called ∨
      (u.reserve.state = .recovery ∧ u.reserve.recoveryTarget ≠ none) → t.reserve.state = u.reserve.state) := by
  intro value
  have total : coverageOf w u.servedInputs (runOutcome u).grants = value := coverageOf_left h length w
  obtain ⟨v, left, state, judged, -, target, stamped⟩ := RunLeaves_covers h
  rw [← judged] at window
  rw [← state] at available
  rw [handCoverage_stores window available, total] at left
  clear_value value
  subst left
  rw [← state, ← target, ← stamped]
  exact ⟨(storeCoverage_frame value w v).1, storeCoverage_judges, storeCoverage_keeps⟩

/-! ## The obligation -/

/-- Settles O35: the stages of a periodic run one by one, and the coverage that its write-out stores. -/
theorem periodicRunsAssignSwapAndCover : Obligations.PeriodicRunsAssignSwapAndCover := by
  unfold Obligations.PeriodicRunsAssignSwapAndCover
  intro serving surplus candidate feasible best taken rederived
  have candidate_of (s : State) (r : Run) (b : Nat) : candidate s r b ↔ 1 ≤ b ∧ b ≤ 64 ∧ s.candidate r.toRunRecord b = true :=
    and_congr_right fun _ => and_congr_right fun _ => (candidate_iff r).symm
  have feasible_of (s : State) (r : Run) (b : Nat) : feasible s r b ↔ s.feasible r.toRunRecord b = true := (feasible_iff r).symm
  refine ⟨fun s => rfl, fun s => ?_, fun s => ⟨applyDaySet_unavailable, fun c record older called call records =>
    ⟨fun w => applyDaySet_rebinds called call records, applyDaySet_ends called call records⟩⟩, fun s n r run => ⟨?_, ?_⟩,
    fun s n r freed run => ⟨?_, ?_⟩, fun s => ⟨reboundStep_idle, fun target recovery some' => ⟨reboundStep_raises recovery some',
      reboundStep_drops recovery some', reboundStep_ends recovery some'⟩⟩, fun s live running mode length => ?_⟩
  · obtain ⟨-, cold, pending, demand, windows, -, -⟩ := applyTables_leaves s
    have step := judgeApplication_step (applyTables s)
    obtain ⟨-, -, -, runs, -, -, storage, -⟩ := step.same
    refine ⟨?_, ?_, ?_, step.windows.trans windows, ?_, ?_⟩
    · exact (congrArg RunTable.cold runs).trans cold
    · exact (congrArg RunTable.pending runs).trans pending
    · exact (congrArg Storage.windows storage).trans demand
    · rw [applyDaySet_windowNow]; exact judgeApplication_judged _
    · exact (congrArg (fun r => r.active.map (·.runId)) runs).trans (applyTables_ids s)
  · rintro (far | nobody)
    · exact assignRun_far run far
    · refine assignRun_nobody run (bestBus_none fun b low high => Bool.eq_false_iff.mpr fun fits => ?_)
      exact nobody b ((candidate_of s r b).mpr ⟨low, high, fits⟩)
  · intro b near ⟨fits, first⟩
    obtain ⟨low, high, test⟩ := (candidate_of s r b).mp fits
    exact assignRun_takes run near (bestBus_some low high test fun c low high test =>
      first c ((candidate_of s r c).mpr ⟨low, high, test⟩))
  · rintro (fixed | nobody)
    · exact swapRun_fixed run fixed
    · refine swapRun_nobody run (bestBus_none fun b low high => Bool.eq_false_iff.mpr fun fits => ?_)
      simp only [swapFits, Bool.and_eq_true, Bool.not_eq_true', List.contains_eq_mem, decide_eq_false_iff_not] at fits
      exact nobody b ⟨(candidate_of s r b).mpr ⟨low, high, fits.1.1⟩, (feasible_of s r b).mpr fits.1.2, fits.2⟩
  · intro b movable ⟨⟨among, able, kept⟩, first⟩
    obtain ⟨low, high, test⟩ := (candidate_of s r b).mp among
    have fits (c : Nat) (low : 1 ≤ c) (high : c ≤ 64) : swapFits s r freed c = true ↔ candidate s r c ∧ feasible s r c ∧ c ∉ freed := by
      rw [candidate_of, feasible_of]
      simp [swapFits, low, high, and_assoc]
    refine (swapRun_takes run movable (bestBus_some low high ((fits b low high).mpr ⟨among, able, kept⟩) fun c low high test =>
      first c ((fits c low high).mp test))).trans (congrArg (·, _) ?_)
    cases r.bus <;> rfl
  · obtain ⟨next, leaves⟩ := exec_periodicRun_leaves live running mode
    have length' : (staged s).berths.length = 36 := by rw [(staged_same s).1]; exact length
    exact ⟨_, next, run_judged leaves, run_uncovered leaves, fun w => run_covered leaves length'⟩

end Sys2Proof.Machine.ChargeRuns
end
